-- ==== Sys2Proof/Word.lean ====
section
/-! DEFINITION. Bytes, core identifiers and the fixed-size banks of like registers. -/

namespace Sys2Proof

/-- A stored sample, a register value or a ROM byte (R14, R113). -/
abbrev Byte := BitVec 8

/-- A speech filter coefficient: a decoded integer in [-512, 511] (R55, R356), read signed.
DESIGN CHOICE (log 23): the range is the type, so a coefficient outside it cannot be written down (93 U7). -/
abbrev Coef := BitVec 10

/-- `cfg.MicroState` (R350): the program counter and every other register of the speech microcontroller, numbered by
natural numbers. DESIGN CHOICE (log 5). -/
abbrev MicroState := Nat

/-- The cores, in the order of R18: generator A, generator B, speech core S. -/
inductive CoreId where
  | A
  | B
  | S
deriving DecidableEq, Repr, Inhabited

/-- One value for each core (the `x[c]` of R11 and R30). -/
structure PerCore (α : Type) where
  a : α
  b : α
  s : α
deriving DecidableEq, Repr, Inhabited

def PerCore.get {α : Type} (t : PerCore α) : CoreId → α
  | .A => t.a
  | .B => t.b
  | .S => t.s

def PerCore.set {α : Type} (t : PerCore α) (c : CoreId) (v : α) : PerCore α :=
  match c with
  | .A => { t with a := v }
  | .B => { t with b := v }
  | .S => { t with s := v }

/-- One value for each of three tone channels (R18). -/
structure Tri (α : Type) where
  c0 : α
  c1 : α
  c2 : α
deriving DecidableEq, Repr, Inhabited

def Tri.get {α : Type} (t : Tri α) : Fin 3 → α
  | 0 => t.c0
  | 1 => t.c1
  | 2 => t.c2

def Tri.set {α : Type} (t : Tri α) (i : Fin 3) (v : α) : Tri α :=
  match i with
  | 0 => { t with c0 := v }
  | 1 => { t with c1 := v }
  | 2 => { t with c2 := v }

/-- One value for each of core B's four channels, the noise channel last (R18). -/
structure Quad (α : Type) where
  c0 : α
  c1 : α
  c2 : α
  c3 : α
deriving DecidableEq, Repr, Inhabited

def Quad.get {α : Type} (t : Quad α) : Fin 4 → α
  | 0 => t.c0
  | 1 => t.c1
  | 2 => t.c2
  | 3 => t.c3

def Quad.set {α : Type} (t : Quad α) (i : Fin 4) (v : α) : Quad α :=
  match i with
  | 0 => { t with c0 := v }
  | 1 => { t with c1 := v }
  | 2 => { t with c2 := v }
  | 3 => { t with c3 := v }

/-- One value for each of the six two-pole sections of the speech filter (R55). -/
structure Six (α : Type) where
  s0 : α
  s1 : α
  s2 : α
  s3 : α
  s4 : α
  s5 : α
deriving DecidableEq, Repr, Inhabited

/-- The bank that holds `v` six times. -/
def Six.const {α : Type} (v : α) : Six α := ⟨v, v, v, v, v, v⟩

/-- The sections of two banks, joined one by one. -/
def Six.zip {α β γ : Type} (g : α → β → γ) (x : Six α) (y : Six β) : Six γ :=
  ⟨g x.s0 y.s0, g x.s1 y.s1, g x.s2 y.s2, g x.s3 y.s3, g x.s4 y.s4, g x.s5 y.s5⟩

/-- A file of sixteen like things: core A's registers (R45), an amplitude table (R11). -/
structure Bank16 (α : Type) where
  r0 : α
  r1 : α
  r2 : α
  r3 : α
  r4 : α
  r5 : α
  r6 : α
  r7 : α
  r8 : α
  r9 : α
  r10 : α
  r11 : α
  r12 : α
  r13 : α
  r14 : α
  r15 : α
deriving DecidableEq, Repr, Inhabited

/-- The bank that holds `v` sixteen times. -/
def Bank16.const {α : Type} (v : α) : Bank16 α := ⟨v, v, v, v, v, v, v, v, v, v, v, v, v, v, v, v⟩

def Bank16.get {α : Type} (t : Bank16 α) : Fin 16 → α
  | 0 => t.r0
  | 1 => t.r1
  | 2 => t.r2
  | 3 => t.r3
  | 4 => t.r4
  | 5 => t.r5
  | 6 => t.r6
  | 7 => t.r7
  | 8 => t.r8
  | 9 => t.r9
  | 10 => t.r10
  | 11 => t.r11
  | 12 => t.r12
  | 13 => t.r13
  | 14 => t.r14
  | _ => t.r15

def Bank16.set {α : Type} (t : Bank16 α) (i : Fin 16) (v : α) : Bank16 α :=
  match i with
  | 0 => { t with r0 := v }
  | 1 => { t with r1 := v }
  | 2 => { t with r2 := v }
  | 3 => { t with r3 := v }
  | 4 => { t with r4 := v }
  | 5 => { t with r5 := v }
  | 6 => { t with r6 := v }
  | 7 => { t with r7 := v }
  | 8 => { t with r8 := v }
  | 9 => { t with r9 := v }
  | 10 => { t with r10 := v }
  | 11 => { t with r11 := v }
  | 12 => { t with r12 := v }
  | 13 => { t with r13 := v }
  | 14 => { t with r14 := v }
  | _ => { t with r15 := v }

/-- The sixteen values, register 0 first. -/
def Bank16.toList {α : Type} (t : Bank16 α) : List α :=
  [t.r0, t.r1, t.r2, t.r3, t.r4, t.r5, t.r6, t.r7, t.r8, t.r9, t.r10, t.r11, t.r12, t.r13, t.r14, t.r15]

end Sys2Proof
end

