-- ==== Sys2Proof/Config.lean ====
section
/-! DEFINITION. The configuration record `cfg` (00_scope.md R11) and the open parts of the speech microcontroller (R350). -/

namespace Sys2Proof

/-- A frame load (R355): for each filter register but `cnt`, `amp`, `z` and `rng`, a new value or keep. -/
structure Frame where
  rpt : Option Int := none
  per : Option Byte := none
  ampRaw : Option Byte := none
  dAmp : Option (BitVec 8) := none
  dPer : Option (BitVec 8) := none
  interp : Option Bool := none
  f : Six (Option Coef) := Six.const none
  b : Six (Option Coef) := Six.const none
deriving DecidableEq, Repr, Inhabited

/-- The three outcomes of a micro-instruction (R350). -/
inductive MicroOutcome where
  | cont
  | frame (f : Frame)
  | halt
deriving DecidableEq, Repr, Inhabited

/-- What one micro-instruction does (R350, R353): the ROM addresses it reads, in order, the microcontroller state after
it and its outcome. The reads are made by `RomRead` (R112), so one outside the ROM raises `RomRange`. -/
structure MicroInstr where
  reads : List Nat
  next : MicroState
  out : MicroOutcome
deriving DecidableEq, Repr, Inhabited

/-- The configuration record (R11). Every field is OPEN or carries the spec's default (`Config.vc` below gives the
defaults). `entry` and `micro` list `cfg.entry` and `cfg.microStep` at the points they are given; elsewhere they are the
free values `Config.openEntry` and `Config.openMicro` (log 5). `ampDecode` lists the points where `cfg.ampDecode`
differs from the default of R366 (log 20). -/
structure Config where
  ringBits : Nat
  dstRate : Nat
  cpuHz0 : Nat
  chipHzA : Nat
  chipHzB : Nat
  clkNum : PerCore Nat
  clkDen : PerCore Nat
  speechRate : Nat
  tau : PerCore Nat
  ampTableA : Bank16 Int
  ampTableB : Bank16 Int
  snZeroPeriod : Nat
  snLfsrWidth : Nat
  snTaps : BitVec 16
  snNoiseDiv : Tri Nat
  rom : List Byte
  entry : List (Byte × MicroState)
  micro : List (MicroState × MicroInstr)
  microFuel : Nat
  ampDecode : List (Byte × Int)
  bShift : Nat
  fShift : Nat
  noisePer : Nat
  sTaps : BitVec 15
  zeroOnPeriod : Bool
  speechOutShift : Nat
  queueCap : Nat
  poolBlocks : Nat
  blockLen : Nat
  maxSources : Nat
  starveLimit : Nat
  initVolume : Nat
deriving DecidableEq, Repr, Inhabited

/-- FREE VALUE (log 5): `cfg.entry a` where the configuration's table does not give it (R350, OPEN by D20). -/
opaque Config.openEntry : List Byte → Byte → MicroState

/-- FREE VALUE (log 5): the micro-instruction at a microcontroller state, over a ROM, where the configuration's table
does not give it (R350, OPEN by D20). -/
opaque Config.openMicro : List Byte → MicroState → MicroInstr

/-- The default of `cfg.ampTableA` (R270). -/
def Config.ampTableADefault : Bank16 Int := ⟨0, 2, 5, 8, 11, 14, 16, 19, 22, 25, 28, 30, 33, 36, 39, 42⟩

/-- The default of `cfg.ampTableB` (R318). -/
def Config.ampTableBDefault : Bank16 Int := ⟨31, 28, 26, 24, 22, 20, 18, 16, 14, 12, 10, 8, 6, 4, 2, 0⟩

/-- The vector configuration VC of 95_test_vectors.md, its defaults those of R11. The OPEN fields (the rates, `tau`,
`microFuel`, the sizes and limits) are the vectors' own choice and no defaults of the block. DESIGN CHOICE (log 4),
unsafe: the configuration of `State.reset`; no statement rests on it. -/
def Config.vc : Config where
  ringBits := 8
  dstRate := 22050
  cpuHz0 := 2000000
  chipHzA := 2000000
  chipHzB := 2000000
  clkNum := ⟨1, 1, 1⟩
  clkDen := ⟨1, 1, 1⟩
  speechRate := 10000
  tau := ⟨0, 0, 0⟩
  ampTableA := Config.ampTableADefault
  ampTableB := Config.ampTableBDefault
  snZeroPeriod := 1
  snLfsrWidth := 15
  snTaps := 0x0003
  snNoiseDiv := ⟨16, 32, 64⟩
  rom := []
  entry := []
  micro := []
  microFuel := 64
  ampDecode := []
  bShift := 9
  fShift := 8
  noisePer := 64
  sTaps := 0x4001
  zeroOnPeriod := true
  speechOutShift := 6
  queueCap := 16
  poolBlocks := 2
  blockLen := 4
  maxSources := 3
  starveLimit := 2
  initVolume := 100

end Sys2Proof
end

