-- ==== Sys2Proof/Syntax.lean ====
section
/-! DEFINITION. The instructions: one constructor for each row of spec/opcode_table.json, and the encoded words in which
they are issued. -/

namespace Sys2Proof

/-- The operations of 30_encoding.md R141 to R145. Every field has the width R141 gives it, so a value that does not fit
its field cannot be written (R141). -/
inductive Instr where
  /-- R401, op 0x01. -/
  | write (core : BitVec 2) (ts : BitVec 64) (addr : Byte) (val : Byte)
  /-- R412, op 0x02. -/
  | advance (core : BitVec 2) (h : BitVec 64)
  /-- R458, op 0x03. -/
  | frame (core : BitVec 2)
  /-- R425, op 0x04. -/
  | clock (hz : BitVec 32)
  /-- R465, op 0x05. -/
  | register (core : BitVec 2) (sync : Bool) (blocking : Bool) (holdoffMs : BitVec 16)
  /-- R466, op 0x06. -/
  | deregister (handle : Byte)
  /-- R480, op 0x07. -/
  | volume (pct : Byte)
  /-- R481, op 0x08. -/
  | mute (on : Bool)
  /-- R470, op 0x09. -/
  | update
  /-- R416, op 0x0A. -/
  | resume
  /-- R200, op 0x10; `level` is read signed. -/
  | putSample (core : BitVec 2) (level : BitVec 32)
  /-- R210, op 0x11. -/
  | configureRate (core : BitVec 2) (dst : BitVec 48) (src : BitVec 48)
  /-- R218, op 0x12. -/
  | samplesAvailable (core : BitVec 2)
  /-- R219, op 0x13. -/
  | spaceRemaining (core : BitVec 2)
  /-- R213, op 0x14. -/
  | drain (core : BitVec 2)
  /-- R452, op 0x18. -/
  | getWorkBuffer (handle : Byte)
  /-- R455, op 0x19. -/
  | putWorkBuffer (handle : Byte)
  /-- R411, op 0x20. -/
  | iterate (core : BitVec 2) (h : BitVec 64)
  /-- R405, op 0x21. -/
  | apply (core : BitVec 2) (addr : Byte) (val : Byte)
  /-- R415, op 0x22. -/
  | tick (core : BitVec 2)
  /-- R351, op 0x28. -/
  | loadAddress (addr : Byte)
  /-- R354, op 0x29. -/
  | runMicro
  /-- R372, op 0x2A. -/
  | filterUpdate (n : BitVec 32)
  /-- R471, op 0x30. -/
  | mixSource (handle : Byte)
  /-- R473, op 0x31. -/
  | emit
  /-- Format AREG (R142), register 0: tone 0 fine. -/
  | r0 (val : Byte)
  /-- Register 1: tone 0 coarse. -/
  | r1 (val : Byte)
  /-- Register 2: tone 1 fine. -/
  | r2 (val : Byte)
  /-- Register 3: tone 1 coarse. -/
  | r3 (val : Byte)
  /-- Register 4: tone 2 fine. -/
  | r4 (val : Byte)
  /-- Register 5: tone 2 coarse. -/
  | r5 (val : Byte)
  /-- Register 6: noise period. -/
  | r6 (val : Byte)
  /-- Register 7: enable. -/
  | r7 (val : Byte)
  /-- Register 8: amplitude 0. -/
  | r8 (val : Byte)
  /-- Register 9: amplitude 1. -/
  | r9 (val : Byte)
  /-- Register 10: amplitude 2. -/
  | r10 (val : Byte)
  /-- Register 11: envelope fine. -/
  | r11 (val : Byte)
  /-- Register 12: envelope coarse. -/
  | r12 (val : Byte)
  /-- Register 13: envelope shape. -/
  | r13 (val : Byte)
  /-- Register 14: I/O port A. -/
  | r14 (val : Byte)
  /-- Register 15: I/O port B. -/
  | r15 (val : Byte)
  /-- Format BBYTE (R143), latch byte of register 0: tone 0 period. -/
  | latch0 (d : BitVec 4)
  /-- Latch byte of register 1: attenuation 0. -/
  | latch1 (d : BitVec 4)
  /-- Latch byte of register 2: tone 1 period. -/
  | latch2 (d : BitVec 4)
  /-- Latch byte of register 3: attenuation 1. -/
  | latch3 (d : BitVec 4)
  /-- Latch byte of register 4: tone 2 period. -/
  | latch4 (d : BitVec 4)
  /-- Latch byte of register 5: attenuation 2. -/
  | latch5 (d : BitVec 4)
  /-- Latch byte of register 6: noise control. -/
  | latch6 (d : BitVec 4)
  /-- Latch byte of register 7: attenuation 3. -/
  | latch7 (d : BitVec 4)
  /-- Data byte (R302); bit 6 of the byte is ignored and is no operand. -/
  | data (d : BitVec 6)
  /-- Format SADDR (R144): a phoneme address. -/
  | load (addr : Byte)
  /-- Format MICRO (R145): one micro-instruction, which `cfg.microStep` gives (R353). -/
  | micro
deriving DecidableEq, Repr

/-- The five formats of spec/opcode_table.json (R150). -/
inductive Format where
  | cmd
  | areg
  | bbyte
  | saddr
  | micro
deriving DecidableEq, Repr

/-- An encoded word: its format, its width in bits and its bits as one number, opcode most significant
(95_test_vectors.md, encoding notation). -/
structure Encoded where
  fmt : Format
  nbits : Nat
  word : Nat
deriving DecidableEq, Repr

/-- An encoded word as it is issued to the block. `mFirst` is how many steps of its current UPDATE the mixing agent takes
before this word is issued (fewer if that UPDATE ends first): it gives the interleaving of the two agents (R120, log 2). -/
structure Issue where
  enc : Encoded
  mFirst : Nat
deriving DecidableEq, Repr

end Sys2Proof
end

