-- ==== Sys2Proof/Decode.lean ====
section
/-! DEFINITION. The decoder of the five formats, total on any number of bits, and the encoder (30_encoding.md). -/

namespace Sys2Proof

/-- Why a word is no instruction. -/
inductive Reject where
  /-- The opcode byte is outside the table of R141. -/
  | unknownOpcode (op : Nat)
  /-- The word has not the width its opcode or its format gives it, or has bits above that width. -/
  | wrongWidth (nbits : Nat)
deriving DecidableEq, Repr

/-- What the decoder answers. -/
inductive Decoded where
  | instr (i : Instr)
  | reject (why : Reject)
deriving DecidableEq, Repr

/-- The `n`-bit field of `w` whose lowest bit is bit `lo` (R13). -/
def fieldAt (w lo n : Nat) : BitVec n := BitVec.ofNat n (w / 2 ^ lo)

/-- The width of the command word that an opcode byte begins (R141), where there is one. -/
def cmdWidth : Nat → Option Nat
  | 0x01 => some 90
  | 0x02 => some 74
  | 0x03 => some 10
  | 0x04 => some 40
  | 0x05 => some 28
  | 0x06 => some 16
  | 0x07 => some 16
  | 0x08 => some 9
  | 0x09 => some 8
  | 0x0A => some 8
  | 0x10 => some 42
  | 0x11 => some 106
  | 0x12 => some 10
  | 0x13 => some 10
  | 0x14 => some 10
  | 0x18 => some 16
  | 0x19 => some 16
  | 0x20 => some 74
  | 0x21 => some 26
  | 0x22 => some 10
  | 0x28 => some 16
  | 0x29 => some 8
  | 0x2A => some 40
  | 0x30 => some 16
  | 0x31 => some 8
  | _ => none

/-- The command that opcode `op` and the operand bits of the word `w` stand for (R141). -/
def cmdInstr (op w : Nat) : Option Instr :=
  match op with
  | 0x01 => some (.write (fieldAt w 80 2) (fieldAt w 16 64) (fieldAt w 8 8) (fieldAt w 0 8))
  | 0x02 => some (.advance (fieldAt w 64 2) (fieldAt w 0 64))
  | 0x03 => some (.frame (fieldAt w 0 2))
  | 0x04 => some (.clock (fieldAt w 0 32))
  | 0x05 => some (.register (fieldAt w 18 2) (fieldAt w 17 1 = 1) (fieldAt w 16 1 = 1) (fieldAt w 0 16))
  | 0x06 => some (.deregister (fieldAt w 0 8))
  | 0x07 => some (.volume (fieldAt w 0 8))
  | 0x08 => some (.mute (fieldAt w 0 1 = 1))
  | 0x09 => some .update
  | 0x0A => some .resume
  | 0x10 => some (.putSample (fieldAt w 32 2) (fieldAt w 0 32))
  | 0x11 => some (.configureRate (fieldAt w 96 2) (fieldAt w 48 48) (fieldAt w 0 48))
  | 0x12 => some (.samplesAvailable (fieldAt w 0 2))
  | 0x13 => some (.spaceRemaining (fieldAt w 0 2))
  | 0x14 => some (.drain (fieldAt w 0 2))
  | 0x18 => some (.getWorkBuffer (fieldAt w 0 8))
  | 0x19 => some (.putWorkBuffer (fieldAt w 0 8))
  | 0x20 => some (.iterate (fieldAt w 64 2) (fieldAt w 0 64))
  | 0x21 => some (.apply (fieldAt w 16 2) (fieldAt w 8 8) (fieldAt w 0 8))
  | 0x22 => some (.tick (fieldAt w 0 2))
  | 0x28 => some (.loadAddress (fieldAt w 0 8))
  | 0x29 => some .runMicro
  | 0x2A => some (.filterUpdate (fieldAt w 0 32))
  | 0x30 => some (.mixSource (fieldAt w 0 8))
  | 0x31 => some .emit
  | _ => none

/-- Format CMD (R141): the opcode is the top byte of the word. -/
def decodeCmd (nbits w : Nat) : Decoded :=
  if nbits < 8 ∨ 2 ^ nbits ≤ w then .reject (.wrongWidth nbits)
  else
    let op := w / 2 ^ (nbits - 8)
    match cmdWidth op, cmdInstr op w with
    | some width, some i => if width = nbits then .instr i else .reject (.wrongWidth nbits)
    | _, _ => .reject (.unknownOpcode op)

/-- Format AREG (R142): `w = {addr[3:0], val[7:0]}`. -/
def decodeAreg (nbits w : Nat) : Decoded :=
  if nbits ≠ 12 ∨ 2 ^ 12 ≤ w then .reject (.wrongWidth nbits)
  else
    let v : Byte := fieldAt w 0 8
    match w / 2 ^ 8 with
    | 0 => .instr (.r0 v)
    | 1 => .instr (.r1 v)
    | 2 => .instr (.r2 v)
    | 3 => .instr (.r3 v)
    | 4 => .instr (.r4 v)
    | 5 => .instr (.r5 v)
    | 6 => .instr (.r6 v)
    | 7 => .instr (.r7 v)
    | 8 => .instr (.r8 v)
    | 9 => .instr (.r9 v)
    | 10 => .instr (.r10 v)
    | 11 => .instr (.r11 v)
    | 12 => .instr (.r12 v)
    | 13 => .instr (.r13 v)
    | 14 => .instr (.r14 v)
    | _ => .instr (.r15 v)

/-- Format BBYTE (R143): bit 7 tells a latch byte from a data byte; bit 6 of a data byte is ignored. -/
def decodeBbyte (nbits w : Nat) : Decoded :=
  if nbits ≠ 8 ∨ 2 ^ 8 ≤ w then .reject (.wrongWidth nbits)
  else
    let d : BitVec 4 := fieldAt w 0 4
    match w / 2 ^ 4 with
    | 8 => .instr (.latch0 d)
    | 9 => .instr (.latch1 d)
    | 10 => .instr (.latch2 d)
    | 11 => .instr (.latch3 d)
    | 12 => .instr (.latch4 d)
    | 13 => .instr (.latch5 d)
    | 14 => .instr (.latch6 d)
    | 15 => .instr (.latch7 d)
    | _ => .instr (.data (fieldAt w 0 6))

/-- Format SADDR (R144): every byte is a phoneme address. -/
def decodeSaddr (nbits w : Nat) : Decoded :=
  if nbits ≠ 8 ∨ 2 ^ 8 ≤ w then .reject (.wrongWidth nbits) else .instr (.load (fieldAt w 0 8))

/-- Format MICRO (R145): the micro-instruction's bits are in the ROM and part of `cfg.microStep`; the issued word has
none. -/
def decodeMicro (nbits w : Nat) : Decoded :=
  if nbits ≠ 0 ∨ w ≠ 0 then .reject (.wrongWidth nbits) else .instr .micro

/-- The decoder. -/
def decode (e : Encoded) : Decoded :=
  match e.fmt with
  | .cmd => decodeCmd e.nbits e.word
  | .areg => decodeAreg e.nbits e.word
  | .bbyte => decodeBbyte e.nbits e.word
  | .saddr => decodeSaddr e.nbits e.word
  | .micro => decodeMicro e.nbits e.word

/-- `{hi, v}`: the bits of `v` below those of `hi` (R13). -/
def joinBits {n : Nat} (hi : Nat) (v : BitVec n) : Nat := hi * 2 ^ n + v.toNat

/-- A Boolean as a one-bit field. -/
def flagBit (b : Bool) : BitVec 1 := if b then 1 else 0

/-- The AREG word of register `n` and byte `v` (R142). -/
def aregWord (n : Nat) (v : Byte) : Encoded := ⟨.areg, 12, joinBits n v⟩

/-- The BBYTE latch byte of register `r` and data bits `d` (R143). -/
def latchWord (r : Nat) (d : BitVec 4) : Encoded := ⟨.bbyte, 8, joinBits (8 + r) d⟩

/-- The encoder: the word of an instruction, written from the same tables. -/
def encode : Instr → Encoded
  | .write core ts addr val => ⟨.cmd, 90, joinBits (joinBits (joinBits (joinBits 0x01 core) ts) addr) val⟩
  | .advance core h => ⟨.cmd, 74, joinBits (joinBits 0x02 core) h⟩
  | .frame core => ⟨.cmd, 10, joinBits 0x03 core⟩
  | .clock hz => ⟨.cmd, 40, joinBits 0x04 hz⟩
  | .register core sync blocking ms =>
    ⟨.cmd, 28, joinBits (joinBits (joinBits (joinBits 0x05 core) (flagBit sync)) (flagBit blocking)) ms⟩
  | .deregister handle => ⟨.cmd, 16, joinBits 0x06 handle⟩
  | .volume pct => ⟨.cmd, 16, joinBits 0x07 pct⟩
  | .mute on => ⟨.cmd, 9, joinBits 0x08 (flagBit on)⟩
  | .update => ⟨.cmd, 8, 0x09⟩
  | .resume => ⟨.cmd, 8, 0x0A⟩
  | .putSample core level => ⟨.cmd, 42, joinBits (joinBits 0x10 core) level⟩
  | .configureRate core dst src => ⟨.cmd, 106, joinBits (joinBits (joinBits 0x11 core) dst) src⟩
  | .samplesAvailable core => ⟨.cmd, 10, joinBits 0x12 core⟩
  | .spaceRemaining core => ⟨.cmd, 10, joinBits 0x13 core⟩
  | .drain core => ⟨.cmd, 10, joinBits 0x14 core⟩
  | .getWorkBuffer handle => ⟨.cmd, 16, joinBits 0x18 handle⟩
  | .putWorkBuffer handle => ⟨.cmd, 16, joinBits 0x19 handle⟩
  | .iterate core h => ⟨.cmd, 74, joinBits (joinBits 0x20 core) h⟩
  | .apply core addr val => ⟨.cmd, 26, joinBits (joinBits (joinBits 0x21 core) addr) val⟩
  | .tick core => ⟨.cmd, 10, joinBits 0x22 core⟩
  | .loadAddress addr => ⟨.cmd, 16, joinBits 0x28 addr⟩
  | .runMicro => ⟨.cmd, 8, 0x29⟩
  | .filterUpdate n => ⟨.cmd, 40, joinBits 0x2A n⟩
  | .mixSource handle => ⟨.cmd, 16, joinBits 0x30 handle⟩
  | .emit => ⟨.cmd, 8, 0x31⟩
  | .r0 v => aregWord 0 v
  | .r1 v => aregWord 1 v
  | .r2 v => aregWord 2 v
  | .r3 v => aregWord 3 v
  | .r4 v => aregWord 4 v
  | .r5 v => aregWord 5 v
  | .r6 v => aregWord 6 v
  | .r7 v => aregWord 7 v
  | .r8 v => aregWord 8 v
  | .r9 v => aregWord 9 v
  | .r10 v => aregWord 10 v
  | .r11 v => aregWord 11 v
  | .r12 v => aregWord 12 v
  | .r13 v => aregWord 13 v
  | .r14 v => aregWord 14 v
  | .r15 v => aregWord 15 v
  | .latch0 d => latchWord 0 d
  | .latch1 d => latchWord 1 d
  | .latch2 d => latchWord 2 d
  | .latch3 d => latchWord 3 d
  | .latch4 d => latchWord 4 d
  | .latch5 d => latchWord 5 d
  | .latch6 d => latchWord 6 d
  | .latch7 d => latchWord 7 d
  | .data d => ⟨.bbyte, 8, d.toNat⟩
  | .load addr => ⟨.saddr, 8, addr.toNat⟩
  | .micro => ⟨.micro, 0, 0⟩

/-! ### Words as the opcode table numbers them

The table numbers a word's bits from the first byte on. A command word is laid out opcode first, each byte's high bits
before its low bits, with zero bits after the last operand up to a whole byte. The spec gives no such layout, because no
word of the block is stored (R113, R141): DESIGN CHOICE (log 14). -/

/-- The first `n` bytes of `w`, byte 0 (bits 7..0) most significant. -/
def bytesReversed : Nat → Nat → Nat → Nat
  | 0, _, acc => acc
  | n + 1, w, acc => bytesReversed n (w / 256) (acc * 256 + w % 256)

/-- The command word of `width` bits whose laid-out bytes are those of `w`; the bits after the last operand are zero. -/
def cmdOfTable (width w : Nat) : Option Encoded :=
  let bytes := (width + 7) / 8
  let stored := bytesReversed bytes w 0
  let pad := bytes * 8 - width
  if stored % 2 ^ pad = 0 ∧ w < 256 ^ bytes then some ⟨.cmd, width, stored / 2 ^ pad⟩ else none

/-- The command word that a word of the opcode table stands for, when only its opcode byte or the whole of it is given.
DESIGN CHOICE (log 14), unsafe for claims in the table's numbering: a word of at most 8 bits that is the opcode byte of a
longer command, the byte R150's `match` and `mask` apply to, is that command with every operand bit not given zero, and
not the BBYTE data byte of the same value. -/
def tableCmd (nbits w : Nat) : Option Encoded :=
  match cmdWidth (w % 256) with
  | some width => if nbits ≤ 8 ∨ (nbits + 7) / 8 = (width + 7) / 8 then cmdOfTable width w else none
  | none => none

/-- A word of `nbits` bits (a whole number of bytes) of the opcode table, as the encoded word it stands for. The formats
are tried in the table's order: a command word, whole or its opcode byte alone, then AREG for two bytes, then BBYTE for
one; a row without bits is MICRO. SADDR words are bytes too, so a byte alone never reads as one (DESIGN CHOICE, log 14). -/
def tableWord (nbits w : Nat) : Option Encoded :=
  match tableCmd nbits w with
  | some e => some e
  | none =>
    if nbits = 0 then (if w = 0 then some ⟨.micro, 0, 0⟩ else none)
    else if nbits ≤ 8 then (if w < 2 ^ 8 then some ⟨.bbyte, 8, w⟩ else none)
    else if nbits ≤ 16 then (if w < 2 ^ 12 then some ⟨.areg, 12, w⟩ else none)
    else none

/-- The instruction the decoder reads from a word of the opcode table. -/
def decodeTableWord (nbits w : Nat) : Option Instr :=
  match tableWord nbits w with
  | none => none
  | some e =>
    match decode e with
    | .instr i => some i
    | .reject _ => none

end Sys2Proof
end

