-- ==== Sys2Proof/Machine/Rates.lean ====
section
/-! DEFINITION. The arithmetic of tick rates and conversion ratios, over numbers and the configuration alone. -/

namespace Sys2Proof.Machine

/-- `div(c)` (R41): the divider from core `c`'s clock to its native ticks. -/
def tickDivider : CoreId → Nat
  | .A => 16
  | .B => 16
  | .S => 1

/-- `chip(c)` (R41): the clock of core `c` in Hz when it is asynchronous. -/
def chipClock (cfg : Config) : CoreId → Nat
  | .A => cfg.chipHzA
  | .B => cfg.chipHzB
  | .S => cfg.speechRate

/-- The ratio `dst/src` in lowest terms (R210), where neither rate is zero (R212). -/
def reducedRatio (dst src : Nat) : Option (Nat × Nat) :=
  if dst = 0 ∨ src = 0 then none else some (dst / Nat.gcd dst src, src / Nat.gcd dst src)

/-- The ratio of core `c`'s converter at reset (R601): every core is asynchronous then. The other branch is for a zero
rate, which R11 excludes. -/
def resetRatio (cfg : Config) (c : CoreId) : Nat × Nat :=
  (reducedRatio (cfg.dstRate * tickDivider c) (chipClock cfg c)).getD (1, 1)

/-- The seed of core B's noise register (R51): `2^(w-1)`. -/
def seedB (cfg : Config) : BitVec 16 := 1#16 <<< (cfg.snLfsrWidth - 1)

end Sys2Proof.Machine
end

