-- ==== Sys2Proof/Machine/State.lean ====
section
/-! DEFINITION. The state of the block (10_state.md), its faults and refusals, and the state after reset (R600). -/

namespace Sys2Proof.Machine

/-- The seven faults with the info each records (R551). A rule raises a fault with `raise`; the raising step records it
in `State.fault` and keeps the state as it stood (R550). As an OUTCOME, each of these is what every operation answers on
a state whose `fault` holds it: no agent has a step (R33, R550). Safe: the block is stopped. -/
inductive Fault where
  /-- 1: raised by PUT_SAMPLE, a level outside [-32768, 32767] (R200, R552). Safe. -/
  | levelRange (c : CoreId) (level : Int)
  /-- 2: raised by PUT_SAMPLE, no space in the ring (R201, R553). Safe. -/
  | ringOverflow (c : CoreId)
  /-- 3: raised by WRITE, the queue holds `cfg.queueCap` entries (R401, R554). Safe. -/
  | queueOverflow (c : CoreId)
  /-- 4: raised by WRITE, ADVANCE and ITERATE, a timestamp or horizon that goes back (R401, R411, R412, R555). Safe. -/
  | timestampOrder (c : CoreId) (t : Nat)
  /-- 5: raised by RUN_MICRO, a tick that needs more than `cfg.microFuel` micro-instructions (R354, R557). Safe. -/
  | microRunaway (ms : MicroState)
  /-- 6: raised by RomRead, an address outside the ROM (R112, R556). Safe. -/
  | romRange (a : Nat)
  /-- 7: raised by PUT_WORK_BUFFER, no current block (R455, R558). Safe. -/
  | protocolError (k : Nat)
deriving DecidableEq, Repr

/-- Why a step gives no next state and is no fault. -/
inductive Refusal where
  /-- No meaning has been written for the instruction. Raised by no arm of this model. Safe. -/
  | notModelled (mnemonic : String)
  /-- Agent S is held on source `k`: its only step is RESUME, and that only once the source has a clean block (R64,
  R567). Raised by the commands of S. Safe: the spec gives S no step there. -/
  | held (k : Nat)
  /-- No agent has issued a command and no UPDATE is under way. Raised by `step`. Safe: nothing happens in the block
  until one of its agents takes a step (R10). -/
  | noIssue
  /-- The issued word is no instruction: "an opcode byte outside the table of rule R141 is not a command" (R147).
  Raised by `step`. Safe. -/
  | notACommand (why : Reject)
deriving DecidableEq, Repr

/-- A byte store in canonical form: addresses strictly rising, and no entry equal to what an unlisted address reads as. -/
abbrev Memory := List Host.Cell

/-- One node of a deferred-update queue (R38). -/
structure QEntry where
  ts : Nat
  addr : Nat
  val : Byte
deriving DecidableEq, Repr

/-- What every core has (R35 to R40): ring, decay stage, rate converter, deferred-update queue, timing accumulators,
attachment. -/
structure Channel where
  /-- Ring contents (R35). -/
  buf : Memory
  head : Nat
  tail : Nat
  /-- Decay time constant in samples, 0 for none, and the running accumulator (R36). -/
  tau : Nat
  decay : Int
  /-- Rate converter (R37). -/
  rateNum : Nat
  rateDen : Nat
  increment : Nat
  limit : Nat
  index : Nat
  last : Byte
  /-- Deferred-update queue and the timestamp of the last accepted WRITE (R38). -/
  q : List QEntry
  lastTs : Nat
  /-- Timing accumulators (R39). -/
  lastH : Nat
  cycAcc : Nat
  debt : Nat
  postedH : Option Nat
  /-- Attachment and the registry slot of the core's source (R40). -/
  attached : Bool
  handle : Option Nat
deriving DecidableEq, Repr

/-- Core A's own state (R45 to R48). -/
structure PsgA where
  ra : Bank16 Byte
  toneCnt : Tri Nat
  toneOut : Tri Bool
  noiseCnt : Nat
  lfsr : BitVec 17
  envCnt : Nat
  envStep : BitVec 4
  envDir : BitVec 4
  envHold : Bool
deriving DecidableEq, Repr

/-- Core B's own state (R50, R51). -/
structure PsgB where
  per : Tri (BitVec 10)
  att : Quad (BitVec 4)
  nreg : BitVec 3
  latch : BitVec 3
  toneCnt : Tri Nat
  toneOut : Tri Bool
  noiseCnt : Nat
  noiseFF : Bool
  lfsr : BitVec 16
deriving DecidableEq, Repr

/-- Core S's own state (R53 to R55). `dAmp` and `dPer`, the coefficients and the delay line are read signed. -/
structure Speech where
  halted : Bool
  pending : Option Byte
  ms : MicroState
  rpt : Int
  cnt : Int
  per : Byte
  ampRaw : Byte
  amp : Int
  dAmp : BitVec 8
  dPer : BitVec 8
  interp : Bool
  f : Six Coef
  b : Six Coef
  z0 : Six (BitVec 16)
  z1 : Six (BitVec 16)
  rng : BitVec 15
deriving DecidableEq, Repr

/-- The state machine of a source (R61, R472). -/
inductive SrcState where
  | quiescent
  | buffering
  | playing
deriving DecidableEq, Repr

/-- One scratch block (R62). -/
structure Block where
  data : Memory
  fill : Nat
deriving DecidableEq, Repr

/-- The descriptor and the pool of a registered source (R61, R62). -/
structure Source where
  core : CoreId
  sync : Bool
  blocking : Bool
  holdoffMs : Nat
  holdoffCnt : Nat
  st : SrcState
  starve : Nat
  newSamples : Nat
  blocks : List Block
  clean : List Nat
  dirty : List Nat
  current : Option Nat
deriving DecidableEq, Repr

/-- One atomic step of the mixing agent within an UPDATE (R470). -/
inductive MStep where
  | iterate (c : CoreId)
  | mix (k : Nat)
  | emit
deriving DecidableEq, Repr

/-- The statuses (R565). -/
inductive Status where
  | ok
  | configRejected
  | noBuffer
  | held
  | ignored
  | registryFull
  | starved
  | stalled
  | full
deriving DecidableEq, Repr

/-- The value that comes with a status, where the rule gives one. -/
inductive RetVal where
  | none
  /-- `Ok(k)` of REGISTER (R465). -/
  | handle (k : Nat)
  /-- `ready(S)` (R373). -/
  | ready (b : Bool)
  /-- The count of SAMPLES_AVAILABLE or SPACE_REMAINING (R218, R219). -/
  | count (n : Nat)
  /-- The sample of DRAIN, or none (R213). -/
  | sample (v : Option Byte)
  /-- The outcome of a micro-instruction or of RUN_MICRO (R350, R354). -/
  | outcome (o : MicroOutcome)
deriving DecidableEq, Repr

/-- What an operation returns to its issuer (R565). -/
structure Reply where
  status : Status
  val : RetVal
deriving DecidableEq, Repr

/-- The state of the block (R30). The last five fields are the model's own. -/
structure State where
  /-- CPU clock in Hz (R31). -/
  cpuHz : Nat
  /-- Master volume and mute (R32). -/
  vol : Nat
  muted : Bool
  /-- The recorded fault (R33). -/
  fault : Option Fault
  /-- The mixer's accumulator (R34). -/
  macc : List Int
  /-- What each core has in common (R35 to R40), then the cores' own state. -/
  chans : PerCore Channel
  psgA : PsgA
  psgB : PsgB
  speech : Speech
  /-- The registry (R60). -/
  reg : List (Option Source)
  /-- The source that agent S is held on (R64). -/
  holdS : Option Nat
  /-- MODEL: the configuration (R11), which no step changes (log 4). -/
  cfg : Config
  /-- MODEL: the commands still to be issued, and their interleaving (R120, log 1, log 2). -/
  feed : List Issue
  /-- MODEL: the steps left of the mixing agent's UPDATE (R470, log 3). -/
  mSeq : List MStep
  /-- MODEL: the host blocks emitted so far, oldest first (R22, R473, log 25). -/
  out : List (List Byte)
  /-- MODEL: the statuses and values returned so far, oldest first (R22, R565, log 25). -/
  replies : List Reply
deriving DecidableEq, Repr

/-- How an operation inside a step ends: with a value, or at a `raise` (R550), each with the state as it stands then. -/
inductive Res (α : Type) where
  | done (a : α) (s : State)
  | raised (f : Fault) (s : State)
deriving Repr

/-- A core's channel at reset (R600, R601). The contents of `buf` are unspecified (R35); what an unlisted address reads
as is `memUnlisted` (log 7). -/
def Channel.reset (cfg : Config) (c : CoreId) : Channel where
  buf := []
  head := 0
  tail := 0
  tau := cfg.tau.get c
  decay := 0
  rateNum := (resetRatio cfg c).1
  rateDen := (resetRatio cfg c).2
  increment := (resetRatio cfg c).1
  limit := (resetRatio cfg c).2
  index := 0
  last := 127
  q := []
  lastTs := 0
  lastH := 0
  cycAcc := 0
  debt := 0
  postedH := none
  attached := true
  handle := none

/-- Core A at reset (R45 to R48). -/
def PsgA.reset : PsgA where
  ra := Bank16.const 0
  toneCnt := ⟨1, 1, 1⟩
  toneOut := ⟨false, false, false⟩
  noiseCnt := 1
  lfsr := 1
  envCnt := 1
  envStep := 15
  envDir := 15
  envHold := true

/-- Core B at reset (R50, R51). -/
def PsgB.reset (cfg : Config) : PsgB where
  per := ⟨0, 0, 0⟩
  att := ⟨15, 15, 15, 15⟩
  nreg := 0
  latch := 0
  toneCnt := ⟨1, 1, 1⟩
  toneOut := ⟨false, false, false⟩
  noiseCnt := 1
  noiseFF := false
  lfsr := seedB cfg

/-- Core S at reset (R53 to R55). `ms` is unspecified and never read while halted: 0 is a DESIGN CHOICE (log 6). -/
def Speech.reset : Speech where
  halted := true
  pending := none
  ms := 0
  rpt := 0
  cnt := 0
  per := 0
  ampRaw := 0
  amp := 0
  dAmp := 0
  dPer := 0
  interp := false
  f := Six.const 0
  b := Six.const 0
  z0 := Six.const 0
  z1 := Six.const 0
  rng := 1

/-- The state after reset of the block with configuration `cfg` (R600). -/
def State.resetOf (cfg : Config) : State where
  cpuHz := cfg.cpuHz0
  vol := cfg.initVolume
  muted := false
  fault := none
  macc := List.replicate cfg.blockLen 0
  chans := ⟨Channel.reset cfg .A, Channel.reset cfg .B, Channel.reset cfg .S⟩
  psgA := PsgA.reset
  psgB := PsgB.reset cfg
  speech := Speech.reset
  reg := List.replicate cfg.maxSources none
  holdS := none
  cfg := cfg
  feed := []
  mSeq := []
  out := []
  replies := []

/-- The machine right after reset. The values are those of R600; the configuration is the spec's vector configuration,
a DESIGN CHOICE (log 4). -/
def State.reset : State := State.resetOf Config.vc

end Sys2Proof.Machine
end

