-- ==== Sys2Proof/Machine/Ops.lean ====
section
/-! DEFINITION. The named operations over the block's storage, the raising of a fault, and how an operation's end becomes
the outcome of a step. -/

namespace Sys2Proof.Machine

/-! ### Byte stores -/

/-- What an unlisted address of a ring or a block reads as: level 0. The spec leaves the contents of `buf` at reset
unspecified and reads none of them before they are written (R35, R600). DESIGN CHOICE (log 7), unsafe. -/
def memUnlisted : Byte := 127

/-- The byte at an address. -/
def memRead : Memory → Nat → Byte
  | [], _ => memUnlisted
  | (b, w) :: m, a => if b = a then w else memRead m a

/-- The store with `v` at address `a`, again in canonical form. -/
def memWrite : Memory → Nat → Byte → Memory
  | [], a, v => if v = memUnlisted then [] else [(a, v)]
  | (b, w) :: m, a, v =>
    if a < b then (if v = memUnlisted then (b, w) :: m else (a, v) :: (b, w) :: m)
    else if a = b then (if v = memUnlisted then m else (a, v) :: m)
    else (b, w) :: memWrite m a v

/-- Every listed address is at least `lo`, they rise strictly, and no listed byte is the unlisted one. -/
def memWfFrom : Nat → Memory → Bool
  | _, [] => true
  | lo, (b, w) :: m => decide (lo ≤ b) && decide (w ≠ memUnlisted) && memWfFrom (b + 1) m

/-- The canonical form of a byte store. -/
def Memory.wf (m : Memory) : Bool := memWfFrom 0 m

/-! ### Rings (20_memory.md) -/

/-- The capacity of every ring, `2^cfg.ringBits` (R35). -/
def capacity (cfg : Config) : Nat := 2 ^ cfg.ringBits

/-- `samples_available` (R103): `fmod(head - tail, 2^cfg.ringBits)`. -/
def samplesAvailable (cfg : Config) (x : Channel) : Nat :=
  (((x.head : Int) - (x.tail : Int)) % (capacity cfg : Int)).toNat

/-- `space_remaining` (R104). -/
def spaceRemaining (cfg : Config) (x : Channel) : Nat := capacity cfg - 1 - samplesAvailable cfg x

/-- `RingPut` (R101): masking with `2^ringBits - 1` is the remainder by the capacity. -/
def ringPut (cfg : Config) (x : Channel) (code : Byte) : Channel :=
  { x with buf := memWrite x.buf x.head code, head := (x.head + 1) % capacity cfg }

/-- The code `RingTake` returns (R102). -/
def ringOldest (x : Channel) : Byte := memRead x.buf x.tail

/-- The channel after `RingTake` (R102). -/
def ringDrop (cfg : Config) (x : Channel) : Channel := { x with tail := (x.tail + 1) % capacity cfg }

/-! ### ROM -/

/-- `RomRead` (R112): the ROM byte at an address; `none` where it raises `RomRange`. -/
def romRead (cfg : Config) (a : Nat) : Option Byte := cfg.rom[a]?

/-! ### Access to the state's parts -/

/-- `core[c]`'s channel. -/
def chanOf (s : State) (c : CoreId) : Channel := s.chans.get c

/-- The state with core `c`'s channel replaced. -/
def withChan (s : State) (c : CoreId) (x : Channel) : State := { s with chans := s.chans.set c x }

/-- The descriptor in registry slot `k`, where there is one: `none` too for `k >= cfg.maxSources` (R60). -/
def sourceAt (s : State) (k : Nat) : Option Source := (s.reg[k]?).join

/-- The state with registry slot `k` set. -/
def withSlot (s : State) (k : Nat) (d : Option Source) : State := { s with reg := s.reg.set k d }

/-- The registered source of core `c` with its handle (R40). A handle whose slot is empty counts as none: no step leaves
one (log 19). -/
def sourceOf (s : State) (c : CoreId) : Option (Nat × Source) :=
  match (chanOf s c).handle with
  | none => none
  | some k =>
    match sourceAt s k with
    | none => none
    | some d => some (k, d)

/-- Block `b` of a pool. -/
def blockOf (d : Source) (b : Nat) : Block := d.blocks.getD b ⟨[], 0⟩

/-- The pool with block `b` replaced. -/
def withBlock (d : Source) (b : Nat) (blk : Block) : Source := { d with blocks := d.blocks.set b blk }

/-! ### Faults, returns and the outcome of a step -/

/-- `raise` (R550): the fault is recorded and the state is left as it stood. There is no handler and no return from a
fault (R571, R572); only reset clears it. -/
def takeFault (f : Fault) (s : State) : State := { s with fault := some f }

/-- The state in which an operation has returned `r` to its issuer. -/
def returned (r : Option Reply) (s : State) : State :=
  match r with
  | none => s
  | some v => { s with replies := s.replies ++ [v] }

/-- A status without a value (R565). -/
def statusOnly (st : Status) : Option Reply := some ⟨st, .none⟩

/-- The end of an operation as the outcome of its step: a raise is a next state too, with the fault recorded. -/
def settle : Res (Option Reply) → Host.Outcome State Fault Refusal
  | .done r s => .next (returned r s)
  | .raised f s => .next (takeFault f s)

/-- A step of either agent, or a datapath operation: none once a fault is recorded (R550). -/
def runStep (s : State) (body : State → Res (Option Reply)) : Host.Outcome State Fault Refusal :=
  match s.fault with
  | some f => .fault f
  | none => settle (body s)

/-- A command of agent S: none either while S is held (R64, R567). RESUME alone is not issued through this (R416). -/
def runCommandS (s : State) (body : State → Res (Option Reply)) : Host.Outcome State Fault Refusal :=
  match s.fault, s.holdS with
  | some f, _ => .fault f
  | none, some k => .refused (.held k)
  | none, none => settle (body s)

end Sys2Proof.Machine
end

