-- ==== Sys2Proof/Machine/Flags.lean ====
section
/-! DEFINITION. The observable flags of the block (10_state.md R66) and the conditions its rules test, with the numeric
codes of the statuses and faults (60_exceptions.md R551, R565). -/

namespace Sys2Proof.Machine

/-- `ready(S)` (R66, R373): no address is waiting. -/
def ready (s : State) : Bool := s.speech.pending.isNone

/-- `sync(c)` (R412): the core's source is synchronous. A core without one counts as asynchronous (R41). -/
def syncOf (s : State) (c : CoreId) : Bool :=
  match sourceOf s c with
  | none => false
  | some (_, d) => d.sync

/-- RESUME is enabled on source `k` (R64, R416): it has a clean block. -/
def resumeEnabled (s : State) (k : Nat) : Bool :=
  match sourceAt s k with
  | none => false
  | some d => !d.clean.isEmpty

/-- `canDrain(c)` (R216): the next DRAIN returns a sample. -/
def canDrain (cfg : Config) (x : Channel) : Bool :=
  decide (x.limit ≤ x.index + samplesAvailable cfg x * x.increment)

/-- The numerator `tN` of core `c`'s tick rate (R41). -/
def tickNum (s : State) (c : CoreId) : Nat :=
  if syncOf s c then s.cpuHz * s.cfg.clkNum.get c else chipClock s.cfg c

/-- The denominator `tD` of core `c`'s tick rate (R41). -/
def tickDen (s : State) (c : CoreId) : Nat :=
  if syncOf s c then s.cfg.clkDen.get c * tickDivider c else tickDivider c

/-- The numeric code of a status (R565). -/
def statusCode : Status → Nat
  | .ok => 0
  | .configRejected => 1
  | .noBuffer => 2
  | .held => 3
  | .ignored => 4
  | .registryFull => 5
  | .starved => 6
  | .stalled => 7
  | .full => 8

/-- The numeric code of a fault (R551). -/
def faultCode : Fault → Nat
  | .levelRange _ _ => 1
  | .ringOverflow _ => 2
  | .queueOverflow _ => 3
  | .timestampOrder _ _ => 4
  | .microRunaway _ => 5
  | .romRange _ => 6
  | .protocolError _ => 7

end Sys2Proof.Machine
end

