-- ==== Sys2Proof/Machine/Operands.lean ====
section
/-! DEFINITION. The arithmetic of the notation (00_scope.md R13 to R16) and every operand assembly (30_encoding.md R146). -/

namespace Sys2Proof.Machine

/-! ### Arithmetic -/

/-- `clip` (R16). -/
def clip (lo hi v : Int) : Int := min hi (max lo v)

/-- `asr(a, n) = fdiv(a, 2^n)` (R15). -/
def asr (a : Int) (n : Nat) : Int := a / (2 ^ n : Int)

/-- `wrap16` (R14), as the 16 bits of the value of `Int16`. -/
def wrap16 (v : Int) : BitVec 16 := BitVec.ofInt 16 v

/-- The stored code of a level (R205): clipped to [-127, 127], offset by 127. -/
def codeOf (level : Int) : Byte := BitVec.ofInt 8 (clip (-127) 127 level + 127)

/-- The level a stored code stands for (R19). -/
def levelOf (code : Byte) : Int := (code.toNat : Int) - 127

/-! ### Command operands -/

/-- The core a 2-bit core field names (R141): A = 0, B = 1, S = 2, and 3 names none. -/
def coreOfField (core : BitVec 2) : Option CoreId :=
  match core.toNat with
  | 0 => some .A
  | 1 => some .B
  | 2 => some .S
  | _ => none

/-- An operation on the core its core field names. Core field 3 names no core: the operation is ignored, as R147 and
R566 say of WRITE, ADVANCE, FRAME and REGISTER; for the datapath operations DEDUCED from them (log 11). -/
def onCore (core : BitVec 2) (s : State) (body : CoreId → State → Res (Option Reply)) : Res (Option Reply) :=
  match coreOfField core with
  | none => .done (statusOnly .ignored) s
  | some c => body c s

/-- `validAddr` (R401). -/
def validAddr : CoreId → Nat → Bool
  | .A, a => decide (a < 16)
  | .B, a => decide (a = 0)
  | .S, a => decide (a = 0)

/-! ### Core A's fields (R146, R250) -/

/-- The bits core A stores of each register (R250). -/
def maskA : Fin 16 → Byte
  | 0 => 0xFF
  | 1 => 0x0F
  | 2 => 0xFF
  | 3 => 0x0F
  | 4 => 0xFF
  | 5 => 0x0F
  | 6 => 0x1F
  | 7 => 0xFF
  | 8 => 0x1F
  | 9 => 0x1F
  | 10 => 0x1F
  | 11 => 0xFF
  | 12 => 0xFF
  | 13 => 0x0F
  | 14 => 0xFF
  | _ => 0xFF

/-- The register of a channel's fine tone period, `2*ch`. -/
def fineReg : Fin 3 → Fin 16
  | 0 => 0
  | 1 => 2
  | 2 => 4

/-- The register of a channel's coarse tone period, `2*ch+1`. -/
def coarseReg : Fin 3 → Fin 16
  | 0 => 1
  | 1 => 3
  | 2 => 5

/-- The amplitude register of a channel, `8+ch`. -/
def ampReg : Fin 3 → Fin 16
  | 0 => 8
  | 1 => 9
  | 2 => 10

/-- `TP[ch] = {RA[2*ch+1][3:0], RA[2*ch][7:0]}`. -/
def tonePeriodA (ra : Bank16 Byte) (ch : Fin 3) : Nat :=
  ((ra.get (coarseReg ch)).extractLsb' 0 4 ++ ra.get (fineReg ch)).toNat

/-- `NP = RA[6][4:0]`. -/
def noisePeriodA (ra : Bank16 Byte) : Nat := ((ra.get 6).extractLsb' 0 5).toNat

/-- `EP = {RA[12], RA[11]}`. -/
def envPeriodA (ra : Bank16 Byte) : Nat := (ra.get 12 ++ ra.get 11).toNat

/-- `L[ch] = RA[8+ch][3:0]`. -/
def ampLevelA (ra : Bank16 Byte) (ch : Fin 3) : BitVec 4 := (ra.get (ampReg ch)).extractLsb' 0 4

/-- `M[ch] = RA[8+ch][4]`. -/
def ampModeA (ra : Bank16 Byte) (ch : Fin 3) : Bool := (ra.get (ampReg ch)).getLsbD 4

/-- `toneDis[ch] = RA[7][ch]`. -/
def toneDisA (ra : Bank16 Byte) (ch : Fin 3) : Bool := (ra.get 7).getLsbD ch.val

/-- `noiseDis[ch] = RA[7][3+ch]`. -/
def noiseDisA (ra : Bank16 Byte) (ch : Fin 3) : Bool := (ra.get 7).getLsbD (3 + ch.val)

/-- `HOLD = RA[13][0]`. -/
def shapeHold (ra : Bank16 Byte) : Bool := (ra.get 13).getLsbD 0

/-- `ALT = RA[13][1]`. -/
def shapeAlt (ra : Bank16 Byte) : Bool := (ra.get 13).getLsbD 1

/-- `ATT = RA[13][2]`. -/
def shapeAtt (ra : Bank16 Byte) : Bool := (ra.get 13).getLsbD 2

/-- `CONT = RA[13][3]`. -/
def shapeCont (ra : Bank16 Byte) : Bool := (ra.get 13).getLsbD 3

/-! ### Core B's fields (R300 to R302) -/

/-- A tone period with its low four bits replaced, as a latch byte does (R301): `(per & 0x3F0) | d`. -/
def perWithLow (p : BitVec 10) (d : BitVec 4) : BitVec 10 := p.extractLsb' 4 6 ++ d

/-- A tone period with its high six bits replaced, as a data byte does (R302). -/
def perWithHigh (p : BitVec 10) (d : BitVec 6) : BitVec 10 := d ++ p.extractLsb' 0 4

/-- `NF = nreg[1:0]` (R312). -/
def noiseRateB (nreg : BitVec 3) : Nat := (nreg.extractLsb' 0 2).toNat

/-- `FB = nreg[2]` (R313): 1 for white noise. -/
def noiseWhiteB (nreg : BitVec 3) : Bool := nreg.getLsbD 2

/-- `parity` (R313): the XOR of all bits. -/
def parity16 (v : BitVec 16) : Bool := (List.range 16).foldl (fun p i => p ^^ v.getLsbD i) false

/-! ### Speech operands -/

/-- `cfg.ampDecode` (R366): the listed points, and the default `x[4:0] << x[7:5]` elsewhere (log 20). -/
def ampDecode (cfg : Config) (x : Byte) : Int :=
  match cfg.ampDecode.lookup x with
  | some v => v
  | none => (((x.extractLsb' 0 5).toNat * 2 ^ (x.extractLsb' 5 3).toNat : Nat) : Int)

end Sys2Proof.Machine
end

