-- ==== Sys2Proof/Machine/Ring.lean ====
section
/-! DEFINITION. The circular buffer: decay stage, limiter and rate converter (40_ring_buffer.md). -/

namespace Sys2Proof.Machine

/-! ### PUT_SAMPLE -/

/-- The accumulator after one sample (R203); with `tau = 0` it is not changed (R202). -/
def decayAfter (x : Channel) (level : Int) : Int :=
  if x.tau = 0 then x.decay else x.decay - Int.tdiv (level * 65536 + x.decay) x.tau

/-- `Decay(c, level)` (R202, R203): the output uses the accumulator after its update. -/
def decayOut (x : Channel) (level : Int) : Int :=
  if x.tau = 0 then level else level + Int.tdiv (decayAfter x level) 65536

/-- The channel after a level that PUT_SAMPLE accepts (R200). -/
def storeLevel (cfg : Config) (x : Channel) (level : Int) : Channel :=
  ringPut cfg { x with decay := decayAfter x level } (codeOf (decayOut x level))

/-- `PUT_SAMPLE(c, level)` (R200, R201), its checks in the order of R560. -/
def putSample (c : CoreId) (level : Int) (s : State) : Res Unit :=
  if level < -32768 ∨ 32767 < level then .raised (.levelRange c level) s
  else if spaceRemaining s.cfg (chanOf s c) = 0 then .raised (.ringOverflow c) s
  else .done () (withChan s c (storeLevel s.cfg (chanOf s c) level))

/-! ### CONFIGURE_RATE -/

/-- A channel with its converter set to a ratio in lowest terms (R210); `last` and the ring are kept. -/
def withRatio (x : Channel) (num den : Nat) : Channel :=
  { x with rateNum := num, rateDen := den, increment := num, limit := den, index := 0 }

/-- `CONFIGURE_RATE(c, dst, src)` (R210, R212). -/
def configureRate (c : CoreId) (dst src : Nat) (s : State) : Status × State :=
  match reducedRatio dst src with
  | none => (.configRejected, s)
  | some (num, den) => (.ok, withChan s c (withRatio (chanOf s c) num den))

/-- The call every core makes of CONFIGURE_RATE (R211): the destination rate over the core's tick rate. -/
def configureCoreRate (c : CoreId) (s : State) : State :=
  (configureRate c (s.cfg.dstRate * tickDen s c) (tickNum s c) s).2

/-! ### DRAIN -/

/-- One pass of DRAIN's loop (R213): the oldest code is taken. -/
def takeCode (cfg : Config) (x : Channel) : Channel :=
  { ringDrop cfg x with last := ringOldest x, index := x.index + x.increment }

/-- DRAIN's loop over the `n` codes of the ring: whether `index` reached `limit`, and the channel then. -/
def drainLoop (cfg : Config) : Nat → Channel → Bool × Channel
  | 0, x => (decide (x.limit ≤ x.index), x)
  | n + 1, x => if x.limit ≤ x.index then (true, x) else drainLoop cfg n (takeCode cfg x)

/-- `DRAIN(c)` on a channel (R213). The loop takes one code a pass, so it makes at most `samples_available` passes. -/
def drainChan (cfg : Config) (x : Channel) : Option Byte × Channel :=
  match drainLoop cfg (samplesAvailable cfg x) x with
  | (true, y) => (some y.last, { y with index := y.index - y.limit })
  | (false, y) => (none, y)

/-- `DRAIN(c)` (R213). -/
def drain (c : CoreId) (s : State) : Option Byte × State :=
  let r := drainChan s.cfg (chanOf s c)
  (r.1, withChan s c r.2)

/-! ### The meanings -/

/-- PUT_SAMPLE as an operation of its own (R200, log 10). -/
def execPutSample (core : BitVec 2) (level : BitVec 32) (s : State) : Host.Outcome State Fault Refusal :=
  runStep s fun s => onCore core s fun c s =>
    match putSample c level.toInt s with
    | .done _ s => .done none s
    | .raised f s => .raised f s

/-- CONFIGURE_RATE as an operation of its own (R210, log 10). -/
def execConfigureRate (core : BitVec 2) (dst src : BitVec 48) (s : State) : Host.Outcome State Fault Refusal :=
  runStep s fun s => onCore core s fun c s =>
    let r := configureRate c dst.toNat src.toNat s
    .done (statusOnly r.1) r.2

/-- SAMPLES_AVAILABLE (R218, log 10). -/
def execSamplesAvailable (core : BitVec 2) (s : State) : Host.Outcome State Fault Refusal :=
  runStep s fun s => onCore core s fun c s =>
    .done (some ⟨.ok, .count (samplesAvailable s.cfg (chanOf s c))⟩) s

/-- SPACE_REMAINING (R219, log 10). -/
def execSpaceRemaining (core : BitVec 2) (s : State) : Host.Outcome State Fault Refusal :=
  runStep s fun s => onCore core s fun c s =>
    .done (some ⟨.ok, .count (spaceRemaining s.cfg (chanOf s c))⟩) s

/-- DRAIN as an operation of its own (R213, log 10). -/
def execDrain (core : BitVec 2) (s : State) : Host.Outcome State Fault Refusal :=
  runStep s fun s => onCore core s fun c s =>
    let r := drain c s
    .done (some ⟨.ok, .sample r.1⟩) r.2

end Sys2Proof.Machine
end

