-- ==== Sys2Proof/Machine/Pool.lean ====
section
/-! DEFINITION. The scratch pools and the source registry (45_pool_mixer.md R450 to R467). -/

namespace Sys2Proof.Machine

/-! ### GET_WORK_BUFFER and PUT_WORK_BUFFER -/

/-- `GET_WORK_BUFFER(k)` (R452, R454). An empty slot is ignored: no rule calls it there (log 13). -/
def getWorkBuffer (k : Nat) (s : State) : Status × State :=
  match sourceAt s k with
  | none => (.ignored, s)
  | some d =>
    match d.current, d.clean with
    | some _, _ => (.ok, s)
    | none, [] => if d.blocking && d.sync then (.held, { s with holdS := some k }) else (.noBuffer, s)
    | none, b :: rest =>
      let d' := withBlock { d with clean := rest, current := some b } b { blockOf d b with fill := 0 }
      (.ok, withSlot s k (some d'))

/-- `PUT_WORK_BUFFER(k)` (R455). An empty slot has no current block either (log 13). -/
def putWorkBuffer (k : Nat) (s : State) : Res Unit :=
  match sourceAt s k with
  | none => .raised (.protocolError k) s
  | some d =>
    match d.current with
    | none => .raised (.protocolError k) s
    | some b => .done () (withSlot s k (some { d with dirty := d.dirty ++ [b], current := none }))

/-! ### FRAME -/

/-- `FRAME(c)` for a core with a synchronous source (R458). -/
def frameOf (k : Nat) (d : Source) (s : State) : Res (Option Reply) :=
  let clear (s : State) : State :=
    match sourceAt s k with
    | none => s
    | some d => withSlot s k (some { d with newSamples := 0 })
  match d.current with
  | none => .done (statusOnly .ok) (clear s)
  | some b =>
    if 0 < (blockOf d b).fill then
      match putWorkBuffer k s with
      | .raised f s => .raised f s
      | .done _ s => .done (statusOnly .ok) (clear s)
    else .done (statusOnly .ok) (clear s)

/-- `FRAME(c)` (R458). -/
def frame (c : CoreId) (s : State) : Res (Option Reply) :=
  if !(chanOf s c).attached then .done (statusOnly .ignored) s
  else
    match sourceOf s c with
    | none => .done (statusOnly .ignored) s
    | some (k, d) => if d.sync then frameOf k d s else .done (statusOnly .ignored) s

/-! ### REGISTER and DEREGISTER -/

/-- The least empty registry slot (R465). -/
def freeSlot (s : State) : Option Nat := s.reg.findIdx? (fun d => d.isNone)

/-- `tdiv(holdoffMs * cfg.dstRate, 1000)` (R465, R471). -/
def holdoffSamples (cfg : Config) (ms : Nat) : Nat := ms * cfg.dstRate / 1000

/-- The descriptor REGISTER writes (R465). -/
def newSource (cfg : Config) (c : CoreId) (sync blocking : Bool) (ms : Nat) : Source where
  core := c
  sync := sync
  blocking := blocking
  holdoffMs := ms
  holdoffCnt := holdoffSamples cfg ms
  st := .quiescent
  starve := 0
  newSamples := 0
  blocks := List.replicate cfg.poolBlocks ⟨[], 0⟩
  clean := List.range cfg.poolBlocks
  dirty := []
  current := none

/-- Core `c`'s own state at its reset value, without its channel (R604). -/
def resetChip (c : CoreId) (s : State) : State :=
  match c with
  | .A => { s with psgA := PsgA.reset }
  | .B => { s with psgB := PsgB.reset s.cfg }
  | .S => { s with speech := Speech.reset }

/-- The re-attachment of a detached core (R465, R604): its reset value, `lastH` and `lastTs` kept. -/
def reattach (c : CoreId) (s : State) : State :=
  let x := chanOf s c
  if x.attached then s
  else withChan (resetChip c s) c { Channel.reset s.cfg c with lastH := x.lastH, lastTs := x.lastTs }

/-- The channel of a core that has just been registered in slot `k` (R465). -/
def joinSource (x : Channel) (k : Nat) : Channel := { x with handle := some k, postedH := none, cycAcc := 0 }

/-- `REGISTER(c, sync, blocking, holdoffMs)` (R465). -/
def register (c : CoreId) (sync blocking : Bool) (ms : Nat) (s : State) : Option Reply × State :=
  if (chanOf s c).handle ≠ none then (statusOnly .ignored, s)
  else
    match freeSlot s with
    | none => (statusOnly .registryFull, s)
    | some k =>
      let s := withSlot (reattach c s) k (some (newSource s.cfg c sync blocking ms))
      let s := withChan s c (joinSource (chanOf s c) k)
      (some ⟨.ok, .handle k⟩, configureCoreRate c s)

/-- The channel of a core whose source is removed (R466). -/
def leaveSource (x : Channel) : Channel := { x with q := [], attached := false, handle := none, postedH := none }

/-- `DEREGISTER(k)` (R466). -/
def deregister (k : Nat) (s : State) : Option Reply × State :=
  match sourceAt s k with
  | none => (statusOnly .ignored, s)
  | some d => (statusOnly .ok, withSlot (withChan s d.core (leaveSource (chanOf s d.core))) k none)

/-! ### The meanings -/

/-- GET_WORK_BUFFER as an operation of its own (R452, log 10). -/
def execGetWorkBuffer (handle : Byte) (s : State) : Host.Outcome State Fault Refusal :=
  runStep s fun s =>
    let r := getWorkBuffer handle.toNat s
    .done (statusOnly r.1) r.2

/-- PUT_WORK_BUFFER as an operation of its own (R455, log 10). -/
def execPutWorkBuffer (handle : Byte) (s : State) : Host.Outcome State Fault Refusal :=
  runStep s fun s =>
    match putWorkBuffer handle.toNat s with
    | .raised f s => .raised f s
    | .done _ s => .done none s

/-- FRAME (R458). -/
def execFrame (core : BitVec 2) (s : State) : Host.Outcome State Fault Refusal :=
  runCommandS s fun s => onCore core s frame

/-- REGISTER (R465). -/
def execRegister (core : BitVec 2) (sync blocking : Bool) (holdoffMs : BitVec 16) (s : State) :
    Host.Outcome State Fault Refusal :=
  runCommandS s fun s => onCore core s fun c s =>
    let r := register c sync blocking holdoffMs.toNat s
    .done r.1 r.2

/-- DEREGISTER (R466). -/
def execDeregister (handle : Byte) (s : State) : Host.Outcome State Fault Refusal :=
  runCommandS s fun s =>
    let r := deregister handle.toNat s
    .done r.1 r.2

end Sys2Proof.Machine
end

