-- ==== Sys2Proof/Machine/PsgA.lean ====
section
/-! DEFINITION. Generator core A: register writes, tone, noise and envelope, and its native tick (41_psg_a.md). -/

namespace Sys2Proof.Machine

/-! ### Envelope -/

/-- `envLevel = envStep XOR envDir` (R267). -/
def envLevel (a : PsgA) : BitVec 4 := a.envStep ^^^ a.envDir

/-- `EnvStep()` (R267). -/
def envAdvance (a : PsgA) : PsgA :=
  if a.envHold then a
  else if a.envStep.toNat < 15 then { a with envStep := a.envStep + 1 }
  else if !shapeCont a.ra then { a with envHold := true, envDir := 15 }
  else if shapeHold a.ra then
    { a with envHold := true, envDir := if shapeAlt a.ra then a.envDir ^^^ 15 else a.envDir }
  else { a with envStep := 0, envDir := if shapeAlt a.ra then a.envDir ^^^ 15 else a.envDir }

/-- `EnvCount()` (R266). -/
def envCount (a : PsgA) : PsgA :=
  if a.envCnt - 1 = 0 then { envAdvance a with envCnt := max (envPeriodA a.ra) 1 }
  else { a with envCnt := a.envCnt - 1 }

/-- `EnvRestart()` (R268). -/
def envRestart (a : PsgA) : PsgA :=
  { a with
    envStep := 0
    envDir := if shapeAtt a.ra then 0 else 15
    envHold := false
    envCnt := max (envPeriodA a.ra) 1 }

/-! ### APPLY to core A -/

/-- `APPLY(A, addr, val)` (R252) on the core's own state: the bits of R250's mask are stored, and a write to address 13
restarts the envelope. -/
def writeRegA (a : PsgA) (addr : Fin 16) (val : Byte) : PsgA :=
  let a' := { a with ra := a.ra.set addr (val &&& maskA addr) }
  if addr = 13 then envRestart a' else a'

/-- `APPLY(A, addr, val)` (R252). -/
def applyA (addr : Fin 16) (val : Byte) (s : State) : State := { s with psgA := writeRegA s.psgA addr val }

/-! ### TICK of core A -/

/-- `ToneStep(ch)` (R261, R263). -/
def toneStepA (a : PsgA) (ch : Fin 3) : PsgA :=
  if a.toneCnt.get ch - 1 = 0 then
    { a with
      toneOut := a.toneOut.set ch (!a.toneOut.get ch)
      toneCnt := a.toneCnt.set ch (max (tonePeriodA a.ra ch) 1) }
  else { a with toneCnt := a.toneCnt.set ch (a.toneCnt.get ch - 1) }

/-- `LfsrA(x)` (R265). -/
def lfsrStepA (x : BitVec 17) : BitVec 17 :=
  (x >>> 1) ||| (if x.getLsbD 0 ^^ x.getLsbD 3 then 1#17 <<< 16 else 0)

/-- `NoiseStep()` (R264). -/
def noiseStepA (a : PsgA) : PsgA :=
  if a.noiseCnt - 1 = 0 then { a with lfsr := lfsrStepA a.lfsr, noiseCnt := max (noisePeriodA a.ra) 1 }
  else { a with noiseCnt := a.noiseCnt - 1 }

/-- The gate of a channel (R269). -/
def gateA (a : PsgA) (ch : Fin 3) : Bool :=
  (a.toneOut.get ch || toneDisA a.ra ch) && (a.lfsr.getLsbD 0 || noiseDisA a.ra ch)

/-- `Contribution(ch)` (R269). -/
def contributionA (cfg : Config) (a : PsgA) (ch : Fin 3) : Int :=
  let v := if ampModeA a.ra ch then envLevel a else ampLevelA a.ra ch
  let amp := cfg.ampTableA.get v.toFin
  if gateA a ch then amp else -amp

/-- The counters of one tick (R260): tones, noise, envelope. -/
def advanceA (a : PsgA) : PsgA := envCount (noiseStepA (toneStepA (toneStepA (toneStepA a 0) 1) 2))

/-- The level of core A's state (R269, R271). -/
def levelA (cfg : Config) (a : PsgA) : Int :=
  contributionA cfg a 0 + contributionA cfg a 1 + contributionA cfg a 2

/-- `TICK(A)` (R260). -/
def tickA (s : State) : Res Unit :=
  let a := advanceA s.psgA
  putSample .A (levelA s.cfg a) { s with psgA := a }

/-! ### The meanings: the rows R0 to R15 of format AREG (R142, R253 to R259, log 16) -/

/-- One register write of core A as a step of its own. -/
def runRegA (addr : Fin 16) (val : Byte) (s : State) : Host.Outcome State Fault Refusal :=
  runStep s fun s => .done none (applyA addr val s)

/-- Tone 0 fine (R253). -/
def execR0 (val : Byte) (s : State) : Host.Outcome State Fault Refusal := runRegA 0 val s

/-- Tone 0 coarse (R253). -/
def execR1 (val : Byte) (s : State) : Host.Outcome State Fault Refusal := runRegA 1 val s

/-- Tone 1 fine (R253). -/
def execR2 (val : Byte) (s : State) : Host.Outcome State Fault Refusal := runRegA 2 val s

/-- Tone 1 coarse (R253). -/
def execR3 (val : Byte) (s : State) : Host.Outcome State Fault Refusal := runRegA 3 val s

/-- Tone 2 fine (R253). -/
def execR4 (val : Byte) (s : State) : Host.Outcome State Fault Refusal := runRegA 4 val s

/-- Tone 2 coarse (R253). -/
def execR5 (val : Byte) (s : State) : Host.Outcome State Fault Refusal := runRegA 5 val s

/-- Noise period (R254). -/
def execR6 (val : Byte) (s : State) : Host.Outcome State Fault Refusal := runRegA 6 val s

/-- Enable (R255). -/
def execR7 (val : Byte) (s : State) : Host.Outcome State Fault Refusal := runRegA 7 val s

/-- Amplitude 0 (R256). -/
def execR8 (val : Byte) (s : State) : Host.Outcome State Fault Refusal := runRegA 8 val s

/-- Amplitude 1 (R256). -/
def execR9 (val : Byte) (s : State) : Host.Outcome State Fault Refusal := runRegA 9 val s

/-- Amplitude 2 (R256). -/
def execR10 (val : Byte) (s : State) : Host.Outcome State Fault Refusal := runRegA 10 val s

/-- Envelope fine (R257). -/
def execR11 (val : Byte) (s : State) : Host.Outcome State Fault Refusal := runRegA 11 val s

/-- Envelope coarse (R257). -/
def execR12 (val : Byte) (s : State) : Host.Outcome State Fault Refusal := runRegA 12 val s

/-- Envelope shape, which restarts the envelope (R258). -/
def execR13 (val : Byte) (s : State) : Host.Outcome State Fault Refusal := runRegA 13 val s

/-- I/O port A: stored, without audio effect (R259). -/
def execR14 (val : Byte) (s : State) : Host.Outcome State Fault Refusal := runRegA 14 val s

/-- I/O port B: stored, without audio effect (R259). -/
def execR15 (val : Byte) (s : State) : Host.Outcome State Fault Refusal := runRegA 15 val s

end Sys2Proof.Machine
end

