-- ==== Sys2Proof/Machine/PsgB.lean ====
section
/-! DEFINITION. Generator core B: latch and data bytes, tone and noise, and its native tick (42_psg_b.md). -/

namespace Sys2Proof.Machine

/-! ### APPLY to core B -/

/-- A write to the noise control register: `nreg` is set and the noise register reseeded (R301, R302, R306). -/
def writeNoiseB (cfg : Config) (b : PsgB) (v : BitVec 3) : PsgB := { b with nreg := v, lfsr := seedB cfg }

/-- A latch byte of register `r` with data bits `d` (R301, R304 to R306). -/
def latchB (cfg : Config) (b : PsgB) (r : BitVec 3) (d : BitVec 4) : PsgB :=
  let b := { b with latch := r }
  match r.toNat with
  | 0 => { b with per := b.per.set 0 (perWithLow (b.per.get 0) d) }
  | 1 => { b with att := b.att.set 0 d }
  | 2 => { b with per := b.per.set 1 (perWithLow (b.per.get 1) d) }
  | 3 => { b with att := b.att.set 1 d }
  | 4 => { b with per := b.per.set 2 (perWithLow (b.per.get 2) d) }
  | 5 => { b with att := b.att.set 2 d }
  | 6 => writeNoiseB cfg b (d.extractLsb' 0 3)
  | _ => { b with att := b.att.set 3 d }

/-- A data byte with data bits `d`, written into the latched register (R302). -/
def dataB (cfg : Config) (b : PsgB) (d : BitVec 6) : PsgB :=
  match b.latch.toNat with
  | 0 => { b with per := b.per.set 0 (perWithHigh (b.per.get 0) d) }
  | 1 => { b with att := b.att.set 0 (d.extractLsb' 0 4) }
  | 2 => { b with per := b.per.set 1 (perWithHigh (b.per.get 1) d) }
  | 3 => { b with att := b.att.set 1 (d.extractLsb' 0 4) }
  | 4 => { b with per := b.per.set 2 (perWithHigh (b.per.get 2) d) }
  | 5 => { b with att := b.att.set 2 (d.extractLsb' 0 4) }
  | 6 => writeNoiseB cfg b (d.extractLsb' 0 3)
  | _ => { b with att := b.att.set 3 (d.extractLsb' 0 4) }

/-- `APPLY(B, 0, val)` on the core's own state: bit 7 tells a latch byte from a data byte (R303). -/
def writeByteB (cfg : Config) (b : PsgB) (val : Byte) : PsgB :=
  if val.getLsbD 7 then latchB cfg b (val.extractLsb' 4 3) (val.extractLsb' 0 4)
  else dataB cfg b (val.extractLsb' 0 6)

/-- `APPLY(B, 0, val)` (R303). -/
def applyB (val : Byte) (s : State) : State := { s with psgB := writeByteB s.cfg s.psgB val }

/-! ### TICK of core B -/

/-- `PeffB(p)` (R311, R317). -/
def effectivePeriodB (cfg : Config) (p : BitVec 10) : Nat := if p = 0 then cfg.snZeroPeriod else p.toNat

/-- The tone counter step of a channel (R311). -/
def toneStepB (cfg : Config) (b : PsgB) (ch : Fin 3) : PsgB :=
  if b.toneCnt.get ch - 1 = 0 then
    { b with
      toneOut := b.toneOut.set ch (!b.toneOut.get ch)
      toneCnt := b.toneCnt.set ch (effectivePeriodB cfg (b.per.get ch)) }
  else { b with toneCnt := b.toneCnt.set ch (b.toneCnt.get ch - 1) }

/-- `Pn` (R312): the noise counter's reload; rate code 3 links it to channel 2's period. -/
def noiseReloadB (cfg : Config) (b : PsgB) : Nat :=
  match noiseRateB b.nreg with
  | 0 => cfg.snNoiseDiv.c0
  | 1 => cfg.snNoiseDiv.c1
  | 2 => cfg.snNoiseDiv.c2
  | _ => effectivePeriodB cfg (b.per.get 2)

/-- `LfsrB(x)` (R313). -/
def lfsrStepB (cfg : Config) (white : Bool) (x : BitVec 16) : BitVec 16 :=
  let fb := if white then parity16 (x &&& cfg.snTaps) else x.getLsbD 0
  (x >>> 1) ||| (if fb then 1#16 <<< (cfg.snLfsrWidth - 1) else 0)

/-- The noise counter step (R312): the noise register shifts on the rising edge of the flip-flop. -/
def noiseStepB (cfg : Config) (b : PsgB) : PsgB :=
  if b.noiseCnt - 1 = 0 then
    { b with
      noiseFF := !b.noiseFF
      lfsr := if b.noiseFF then b.lfsr else lfsrStepB cfg (noiseWhiteB b.nreg) b.lfsr
      noiseCnt := noiseReloadB cfg b }
  else { b with noiseCnt := b.noiseCnt - 1 }

/-- The output bit of a channel (R315): the noise bit for channel 3. -/
def outB (b : PsgB) (ch : Fin 4) : Bool :=
  match ch with
  | 0 => b.toneOut.get 0
  | 1 => b.toneOut.get 1
  | 2 => b.toneOut.get 2
  | 3 => b.lfsr.getLsbD 0

/-- `ContributionB(ch)` (R315). -/
def contributionB (cfg : Config) (b : PsgB) (ch : Fin 4) : Int :=
  let a := cfg.ampTableB.get (b.att.get ch).toFin
  if outB b ch then a else -a

/-- The counters of one tick (R310): tones, then noise. -/
def advanceB (cfg : Config) (b : PsgB) : PsgB :=
  noiseStepB cfg (toneStepB cfg (toneStepB cfg (toneStepB cfg b 0) 1) 2)

/-- The level of core B's state (R310, R315). -/
def levelB (cfg : Config) (b : PsgB) : Int :=
  contributionB cfg b 0 + contributionB cfg b 1 + contributionB cfg b 2 + contributionB cfg b 3

/-- `TICK(B)` (R310). -/
def tickB (s : State) : Res Unit :=
  let b := advanceB s.cfg s.psgB
  putSample .B (levelB s.cfg b) { s with psgB := b }

/-! ### The meanings: the rows LATCH0 to LATCH7 and DATA of format BBYTE (R143, log 16) -/

/-- One latch byte as a step of its own. -/
def runLatchB (r : BitVec 3) (d : BitVec 4) (s : State) : Host.Outcome State Fault Refusal :=
  runStep s fun s => .done none { s with psgB := latchB s.cfg s.psgB r d }

/-- Tone 0 period, low bits (R304). -/
def execLatch0 (d : BitVec 4) (s : State) : Host.Outcome State Fault Refusal := runLatchB 0 d s

/-- Attenuation 0 (R305). -/
def execLatch1 (d : BitVec 4) (s : State) : Host.Outcome State Fault Refusal := runLatchB 1 d s

/-- Tone 1 period, low bits (R304). -/
def execLatch2 (d : BitVec 4) (s : State) : Host.Outcome State Fault Refusal := runLatchB 2 d s

/-- Attenuation 1 (R305). -/
def execLatch3 (d : BitVec 4) (s : State) : Host.Outcome State Fault Refusal := runLatchB 3 d s

/-- Tone 2 period, low bits (R304). -/
def execLatch4 (d : BitVec 4) (s : State) : Host.Outcome State Fault Refusal := runLatchB 4 d s

/-- Attenuation 2 (R305). -/
def execLatch5 (d : BitVec 4) (s : State) : Host.Outcome State Fault Refusal := runLatchB 5 d s

/-- Noise control (R306). -/
def execLatch6 (d : BitVec 4) (s : State) : Host.Outcome State Fault Refusal := runLatchB 6 d s

/-- Attenuation 3 (R305). -/
def execLatch7 (d : BitVec 4) (s : State) : Host.Outcome State Fault Refusal := runLatchB 7 d s

/-- Data byte (R302). -/
def execData (d : BitVec 6) (s : State) : Host.Outcome State Fault Refusal :=
  runStep s fun s => .done none { s with psgB := dataB s.cfg s.psgB d }

end Sys2Proof.Machine
end

