-- ==== Sys2Proof/Machine/Speech.lean ====
section
/-! DEFINITION. Speech core S: the microcontroller's contract, frame sequencing, excitation, lattice filter and native
tick (43_speech.md). -/

namespace Sys2Proof.Machine

/-! ### The microcontroller (R350 to R356) -/

/-- `LOAD_ADDRESS(addr)` (R351) on the core's own state: an address is taken only when none is waiting. -/
def offerAddress (p : Speech) (addr : Byte) : Speech :=
  if p.pending = none then { p with pending := some addr } else p

/-- `LOAD_ADDRESS(addr)` (R351). -/
def applyS (addr : Byte) (s : State) : State := { s with speech := offerAddress s.speech addr }

/-- `cfg.entry(a)` (R350): the configuration's table, and a free value where it gives none (log 5). -/
def entryState (cfg : Config) (a : Byte) : MicroState :=
  match cfg.entry.lookup a with
  | some m => m
  | none => Config.openEntry cfg.rom a

/-- The micro-instruction at a microcontroller state (R350): the configuration's table, and a free value where it gives
none (log 5). -/
def microInstr (cfg : Config) (ms : MicroState) : MicroInstr :=
  match cfg.micro.lookup ms with
  | some m => m
  | none => Config.openMicro cfg.rom ms

/-- The start of a phoneme (R352). -/
def startPhoneme (cfg : Config) (p : Speech) (a : Byte) : Speech :=
  { p with ms := entryState cfg a, halted := false, pending := none }

/-- A coefficient bank with the coefficients a frame names replaced (R355). -/
def loadCoefs (old : Six Coef) (new : Six (Option Coef)) : Six Coef := Six.zip (fun c n => n.getD c) old new

/-- `LoadFrame(F)` (R355): `cnt`, `z` and `rng` carry over. -/
def loadFrame (cfg : Config) (p : Speech) (fr : Frame) : Speech :=
  { p with
    rpt := fr.rpt.getD p.rpt
    per := fr.per.getD p.per
    ampRaw := fr.ampRaw.getD p.ampRaw
    amp := ampDecode cfg (fr.ampRaw.getD p.ampRaw)
    dAmp := fr.dAmp.getD p.dAmp
    dPer := fr.dPer.getD p.dPer
    interp := fr.interp.getD p.interp
    f := loadCoefs p.f fr.f
    b := loadCoefs p.b fr.b }

/-- How work inside core S ends: with a value, or at a raise, each with the core's state as it stands then. -/
inductive SpeechRes (α : Type) where
  | done (a : α) (p : Speech)
  | raised (f : Fault) (p : Speech)
deriving Repr

/-- What an outcome of `cfg.microStep` does to the core (R354): a frame is loaded, a halt stops the phoneme. -/
def takeOutcome (cfg : Config) (p : Speech) : MicroOutcome → Speech
  | .cont => p
  | .frame fr => loadFrame cfg p fr
  | .halt => { p with halted := true }

/-- One micro-instruction (R353) with its outcome taken. Its ROM reads come first, in order, each by `RomRead`; the first
one outside the ROM raises `RomRange` (R112) and nothing else of the instruction happens. -/
def microStep (cfg : Config) (p : Speech) : SpeechRes MicroOutcome :=
  let m := microInstr cfg p.ms
  match m.reads.find? (fun a => (romRead cfg a).isNone) with
  | some a => .raised (.romRange a) p
  | none => .done m.out (takeOutcome cfg { p with ms := m.next } m.out)

/-- `RUN_MICRO()` (R354) with `left = cfg.microFuel - used` micro-instructions still allowed. It returns the outcome that
ended it, a frame or a halt, and what is left. -/
def runMicro (cfg : Config) : Nat → Speech → SpeechRes (MicroOutcome × Nat)
  | 0, p => .raised (.microRunaway p.ms) p
  | left + 1, p =>
    match microStep cfg p with
    | .raised f p => .raised f p
    | .done .cont p => runMicro cfg left p
    | .done (.frame fr) p => .done (.frame fr, left) p
    | .done .halt p => .done (.halt, left) p

/-! ### Frame sequencing (R357) -/

/-- `NeedFrame()` (R357): true for Ready, false for Silent, with the micro-instructions left. Every pass of its loop but
the last runs at least one micro-instruction, so `passes = left + 1` passes suffice (log 18); past them RUN_MICRO would
raise at once. -/
def needFrame (cfg : Config) : Nat → Nat → Speech → SpeechRes (Bool × Nat)
  | 0, _, p => .raised (.microRunaway p.ms) p
  | passes + 1, left, p =>
    if 0 < p.rpt then .done (true, left) p
    else if p.halted then
      match p.pending with
      | none => .done (false, left) p
      | some a =>
        match runMicro cfg left (startPhoneme cfg p a) with
        | .raised f p => .raised f p
        | .done (_, left) p => needFrame cfg passes left p
    else
      match runMicro cfg left p with
      | .raised f p => .raised f p
      | .done (_, left) p => needFrame cfg passes left p

/-! ### Excitation (R358, R359, R365) -/

/-- `Interpolate()` (R359). -/
def interpolate (cfg : Config) (p : Speech) : Speech :=
  { p with
    ampRaw := p.ampRaw + p.dAmp
    per := p.per + p.dPer
    amp := ampDecode cfg (p.ampRaw + p.dAmp) }

/-- What happens at an excitation period boundary (R358): the repeat counter runs down, the delay line is cleared where
`cfg.zeroOnPeriod` says so. -/
def periodBoundary (cfg : Config) (p : Speech) : Speech :=
  { p with
    rpt := p.rpt - 1
    z0 := if cfg.zeroOnPeriod then Six.const 0 else p.z0
    z1 := if cfg.zeroOnPeriod then Six.const 0 else p.z1 }

/-- The interpolation that ends an excitation step with a period boundary (R358). -/
def interpolateIf (cfg : Config) (boundary : Bool) (p : Speech) : Speech :=
  if boundary && p.interp then interpolate cfg p else p

/-- `rng`'s step (R365). -/
def rngStep (cfg : Config) (x : BitVec 15) : BitVec 15 :=
  (x >>> 1) ^^^ (if x.getLsbD 0 then cfg.sTaps else 0)

/-- The voiced branch of `Excite()` (R358): one pulse each pitch period. -/
def exciteVoiced (cfg : Config) (p : Speech) : Int × Speech :=
  if p.cnt ≤ 0 then
    (p.amp, interpolateIf cfg true (periodBoundary cfg { p with cnt := p.cnt + p.per.toNat }))
  else (0, { p with cnt := p.cnt - 1 })

/-- The unvoiced branch of `Excite()` (R358): noise of height `amp`. -/
def exciteNoise (cfg : Config) (p : Speech) : Int × Speech :=
  let boundary := decide (p.cnt - 1 ≤ 0)
  let p1 :=
    if boundary then periodBoundary cfg { p with cnt := (cfg.noisePer : Int) } else { p with cnt := p.cnt - 1 }
  let e := if p.rng.getLsbD 0 then p.amp else -p.amp
  (e, interpolateIf cfg boundary { p1 with rng := rngStep cfg p.rng })

/-- `Excite()` (R358): the excitation and the core after it; the frame has expired when `rpt <= 0` then. -/
def excite (cfg : Config) (p : Speech) : Int × Speech :=
  if p.per = 0 then exciteNoise cfg p else exciteVoiced cfg p

/-! ### Lattice filter (R361, R362) -/

/-- One two-pole section (R361): the section's new `s`. -/
def lattice2 (cfg : Config) (s : BitVec 16) (f b : Coef) (z0 z1 : BitVec 16) : BitVec 16 :=
  wrap16 (s.toInt + asr (b.toInt * z1.toInt) cfg.bShift + asr (f.toInt * z0.toInt) cfg.fShift)

/-- The six sections' outputs for the excitation `e` (R361). -/
def latticeOuts (cfg : Config) (p : Speech) (e : Int) : Six (BitVec 16) :=
  let y0 := lattice2 cfg (wrap16 e) p.f.s0 p.b.s0 p.z0.s0 p.z1.s0
  let y1 := lattice2 cfg y0 p.f.s1 p.b.s1 p.z0.s1 p.z1.s1
  let y2 := lattice2 cfg y1 p.f.s2 p.b.s2 p.z0.s2 p.z1.s2
  let y3 := lattice2 cfg y2 p.f.s3 p.b.s3 p.z0.s3 p.z1.s3
  let y4 := lattice2 cfg y3 p.f.s4 p.b.s4 p.z0.s4 p.z1.s4
  let y5 := lattice2 cfg y4 p.f.s5 p.b.s5 p.z0.s5 p.z1.s5
  ⟨y0, y1, y2, y3, y4, y5⟩

/-- `Lattice(e)` (R361): the output and the core with its delay line shifted. -/
def lattice (cfg : Config) (p : Speech) (e : Int) : Int × Speech :=
  let ys := latticeOuts cfg p e
  (ys.s5.toInt, { p with z0 := ys, z1 := p.z0 })

/-! ### TICK of core S (R360) -/

/-- The level of one native tick (R360). An expired excitation step goes on with the next frame; every such pass after the
first runs a micro-instruction or ends, so `passes = cfg.microFuel + 2` passes suffice (log 18). -/
def speechLevel (cfg : Config) : Nat → Nat → Speech → SpeechRes Int
  | 0, _, p => .raised (.microRunaway p.ms) p
  | passes + 1, left, p =>
    match needFrame cfg (left + 1) left p with
    | .raised f p => .raised f p
    | .done (false, _) p => .done 0 p
    | .done (true, left) p =>
      let ex := excite cfg p
      if ex.2.rpt ≤ 0 then speechLevel cfg passes left ex.2
      else
        let y := lattice cfg ex.2 ex.1
        .done (asr y.1 cfg.speechOutShift) y.2

/-- `TICK(S)` (R360). -/
def tickS (s : State) : Res Unit :=
  match speechLevel s.cfg (s.cfg.microFuel + 2) s.cfg.microFuel s.speech with
  | .raised f p => .raised f { s with speech := p }
  | .done level p => putSample .S level { s with speech := p }

/-- `FILTER_UPDATE(n)` (R372): `n` consecutive native ticks. -/
def filterUpdate : Nat → State → Res Unit
  | 0, s => .done () s
  | n + 1, s =>
    match tickS s with
    | .raised f s => .raised f s
    | .done _ s => filterUpdate n s

/-! ### The meanings -/

/-- LOAD_ADDRESS as an operation of its own (R351, log 10). -/
def execLoadAddress (addr : Byte) (s : State) : Host.Outcome State Fault Refusal :=
  runStep s fun s => .done none (applyS addr s)

/-- The row LOAD of format SADDR (R144): applying it performs LOAD_ADDRESS (R351, log 16). -/
def execLoad (addr : Byte) (s : State) : Host.Outcome State Fault Refusal :=
  runStep s fun s => .done none (applyS addr s)

/-- RUN_MICRO as an operation of its own (R354), with `used = 0` at its start (log 17). -/
def execRunMicro (s : State) : Host.Outcome State Fault Refusal :=
  runStep s fun s =>
    match runMicro s.cfg s.cfg.microFuel s.speech with
    | .raised f p => .raised f { s with speech := p }
    | .done (o, _) p => .done (some ⟨.ok, .outcome o⟩) { s with speech := p }

/-- One micro-instruction as a step of its own (R353), its outcome taken as RUN_MICRO takes it (R354, log 17). -/
def execMicro (s : State) : Host.Outcome State Fault Refusal :=
  runStep s fun s =>
    match microStep s.cfg s.speech with
    | .raised f p => .raised f { s with speech := p }
    | .done o p => .done (some ⟨.ok, .outcome o⟩) { s with speech := p }

/-- FILTER_UPDATE as an operation of its own (R372, log 10, log 18). -/
def execFilterUpdate (n : BitVec 32) (s : State) : Host.Outcome State Fault Refusal :=
  runStep s fun s =>
    match filterUpdate n.toNat s with
    | .raised f s => .raised f s
    | .done _ s => .done none s

end Sys2Proof.Machine
end

