-- ==== Sys2Proof/Machine/Queue.lean ====
section
/-! DEFINITION. The deferred-update queue, the pump and the generation loop, and the commands that drive them
(40_ring_buffer.md R216, 44_update_queue.md). -/

namespace Sys2Proof.Machine

/-! ### APPLY and TICK dispatch -/

/-- `APPLY(c, addr, val)` for an address `validAddr` accepts (R405). -/
def applyTo (c : CoreId) (addr : Nat) (val : Byte) (s : State) : State :=
  match c with
  | .A => applyA (Fin.ofNat 16 addr) val s
  | .B => applyB val s
  | .S => applyS val s

/-- `TICK(c)` (R415). -/
def tick (c : CoreId) (s : State) : Res Unit :=
  match c with
  | .A => tickA s
  | .B => tickB s
  | .S => tickS s

/-! ### Pump (R216) -/

/-- One converted sample into the current block `b` of the source in slot `k` (R216); the block is queued when full. -/
def pumpSample (c : CoreId) (k b : Nat) (d : Source) (s : State) : Res Unit :=
  let r := drain c s
  let blk := blockOf d b
  let blk' : Block := ⟨memWrite blk.data blk.fill (r.1.getD (chanOf s c).last), blk.fill + 1⟩
  let d' := { withBlock d b blk' with newSamples := d.newSamples + 1 }
  let s' := withSlot r.2 k (some d')
  if blk'.fill = s.cfg.blockLen then putWorkBuffer k s' else .done () s'

/-- `Pump(c)` (R216), the loop bounded by `n`. A pass takes `limit` from `index + samples_available * increment`, so
`pumpBound` passes suffice (log 18). -/
def pumpLoop (c : CoreId) : Nat → State → Res Status
  | 0, s => .done .ok s
  | n + 1, s =>
    if !canDrain s.cfg (chanOf s c) then .done .ok s
    else
      match sourceOf s c with
      | none => pumpLoop c n (drain c s).2
      | some (k, _) =>
        match getWorkBuffer k s with
        | (.held, s) => .done .held s
        | (.noBuffer, s) => .done .stalled s
        | (_, s) =>
          match sourceAt s k with
          | none => .done .ok s
          | some d =>
            match d.current with
            | none => .done .ok s
            | some b =>
              match pumpSample c k b d s with
              | .raised f s => .raised f s
              | .done _ s => pumpLoop c n s

/-- The samples the converter can give from the ring as it stands (R214). -/
def pumpBound (cfg : Config) (x : Channel) : Nat := (x.index + samplesAvailable cfg x * x.increment) / x.limit

/-- `Pump(c)` (R216). -/
def pump (c : CoreId) (s : State) : Res Status := pumpLoop c (pumpBound s.cfg (chanOf s c)) s

/-! ### Generate (R415) -/

/-- The state after one tick of debt is worked off (R415). -/
def payTick (c : CoreId) (s : State) : State := withChan s c { chanOf s c with debt := (chanOf s c).debt - 1 }

/-- `Generate(c)` with `n` ticks of debt (R415). -/
def generateLoop (c : CoreId) : Nat → State → Res Status
  | 0, s =>
    match pump c s with
    | .raised f s => .raised f s
    | .done .held s => .done .held s
    | .done _ s => .done .ok s
  | n + 1, s =>
    match pump c s with
    | .raised f s => .raised f s
    | .done .held s => .done .held s
    | .done _ s =>
      if spaceRemaining s.cfg (chanOf s c) = 0 then .done .full s
      else
        match tick c s with
        | .raised f s => .raised f s
        | .done _ s => generateLoop c n (payTick c s)

/-- `Generate(c)` (R415). -/
def generate (c : CoreId) (s : State) : Res Status := generateLoop c (chanOf s c).debt s

/-! ### ITERATE (R411) -/

/-- The due writes of a queue, in queue order, applied to the core (R403, R411); each leaves the queue as it is applied. -/
def applyDue (c : CoreId) (h : Nat) : List QEntry → State → State
  | [], s => s
  | e :: rest, s =>
    if e.ts ≤ h then applyDue c h rest (applyTo c e.addr e.val (withChan s c { chanOf s c with q := rest })) else s

/-- Cycles to ticks (R411, R413): the horizon is moved and the whole ticks are added to the debt. -/
def accrue (c : CoreId) (h : Nat) (s : State) : State :=
  let x := chanOf s c
  let acc := x.cycAcc + (h - x.lastH) * tickNum s c
  let per := s.cpuHz * tickDen s c
  withChan s c { x with debt := x.debt + acc / per, cycAcc := acc % per, lastH := h }

/-- What ITERATE returns (R411, R373): the hold if there is one, and `ready(S)` for core S (log 15). -/
def iterateReply (c : CoreId) (st : Status) (s : State) : Reply :=
  ⟨if st = .held then .held else .ok, if c = .S then .ready (ready s) else .none⟩

/-- `ITERATE(c, h)` (R411). -/
def iterate (c : CoreId) (h : Nat) (s : State) : Res Reply :=
  if h < (chanOf s c).lastH then .raised (.timestampOrder c h) s
  else
    match generate c (accrue c h (applyDue c h (chanOf s c).q s)) with
    | .raised f s => .raised f s
    | .done st s => .done (iterateReply c st s) s

/-! ### WRITE, ADVANCE, RESUME, CLOCK -/

/-- `WRITE(c, ts, addr, val)` (R401), its checks in the order of R560. -/
def write (c : CoreId) (ts addr : Nat) (val : Byte) (s : State) : Res (Option Reply) :=
  let x := chanOf s c
  if !x.attached then .done (statusOnly .ignored) s
  else if !validAddr c addr then .done (statusOnly .ignored) s
  else if s.cfg.queueCap ≤ x.q.length then .raised (.queueOverflow c) s
  else if ts < x.lastTs then .raised (.timestampOrder c ts) s
  else .done (statusOnly .ok) (withChan s c { x with q := x.q ++ [⟨ts, addr, val⟩], lastTs := ts })

/-- `ADVANCE(c, h)` (R412). -/
def advance (c : CoreId) (h : Nat) (s : State) : Res (Option Reply) :=
  let x := chanOf s c
  if !x.attached then
    if h < x.lastH then .raised (.timestampOrder c h) s
    else .done (statusOnly .ok) (withChan s c { x with lastH := h })
  else if syncOf s c then
    match iterate c h s with
    | .raised f s => .raised f s
    | .done r s => .done (some r) s
  else if h < max x.lastH (x.postedH.getD x.lastH) then .raised (.timestampOrder c h) s
  else .done (some ⟨.ok, if c = .S then .ready (ready s) else .none⟩) (withChan s c { x with postedH := some h })

/-- `RESUME` of the source in slot `k` (R416). -/
def resumeOn (k : Nat) (s : State) : Res (Option Reply) :=
  match sourceAt s k with
  | none => .done (statusOnly .ignored) s
  | some d =>
    match generate d.core { s with holdS := none } with
    | .raised f s => .raised f s
    | .done st s => .done (statusOnly st) s

/-- CLOCK's work for one core (R425). -/
def clockCore (hz old : Nat) (c : CoreId) (s : State) : State :=
  let x := chanOf s c
  let s := withChan s c { x with cycAcc := x.cycAcc * hz / old }
  if syncOf s c then configureCoreRate c s else s

/-- `CLOCK(hz)` (R425). -/
def clock (hz : Nat) (s : State) : Status × State :=
  if hz = 0 then (.configRejected, s)
  else (.ok, clockCore hz s.cpuHz .S (clockCore hz s.cpuHz .B (clockCore hz s.cpuHz .A { s with cpuHz := hz })))

/-! ### The meanings -/

/-- WRITE (R401). -/
def execWrite (core : BitVec 2) (ts : BitVec 64) (addr val : Byte) (s : State) : Host.Outcome State Fault Refusal :=
  runCommandS s fun s => onCore core s fun c s => write c ts.toNat addr.toNat val s

/-- ADVANCE (R412). -/
def execAdvance (core : BitVec 2) (h : BitVec 64) (s : State) : Host.Outcome State Fault Refusal :=
  runCommandS s fun s => onCore core s fun c s => advance c h.toNat s

/-- CLOCK (R425). -/
def execClock (hz : BitVec 32) (s : State) : Host.Outcome State Fault Refusal :=
  runCommandS s fun s =>
    let r := clock hz.toNat s
    .done (statusOnly r.1) r.2

/-- RESUME (R416): ignored when nothing is held; while S is held, a step only once the source has a clean block. -/
def execResume (s : State) : Host.Outcome State Fault Refusal :=
  match s.holdS with
  | none => runCommandS s fun s => .done (statusOnly .ignored) s
  | some k => if resumeEnabled s k then runStep s (resumeOn k) else runCommandS s (resumeOn k)

/-- ITERATE as an operation of its own (R411, log 10). -/
def execIterate (core : BitVec 2) (h : BitVec 64) (s : State) : Host.Outcome State Fault Refusal :=
  runStep s fun s => onCore core s fun c s =>
    match iterate c h.toNat s with
    | .raised f s => .raised f s
    | .done r s => .done (some r) s

/-- APPLY as an operation of its own (R405, log 10); an address `validAddr` rejects is ignored (log 12). -/
def execApply (core : BitVec 2) (addr val : Byte) (s : State) : Host.Outcome State Fault Refusal :=
  runStep s fun s => onCore core s fun c s =>
    if validAddr c addr.toNat then .done none (applyTo c addr.toNat val s) else .done (statusOnly .ignored) s

/-- TICK as an operation of its own (R415, log 10). -/
def execTick (core : BitVec 2) (s : State) : Host.Outcome State Fault Refusal :=
  runStep s fun s => onCore core s fun c s =>
    match tick c s with
    | .raised f s => .raised f s
    | .done _ s => .done none s

end Sys2Proof.Machine
end

