-- ==== Sys2Proof/Machine/Mixer.lean ====
section
/-! DEFINITION. The mixing agent's steps and the master controls (45_pool_mixer.md R470 to R481). -/

namespace Sys2Proof.Machine

/-! ### MIX_SOURCE (R471) -/

/-- A descriptor as MIX_SOURCE first finds it: a Quiescent source with a dirty block starts Buffering, its holdoff
reloaded. -/
def wakeSource (cfg : Config) (d : Source) : Source :=
  if d.st = .quiescent ∧ d.dirty ≠ [] then { d with st := .buffering, holdoffCnt := holdoffSamples cfg d.holdoffMs } else d

/-- A starved source (R471). -/
def starveSource (cfg : Config) (d : Source) : Source :=
  { d with starve := d.starve + 1, st := if cfg.starveLimit ≤ d.starve + 1 then .quiescent else d.st }

/-- The codes at positions `i` to `i + n - 1` of a block, discarded while the holdoff lasts and added to the accumulator
then: the holdoff left and the accumulator. -/
def mixCodes (data : Memory) : Nat → Nat → Nat → List Int → Nat × List Int
  | 0, _, hold, macc => (hold, macc)
  | n + 1, i, hold, macc =>
    if 0 < hold then mixCodes data n (i + 1) (hold - 1) macc
    else mixCodes data n (i + 1) hold (macc.modify i (fun m => m + levelOf (memRead data i)))

/-- A source one of whose blocks has been mixed, with the holdoff left (R471). -/
def returnBlock (d : Source) (b : Nat) (rest : List Nat) (hold : Nat) : Source :=
  { d with
    dirty := rest
    starve := 0
    holdoffCnt := hold
    st := if d.st = .buffering ∧ hold = 0 then .playing else d.st
    clean := d.clean ++ [b] }

/-- `MIX_SOURCE(k)` (R471). -/
def mixSource (k : Nat) (s : State) : Status × State :=
  match sourceAt s k with
  | none => (.ok, s)
  | some d0 =>
    let d := wakeSource s.cfg d0
    if d.st = .quiescent then (.ok, s)
    else
      match d.dirty with
      | [] => (.starved, withSlot s k (some (starveSource s.cfg d)))
      | b :: rest =>
        let r := mixCodes (blockOf d b).data (blockOf d b).fill 0 d.holdoffCnt s.macc
        (.ok, { withSlot s k (some (returnBlock d b rest r.1)) with macc := r.2 })

/-! ### EMIT (R473) -/

/-- The host code of one accumulator value. -/
def hostCode (s : State) (m : Int) : Byte := if s.muted then 127 else codeOf (Int.tdiv (m * s.vol) 100)

/-- The host block EMIT delivers. -/
def hostBlock (s : State) : List Byte := (List.range s.cfg.blockLen).map fun i => hostCode s (s.macc.getD i 0)

/-- `EMIT` (R473). -/
def emit (s : State) : State :=
  { s with macc := List.replicate s.cfg.blockLen 0, out := s.out ++ [hostBlock s] }

/-! ### The steps of an UPDATE (R470) -/

/-- The steps of one UPDATE, in order. -/
def updateSteps (cfg : Config) : List MStep :=
  [.iterate .A, .iterate .B, .iterate .S] ++ (List.range cfg.maxSources).map .mix ++ [.emit]

/-- The horizon UPDATE iterates core `c` to, where step 1 of R470 has a step for it. -/
def dueHorizon (s : State) (c : CoreId) : Option Nat :=
  if (chanOf s c).attached && !syncOf s c then (chanOf s c).postedH else none

/-- `ITERATE(c, h); postedH(c) <- none` (R470). -/
def iteratePosted (c : CoreId) (h : Nat) (s : State) : Res (Option Reply) :=
  match iterate c h s with
  | .raised f s => .raised f s
  | .done _ s => .done none (withChan s c { chanOf s c with postedH := none })

/-- The next step of the mixing agent (R470). Its place is taken at the moment of the step, so that what agent S did in
between counts (R618, R619); a core that then has nothing to iterate makes no step. -/
def mixerLoop : List MStep → State → Res (Option Reply)
  | [], s => .done none { s with mSeq := [] }
  | .iterate c :: rest, s =>
    match dueHorizon s c with
    | none => mixerLoop rest s
    | some h => iteratePosted c h { s with mSeq := rest }
  | .mix k :: rest, s => .done none (mixSource k { s with mSeq := rest }).2
  | .emit :: rest, s => .done none (emit { s with mSeq := rest })

/-- One step of the mixing agent's UPDATE. -/
def mixerStep (s : State) : Host.Outcome State Fault Refusal := runStep s (mixerLoop s.mSeq)

/-! ### The meanings -/

/-- UPDATE (R470): the mixing agent takes up its sequence of steps, each of which is a step of its own that steps of S may
come between; an UPDATE issued before the last one is over follows it (log 3). R470 gives UPDATE no return and R565 lists
Ok for every command: DESIGN CHOICE (log 24), unsafe for a claim about the record `replies`: UPDATE records no status. -/
def execUpdate (s : State) : Host.Outcome State Fault Refusal :=
  runStep s fun s => .done none { s with mSeq := s.mSeq ++ updateSteps s.cfg }

/-- MIX_SOURCE as a step of its own (R471, log 10); its status is given to no agent. -/
def execMixSource (handle : Byte) (s : State) : Host.Outcome State Fault Refusal :=
  runStep s fun s => .done none (mixSource handle.toNat s).2

/-- EMIT as a step of its own (R473, log 10). -/
def execEmit (s : State) : Host.Outcome State Fault Refusal := runStep s fun s => .done none (emit s)

/-- VOLUME (R480). -/
def execVolume (pct : Byte) (s : State) : Host.Outcome State Fault Refusal :=
  runCommandS s fun s =>
    if 100 < pct.toNat then .done (statusOnly .ignored) s else .done (statusOnly .ok) { s with vol := pct.toNat }

/-- MUTE (R481). -/
def execMute (on : Bool) (s : State) : Host.Outcome State Fault Refusal :=
  runCommandS s fun s => .done (statusOnly .ok) { s with muted := on }

end Sys2Proof.Machine
end

