-- ==== Sys2Proof/Machine/Dispatch.lean ====
section
/-! DEFINITION. The meaning of every instruction: one arm per constructor of Instr. -/

namespace Sys2Proof.Machine

def exec (i : Instr) (s : State) : Host.Outcome State Fault Refusal :=
  match i with
  | .write core ts addr val => Sys2Proof.Machine.execWrite core ts addr val s
  | .advance core h => Sys2Proof.Machine.execAdvance core h s
  | .frame core => Sys2Proof.Machine.execFrame core s
  | .clock hz => Sys2Proof.Machine.execClock hz s
  | .register core sync blocking holdoffMs => Sys2Proof.Machine.execRegister core sync blocking holdoffMs s
  | .deregister handle => Sys2Proof.Machine.execDeregister handle s
  | .volume pct => Sys2Proof.Machine.execVolume pct s
  | .mute on => Sys2Proof.Machine.execMute on s
  | .update => Sys2Proof.Machine.execUpdate s
  | .resume => Sys2Proof.Machine.execResume s
  | .putSample core level => Sys2Proof.Machine.execPutSample core level s
  | .configureRate core dst src => Sys2Proof.Machine.execConfigureRate core dst src s
  | .samplesAvailable core => Sys2Proof.Machine.execSamplesAvailable core s
  | .spaceRemaining core => Sys2Proof.Machine.execSpaceRemaining core s
  | .drain core => Sys2Proof.Machine.execDrain core s
  | .getWorkBuffer handle => Sys2Proof.Machine.execGetWorkBuffer handle s
  | .putWorkBuffer handle => Sys2Proof.Machine.execPutWorkBuffer handle s
  | .iterate core h => Sys2Proof.Machine.execIterate core h s
  | .apply core addr val => Sys2Proof.Machine.execApply core addr val s
  | .tick core => Sys2Proof.Machine.execTick core s
  | .loadAddress addr => Sys2Proof.Machine.execLoadAddress addr s
  | .runMicro => Sys2Proof.Machine.execRunMicro s
  | .filterUpdate n => Sys2Proof.Machine.execFilterUpdate n s
  | .mixSource handle => Sys2Proof.Machine.execMixSource handle s
  | .emit => Sys2Proof.Machine.execEmit s
  | .r0 val => Sys2Proof.Machine.execR0 val s
  | .r1 val => Sys2Proof.Machine.execR1 val s
  | .r2 val => Sys2Proof.Machine.execR2 val s
  | .r3 val => Sys2Proof.Machine.execR3 val s
  | .r4 val => Sys2Proof.Machine.execR4 val s
  | .r5 val => Sys2Proof.Machine.execR5 val s
  | .r6 val => Sys2Proof.Machine.execR6 val s
  | .r7 val => Sys2Proof.Machine.execR7 val s
  | .r8 val => Sys2Proof.Machine.execR8 val s
  | .r9 val => Sys2Proof.Machine.execR9 val s
  | .r10 val => Sys2Proof.Machine.execR10 val s
  | .r11 val => Sys2Proof.Machine.execR11 val s
  | .r12 val => Sys2Proof.Machine.execR12 val s
  | .r13 val => Sys2Proof.Machine.execR13 val s
  | .r14 val => Sys2Proof.Machine.execR14 val s
  | .r15 val => Sys2Proof.Machine.execR15 val s
  | .latch0 d => Sys2Proof.Machine.execLatch0 d s
  | .latch1 d => Sys2Proof.Machine.execLatch1 d s
  | .latch2 d => Sys2Proof.Machine.execLatch2 d s
  | .latch3 d => Sys2Proof.Machine.execLatch3 d s
  | .latch4 d => Sys2Proof.Machine.execLatch4 d s
  | .latch5 d => Sys2Proof.Machine.execLatch5 d s
  | .latch6 d => Sys2Proof.Machine.execLatch6 d s
  | .latch7 d => Sys2Proof.Machine.execLatch7 d s
  | .data d => Sys2Proof.Machine.execData d s
  | .load addr => Sys2Proof.Machine.execLoad addr s
  | .micro => Sys2Proof.Machine.execMicro s

end Sys2Proof.Machine
end

