-- ==== Sys2Proof/Machine/Fetch.lean ====
section
/-! DEFINITION. Which step comes next: the block fetches no program (R602), so its next step is the next word that an
agent issues, or the mixing agent's next step of an UPDATE. -/

namespace Sys2Proof.Machine

/-- What the next step of the block is. -/
inductive Move where
  /-- No agent has a step: a fault is recorded (R550). -/
  | stopped (f : Fault)
  /-- The mixing agent takes the next step of its UPDATE. -/
  | mixer (s : State)
  /-- The instruction that has just been issued is run, on the state without it. -/
  | run (i : Instr) (s : State)
  /-- Nothing is issued, or no command. -/
  | nothing (r : Refusal)

/-- The next step (R120): the issued words come in their order, each after the number of mixing steps it waits for;
with nothing issued an UPDATE under way goes on by itself (log 1, log 2). -/
def nextMove (s : State) : Move :=
  match s.fault, s.feed with
  | some f, _ => .stopped f
  | none, [] => if s.mSeq.isEmpty then .nothing .noIssue else .mixer s
  | none, e :: rest =>
    if !s.mSeq.isEmpty && decide (0 < e.mFirst) then
      .mixer { s with feed := { e with mFirst := e.mFirst - 1 } :: rest }
    else
      match decode e.enc with
      | .instr i => .run i { s with feed := rest }
      | .reject why => .nothing (.notACommand why)

/-- The issue of a word of the opcode table, at once. A word of no format is issued as it stands and is no command. -/
def issueOfTable (nbits w : Nat) : Issue := ⟨(tableWord nbits w).getD ⟨.cmd, nbits, w⟩, 0⟩

end Sys2Proof.Machine
end

