-- ==== Sys2Proof/Machine/Step.lean ====
section
/-! DEFINITION. One step of the block. -/

namespace Sys2Proof.Machine

/-- One atomic step of one agent (R10, R120). -/
def step (s : State) : Host.Outcome State Fault Refusal :=
  match nextMove s with
  | .stopped f => .fault f
  | .mixer t => mixerStep t
  | .run i t => exec i t
  | .nothing r => .refused r

/-- The state in which a word of the opcode table is the next to be issued, before all others and at once (log 1). -/
def State.withFetchWord (s : State) (nbits w : Nat) : State := { s with feed := issueOfTable nbits w :: s.feed }

end Sys2Proof.Machine
end

