-- ==== Sys2Proof/WellFormed.lean ====
section
/-! DEFINITION. Which operands an operation's rule takes, and which configurations R11 admits. -/

namespace Sys2Proof

/-- The core field names a core: "the value 3 names no core" (R141). -/
def coreNamed (core : BitVec 2) : Bool := core ≠ 3

/-- Every operand is one the operation's rule takes. The commands WRITE, ADVANCE, FRAME and REGISTER take every core
field (R147 says what 3 does); the datapath operations take a core in {A, B, S}; APPLY "is never called with an address
`validAddr` rejects" (R405). The machine runs an ill-formed operation too, as an ignored one (log 11, log 12). -/
def Instr.wf : Instr → Bool
  | .putSample core _ => coreNamed core
  | .configureRate core _ _ => coreNamed core
  | .samplesAvailable core => coreNamed core
  | .spaceRemaining core => coreNamed core
  | .drain core => coreNamed core
  | .iterate core _ => coreNamed core
  | .tick core => coreNamed core
  | .apply core addr _ => coreNamed core && (if core = 0 then decide (addr.toNat < 16) else decide (addr = 0))
  | .write .. => true
  | .advance .. => true
  | .frame _ => true
  | .clock _ => true
  | .register .. => true
  | .deregister _ => true
  | .volume _ => true
  | .mute _ => true
  | .update => true
  | .resume => true
  | .getWorkBuffer _ => true
  | .putWorkBuffer _ => true
  | .loadAddress _ => true
  | .runMicro => true
  | .filterUpdate _ => true
  | .mixSource _ => true
  | .emit => true
  | .r0 _ => true
  | .r1 _ => true
  | .r2 _ => true
  | .r3 _ => true
  | .r4 _ => true
  | .r5 _ => true
  | .r6 _ => true
  | .r7 _ => true
  | .r8 _ => true
  | .r9 _ => true
  | .r10 _ => true
  | .r11 _ => true
  | .r12 _ => true
  | .r13 _ => true
  | .r14 _ => true
  | .r15 _ => true
  | .latch0 _ => true
  | .latch1 _ => true
  | .latch2 _ => true
  | .latch3 _ => true
  | .latch4 _ => true
  | .latch5 _ => true
  | .latch6 _ => true
  | .latch7 _ => true
  | .data _ => true
  | .load _ => true
  | .micro => true

/-- `cfg.dstRate * tD < 2^48` and `tN < 2^48` for the tick rate `tN / tD` of core `c`, asynchronous (R41). -/
def Config.asyncRateFits (cfg : Config) (c : CoreId) : Bool :=
  decide (cfg.dstRate * Machine.tickDivider c < 2 ^ 48) && decide (Machine.chipClock cfg c < 2 ^ 48)

/-- The greatest `cpuHz` a run can reach (R420): the one at reset, or what CLOCK's 32-bit field can set. -/
def Config.cpuHzBound (cfg : Config) : Nat := max cfg.cpuHz0 (2 ^ 32 - 1)

/-- The same of core `c` with a synchronous source (R41), for every reachable `cpuHz`. -/
def Config.syncRateFits (cfg : Config) (c : CoreId) : Bool :=
  decide (cfg.dstRate * (cfg.clkDen.get c * Machine.tickDivider c) < 2 ^ 48) &&
    decide (cfg.cpuHzBound * cfg.clkNum.get c < 2 ^ 48)

/-- The rates of every core fit R420's 48-bit fields for every reachable `cpuHz`. -/
def Config.ratesFit (cfg : Config) : Bool :=
  [CoreId.A, CoreId.B, CoreId.S].all fun c => cfg.asyncRateFits c && cfg.syncRateFits c

/-- The ranges of R11, the constraint of R313 and the width of R420. A configuration outside them "may be rejected before
the run" (93 U10 to U12); the machine does not test it at run time (log 21). Of `snTaps` only bit 0 is constrained, as
R313 constrains it. DESIGN CHOICE (log 28), safe: a mask with bits at or above `snLfsrWidth` is admitted. -/
def Config.wf (c : Config) : Bool :=
  decide (1 ≤ c.ringBits) && decide (c.ringBits ≤ 24) && decide (0 < c.dstRate) && decide (0 < c.cpuHz0) &&
    decide (0 < c.chipHzA) && decide (0 < c.chipHzB) &&
    ([CoreId.A, CoreId.B, CoreId.S].all fun k => decide (0 < c.clkNum.get k) && decide (0 < c.clkDen.get k)) &&
    decide (0 < c.speechRate) &&
    (c.ampTableA.toList.all fun v => decide (0 ≤ v) && decide (v ≤ 42)) &&
    (c.ampTableB.toList.all fun v => decide (0 ≤ v) && decide (v ≤ 31)) &&
    (decide (c.snZeroPeriod = 1) || decide (c.snZeroPeriod = 1024)) &&
    decide (2 ≤ c.snLfsrWidth) && decide (c.snLfsrWidth ≤ 16) &&
    c.snTaps.getLsbD 0 &&
    decide (0 < c.snNoiseDiv.c0) && decide (0 < c.snNoiseDiv.c1) && decide (0 < c.snNoiseDiv.c2) &&
    decide (0 < c.microFuel) && decide (0 < c.noisePer) && decide (0 < c.queueCap) && decide (0 < c.poolBlocks) &&
    decide (0 < c.blockLen) && decide (0 < c.maxSources) && decide (0 < c.starveLimit) &&
    decide (c.initVolume ≤ 100) && c.ratesFit

end Sys2Proof
end

