-- ==== Sys2Proof/Safety.lean ====
section
/-! DEFINITION. What the claims about the block are stated in: when an agent has a step, what a legal state is, and what
the shared operations leave behind. -/

namespace Sys2Proof.Safety

open Sys2Proof.Machine

/-! ### When an agent has a step -/

/-- No fault is recorded: the mixing agent and the datapath operations have a step (R550). -/
def Running (s : State) : Prop := s.fault = none

/-- Agent S has a step other than RESUME: no fault is recorded and S is not held (R64, R550). -/
def Free (s : State) : Prop := s.fault = none ∧ s.holdS = none

/-- The core field of a core (R141). -/
def coreField : CoreId → BitVec 2
  | .A => 0
  | .B => 1
  | .S => 2

/-- The state that has answered its issuer with a status and a value (R565). -/
def answer (st : Status) (v : RetVal) (s : State) : State := { s with replies := s.replies ++ [⟨st, v⟩] }

/-- The addresses WRITE accepts (R401). -/
def AddressValid : CoreId → Byte → Prop
  | .A, addr => addr.toNat < 16
  | .B, addr => addr = 0
  | .S, addr => addr = 0

/-- The AREG row of register `n` (R142). -/
def aregRow (n : Fin 16) (v : Byte) : Instr :=
  match n with
  | 0 => .r0 v
  | 1 => .r1 v
  | 2 => .r2 v
  | 3 => .r3 v
  | 4 => .r4 v
  | 5 => .r5 v
  | 6 => .r6 v
  | 7 => .r7 v
  | 8 => .r8 v
  | 9 => .r9 v
  | 10 => .r10 v
  | 11 => .r11 v
  | 12 => .r12 v
  | 13 => .r13 v
  | 14 => .r14 v
  | _ => .r15 v

/-- The BBYTE latch row of register `r` (R143). -/
def latchRow (r : Fin 8) (d : BitVec 4) : Instr :=
  match r with
  | 0 => .latch0 d
  | 1 => .latch1 d
  | 2 => .latch2 d
  | 3 => .latch3 d
  | 4 => .latch4 d
  | 5 => .latch5 d
  | 6 => .latch6 d
  | 7 => .latch7 d

/-! ### Legal states -/

/-- Every ring and every block is in canonical form. -/
def MemoryCanonical (s : State) : Prop :=
  (∀ c, (chanOf s c).buf.wf = true) ∧ ∀ k d, sourceAt s k = some d → ∀ blk ∈ d.blocks, blk.data.wf = true

/-- The ring indices, the converter and the queue of a core are as R35, R37 and R38 bound them; `index` is below `limit`
where the converter decimates, and below the greater of `limit` and `increment` where it interpolates (log 27). -/
def ChannelLegal (cfg : Config) (x : Channel) : Prop :=
  x.head < 2 ^ cfg.ringBits ∧ x.tail < 2 ^ cfg.ringBits ∧
    0 < x.rateNum ∧ 0 < x.rateDen ∧ Nat.Coprime x.rateNum x.rateDen ∧ x.increment = x.rateNum ∧ x.limit = x.rateDen ∧
    x.index < max x.limit x.increment ∧
    x.q.length ≤ cfg.queueCap ∧ (x.q.map QEntry.ts).Pairwise (· ≤ ·) ∧ ∀ e ∈ x.q, e.ts ≤ x.lastTs

/-- Core A's counters, noise register and envelope are as R46 to R48 bound them, and its unused register bits are 0
(R147). -/
def PsgALegal (a : PsgA) : Prop :=
  (∀ ch, 1 ≤ a.toneCnt.get ch ∧ a.toneCnt.get ch ≤ 4095) ∧ 1 ≤ a.noiseCnt ∧ a.noiseCnt ≤ 31 ∧ a.lfsr ≠ 0 ∧
    1 ≤ a.envCnt ∧ a.envCnt ≤ 65535 ∧ (a.envDir = 0 ∨ a.envDir = 15) ∧
    a.ra.r1 < 16 ∧ a.ra.r3 < 16 ∧ a.ra.r5 < 16 ∧ a.ra.r6 < 32 ∧ a.ra.r8 < 32 ∧ a.ra.r9 < 32 ∧ a.ra.r10 < 32 ∧
    a.ra.r13 < 16

/-- Core B's counters and noise register are as R51 and R313 bound them; the noise counter's upper bound is that of its
reload values (R312), which is within R51's 2048 where the configuration's dividers are (log 27). -/
def PsgBLegal (cfg : Config) (b : PsgB) : Prop :=
  (∀ ch, 1 ≤ b.toneCnt.get ch ∧ b.toneCnt.get ch ≤ 1024) ∧ 1 ≤ b.noiseCnt ∧
    b.noiseCnt ≤ max 1024 (max cfg.snNoiseDiv.c0 (max cfg.snNoiseDiv.c1 cfg.snNoiseDiv.c2)) ∧
    b.lfsr ≠ 0 ∧ b.lfsr.toNat < 2 ^ cfg.snLfsrWidth

/-- Every register lies in the range 10_state.md gives it. -/
def RangesLegal (s : State) : Prop :=
  s.cfg.wf = true ∧ 0 < s.cpuHz ∧ s.vol ≤ 100 ∧ s.macc.length = s.cfg.blockLen ∧ s.reg.length = s.cfg.maxSources ∧
    (∀ c, ChannelLegal s.cfg (chanOf s c)) ∧ PsgALegal s.psgA ∧ PsgBLegal s.cfg s.psgB

/-- The pool of a source: every block is in exactly one of `clean`, `dirty` and `current` (R62, R450, R456), no block
holds more than `cfg.blockLen` codes, and the current block has room. -/
def PoolLegal (cfg : Config) (d : Source) : Prop :=
  d.blocks.length = cfg.poolBlocks ∧ (d.clean ++ d.dirty ++ d.current.toList).Perm (List.range cfg.poolBlocks) ∧
    (∀ blk ∈ d.blocks, blk.fill ≤ cfg.blockLen) ∧ ∀ b, d.current = some b → (blockOf d b).fill < cfg.blockLen

/-- The playing state of a source (R472): its holdoff is used up when it plays and not before, and a source that is not
quiescent has starved for fewer than `cfg.starveLimit` updates in a row. -/
def PlayLegal (cfg : Config) (d : Source) : Prop :=
  (d.st = .playing → d.holdoffCnt = 0) ∧ (d.st = .buffering → 0 < d.holdoffCnt) ∧
    (d.st ≠ .quiescent → d.starve < cfg.starveLimit)

/-- The registry and the cores' handles name each other (R40, R60), every pool is legal, S is held only on a synchronous
blocking source (R567), and the tick fraction of an attached core is below one tick (R39). -/
def RegistryLegal (s : State) : Prop :=
  s.cfg.wf = true ∧ 0 < s.cpuHz ∧
    (∀ k d, sourceAt s k = some d →
      (chanOf s d.core).handle = some k ∧ (chanOf s d.core).attached = true ∧ PoolLegal s.cfg d ∧ PlayLegal s.cfg d) ∧
    (∀ c k, (chanOf s c).handle = some k → ∃ d, sourceAt s k = some d ∧ d.core = c) ∧
    (∀ k, s.holdS = some k → ∃ d, sourceAt s k = some d ∧ d.sync = true ∧ d.blocking = true) ∧
    ∀ c, (chanOf s c).attached = true → (chanOf s c).cycAcc < s.cpuHz * tickDen s c

/-- Every decay accumulator is within the bound of R106. -/
def DecayBounded (s : State) : Prop := ∀ c, |(chanOf s c).decay| ≤ 2 ^ 31

/-- The amplitude tables are within their ranges (R11). -/
def TablesFit (cfg : Config) : Prop :=
  (∀ v ∈ cfg.ampTableA.toList, 0 ≤ v ∧ v ≤ 42) ∧ ∀ v ∈ cfg.ampTableB.toList, 0 ≤ v ∧ v ≤ 31

/-! ### What a sample leaves in a core's channel -/

/-- `x'` is the channel `x` after one sample of level `level` has been stored (R101, R200 to R205). -/
def Stored (cfg : Config) (x : Channel) (level : Int) (x' : Channel) : Prop :=
  x' = { x with buf := x'.buf, head := (x.head + 1) % 2 ^ cfg.ringBits, decay := x'.decay } ∧
    x'.decay = (if x.tau = 0 then x.decay else x.decay - Int.tdiv (level * 65536 + x.decay) x.tau) ∧
    ((memRead x'.buf x.head).toNat : Int) =
      min 127 (max (-127) (if x.tau = 0 then level else level + Int.tdiv x'.decay 65536)) + 127 ∧
    ∀ a, a ≠ x.head → memRead x'.buf a = memRead x.buf a

/-- The address of the `i`-th sample stored from now on (R101). -/
def ringAddress (cfg : Config) (x : Channel) (i : Nat) : Nat := if i = 0 then x.head else (x.head + i) % 2 ^ cfg.ringBits

/-- `n` samples have been stored: `head` stands at the address of the next one, and no other address of the ring has
changed. -/
def RingFrame (cfg : Config) (x : Channel) (n : Nat) (x' : Channel) : Prop :=
  x'.head = ringAddress cfg x n ∧ ∀ a, (∀ i < n, a ≠ ringAddress cfg x i) → memRead x'.buf a = memRead x.buf a

/-! ### What a generation of a core leaves alone -/

/-- The source's own fields that no generation changes, and its blocks outside `clean` and `current` (R451). -/
def SourceKept (d d' : Source) : Prop :=
  d'.core = d.core ∧ d'.sync = d.sync ∧ d'.blocking = d.blocking ∧ d'.holdoffMs = d.holdoffMs ∧
    d'.holdoffCnt = d.holdoffCnt ∧ d'.st = d.st ∧ d'.starve = d.starve ∧ d.dirty <+: d'.dirty ∧
    d.newSamples ≤ d'.newSamples ∧
    (∀ b, b ∉ d.clean → d.current ≠ some b → blockOf d' b = blockOf d b) ∧
    ∀ b, b ∉ d.clean → d.current = some b → ∀ i < (blockOf d b).fill,
      memRead (blockOf d' b).data i = memRead (blockOf d b).data i

/-- What a generation of core `c` leaves alone: the other cores, every source but core `c`'s own, the master controls
and the mixer (R400, R451). -/
def GenerationFrame (c : CoreId) (s t : State) : Prop :=
  t.cpuHz = s.cpuHz ∧ t.vol = s.vol ∧ t.muted = s.muted ∧ t.macc = s.macc ∧ t.cfg = s.cfg ∧ t.feed = s.feed ∧
    t.mSeq = s.mSeq ∧ t.out = s.out ∧ (∀ c', c' ≠ c → chanOf t c' = chanOf s c') ∧
    (c ≠ .A → t.psgA = s.psgA) ∧ (c ≠ .B → t.psgB = s.psgB) ∧ (c ≠ .S → t.speech = s.speech) ∧
    (∀ k, (chanOf s c).handle ≠ some k → t.reg[k]? = s.reg[k]?) ∧
    (∀ k d, sourceAt s k = some d → ∃ d', sourceAt t k = some d' ∧ SourceKept d d') ∧
    (chanOf t c).tau = (chanOf s c).tau ∧ (chanOf t c).rateNum = (chanOf s c).rateNum ∧
    (chanOf t c).rateDen = (chanOf s c).rateDen ∧ (chanOf t c).increment = (chanOf s c).increment ∧
    (chanOf t c).limit = (chanOf s c).limit ∧ (chanOf t c).lastTs = (chanOf s c).lastTs ∧
    (chanOf t c).postedH = (chanOf s c).postedH ∧ (chanOf t c).attached = (chanOf s c).attached ∧
    (chanOf t c).handle = (chanOf s c).handle

/-- How a generation of core `c` with `debt` ticks due ended after `n` of them (R415): with all of them made, with the
ring full, or with S held on the core's source. -/
def GenerationEnd (c : CoreId) (s t : State) (st : Status) (debt n : Nat) : Prop :=
  n + (chanOf t c).debt = debt ∧
    ((st = .ok ∧ (chanOf t c).debt = 0 ∧ t.holdS = s.holdS) ∨
      (st = .full ∧ spaceRemaining t.cfg (chanOf t c) = 0 ∧ t.holdS = s.holdS) ∨
      (st = .held ∧ t.holdS = (chanOf s c).handle ∧ t.holdS ≠ none))

/-! ### Speech microcode -/

/-- Every ROM address a micro-instruction reads lies inside the ROM (R112). -/
def ReadsInRom (cfg : Config) (m : MicroInstr) : Prop := ∀ a ∈ m.reads, a < cfg.rom.length

/-- The microcontroller goes from `m` to `m'` by `n` micro-instructions that only continue (R353, R354). -/
def ContinuesTo (cfg : Config) : Nat → MicroState → MicroState → Prop
  | 0, m, m' => m' = m
  | n + 1, m, m' =>
    ReadsInRom cfg (microInstr cfg m) ∧ (microInstr cfg m).out = .cont ∧ ContinuesTo cfg n (microInstr cfg m).next m'

/-! ### Native ticks of core S -/

/-- A native tick of core S that takes the core from `p` to `q` and puts out `level`, with `left` micro-instructions of its
fuel still allowed and no others run (R360 with R352, R354 and R357). -/
inductive TickRun (cfg : Config) : Nat → Speech → Int → Speech → Prop
  /-- No frame runs, the core is halted and nothing is pending: silence (R364). -/
  | silent {left : Nat} {p : Speech} (hr : p.rpt ≤ 0) (hh : p.halted = true) (hp : p.pending = none) :
      TickRun cfg left p 0 p
  /-- A frame runs on through the excitation step: the filter's scaled output (R363). -/
  | output {left : Nat} {p q : Speech} {y : Int} (hr : 0 < p.rpt) (hx : 0 < (excite cfg p).2.rpt)
      (hl : lattice cfg (excite cfg p).2 (excite cfg p).1 = (y, q)) :
      TickRun cfg left p (Int.fdiv y (2 ^ cfg.speechOutShift)) q
  /-- The frame runs out at this excitation step, whose sample is not put out: the tick goes on. -/
  | expired {left : Nat} {p q : Speech} {level : Int} (hr : 0 < p.rpt) (hx : (excite cfg p).2.rpt ≤ 0)
      (ht : TickRun cfg left (excite cfg p).2 level q) : TickRun cfg left p level q
  /-- A halted core takes the pending address and is ready again (R352). -/
  | start {left : Nat} {p q : Speech} {a : Byte} {level : Int} (hr : p.rpt ≤ 0) (hh : p.halted = true)
      (hp : p.pending = some a)
      (ht : TickRun cfg left { p with ms := entryState cfg a, halted := false, pending := none } level q) :
      TickRun cfg left p level q
  /-- The microcode runs `n + 1` instructions up to a frame, which is loaded (R354, R355). -/
  | frame {left n : Nat} {p q : Speech} {ms : MicroState} {fr : Frame} {level : Int} (hr : p.rpt ≤ 0)
      (hh : p.halted = false) (hc : ContinuesTo cfg n p.ms ms) (hm : ReadsInRom cfg (microInstr cfg ms))
      (ho : (microInstr cfg ms).out = .frame fr)
      (ht : TickRun cfg left (loadFrame cfg { p with ms := (microInstr cfg ms).next } fr) level q) :
      TickRun cfg (left + n + 1) p level q
  /-- The microcode runs `n + 1` instructions up to a halt (R354). -/
  | halt {left n : Nat} {p q : Speech} {ms : MicroState} {level : Int} (hr : p.rpt ≤ 0) (hh : p.halted = false)
      (hc : ContinuesTo cfg n p.ms ms) (hm : ReadsInRom cfg (microInstr cfg ms)) (ho : (microInstr cfg ms).out = .halt)
      (ht : TickRun cfg left { p with ms := (microInstr cfg ms).next, halted := true } level q) :
      TickRun cfg (left + n + 1) p level q

/-- `n` native ticks in a row, each with the whole fuel (R354), take core S from `p` to `q`. -/
def TickRuns (cfg : Config) : Nat → Speech → Speech → Prop
  | 0, p, q => q = p
  | n + 1, p, q => ∃ level r, TickRun cfg cfg.microFuel p level r ∧ TickRuns cfg n r q

/-! ### Runs of DRAIN -/

/-- `n` calls of DRAIN in a row (R213): what they return, in order, and the channel after them. -/
def drains (cfg : Config) : Nat → Channel → List (Option Byte) × Channel
  | 0, x => ([], x)
  | n + 1, x => ((drainChan cfg x).1 :: (drains cfg n (drainChan cfg x).2).1, (drains cfg n (drainChan cfg x).2).2)

end Sys2Proof.Safety
end

