-- ==== Sys2Proof/Certificates/Slice0/Obligations.lean ====
section
/-! DEFINITION. The statements about the block, each from the rules its docstring cites. -/

section Statements

open Sys2Proof Sys2Proof.Machine Sys2Proof.Safety

/-! ### Reset -/

/-- R600: the fields the spec names have their reset values, whatever the configuration. `ms` and the contents of the
rings are unspecified there and are left out. -/
def Obligations.ResetGivesTheResetValues : Prop :=
  ∀ cfg : Config,
    (State.resetOf cfg).cpuHz = cfg.cpuHz0 ∧ (State.resetOf cfg).vol = cfg.initVolume ∧
    (State.resetOf cfg).muted = false ∧ (State.resetOf cfg).fault = none ∧ (State.resetOf cfg).holdS = none ∧
    (State.resetOf cfg).macc = List.replicate cfg.blockLen 0 ∧
    (State.resetOf cfg).reg = List.replicate cfg.maxSources none ∧ (State.resetOf cfg).cfg = cfg ∧
    (∀ c, ∃ x, chanOf (State.resetOf cfg) c = x ∧ x.head = 0 ∧ x.tail = 0 ∧ x.tau = cfg.tau.get c ∧ x.decay = 0 ∧
      x.index = 0 ∧ x.last = 127 ∧ x.q = [] ∧ x.lastTs = 0 ∧ x.lastH = 0 ∧ x.cycAcc = 0 ∧ x.debt = 0 ∧
      x.postedH = none ∧ x.attached = true ∧ x.handle = none) ∧
    (∃ a, (State.resetOf cfg).psgA = a ∧ (∀ n, a.ra.get n = 0) ∧
      (∀ ch, a.toneCnt.get ch = 1 ∧ a.toneOut.get ch = false) ∧ a.noiseCnt = 1 ∧ a.lfsr = 1 ∧ a.envCnt = 1 ∧
      a.envStep = 15 ∧ a.envDir = 15 ∧ a.envHold = true) ∧
    (∃ b, (State.resetOf cfg).psgB = b ∧ (∀ ch, b.per.get ch = 0 ∧ b.toneCnt.get ch = 1 ∧ b.toneOut.get ch = false) ∧
      (∀ ch, b.att.get ch = 15) ∧ b.nreg = 0 ∧ b.latch = 0 ∧ b.noiseCnt = 1 ∧ b.noiseFF = false ∧
      (1 ≤ cfg.snLfsrWidth → cfg.snLfsrWidth ≤ 16 → b.lfsr.toNat = 2 ^ (cfg.snLfsrWidth - 1))) ∧
    (∃ p, (State.resetOf cfg).speech = p ∧ p.halted = true ∧ p.pending = none ∧ p.rpt = 0 ∧ p.cnt = 0 ∧ p.per = 0 ∧
      p.ampRaw = 0 ∧ p.amp = 0 ∧ p.dAmp = 0 ∧ p.dPer = 0 ∧ p.interp = false ∧ p.f = Six.const 0 ∧ p.b = Six.const 0 ∧
      p.z0 = Six.const 0 ∧ p.z1 = Six.const 0 ∧ p.rng = 1) ∧
    State.reset = State.resetOf State.reset.cfg

/-- R601: at reset every core is asynchronous, and its converter is as CONFIGURE_RATE sets it from
`cfg.dstRate * div(c)` and `chip(c)`, a call that is accepted. -/
def Obligations.ResetSetsTheConverters : Prop :=
  (∀ (cfg : Config) (c : CoreId), 0 < cfg.dstRate → 0 < chipClock cfg c →
    ∃ s g, s = State.resetOf cfg ∧ g = Nat.gcd (cfg.dstRate * tickDivider c) (chipClock cfg c) ∧
      syncOf s c = false ∧ (chanOf s c).rateNum * g = cfg.dstRate * tickDivider c ∧
      (chanOf s c).rateDen * g = chipClock cfg c ∧ (chanOf s c).increment = (chanOf s c).rateNum ∧
      (chanOf s c).limit = (chanOf s c).rateDen ∧ (chanOf s c).index = 0 ∧
      configureRate c (cfg.dstRate * tickDivider c) (chipClock cfg c) s = (.ok, s)) ∧
  ∀ cfg : Config, cfg.dstRate = 22050 → cfg.chipHzA = 2000000 →
    (chanOf (State.resetOf cfg) .A).increment = 441 ∧ (chanOf (State.resetOf cfg) .A).limit = 2500

/-! ### The step of the block -/

/-- A step runs the decoded instruction: the word issued next, once the mixing agent's steps before it are over, is
decoded, and the step is the instruction's meaning on the state without that word (R120, R141). The feed of words is the
model's choice (log 1, log 2). The second clause says the same of a word of the opcode table (log 14). -/
def Obligations.StepRunsTheIssuedInstruction : Prop :=
  (∀ (s : State) (e : Issue) (rest : List Issue) (i : Instr), Running s → s.feed = e :: rest →
    (s.mSeq = [] ∨ e.mFirst = 0) → decode e.enc = .instr i → step s = exec i { s with feed := rest }) ∧
  ∀ (s : State) (nbits w : Nat) (i : Instr), Running s → decodeTableWord nbits w = some i →
    step (s.withFetchWord nbits w) = exec i s

/-- The other steps. That an UPDATE under way goes on before a word that waits for it and when nothing is issued, and that
with neither there is no step (the clauses on `feed`, `mFirst`, `noIssue` and the mixing agent), is the model's choice
(DESIGN CHOICE, log 1 and log 2), within the interleavings of R120. From the rules: an opcode byte outside the table is no
command (R147), and once a fault is recorded there is no step (R550). -/
def Obligations.StepOtherwise : Prop :=
  (∀ (s : State) (e : Issue) (rest : List Issue), Running s → s.feed = e :: rest → s.mSeq ≠ [] → 0 < e.mFirst →
    step s = mixerStep { s with feed := { e with mFirst := e.mFirst - 1 } :: rest }) ∧
  (∀ s : State, Running s → s.feed = [] → s.mSeq ≠ [] → step s = mixerStep s) ∧
  (∀ s : State, Running s → s.feed = [] → s.mSeq = [] → step s = .refused .noIssue) ∧
  (∀ (s : State) (e : Issue) (rest : List Issue) (why : Reject), Running s → s.feed = e :: rest →
    (s.mSeq = [] ∨ e.mFirst = 0) → decode e.enc = .reject why → step s = .refused (.notACommand why)) ∧
  (∀ nbits w : Nat, 8 ≤ nbits → w < 2 ^ nbits →
    w / 2 ^ (nbits - 8) ∉ [0x01, 0x02, 0x03, 0x04, 0x05, 0x06, 0x07, 0x08, 0x09, 0x0A, 0x10, 0x11, 0x12, 0x13, 0x14, 0x18,
      0x19, 0x20, 0x21, 0x22, 0x28, 0x29, 0x2A, 0x30, 0x31] →
    decode ⟨.cmd, nbits, w⟩ = .reject (.unknownOpcode (w / 2 ^ (nbits - 8)))) ∧
  ∀ (s : State) (f : Fault), s.fault = some f → step s = .fault f

/-! ### Encoding -/

/-- Words written out from R141 to R145 (those of the programs of 95_test_vectors.md among them) are the instructions they
stand for. -/
def Obligations.DecodeReadsTheWords : Prop :=
  decode ⟨.cmd, 28, 0x0520000⟩ = .instr (.register 0 true false 0) ∧
  decode ⟨.cmd, 28, 0x0540001⟩ = .instr (.register 1 false false 1) ∧
  decode ⟨.cmd, 90, 0x0040000000000000000073E⟩ = .instr (.write 0 0 7 0x3E) ∧
  decode ⟨.cmd, 90, 0x00600000000000003200002⟩ = .instr (.write 2 800 0 2) ∧
  decode ⟨.cmd, 74, 0x0090000000000001F40⟩ = .instr (.advance 1 8000) ∧
  decode ⟨.cmd, 16, 0x0732⟩ = .instr (.volume 50) ∧
  decode ⟨.cmd, 8, 0x09⟩ = .instr .update ∧
  decode ⟨.areg, 12, 0x73E⟩ = .instr (.r7 0x3E) ∧
  decode ⟨.bbyte, 8, 0xA5⟩ = .instr (.latch2 5) ∧
  decode ⟨.bbyte, 8, 0x7F⟩ = .instr (.data 0x3F) ∧
  decode ⟨.saddr, 8, 0x2A⟩ = .instr (.load 0x2A) ∧
  decode ⟨.micro, 0, 0⟩ = .instr .micro

/-- Decoding the encoding of any instruction gives it back, with every operand at every value its field admits (R141 to
R145). -/
def Obligations.DecodeOfEncode : Prop := ∀ i : Instr, decode (encode i) = .instr i

/-- Every word that decodes is the encoding of what it decodes to, but for a data byte with bit 6 set, a bit that R143
and R302 have ignored. -/
def Obligations.EncodeOfDecode : Prop :=
  ∀ (e : Encoded) (i : Instr), decode e = .instr i →
    e = encode i ∨ ∃ d : BitVec 6, i = .data d ∧ e = ⟨.bbyte, 8, 64 + d.toNat⟩

/-! ### Invariants that every step keeps -/

/-- Reset is legal: memory in canonical form whatever the configuration, and registers and registry legal for every
configuration R11 admits. -/
def Obligations.ResetIsLegal : Prop :=
  (∀ cfg : Config, MemoryCanonical (State.resetOf cfg)) ∧
  (∀ cfg : Config, cfg.wf = true → RangesLegal (State.resetOf cfg)) ∧
  (∀ cfg : Config, cfg.wf = true → RegistryLegal (State.resetOf cfg)) ∧
  ∀ cfg : Config, DecayBounded (State.resetOf cfg)

/-- Every step keeps all rings and blocks in canonical form. -/
def Obligations.StepKeepsMemoryCanonical : Prop :=
  ∀ s t : State, MemoryCanonical s → step s = .next t → MemoryCanonical t

/-- Every step keeps the registers in the ranges that 10_state.md gives them (R32, R34, R35, R37, R38, R46 to R48, R51,
R60), but for two that R213 and R312 let go further: `index` of an interpolating converter is below `increment`, not
`limit` (R37), and core B's noise counter is within the reload values of the configuration, not 2048 (R51). That no
operation is held to those two bounds is the model's choice (DESIGN CHOICE, log 27). -/
def Obligations.StepKeepsRegisterRanges : Prop :=
  ∀ s t : State, RangesLegal s → step s = .next t → RangesLegal t

/-- Every step keeps the registry consistent: pools conserve their blocks (R62, R450, R456), handles and slots name each
other, the playing states of R472, the hold of R567 and the tick fractions of R39. -/
def Obligations.StepKeepsRegistry : Prop :=
  ∀ s t : State, RegistryLegal s → step s = .next t → RegistryLegal t

/-- R106: every step keeps the decay accumulators within 2^31. -/
def Obligations.StepKeepsDecayBounded : Prop :=
  ∀ s t : State, DecayBounded s → step s = .next t → DecayBounded t

/-- No step changes the configuration, the speech ROM in it included (R11, R56, R112). -/
def Obligations.StepKeepsConfiguration : Prop := ∀ s t : State, step s = .next t → t.cfg = s.cfg

/-! ### Faults, holds and ignored commands -/

/-- R550, R572: once a fault is recorded no agent has a step; and a step that records one, an instruction's or one of an
UPDATE, answers nothing and delivers nothing to the host. -/
def Obligations.FaultEndsTheRun : Prop :=
  (∀ (s : State) (f : Fault) (i : Instr), s.fault = some f → exec i s = .fault f) ∧
  (∀ (s : State) (f : Fault), s.fault = some f → mixerStep s = .fault f) ∧
  (∀ (s t : State) (i : Instr), exec i s = .next t → t.fault ≠ none → t.replies = s.replies ∧ t.out = s.out) ∧
  (∀ s t : State, mixerStep s = .next t → t.fault ≠ none → t.replies = s.replies ∧ t.out = s.out) ∧
  ∀ s t : State, step s = .next t → t.fault ≠ none → t.replies = s.replies ∧ t.out = s.out

/-- R64, R567: while S is held on source `k`, its only step is RESUME, and that only once the source has a clean block. -/
def Obligations.HeldAgentOnlyResumes : Prop :=
  ∀ (s : State) (k : Nat), s.fault = none → s.holdS = some k →
    (∀ core ts addr val, exec (.write core ts addr val) s = .refused (.held k)) ∧
    (∀ core h, exec (.advance core h) s = .refused (.held k)) ∧
    (∀ core, exec (.frame core) s = .refused (.held k)) ∧
    (∀ hz, exec (.clock hz) s = .refused (.held k)) ∧
    (∀ core sync blocking ms, exec (.register core sync blocking ms) s = .refused (.held k)) ∧
    (∀ handle, exec (.deregister handle) s = .refused (.held k)) ∧
    (∀ pct, exec (.volume pct) s = .refused (.held k)) ∧
    (∀ on, exec (.mute on) s = .refused (.held k)) ∧
    (∀ d, sourceAt s k = some d → d.clean = [] → exec .resume s = .refused (.held k)) ∧
    ∀ d, sourceAt s k = some d → d.clean ≠ [] → ∃ t, exec .resume s = .next t

/-- R454, R567: no step of the mixing agent holds. -/
def Obligations.MixerNeverHolds : Prop :=
  (∀ s t : State, mixerStep s = .next t → t.holdS = s.holdS) ∧
  ∀ s t : State, exec .update s = .next t → t.holdS = s.holdS

/-- R566: the ignored commands return `Ignored` and change nothing; an unused bit of a written register is dropped. -/
def Obligations.IgnoredCommandsChangeNothing : Prop :=
  ∀ s : State, Free s →
    (∀ ts addr val, exec (.write 3 ts addr val) s = .next (answer .ignored .none s)) ∧
    (∀ c ts addr val, ¬ AddressValid c addr → exec (.write (coreField c) ts addr val) s = .next (answer .ignored .none s)) ∧
    (∀ c ts addr val, (chanOf s c).attached = false →
      exec (.write (coreField c) ts addr val) s = .next (answer .ignored .none s)) ∧
    (∀ h, exec (.advance 3 h) s = .next (answer .ignored .none s)) ∧
    exec (.frame 3) s = .next (answer .ignored .none s) ∧
    (∀ c, (chanOf s c).attached = false → exec (.frame (coreField c)) s = .next (answer .ignored .none s)) ∧
    (∀ c, syncOf s c = false → exec (.frame (coreField c)) s = .next (answer .ignored .none s)) ∧
    (∀ sync blocking ms, exec (.register 3 sync blocking ms) s = .next (answer .ignored .none s)) ∧
    (∀ c sync blocking ms, (chanOf s c).handle ≠ none →
      exec (.register (coreField c) sync blocking ms) s = .next (answer .ignored .none s)) ∧
    (∀ handle, sourceAt s handle.toNat = none → exec (.deregister handle) s = .next (answer .ignored .none s)) ∧
    (∀ pct : Byte, 100 < pct.toNat → exec (.volume pct) s = .next (answer .ignored .none s)) ∧
    exec .resume s = .next (answer .ignored .none s) ∧
    (∀ (n : Fin 16) (val : Byte), exec (aregRow n val) s = exec (aregRow n (val &&& maskA n)) s) ∧
    (∀ d : BitVec 4, exec (.latch6 d) s = exec (.latch6 (d &&& 7)) s) ∧
    ∀ val : Byte, val.getLsbD 7 = false → exec (.apply 1 0 val) s = exec (.apply 1 0 (val &&& 0x3F)) s

/-! ### The update queue -/

/-- R401: WRITE queues a register write, its ignore conditions first, then QueueOverflow, then TimestampOrder. -/
def Obligations.WriteFollowsItsRule : Prop :=
  ∀ s : State, Free s →
    (∀ ts addr val, exec (.write 3 ts addr val) s = .next (answer .ignored .none s)) ∧
    ∀ (c : CoreId) (ts : BitVec 64) (addr val : Byte) (x : Channel), chanOf s c = x →
      (x.attached = false ∨ ¬ AddressValid c addr →
        exec (.write (coreField c) ts addr val) s = .next (answer .ignored .none s)) ∧
      (x.attached = true → AddressValid c addr → s.cfg.queueCap ≤ x.q.length →
        exec (.write (coreField c) ts addr val) s = .next { s with fault := some (.queueOverflow c) }) ∧
      (x.attached = true → AddressValid c addr → x.q.length < s.cfg.queueCap → ts.toNat < x.lastTs →
        exec (.write (coreField c) ts addr val) s = .next { s with fault := some (.timestampOrder c ts.toNat) }) ∧
      (x.attached = true → AddressValid c addr → x.q.length < s.cfg.queueCap → x.lastTs ≤ ts.toNat →
        exec (.write (coreField c) ts addr val) s =
          .next (answer .ok .none
            (withChan s c { x with q := x.q ++ [⟨ts.toNat, addr.toNat, val⟩], lastTs := ts.toNat })))

/-- R412: ADVANCE of no core is ignored, of a detached core moves its time only, of a core with a synchronous source is
ITERATE, and else posts the horizon for the mixing agent; a horizon that goes back faults. -/
def Obligations.AdvanceFollowsItsRule : Prop :=
  ∀ s : State, Free s →
    (∀ h, exec (.advance 3 h) s = .next (answer .ignored .none s)) ∧
    ∀ (c : CoreId) (h : BitVec 64) (x : Channel), chanOf s c = x →
      (x.attached = false → h.toNat < x.lastH →
        exec (.advance (coreField c) h) s = .next { s with fault := some (.timestampOrder c h.toNat) }) ∧
      (x.attached = false → x.lastH ≤ h.toNat →
        exec (.advance (coreField c) h) s =
          .next (answer .ok .none (withChan s c { x with lastH := h.toNat }))) ∧
      (x.attached = true → (∃ k d, x.handle = some k ∧ sourceAt s k = some d ∧ d.sync = true) →
        exec (.advance (coreField c) h) s = exec (.iterate (coreField c) h) s) ∧
      (x.attached = true → syncOf s c = false → (h.toNat < x.lastH ∨ ∃ p, x.postedH = some p ∧ h.toNat < p) →
        exec (.advance (coreField c) h) s = .next { s with fault := some (.timestampOrder c h.toNat) }) ∧
      (x.attached = true → syncOf s c = false → x.lastH ≤ h.toNat → (∀ p, x.postedH = some p → p ≤ h.toNat) →
        exec (.advance (coreField c) h) s =
          .next (answer .ok (if c = .S then .ready s.speech.pending.isNone else .none)
            (withChan s c { x with postedH := some h.toNat })))

/-- R411, R555, R560: ITERATE to a horizon that goes back raises TimestampOrder before any write is applied. -/
def Obligations.IterateNeverGoesBack : Prop :=
  ∀ (s : State) (c : CoreId) (h : BitVec 64), Running s → h.toNat < (chanOf s c).lastH →
    exec (.iterate (coreField c) h) s = .next { s with fault := some (.timestampOrder c h.toNat) }

/-- R403, R411, R413, R415: ITERATE of core A applies the due writes, in queue order, before any tick; adds the whole
native ticks of the interval to the debt and keeps the fraction; then makes ticks until none is due, the ring is full or
S holds. It changes no other core and no other source. That it answers Held or Ok is the model's reading (DEDUCED,
log 15). -/
def Obligations.IterateOfCoreA : Prop :=
  ∀ (s : State) (h : BitVec 64) (x : Channel) (due : List QEntry) (acc : Nat), Running s → TablesFit s.cfg →
    chanOf s .A = x → x.lastH ≤ h.toNat → due = x.q.takeWhile (fun e => decide (e.ts ≤ h.toNat)) →
    acc = x.cycAcc + (h.toNat - x.lastH) * tickNum s .A →
    ∃ t st n,
      exec (.iterate 0 h) s = .next (answer (if st = .held then .held else .ok) .none t) ∧
      t.replies = s.replies ∧ t.fault = none ∧
      t.psgA = (advanceA)^[n] (due.foldl (fun a e => writeRegA a (Fin.ofNat 16 e.addr) e.val) s.psgA) ∧
      (chanOf t .A).q = x.q.drop due.length ∧ (chanOf t .A).lastH = h.toNat ∧
      (chanOf t .A).cycAcc = acc % (s.cpuHz * tickDen s .A) ∧
      GenerationEnd .A s t st (x.debt + acc / (s.cpuHz * tickDen s .A)) n ∧
      RingFrame s.cfg x n (chanOf t .A) ∧ GenerationFrame .A s t

/-- The same of core B (R303, R403, R411, R413, R415); its answer of Held or Ok is the model's reading too (DEDUCED,
log 15). -/
def Obligations.IterateOfCoreB : Prop :=
  ∀ (s : State) (h : BitVec 64) (x : Channel) (due : List QEntry) (acc : Nat), Running s → TablesFit s.cfg →
    chanOf s .B = x → x.lastH ≤ h.toNat → due = x.q.takeWhile (fun e => decide (e.ts ≤ h.toNat)) →
    acc = x.cycAcc + (h.toNat - x.lastH) * tickNum s .B →
    ∃ t st n,
      exec (.iterate 1 h) s = .next (answer (if st = .held then .held else .ok) .none t) ∧
      t.replies = s.replies ∧ t.fault = none ∧
      t.psgB = (advanceB s.cfg)^[n] (due.foldl (fun b e => writeByteB s.cfg b e.val) s.psgB) ∧
      (chanOf t .B).q = x.q.drop due.length ∧ (chanOf t .B).lastH = h.toNat ∧
      (chanOf t .B).cycAcc = acc % (s.cpuHz * tickDen s .B) ∧
      GenerationEnd .B s t st (x.debt + acc / (s.cpuHz * tickDen s .B)) n ∧
      RingFrame s.cfg x n (chanOf t .B) ∧ GenerationFrame .B s t

/-- R351, R373, R403, R411, R413, R415, R552, R553, R558: ITERATE of core S offers the due addresses in queue order before
any tick, adds the whole native ticks of the interval to the debt and keeps the fraction, makes its ticks one after
another, and returns `ready(S)` as it stands at the end; the only faults it can raise are those of the microcode of the
tick after those made, one that is due, that the ring has room for and that `TickRun` gives no end. That it answers Held or Ok beside `ready(S)` is the model's reading (DEDUCED, log 15). -/
def Obligations.IterateOfCoreS : Prop :=
  ∀ (s : State) (h : BitVec 64) (x : Channel) (due : List QEntry) (acc : Nat) (p : Speech), Running s →
    chanOf s .S = x → x.lastH ≤ h.toNat → due = x.q.takeWhile (fun e => decide (e.ts ≤ h.toNat)) →
    acc = x.cycAcc + (h.toNat - x.lastH) * tickNum s .S →
    p = due.foldl (fun p e => if p.pending = none then { p with pending := some e.val } else p) s.speech →
    ∃ t n q, RingFrame s.cfg x n (chanOf t .S) ∧ GenerationFrame .S s t ∧ t.replies = s.replies ∧
      (chanOf t .S).lastH = h.toNat ∧ (chanOf t .S).q = x.q.drop due.length ∧
      (chanOf t .S).cycAcc = acc % (s.cpuHz * tickDen s .S) ∧ TickRuns s.cfg n p q ∧
      ((∃ st, t.fault = none ∧ t.speech = q ∧
          exec (.iterate 2 h) s =
            .next (answer (if st = .held then .held else .ok) (.ready t.speech.pending.isNone) t) ∧
          GenerationEnd .S s t st (x.debt + acc / (s.cpuHz * tickDen s .S)) n) ∨
        (exec (.iterate 2 h) s = .next t ∧ n + (chanOf t .S).debt = x.debt + acc / (s.cpuHz * tickDen s .S) ∧
          0 < (chanOf t .S).debt ∧ 0 < spaceRemaining t.cfg (chanOf t .S) ∧ t.holdS = s.holdS ∧
          (∀ level r, ¬ TickRun s.cfg s.cfg.microFuel q level r) ∧
          exec (.tick 2) { t with speech := q, fault := none } = .next t ∧
          ((∃ m, t.fault = some (.microRunaway m)) ∨ ∃ a, t.fault = some (.romRange a) ∧ s.cfg.rom.length ≤ a)))

/-- R413: the conversion from cycles to ticks does not depend on the horizons on the way: every tick is counted once. -/
def Obligations.CycleToTickConversionIsExact : Prop :=
  ∀ (s : State) (c : CoreId) (hs : List Nat) (h : Nat), 0 < s.cpuHz * tickDen s c →
    ((chanOf s c).lastH :: hs ++ [h]).Pairwise (· ≤ ·) →
    (hs ++ [h]).foldl (fun u h => accrue c h u) s = accrue c h s ∧
    ((chanOf s c).cycAcc = 0 → (chanOf (accrue c h s) c).debt =
      (chanOf s c).debt + (h - (chanOf s c).lastH) * tickNum s c / (s.cpuHz * tickDen s c))

/-- R405: APPLY to core A is its AREG row (R252), to core B its BBYTE row (R303), to core S LOAD_ADDRESS (R351). -/
def Obligations.ApplyIsTheRegisterWrite : Prop :=
  ∀ (s : State) (val : Byte), Running s →
    (∀ n : Fin 16, exec (.apply 0 (BitVec.ofNat 8 n.val) val) s = exec (aregRow n val) s) ∧
    (val.getLsbD 7 = true → exec (.apply 1 0 val) s =
      exec (latchRow ⟨(val.extractLsb' 4 3).toNat, (val.extractLsb' 4 3).isLt⟩ (val.extractLsb' 0 4)) s) ∧
    (val.getLsbD 7 = false → exec (.apply 1 0 val) s = exec (.data (val.extractLsb' 0 6)) s) ∧
    exec (.apply 2 0 val) s = exec (.loadAddress val) s ∧
    exec (.load val) s = exec (.loadAddress val) s ∧
    ∃ t, exec (.apply 2 0 val) s = .next t

/-- R416: RESUME continues the generation that was held, once the source has a clean block, and answers as that
generation ends (R565); it may hold again. For a source of core S it may instead raise a fault of its microcode, that of
the tick after those made, one that is due, that the ring has room for and that `TickRun` gives no end. -/
def Obligations.ResumeContinuesTheGeneration : Prop :=
  (∀ s : State, Free s → exec .resume s = .next (answer .ignored .none s)) ∧
  (∀ (s : State) (k : Nat) (d : Source), Running s → TablesFit s.cfg → s.holdS = some k → sourceAt s k = some d →
    d.clean ≠ [] → d.core ≠ .S →
    ∃ t st n, exec .resume s = .next (answer st .none t) ∧ t.replies = s.replies ∧ t.fault = none ∧
      t.psgA = (advanceA)^[if d.core = .A then n else 0] s.psgA ∧
      t.psgB = (advanceB s.cfg)^[if d.core = .B then n else 0] s.psgB ∧
      (chanOf t d.core).lastH = (chanOf s d.core).lastH ∧ (chanOf t d.core).q = (chanOf s d.core).q ∧
      (chanOf t d.core).cycAcc = (chanOf s d.core).cycAcc ∧
      GenerationEnd d.core { s with holdS := none } t st (chanOf s d.core).debt n ∧
      RingFrame s.cfg (chanOf s d.core) n (chanOf t d.core) ∧ GenerationFrame d.core s t) ∧
  ∀ (s : State) (k : Nat) (d : Source) (x : Channel), Running s → s.holdS = some k → sourceAt s k = some d →
    d.clean ≠ [] → d.core = .S → chanOf s .S = x →
    ∃ t n q, t.replies = s.replies ∧ (chanOf t .S).lastH = x.lastH ∧ (chanOf t .S).q = x.q ∧
      (chanOf t .S).cycAcc = x.cycAcc ∧ RingFrame s.cfg x n (chanOf t .S) ∧ GenerationFrame .S s t ∧
      TickRuns s.cfg n s.speech q ∧
      ((∃ st, exec .resume s = .next (answer st .none t) ∧ t.fault = none ∧ t.speech = q ∧
          GenerationEnd .S { s with holdS := none } t st x.debt n) ∨
        (exec .resume s = .next t ∧ n + (chanOf t .S).debt = x.debt ∧
          0 < (chanOf t .S).debt ∧ 0 < spaceRemaining t.cfg (chanOf t .S) ∧ t.holdS = none ∧
          (∀ level r, ¬ TickRun s.cfg s.cfg.microFuel q level r) ∧
          exec (.tick 2) { t with speech := q, fault := none } = .next t ∧
          ((∃ m, t.fault = some (.microRunaway m)) ∨ ∃ a, t.fault = some (.romRange a) ∧ s.cfg.rom.length ≤ a)))

/-- R425: CLOCK sets the CPU clock, keeps every core's fraction of a tick, and reconfigures the converters of synchronous
cores; a clock of 0 is rejected. -/
def Obligations.ClockFollowsItsRule : Prop :=
  ∀ s : State, Free s → s.cfg.wf = true →
    exec (.clock 0) s = .next (answer .configRejected .none s) ∧
    ∀ hz : BitVec 32, hz ≠ 0 →
      ∃ t, exec (.clock hz) s = .next (answer .ok .none t) ∧ t = { s with cpuHz := hz.toNat, chans := t.chans } ∧
        ∀ c, ∃ x x', chanOf s c = x ∧ chanOf t c = x' ∧
          (syncOf s c = false → x' = { x with cycAcc := x.cycAcc * hz.toNat / s.cpuHz }) ∧
          (syncOf s c = true → ∃ dst src, dst = s.cfg.dstRate * (s.cfg.clkDen.get c * tickDivider c) ∧
            src = hz.toNat * s.cfg.clkNum.get c ∧
            x' = { x with
              cycAcc := x.cycAcc * hz.toNat / s.cpuHz, rateNum := dst / Nat.gcd dst src, rateDen := src / Nat.gcd dst src,
              increment := dst / Nat.gcd dst src, limit := src / Nat.gcd dst src, index := 0 })

/-! ### The ring and its rate converter -/

/-- R200, R201, R202, R203, R205, R560: PUT_SAMPLE checks the level, then the space, then stores one code. -/
def Obligations.PutSampleStoresOneCode : Prop :=
  ∀ (s : State) (c : CoreId) (level : BitVec 32), Running s → (chanOf s c).buf.wf = true →
    (level.toInt < -32768 ∨ 32767 < level.toInt →
      exec (.putSample (coreField c) level) s = .next { s with fault := some (.levelRange c level.toInt) }) ∧
    (-32768 ≤ level.toInt → level.toInt ≤ 32767 → spaceRemaining s.cfg (chanOf s c) = 0 →
      exec (.putSample (coreField c) level) s = .next { s with fault := some (.ringOverflow c) }) ∧
    (-32768 ≤ level.toInt → level.toInt ≤ 32767 → 0 < spaceRemaining s.cfg (chanOf s c) →
      ∃ x', exec (.putSample (coreField c) level) s = .next (withChan s c x') ∧
        Stored s.cfg (chanOf s c) level.toInt x')

/-- R103, R104, R105, R218, R219: the counts of a ring, what they return, and that a sample put adds one. -/
def Obligations.RingCounts : Prop :=
  ∀ (s : State) (c : CoreId), Running s →
    ∃ n : Nat, (n : Int) = ((chanOf s c).head - (chanOf s c).tail : Int) % 2 ^ s.cfg.ringBits ∧ n ≤ 2 ^ s.cfg.ringBits - 1 ∧
      exec (.samplesAvailable (coreField c)) s = .next (answer .ok (.count n) s) ∧
      exec (.spaceRemaining (coreField c)) s = .next (answer .ok (.count (2 ^ s.cfg.ringBits - 1 - n)) s) ∧
      ∀ level t, exec (.putSample (coreField c) level) s = .next t → t.fault = none →
        samplesAvailable t.cfg (chanOf t c) = n + 1

/-- R210, R212: CONFIGURE_RATE sets the ratio in lowest terms and the index to 0, and rejects a zero rate alone. -/
def Obligations.ConfigureRateReducesTheRatio : Prop :=
  ∀ (s : State) (c : CoreId) (dst src : BitVec 48), Running s →
    (dst = 0 ∨ src = 0 → exec (.configureRate (coreField c) dst src) s = .next (answer .configRejected .none s)) ∧
    (dst ≠ 0 → src ≠ 0 → ∃ num den, num * Nat.gcd dst.toNat src.toNat = dst.toNat ∧
      den * Nat.gcd dst.toNat src.toNat = src.toNat ∧ Nat.Coprime num den ∧
      exec (.configureRate (coreField c) dst src) s = .next (answer .ok .none (withChan s c
        { chanOf s c with rateNum := num, rateDen := den, increment := num, limit := den, index := 0 })))

/-- R102, R213: DRAIN takes the least number `k` of codes that brings `index` to `limit` and returns the last code taken
(the last of all before, where `k = 0`); where the ring has not that many, it takes all it has and returns none. -/
def Obligations.DrainTakesTheCodesItNeeds : Prop :=
  ∀ (s : State) (c : CoreId) (x : Channel) (n : Nat), Running s → chanOf s c = x → n = samplesAvailable s.cfg x →
    x.tail < 2 ^ s.cfg.ringBits →
    (∀ k ≤ n, x.limit ≤ x.index + k * x.increment → (∀ j < k, x.index + j * x.increment < x.limit) →
      ∃ v, v = (if k = 0 then x.last else memRead x.buf ((x.tail + (k - 1)) % 2 ^ s.cfg.ringBits)) ∧
        exec (.drain (coreField c)) s = .next (answer .ok (.sample (some v)) (withChan s c
          { x with
            tail := if k = 0 then x.tail else (x.tail + k) % 2 ^ s.cfg.ringBits, last := v,
            index := x.index + k * x.increment - x.limit }))) ∧
    (x.index + n * x.increment < x.limit →
      exec (.drain (coreField c)) s = .next (answer .ok (.sample none) (withChan s c
        { x with
          tail := if n = 0 then x.tail else (x.tail + n) % 2 ^ s.cfg.ringBits,
          last := if n = 0 then x.last else memRead x.buf ((x.tail + (n - 1)) % 2 ^ s.cfg.ringBits),
          index := x.index + n * x.increment })))

/-- R214: called until it returns none, DRAIN returns exactly `(index + K * increment) / limit` samples for the `K` codes
in the ring, leaves the remainder in `index`, and leaves the ring empty. -/
def Obligations.DrainCountLaw : Prop :=
  ∀ (cfg : Config) (x : Channel) (total : Nat), 0 < x.limit →
    total = x.index + samplesAvailable cfg x * x.increment →
    ∃ (codes : List Byte) (y : Channel), drains cfg (total / x.limit) x = (codes.map some, y) ∧ codes.length = total / x.limit ∧
      (drainChan cfg y).1 = none ∧ (drainChan cfg y).2.index = total % x.limit ∧
      samplesAvailable cfg (drainChan cfg y).2 = 0

/-- R216, R357, R360: the bounds that make the model's loops total never cut a loop of the rules short: more passes change
nothing (log 18). -/
def Obligations.LoopBoundsCutNothing : Prop :=
  (∀ (c : CoreId) (s : State) (n : Nat), 0 < (chanOf s c).limit → pumpBound s.cfg (chanOf s c) ≤ n →
    pumpLoop c n s = pump c s) ∧
  (∀ (cfg : Config) (passes left : Nat) (p : Speech), left + 1 ≤ passes →
    needFrame cfg passes left p = needFrame cfg (left + 1) left p) ∧
  ∀ (cfg : Config) (passes left : Nat) (p : Speech), left + 2 ≤ passes →
    speechLevel cfg passes left p = speechLevel cfg (left + 2) left p

/-! ### Pools and registry -/

/-- R452: GET_WORK_BUFFER keeps a current block, takes the first clean one, and without one holds a source that waits and
answers NoBuffer to one that does not. -/
def Obligations.GetWorkBufferFollowsItsRule : Prop :=
  ∀ (s : State) (k : Byte) (d : Source), Running s → sourceAt s k.toNat = some d →
    (d.current ≠ none → exec (.getWorkBuffer k) s = .next (answer .ok .none s)) ∧
    (d.current = none → d.clean = [] → d.blocking = true → d.sync = true →
      exec (.getWorkBuffer k) s = .next (answer .held .none { s with holdS := some k.toNat })) ∧
    (d.current = none → d.clean = [] → (d.blocking = false ∨ d.sync = false) →
      exec (.getWorkBuffer k) s = .next (answer .noBuffer .none s)) ∧
    ∀ b rest blk, d.current = none → d.clean = b :: rest → d.blocks[b]? = some blk →
      exec (.getWorkBuffer k) s = .next (answer .ok .none { s with reg := s.reg.set k.toNat (some
        { d with clean := rest, current := some b, blocks := d.blocks.set b { blk with fill := 0 } }) })

/-- R455: PUT_WORK_BUFFER queues the current block behind the dirty ones; without one it raises ProtocolError. -/
def Obligations.PutWorkBufferFollowsItsRule : Prop :=
  ∀ (s : State) (k : Byte) (d : Source), Running s → sourceAt s k.toNat = some d →
    (d.current = none → exec (.putWorkBuffer k) s = .next { s with fault := some (.protocolError k.toNat) }) ∧
    ∀ b, d.current = some b → exec (.putWorkBuffer k) s =
      .next { s with reg := s.reg.set k.toNat (some { d with dirty := d.dirty ++ [b], current := none }) }

/-- R458: FRAME of a core with a synchronous source queues the current block, unless it is empty, and clears the sample
count; of any other core it is ignored. -/
def Obligations.FrameFollowsItsRule : Prop :=
  ∀ s : State, Free s →
    exec (.frame 3) s = .next (answer .ignored .none s) ∧
    (∀ c, (chanOf s c).attached = false ∨ syncOf s c = false →
      exec (.frame (coreField c)) s = .next (answer .ignored .none s)) ∧
    ∀ c k d, (chanOf s c).attached = true → (chanOf s c).handle = some k → sourceAt s k = some d → d.sync = true →
      (∀ b blk, d.current = some b → d.blocks[b]? = some blk → 0 < blk.fill →
        exec (.frame (coreField c)) s = .next (answer .ok .none { s with reg := s.reg.set k (some
          { d with dirty := d.dirty ++ [b], current := none, newSamples := 0 }) })) ∧
      ((d.current = none ∨ ∃ b blk, d.current = some b ∧ d.blocks[b]? = some blk ∧ blk.fill = 0) →
        exec (.frame (coreField c)) s =
          .next (answer .ok .none { s with reg := s.reg.set k (some { d with newSamples := 0 }) }))

/-- R465: what REGISTER answers, and the descriptor and the attachment it writes; R604: a core detached before starts from
its reset values again, `lastH` and `lastTs` kept. -/
def Obligations.RegisterFollowsItsRule : Prop :=
  ∀ s : State, Free s → s.cfg.wf = true → 0 < s.cpuHz →
    (∀ sync blocking ms, exec (.register 3 sync blocking ms) s = .next (answer .ignored .none s)) ∧
    ∀ (c : CoreId) (sync blocking : Bool) (ms : BitVec 16) (x : Channel), chanOf s c = x →
      (x.handle ≠ none → exec (.register (coreField c) sync blocking ms) s = .next (answer .ignored .none s)) ∧
      (x.handle = none → (∀ k < s.reg.length, sourceAt s k ≠ none) →
        exec (.register (coreField c) sync blocking ms) s = .next (answer .registryFull .none s)) ∧
      ∀ k, x.handle = none → k < s.reg.length → sourceAt s k = none → (∀ j < k, sourceAt s j ≠ none) →
        ∃ t d x' old dst src,
          exec (.register (coreField c) sync blocking ms) s = .next (answer .ok (.handle k) t) ∧
          t = { s with
            reg := s.reg.set k (some d), chans := s.chans.set c x', psgA := t.psgA, psgB := t.psgB,
            speech := t.speech } ∧
          d = { core := c, sync := sync, blocking := blocking, holdoffMs := ms.toNat,
                holdoffCnt := ms.toNat * s.cfg.dstRate / 1000, st := .quiescent, starve := 0, newSamples := 0,
                blocks := d.blocks, clean := List.range s.cfg.poolBlocks, dirty := [], current := none } ∧
          d.blocks.length = s.cfg.poolBlocks ∧ (∀ blk ∈ d.blocks, blk.fill = 0) ∧
          dst = s.cfg.dstRate * (if sync then s.cfg.clkDen.get c * tickDivider c else tickDivider c) ∧
          src = (if sync then s.cpuHz * s.cfg.clkNum.get c else chipClock s.cfg c) ∧
          x' = { old with
            handle := some k, attached := true, postedH := none, cycAcc := 0, index := 0,
            rateNum := dst / Nat.gcd dst src, rateDen := src / Nat.gcd dst src,
            increment := dst / Nat.gcd dst src, limit := src / Nat.gcd dst src } ∧
          (x.attached = true → old = x ∧ t.psgA = s.psgA ∧ t.psgB = s.psgB ∧ t.speech = s.speech) ∧
          (x.attached = false →
            old = { chanOf (State.resetOf s.cfg) c with lastH := x.lastH, lastTs := x.lastTs } ∧
            t.psgA = (if c = .A then (State.resetOf s.cfg).psgA else s.psgA) ∧
            t.psgB = (if c = .B then (State.resetOf s.cfg).psgB else s.psgB) ∧
            t.speech = (if c = .S then (State.resetOf s.cfg).speech else s.speech))

/-- R466: DEREGISTER empties the slot, abandons the core's queue and detaches the core; of an empty slot it is ignored. -/
def Obligations.DeregisterFollowsItsRule : Prop :=
  ∀ (s : State) (k : Byte), Free s →
    (sourceAt s k.toNat = none → exec (.deregister k) s = .next (answer .ignored .none s)) ∧
    ∀ d, sourceAt s k.toNat = some d →
      exec (.deregister k) s = .next (answer .ok .none { s with
        reg := s.reg.set k.toNat none,
        chans := s.chans.set d.core
          ({ chanOf s d.core with q := [], attached := false, handle := none, postedH := none } : Channel) })

/-- R467: the slots that hold a source, and with them the number of allocated blocks, change at REGISTER and DEREGISTER
alone. -/
def Obligations.SlotsChangeAtRegistrationOnly : Prop :=
  (∀ (i : Instr) (s t : State), (∀ core sync blocking ms, i ≠ .register core sync blocking ms) →
    (∀ k, i ≠ .deregister k) → exec i s = .next t → t.reg.map Option.isSome = s.reg.map Option.isSome) ∧
  ∀ s t : State, mixerStep s = .next t → t.reg.map Option.isSome = s.reg.map Option.isSome

/-! ### The mixer -/

/-- R470: UPDATE is the sequence ITERATE of A, B and S, MIX_SOURCE of every slot, EMIT; each is a step of the mixing agent
of its own, an ITERATE only for an attached, asynchronous core with a posted horizon. Until it is over the sequence stands
in `mSeq` (the model's choice, log 3). That UPDATE adds nothing to `replies`, which the first clause says of it, is the
model's choice as well (DESIGN CHOICE, log 24): R470 gives it no return, and R565 lists Ok for every command. -/
def Obligations.UpdateIsASequenceOfSteps : Prop :=
  (∀ s : State, Running s → exec .update s = .next { s with mSeq :=
    s.mSeq ++ [.iterate .A, .iterate .B, .iterate .S] ++ (List.range s.cfg.maxSources).map .mix ++ [.emit] }) ∧
  (∀ (s : State) (c : CoreId) (rest : List MStep), Running s → s.mSeq = .iterate c :: rest →
    ((chanOf s c).attached = false ∨ syncOf s c = true ∨ (chanOf s c).postedH = none) →
    mixerStep s = mixerStep { s with mSeq := rest }) ∧
  (∀ (s : State) (c : CoreId) (rest : List MStep) (h : Nat), Running s → s.mSeq = .iterate c :: rest →
    (chanOf s c).attached = true → syncOf s c = false → (chanOf s c).postedH = some h →
    (∀ r t, iterate c h { s with mSeq := rest } = .done r t →
      mixerStep s = .next (withChan t c { chanOf t c with postedH := none })) ∧
    ∀ f t, iterate c h { s with mSeq := rest } = .raised f t → mixerStep s = .next { t with fault := some f }) ∧
  (∀ (s : State) (k : Byte) (rest : List MStep), Running s → s.mSeq = .mix k.toNat :: rest →
    mixerStep s = exec (.mixSource k) { s with mSeq := rest }) ∧
  ∀ (s : State) (rest : List MStep), Running s → s.mSeq = .emit :: rest →
    mixerStep s = exec .emit { s with mSeq := rest }

/-- R474: whatever the state of the sources, an UPDATE left to run delivers exactly one host block of `cfg.blockLen`
codes, or ends at a fault. -/
def Obligations.UpdateDeliversOneBlock : Prop :=
  ∀ s u : State, Running s → s.mSeq = [] → s.feed = [] → exec .update s = .next u →
    ∃ n t, Host.Core.run Sys2Proof.core n u = .next t ∧
      ((t.fault ≠ none ∧ t.out = s.out) ∨
        (t.fault = none ∧ t.mSeq = [] ∧ ∃ blk, t.out = s.out ++ [blk] ∧ blk.length = s.cfg.blockLen))

/-- R471: MIX_SOURCE mixes one dirty block of a source, after its holdoff, into the accumulator and returns the block to
`clean`; a source without one starves, and a quiescent source without one is left alone. -/
def Obligations.MixSourceFollowsItsRule : Prop :=
  ∀ (s : State) (k : Byte), Running s →
    (sourceAt s k.toNat = none → exec (.mixSource k) s = .next s) ∧
    ∀ d, sourceAt s k.toNat = some d →
      (d.st = .quiescent → d.dirty = [] → exec (.mixSource k) s = .next s) ∧
      (d.st ≠ .quiescent → d.dirty = [] → exec (.mixSource k) s = .next { s with reg := s.reg.set k.toNat (some
        { d with
          starve := d.starve + 1
          st := if s.cfg.starveLimit ≤ d.starve + 1 then .quiescent else d.st }) }) ∧
      ∀ b rest blk hold, d.dirty = b :: rest → d.blocks[b]? = some blk → blk.fill ≤ s.macc.length →
        hold = (if d.st = .quiescent then d.holdoffMs * s.cfg.dstRate / 1000 else d.holdoffCnt) →
        ∃ m, exec (.mixSource k) s = .next { s with macc := m, reg := s.reg.set k.toNat (some
          { d with
            dirty := rest
            clean := d.clean ++ [b]
            starve := 0
            holdoffCnt := hold - blk.fill
            st := if d.st = .playing ∨ hold ≤ blk.fill then .playing else .buffering }) } ∧
          m.length = s.macc.length ∧
          ∀ i < s.macc.length, m.getD i 0 = s.macc.getD i 0 +
            (if hold ≤ i ∧ i < blk.fill then ((memRead blk.data i).toNat : Int) - 127 else 0)

/-- R473: EMIT scales the accumulator by the master volume, clips it and offsets it by 127, or delivers codes of 127 when
muted; it delivers one host block and clears the accumulator. -/
def Obligations.EmitDeliversTheMix : Prop :=
  ∀ s : State, Running s →
    ∃ blk : List Byte, exec .emit s =
        .next { s with macc := List.replicate s.cfg.blockLen 0, out := s.out ++ [blk] } ∧
      blk.length = s.cfg.blockLen ∧
      ∀ i < s.cfg.blockLen, ((blk.getD i 0).toNat : Int) =
        if s.muted then 127 else min 127 (max (-127) (Int.tdiv (s.macc.getD i 0 * s.vol) 100)) + 127

/-- R480, R481: VOLUME and MUTE set the master controls; a volume over 100 is ignored. -/
def Obligations.MasterControls : Prop :=
  ∀ s : State, Free s →
    (∀ pct : Byte, 100 < pct.toNat → exec (.volume pct) s = .next (answer .ignored .none s)) ∧
    (∀ pct : Byte, pct.toNat ≤ 100 → exec (.volume pct) s = .next (answer .ok .none { s with vol := pct.toNat })) ∧
    ∀ on, exec (.mute on) s = .next (answer .ok .none { s with muted := on })

/-! ### Generator core A -/

/-- R250, R252, R268: a write to one of core A's registers stores the bits of its mask, and a write to register 13 restarts
the envelope as well; nothing else changes, no counter in progress among it. -/
def Obligations.CoreARegisterWrites : Prop :=
  ∀ (s : State) (n : Fin 16) (val : Byte), Running s →
    ∃ v : Byte, v = (if n = 1 ∨ n = 3 ∨ n = 5 ∨ n = 13 then val &&& 0x0F
        else if n = 6 ∨ n = 8 ∨ n = 9 ∨ n = 10 then val &&& 0x1F else val) ∧
      (n ≠ 13 → exec (aregRow n val) s =
        .next { s with psgA := { s.psgA with ra := s.psgA.ra.set n v } }) ∧
      (n = 13 → exec (aregRow n val) s =
        .next { s with psgA := { s.psgA with
          ra := s.psgA.ra.set n v
          envStep := 0
          envDir := if val.getLsbD 2 then 0 else 15
          envHold := false
          envCnt := max (s.psgA.ra.r12.toNat * 256 + s.psgA.ra.r11.toNat) 1 } })

/-- R260 to R271: one tick of core A moves the three tone counters, the noise counter and the envelope counter, and stores
the sum of the three contributions as they stand then. -/
def Obligations.TickOfCoreA : Prop :=
  ∀ (s : State) (a : PsgA), Running s → TablesFit s.cfg → s.psgA = a → (chanOf s .A).buf.wf = true →
    0 < spaceRemaining s.cfg (chanOf s .A) →
    (∀ ch, 1 ≤ a.toneCnt.get ch) → 1 ≤ a.noiseCnt → 1 ≤ a.envCnt →
    ∃ (a' : PsgA) (x' : Channel) (sum : Fin 3 → Int),
      exec (.tick 0) s = .next (withChan { s with psgA := a' } .A x') ∧ a'.ra = a.ra ∧
      (∀ (ch : Fin 3) (tp : Nat),
        tp = (a.ra.get (Fin.ofNat 16 (2 * ch.val + 1))).toNat % 16 * 256 + (a.ra.get (Fin.ofNat 16 (2 * ch.val))).toNat →
        a'.toneOut.get ch = (if a.toneCnt.get ch = 1 then !a.toneOut.get ch else a.toneOut.get ch) ∧
        a'.toneCnt.get ch = (if a.toneCnt.get ch = 1 then max tp 1 else a.toneCnt.get ch - 1)) ∧
      a'.noiseCnt = (if a.noiseCnt = 1 then max (a.ra.r6.toNat % 32) 1 else a.noiseCnt - 1) ∧
      a'.lfsr.toNat = (if a.noiseCnt = 1 then
        a.lfsr.toNat / 2 + (if a.lfsr.getLsbD 0 ^^ a.lfsr.getLsbD 3 then 2 ^ 16 else 0) else a.lfsr.toNat) ∧
      a'.envCnt = (if a.envCnt = 1 then max (a.ra.r12.toNat * 256 + a.ra.r11.toNat) 1 else a.envCnt - 1) ∧
      (a'.envStep, a'.envDir, a'.envHold) =
        (if a.envCnt ≠ 1 ∨ a.envHold then (a.envStep, a.envDir, a.envHold)
          else if a.envStep ≠ 15 then (a.envStep + 1, a.envDir, false)
          else if a.ra.r13.getLsbD 3 = false then (15, 15, true)
          else if a.ra.r13.getLsbD 0 then (15, if a.ra.r13.getLsbD 1 then a.envDir ^^^ 15 else a.envDir, true)
          else (0, if a.ra.r13.getLsbD 1 then a.envDir ^^^ 15 else a.envDir, false)) ∧
      (∀ ch : Fin 3, ∃ (v : BitVec 4) (amp : Int) (gate : Bool),
        v = (if (a.ra.get (Fin.ofNat 16 (8 + ch.val))).getLsbD 4 then a'.envStep ^^^ a'.envDir
          else (a.ra.get (Fin.ofNat 16 (8 + ch.val))).extractLsb' 0 4) ∧
        amp = s.cfg.ampTableA.get v.toFin ∧
        gate = ((a'.toneOut.get ch || a.ra.r7.getLsbD ch.val) && (a'.lfsr.getLsbD 0 || a.ra.r7.getLsbD (3 + ch.val))) ∧
        sum ch = if gate then amp else -amp) ∧
      Stored s.cfg (chanOf s .A) (sum 0 + sum 1 + sum 2) x'

/-- R265: core A's noise register is invertible, never reaches 0 from elsewhere, and from every non-zero value has period
131071. -/
def Obligations.NoiseRegisterAPeriod : Prop :=
  ∀ x : BitVec 17, x ≠ 0 →
    lfsrStepA x ≠ 0 ∧ (lfsrStepA)^[131071] x = x ∧ ∀ n, 0 < n → n < 131071 → (lfsrStepA)^[n] x ≠ x

/-- R273: the level of the envelope `k` steps after a write of each shape, over all its ramps. -/
def Obligations.EnvelopeShapes : Prop :=
  ∀ (a : PsgA) (shape : Byte) (k : Nat),
    (envLevel ((envAdvance)^[k] (writeRegA a 13 shape))).toNat =
      if shape.getLsbD 3 = false then
        (if k < 16 then (if shape.getLsbD 2 then k else 15 - k) else 0)
      else if shape.getLsbD 0 then
        (if k < 16 then (if shape.getLsbD 2 then k else 15 - k)
          else if shape.getLsbD 2 ^^ shape.getLsbD 1 then 15 else 0)
      else if shape.getLsbD 2 ^^ (shape.getLsbD 1 && decide (k / 16 % 2 = 1)) then k % 16 else 15 - k % 16

/-! ### Generator core B -/

/-- R301, R302, R304, R305, R306: a latch byte selects a register and replaces a tone period's low bits, an attenuation, or
the noise control, which reseeds the noise register; a data byte replaces the high bits, the attenuation, or the noise
control of the register selected last. -/
def Obligations.CoreBRegisterWrites : Prop :=
  ∀ (s : State) (b : PsgB), Running s → s.psgB = b →
    (∀ (d : BitVec 4) (ch : Fin 3) (r : Fin 8), r.val = 2 * ch.val → exec (latchRow r d) s = .next { s with psgB :=
      { b with latch := BitVec.ofNat 3 r.val, per := b.per.set ch ((b.per.get ch &&& 0x3F0) ||| d.setWidth 10) } }) ∧
    (∀ (d : BitVec 4) (ch : Fin 4) (r : Fin 8), r.val = 2 * ch.val + 1 → exec (latchRow r d) s = .next { s with psgB :=
      { b with latch := BitVec.ofNat 3 r.val, att := b.att.set ch d } }) ∧
    (∀ d : BitVec 4, exec (.latch6 d) s = .next { s with psgB :=
      { b with latch := 6, nreg := (d &&& 7).setWidth 3, lfsr := BitVec.ofNat 16 (2 ^ (s.cfg.snLfsrWidth - 1)) } }) ∧
    (∀ (d : BitVec 6) (ch : Fin 3), b.latch.toNat = 2 * ch.val → exec (.data d) s = .next { s with psgB :=
      { b with per := b.per.set ch ((d.setWidth 10 <<< 4) ||| (b.per.get ch &&& 0x00F)) } }) ∧
    (∀ (d : BitVec 6) (ch : Fin 4), b.latch.toNat = 2 * ch.val + 1 → exec (.data d) s = .next { s with psgB :=
      { b with att := b.att.set ch (d.setWidth 4) } }) ∧
    ∀ d : BitVec 6, b.latch = 6 → exec (.data d) s = .next { s with psgB :=
      { b with nreg := d.setWidth 3, lfsr := BitVec.ofNat 16 (2 ^ (s.cfg.snLfsrWidth - 1)) } }

/-- R310 to R317: one tick of core B moves the three tone counters and the noise counter, and stores the sum of the four
contributions as they stand then. -/
def Obligations.TickOfCoreB : Prop :=
  ∀ (s : State) (b : PsgB), Running s → TablesFit s.cfg → s.psgB = b → (chanOf s .B).buf.wf = true →
    0 < spaceRemaining s.cfg (chanOf s .B) → (∀ ch, 1 ≤ b.toneCnt.get ch) → 1 ≤ b.noiseCnt →
    ∃ (b' : PsgB) (x' : Channel) (sum : Fin 4 → Int),
      exec (.tick 1) s = .next (withChan { s with psgB := b' } .B x') ∧
      b'.per = b.per ∧ b'.att = b.att ∧ b'.nreg = b.nreg ∧ b'.latch = b.latch ∧
      (∀ (ch : Fin 3) (period : Nat),
        period = (if (b.per.get ch).toNat = 0 then s.cfg.snZeroPeriod else (b.per.get ch).toNat) →
        b'.toneOut.get ch = (if b.toneCnt.get ch = 1 then !b.toneOut.get ch else b.toneOut.get ch) ∧
        b'.toneCnt.get ch = (if b.toneCnt.get ch = 1 then period else b.toneCnt.get ch - 1)) ∧
      b'.noiseFF = (if b.noiseCnt = 1 then !b.noiseFF else b.noiseFF) ∧
      b'.noiseCnt = (if b.noiseCnt = 1 then
          (if b.nreg.toNat % 4 = 0 then s.cfg.snNoiseDiv.c0 else if b.nreg.toNat % 4 = 1 then s.cfg.snNoiseDiv.c1
            else if b.nreg.toNat % 4 = 2 then s.cfg.snNoiseDiv.c2
            else if (b.per.get 2).toNat = 0 then s.cfg.snZeroPeriod else (b.per.get 2).toNat)
        else b.noiseCnt - 1) ∧
      b'.lfsr = (if b.noiseCnt = 1 ∧ b.noiseFF = false then
        (b.lfsr >>> 1) ||| ((if (if b.nreg.getLsbD 2 then decide ((b.lfsr &&& s.cfg.snTaps).cpop.toNat % 2 = 1)
          else b.lfsr.getLsbD 0) then (1 : BitVec 16) else 0) <<< (s.cfg.snLfsrWidth - 1)) else b.lfsr) ∧
      (∀ ch : Fin 3, sum ⟨ch.val, by omega⟩ =
        (if b'.toneOut.get ch then s.cfg.ampTableB.get (b.att.get ⟨ch.val, by omega⟩).toFin
          else -s.cfg.ampTableB.get (b.att.get ⟨ch.val, by omega⟩).toFin)) ∧
      sum 3 = (if b'.lfsr.getLsbD 0 then s.cfg.ampTableB.get b.att.c3.toFin else -s.cfg.ampTableB.get b.att.c3.toFin) ∧
      Stored s.cfg (chanOf s .B) (sum 0 + sum 1 + sum 2 + sum 3) x'

/-- R313: with `cfg.snTaps[0] = 1` core B's noise register never becomes 0, and in the periodic case it repeats after
`cfg.snLfsrWidth` shifts. -/
def Obligations.NoiseRegisterB : Prop :=
  ∀ (cfg : Config) (x : BitVec 16), cfg.snTaps.getLsbD 0 = true → 1 ≤ cfg.snLfsrWidth → cfg.snLfsrWidth ≤ 16 →
    x ≠ 0 → x.toNat < 2 ^ cfg.snLfsrWidth →
    (∀ white, lfsrStepB cfg white x ≠ 0 ∧ (lfsrStepB cfg white x).toNat < 2 ^ cfg.snLfsrWidth) ∧
    (lfsrStepB cfg false)^[cfg.snLfsrWidth] x = x

/-! ### Speech core S -/

/-- R144, R351: LOAD_ADDRESS takes an address when none is waiting, and is ignored when one is. -/
def Obligations.LoadAddressFollowsItsRule : Prop :=
  ∀ (s : State) (addr : Byte), Running s →
    (s.speech.pending = none →
      exec (.loadAddress addr) s = .next { s with speech := { s.speech with pending := some addr } } ∧
      exec (.load addr) s = .next { s with speech := { s.speech with pending := some addr } }) ∧
    (s.speech.pending ≠ none → exec (.loadAddress addr) s = .next s ∧ exec (.load addr) s = .next s)

/-- R353, R354, R355, R112: one micro-instruction makes its ROM reads, moves `ms`, and takes its outcome: it goes on,
loads a frame, or halts; a read outside the ROM raises RomRange and nothing else happens (the row alone taking its outcome
is the model's reading, log 17). -/
def Obligations.MicroInstructionFollowsItsRule : Prop :=
  ∀ (s : State) (p : Speech) (m : MicroInstr), Running s → s.speech = p → microInstr s.cfg p.ms = m →
    (∀ pre a post, m.reads = pre ++ a :: post → (∀ r ∈ pre, r < s.cfg.rom.length) → s.cfg.rom.length ≤ a →
      exec .micro s = .next { s with fault := some (.romRange a) }) ∧
    (ReadsInRom s.cfg m → m.out = .cont →
      exec .micro s = .next (answer .ok (.outcome .cont) { s with speech := { p with ms := m.next } })) ∧
    (ReadsInRom s.cfg m → m.out = .halt →
      exec .micro s =
        .next (answer .ok (.outcome .halt) { s with speech := { p with ms := m.next, halted := true } })) ∧
    ∀ fr, ReadsInRom s.cfg m → m.out = .frame fr →
      exec .micro s = .next (answer .ok (.outcome (.frame fr)) { s with speech :=
        { p with
          ms := m.next
          rpt := fr.rpt.getD p.rpt
          per := fr.per.getD p.per
          ampRaw := fr.ampRaw.getD p.ampRaw
          amp := ampDecode s.cfg (fr.ampRaw.getD p.ampRaw)
          dAmp := fr.dAmp.getD p.dAmp
          dPer := fr.dPer.getD p.dPer
          interp := fr.interp.getD p.interp
          f := Six.zip (fun c o => o.getD c) p.f fr.f
          b := Six.zip (fun c o => o.getD c) p.b fr.b } })

/-- R354, R557: RUN_MICRO runs micro-instructions until one halts or loads a frame; one that would be over
`cfg.microFuel` raises MicroRunaway; a read outside the ROM raises RomRange. What the instructions before did stays. That
RUN_MICRO run alone has the whole fuel (`used = 0`) and answers its outcome is the model's reading (DEDUCED, log 17). -/
def Obligations.RunMicroFollowsItsRule : Prop :=
  ∀ (s : State) (p : Speech) (n : Nat) (ms : MicroState) (m : MicroInstr), Running s → s.speech = p →
    ContinuesTo s.cfg n p.ms ms → microInstr s.cfg ms = m →
    (n = s.cfg.microFuel →
      exec .runMicro s = .next { s with speech := { p with ms := ms }, fault := some (.microRunaway ms) }) ∧
    (n < s.cfg.microFuel → ∀ pre a post, m.reads = pre ++ a :: post → (∀ r ∈ pre, r < s.cfg.rom.length) →
      s.cfg.rom.length ≤ a →
      exec .runMicro s = .next { s with speech := { p with ms := ms }, fault := some (.romRange a) }) ∧
    (n < s.cfg.microFuel → ReadsInRom s.cfg m → m.out = .halt → exec .runMicro s =
      .next (answer .ok (.outcome .halt) { s with speech := { p with ms := m.next, halted := true } })) ∧
    ∀ fr, n < s.cfg.microFuel → ReadsInRom s.cfg m → m.out = .frame fr → exec .runMicro s =
      .next (answer .ok (.outcome (.frame fr)) { s with speech := loadFrame s.cfg { p with ms := m.next } fr })

/-- R358, R359, R365: one excitation step of each kind. -/
def Obligations.ExciteFollowsItsRule : Prop :=
  ∀ (cfg : Config) (p : Speech) (i z0 z1 : Six (BitVec 16)) (noise : BitVec 15),
    i = Six.const 0 → z0 = (if cfg.zeroOnPeriod then i else p.z0) → z1 = (if cfg.zeroOnPeriod then i else p.z1) →
    noise = (p.rng >>> 1) ^^^ (if p.rng.getLsbD 0 then cfg.sTaps else 0) →
    (p.per ≠ 0 → 0 < p.cnt → excite cfg p = (0, { p with cnt := p.cnt - 1 })) ∧
    (p.per ≠ 0 → p.cnt ≤ 0 → p.interp = false → excite cfg p =
      (p.amp, { p with cnt := p.cnt + p.per.toNat, rpt := p.rpt - 1, z0 := z0, z1 := z1 })) ∧
    (p.per ≠ 0 → p.cnt ≤ 0 → p.interp = true → excite cfg p =
      (p.amp, { p with
        cnt := p.cnt + p.per.toNat, rpt := p.rpt - 1, z0 := z0, z1 := z1, ampRaw := p.ampRaw + p.dAmp,
        per := p.per + p.dPer, amp := ampDecode cfg (p.ampRaw + p.dAmp) })) ∧
    (p.per = 0 → 1 < p.cnt → excite cfg p =
      (if p.rng.getLsbD 0 then p.amp else -p.amp, { p with cnt := p.cnt - 1, rng := noise })) ∧
    (p.per = 0 → p.cnt ≤ 1 → p.interp = false → excite cfg p =
      (if p.rng.getLsbD 0 then p.amp else -p.amp,
        { p with cnt := cfg.noisePer, rpt := p.rpt - 1, z0 := z0, z1 := z1, rng := noise })) ∧
    (p.per = 0 → p.cnt ≤ 1 → p.interp = true → excite cfg p =
      (if p.rng.getLsbD 0 then p.amp else -p.amp, { p with
        cnt := cfg.noisePer, rpt := p.rpt - 1, z0 := z0, z1 := z1, rng := noise, ampRaw := p.ampRaw + p.dAmp,
        per := p.per + p.dPer, amp := ampDecode cfg (p.ampRaw + p.dAmp) }))

/-- R361, R362: the six sections of the lattice filter in turn, each wrapped to 16 bits, and the delay line shifted. -/
def Obligations.LatticeFollowsItsRule : Prop :=
  ∀ (cfg : Config) (p : Speech) (e : Int), ∃ y : Fin 7 → BitVec 16,
    y 0 = BitVec.ofInt 16 e ∧
    (∀ (j : Fin 6) (f b : Coef) (z0 z1 : BitVec 16),
      f = [p.f.s0, p.f.s1, p.f.s2, p.f.s3, p.f.s4, p.f.s5].getD j.val 0 →
      b = [p.b.s0, p.b.s1, p.b.s2, p.b.s3, p.b.s4, p.b.s5].getD j.val 0 →
      z0 = [p.z0.s0, p.z0.s1, p.z0.s2, p.z0.s3, p.z0.s4, p.z0.s5].getD j.val 0 →
      z1 = [p.z1.s0, p.z1.s1, p.z1.s2, p.z1.s3, p.z1.s4, p.z1.s5].getD j.val 0 →
      y ⟨j.val + 1, by omega⟩ = BitVec.ofInt 16 ((y ⟨j.val, by omega⟩).toInt +
        Int.fdiv (b.toInt * z1.toInt) (2 ^ cfg.bShift) + Int.fdiv (f.toInt * z0.toInt) (2 ^ cfg.fShift))) ∧
    lattice cfg p e = ((y 6).toInt, { p with z0 := ⟨y 1, y 2, y 3, y 4, y 5, y 6⟩, z1 := p.z0 })

/-- R352, R354, R357, R360, R363, R364: a tick of core S stores silence and leaves the core alone when it is halted with
nothing pending and no frame runs; while a frame runs that this tick does not end, it stores the filter's output for the
tick's excitation. Without a frame, it starts the pending phoneme or goes on with the microcode, up to a frame, and stores
the output of that frame. Where the excitation step ends the frame, the tick goes on from there. In general a tick stores
the level of `TickRun`, all of R360's loop, and where the loop has no end it raises MicroRunaway or RomRange and stores
nothing (R556, R557). -/
def Obligations.TickOfCoreS : Prop :=
  ∀ (s : State) (p : Speech), Running s → s.speech = p → (chanOf s .S).buf.wf = true →
    0 < spaceRemaining s.cfg (chanOf s .S) →
    (p.rpt ≤ 0 → p.halted = true → p.pending = none →
      ∃ x', exec (.tick 2) s = .next (withChan s .S x') ∧ Stored s.cfg (chanOf s .S) 0 x') ∧
    (0 < p.rpt → 0 < (excite s.cfg p).2.rpt →
      ∃ (y : Int) (p' : Speech) (x' : Channel), lattice s.cfg (excite s.cfg p).2 (excite s.cfg p).1 = (y, p') ∧
        exec (.tick 2) s = .next (withChan { s with speech := p' } .S x') ∧
        Stored s.cfg (chanOf s .S) (Int.fdiv y (2 ^ s.cfg.speechOutShift)) x') ∧
    (∀ (p₀ p₁ : Speech) (n : Nat) (ms : MicroState) (fr : Frame), p.rpt ≤ 0 →
      ((p.halted = false ∧ p₀ = p) ∨ ∃ a, p.halted = true ∧ p.pending = some a ∧
        p₀ = { p with ms := entryState s.cfg a, halted := false, pending := none }) →
      ContinuesTo s.cfg n p₀.ms ms → n < s.cfg.microFuel → ReadsInRom s.cfg (microInstr s.cfg ms) →
      (microInstr s.cfg ms).out = .frame fr → p₁ = loadFrame s.cfg { p₀ with ms := (microInstr s.cfg ms).next } fr →
      0 < p₁.rpt → 0 < (excite s.cfg p₁).2.rpt →
      ∃ (y : Int) (p' : Speech) (x' : Channel), lattice s.cfg (excite s.cfg p₁).2 (excite s.cfg p₁).1 = (y, p') ∧
        exec (.tick 2) s = .next (withChan { s with speech := p' } .S x') ∧
        Stored s.cfg (chanOf s .S) (Int.fdiv y (2 ^ s.cfg.speechOutShift)) x') ∧
    (0 < p.rpt → (excite s.cfg p).2.rpt ≤ 0 →
      exec (.tick 2) s = exec (.tick 2) { s with speech := (excite s.cfg p).2 }) ∧
    (∀ level q, TickRun s.cfg s.cfg.microFuel p level q →
      ∃ x', exec (.tick 2) s = .next (withChan { s with speech := q } .S x') ∧ Stored s.cfg (chanOf s .S) level x') ∧
    ((∀ level q, ¬ TickRun s.cfg s.cfg.microFuel p level q) →
      ∃ f q, exec (.tick 2) s = .next { s with speech := q, fault := some f } ∧
        ((∃ m, f = .microRunaway m) ∨ ∃ a, f = .romRange a ∧ s.cfg.rom.length ≤ a))

/-- R352, R357, R374: a pending address whose first instruction halts leaves the core halted, nothing pending and ready
again, and the tick silent. -/
def Obligations.ImmediateHaltIsSilent : Prop :=
  ∀ (s : State) (p : Speech) (a : Byte) (m : MicroInstr), Running s → s.speech = p → (chanOf s .S).buf.wf = true →
    0 < spaceRemaining s.cfg (chanOf s .S) → p.rpt ≤ 0 → p.halted = true → p.pending = some a → 0 < s.cfg.microFuel →
    microInstr s.cfg (entryState s.cfg a) = m → ReadsInRom s.cfg m → m.out = .halt →
    ∃ x', exec (.tick 2) s = .next (withChan { s with speech := { p with ms := m.next, pending := none } } .S x') ∧
      Stored s.cfg (chanOf s .S) 0 x'

/-- R372: FILTER_UPDATE is that many ticks of core S in a row: none does nothing, and `n + 1` are one tick and then `n`
more, or the tick's fault. -/
def Obligations.FilterUpdateIsRepeatedTicks : Prop :=
  ∀ s : State, Running s →
    exec (.filterUpdate 0) s = .next s ∧
    (∀ (n : BitVec 32) (t : State), n.toNat + 1 < 2 ^ 32 → exec (.tick 2) s = .next t →
      (t.fault = none → exec (.filterUpdate (n + 1)) s = exec (.filterUpdate n) t) ∧
      (t.fault ≠ none → exec (.filterUpdate (n + 1)) s = .next t)) ∧
    ∀ n : BitVec 32, s.speech.rpt ≤ 0 → s.speech.halted = true → s.speech.pending = none →
      n.toNat ≤ spaceRemaining s.cfg (chanOf s .S) →
      ∃ x', exec (.filterUpdate n) s = .next (withChan s .S x') ∧ RingFrame s.cfg (chanOf s .S) n.toNat x' ∧
        ((chanOf s .S).tau = 0 → (chanOf s .S).buf.wf = true → (chanOf s .S).head < 2 ^ s.cfg.ringBits →
          ∀ i < n.toNat, memRead x'.buf (ringAddress s.cfg (chanOf s .S) i) = 127)

/-! ### The pump -/

/-- R216, R217, R451, R455: the pump of a core moves converted samples while DRAIN can give one, and stops else. Without a
source they are discarded. Without a current block it takes the first clean one, or holds or stalls and takes no sample.
Each sample goes to position `fill` of the current block, `fill` and `newSamples` are raised, and a full block is queued.
In one closed form: into a block with room for all of them, the codes that DRAIN gives go one after another from `fill` on.
ITERATE with no write and no tick due is the pump, its answer Held or Ok the model's reading (DEDUCED, log 15). -/
def Obligations.PumpMovesConvertedSamples : Prop :=
  ∀ (s : State) (c : CoreId) (x : Channel), chanOf s c = x → 0 < x.limit →
    (x.index + samplesAvailable s.cfg x * x.increment < x.limit → pump c s = .done .ok s) ∧
    (x.limit ≤ x.index + samplesAvailable s.cfg x * x.increment → x.handle = none →
      ∃ v x', drainChan s.cfg x = (some v, x') ∧ pump c s = pump c (withChan s c x')) ∧
    (∀ k d, x.limit ≤ x.index + samplesAvailable s.cfg x * x.increment → x.handle = some k → sourceAt s k = some d →
      (d.current = none → d.clean = [] → d.blocking = true → d.sync = true →
        pump c s = .done .held { s with holdS := some k }) ∧
      (d.current = none → d.clean = [] → (d.blocking = false ∨ d.sync = false) → pump c s = .done .stalled s) ∧
      (∀ b rest blk, d.current = none → d.clean = b :: rest → d.blocks[b]? = some blk →
        pump c s = pump c { s with reg := s.reg.set k (some
          { d with clean := rest, current := some b, blocks := d.blocks.set b { blk with fill := 0 } }) }) ∧
      ∀ b blk, d.current = some b → d.blocks[b]? = some blk → blk.data.wf = true →
        ∃ v x' blk', drainChan s.cfg x = (some v, x') ∧ blk'.fill = blk.fill + 1 ∧ memRead blk'.data blk.fill = v ∧
          (∀ a, a ≠ blk.fill → memRead blk'.data a = memRead blk.data a) ∧
          pump c s = pump c { withChan s c x' with reg := s.reg.set k (some
            { d with
              blocks := d.blocks.set b blk', newSamples := d.newSamples + 1,
              dirty := if blk.fill + 1 = s.cfg.blockLen then d.dirty ++ [b] else d.dirty,
              current := if blk.fill + 1 = s.cfg.blockLen then none else some b }) }) ∧
    (∀ (k : Nat) (d : Source) (b : Nat) (blk : Block) (codes : List Byte) (y : Channel), x.handle = some k →
      sourceAt s k = some d → d.current = some b → d.blocks[b]? = some blk →
      blk.data.wf = true → blk.fill < s.cfg.blockLen →
      drains s.cfg ((x.index + samplesAvailable s.cfg x * x.increment) / x.limit) x = (codes.map some, y) →
      blk.fill + codes.length ≤ s.cfg.blockLen →
      ∃ blk', blk'.fill = blk.fill + codes.length ∧
        (∀ (i : Nat) (v : Byte), codes[i]? = some v → memRead blk'.data (blk.fill + i) = v) ∧
        (∀ a, a < blk.fill ∨ blk.fill + codes.length ≤ a → memRead blk'.data a = memRead blk.data a) ∧
        pump c s = .done .ok { withChan s c y with reg := s.reg.set k (some
          { d with
            blocks := d.blocks.set b blk', newSamples := d.newSamples + codes.length,
            dirty := if blk.fill + codes.length = s.cfg.blockLen then d.dirty ++ [b] else d.dirty,
            current := if blk.fill + codes.length = s.cfg.blockLen then none else some b }) }) ∧
    ∀ (h : BitVec 64) (st : Status) (t : State), Running s → h.toNat = x.lastH → x.debt = 0 →
      x.cycAcc < s.cpuHz * tickDen s c → (∀ e ∈ x.q, x.lastH < e.ts) → pump c s = .done st t →
      exec (.iterate (coreField c) h) s = .next (answer (if st = .held then .held else .ok)
        (if c = .S then .ready t.speech.pending.isNone else .none) t)

end Statements
end

