-- ==== Sys2Proof/Laws/State.lean ====
section
/-! SUPPORT. The small lemmas of the state's parts: banks, one lemma per field per named update, and what the updates do to
the accessors. -/

namespace Sys2Proof.Laws

open Sys2Proof.Machine Sys2Proof.Safety

/-! ### Banks -/

@[simp] theorem perCore_get_set_same {α : Type} (t : PerCore α) (c : CoreId) (v : α) : (t.set c v).get c = v := by
  cases c <;> rfl

theorem perCore_get_set_ne {α : Type} (t : PerCore α) {c c' : CoreId} (v : α) (h : c' ≠ c) : (t.set c v).get c' = t.get c' := by
  cases c <;> cases c' <;> first | rfl | exact absurd rfl h

@[simp] theorem tri_get_set_same {α : Type} (t : Tri α) (c : Fin 3) (v : α) : (t.set c v).get c = v := by
  fin_cases c <;> rfl

theorem tri_get_set_ne {α : Type} (t : Tri α) {c c' : Fin 3} (v : α) (h : c' ≠ c) : (t.set c v).get c' = t.get c' := by
  fin_cases c <;> fin_cases c' <;> first | rfl | exact absurd rfl h

@[simp] theorem quad_get_set_same {α : Type} (t : Quad α) (c : Fin 4) (v : α) : (t.set c v).get c = v := by
  fin_cases c <;> rfl

theorem quad_get_set_ne {α : Type} (t : Quad α) {c c' : Fin 4} (v : α) (h : c' ≠ c) : (t.set c v).get c' = t.get c' := by
  fin_cases c <;> fin_cases c' <;> first | rfl | exact absurd rfl h

@[simp] theorem bank16_get_set_same {α : Type} (t : Bank16 α) (c : Fin 16) (v : α) : (t.set c v).get c = v := by
  fin_cases c <;> rfl

theorem bank16_get_set_ne {α : Type} (t : Bank16 α) {c c' : Fin 16} (v : α) (h : c' ≠ c) : (t.set c v).get c' = t.get c' := by
  fin_cases c <;> fin_cases c' <;> first | rfl | exact absurd rfl h

@[simp] theorem perCore_set_get {α : Type} (t : PerCore α) (c : CoreId) : t.set c (t.get c) = t := by
  cases c <;> rfl

@[simp] theorem perCore_set_set {α : Type} (t : PerCore α) (c : CoreId) (v w : α) : (t.set c v).set c w = t.set c w := by
  cases c <;> rfl

theorem perCore_ext {α : Type} {t u : PerCore α} (h : ∀ c, t.get c = u.get c) : t = u := by
  cases t; cases u; simpa [PerCore.get] using And.intro (h .A) (And.intro (h .B) (h .S))

/-! ### `withChan` -/

@[simp] theorem withChan_cpuHz (s : State) (c : CoreId) (x : Channel) : (withChan s c x).cpuHz = s.cpuHz := rfl

@[simp] theorem withChan_vol (s : State) (c : CoreId) (x : Channel) : (withChan s c x).vol = s.vol := rfl

@[simp] theorem withChan_muted (s : State) (c : CoreId) (x : Channel) : (withChan s c x).muted = s.muted := rfl

@[simp] theorem withChan_fault (s : State) (c : CoreId) (x : Channel) : (withChan s c x).fault = s.fault := rfl

@[simp] theorem withChan_macc (s : State) (c : CoreId) (x : Channel) : (withChan s c x).macc = s.macc := rfl

@[simp] theorem withChan_chans (s : State) (c : CoreId) (x : Channel) : (withChan s c x).chans = s.chans.set c x := rfl

@[simp] theorem withChan_psgA (s : State) (c : CoreId) (x : Channel) : (withChan s c x).psgA = s.psgA := rfl

@[simp] theorem withChan_psgB (s : State) (c : CoreId) (x : Channel) : (withChan s c x).psgB = s.psgB := rfl

@[simp] theorem withChan_speech (s : State) (c : CoreId) (x : Channel) : (withChan s c x).speech = s.speech := rfl

@[simp] theorem withChan_reg (s : State) (c : CoreId) (x : Channel) : (withChan s c x).reg = s.reg := rfl

@[simp] theorem withChan_holdS (s : State) (c : CoreId) (x : Channel) : (withChan s c x).holdS = s.holdS := rfl

@[simp] theorem withChan_cfg (s : State) (c : CoreId) (x : Channel) : (withChan s c x).cfg = s.cfg := rfl

@[simp] theorem withChan_feed (s : State) (c : CoreId) (x : Channel) : (withChan s c x).feed = s.feed := rfl

@[simp] theorem withChan_mSeq (s : State) (c : CoreId) (x : Channel) : (withChan s c x).mSeq = s.mSeq := rfl

@[simp] theorem withChan_out (s : State) (c : CoreId) (x : Channel) : (withChan s c x).out = s.out := rfl

@[simp] theorem withChan_replies (s : State) (c : CoreId) (x : Channel) : (withChan s c x).replies = s.replies := rfl

/-! ### `withSlot` -/

@[simp] theorem withSlot_cpuHz (s : State) (k : Nat) (d : Option Source) : (withSlot s k d).cpuHz = s.cpuHz := rfl

@[simp] theorem withSlot_vol (s : State) (k : Nat) (d : Option Source) : (withSlot s k d).vol = s.vol := rfl

@[simp] theorem withSlot_muted (s : State) (k : Nat) (d : Option Source) : (withSlot s k d).muted = s.muted := rfl

@[simp] theorem withSlot_fault (s : State) (k : Nat) (d : Option Source) : (withSlot s k d).fault = s.fault := rfl

@[simp] theorem withSlot_macc (s : State) (k : Nat) (d : Option Source) : (withSlot s k d).macc = s.macc := rfl

@[simp] theorem withSlot_chans (s : State) (k : Nat) (d : Option Source) : (withSlot s k d).chans = s.chans := rfl

@[simp] theorem withSlot_psgA (s : State) (k : Nat) (d : Option Source) : (withSlot s k d).psgA = s.psgA := rfl

@[simp] theorem withSlot_psgB (s : State) (k : Nat) (d : Option Source) : (withSlot s k d).psgB = s.psgB := rfl

@[simp] theorem withSlot_speech (s : State) (k : Nat) (d : Option Source) : (withSlot s k d).speech = s.speech := rfl

@[simp] theorem withSlot_reg (s : State) (k : Nat) (d : Option Source) : (withSlot s k d).reg = s.reg.set k d := rfl

@[simp] theorem withSlot_holdS (s : State) (k : Nat) (d : Option Source) : (withSlot s k d).holdS = s.holdS := rfl

@[simp] theorem withSlot_cfg (s : State) (k : Nat) (d : Option Source) : (withSlot s k d).cfg = s.cfg := rfl

@[simp] theorem withSlot_feed (s : State) (k : Nat) (d : Option Source) : (withSlot s k d).feed = s.feed := rfl

@[simp] theorem withSlot_mSeq (s : State) (k : Nat) (d : Option Source) : (withSlot s k d).mSeq = s.mSeq := rfl

@[simp] theorem withSlot_out (s : State) (k : Nat) (d : Option Source) : (withSlot s k d).out = s.out := rfl

@[simp] theorem withSlot_replies (s : State) (k : Nat) (d : Option Source) : (withSlot s k d).replies = s.replies := rfl

/-! ### `takeFault` -/

@[simp] theorem takeFault_cpuHz (f : Fault) (s : State) : (takeFault f s).cpuHz = s.cpuHz := rfl

@[simp] theorem takeFault_vol (f : Fault) (s : State) : (takeFault f s).vol = s.vol := rfl

@[simp] theorem takeFault_muted (f : Fault) (s : State) : (takeFault f s).muted = s.muted := rfl

@[simp] theorem takeFault_fault (f : Fault) (s : State) : (takeFault f s).fault = some f := rfl

@[simp] theorem takeFault_macc (f : Fault) (s : State) : (takeFault f s).macc = s.macc := rfl

@[simp] theorem takeFault_chans (f : Fault) (s : State) : (takeFault f s).chans = s.chans := rfl

@[simp] theorem takeFault_psgA (f : Fault) (s : State) : (takeFault f s).psgA = s.psgA := rfl

@[simp] theorem takeFault_psgB (f : Fault) (s : State) : (takeFault f s).psgB = s.psgB := rfl

@[simp] theorem takeFault_speech (f : Fault) (s : State) : (takeFault f s).speech = s.speech := rfl

@[simp] theorem takeFault_reg (f : Fault) (s : State) : (takeFault f s).reg = s.reg := rfl

@[simp] theorem takeFault_holdS (f : Fault) (s : State) : (takeFault f s).holdS = s.holdS := rfl

@[simp] theorem takeFault_cfg (f : Fault) (s : State) : (takeFault f s).cfg = s.cfg := rfl

@[simp] theorem takeFault_feed (f : Fault) (s : State) : (takeFault f s).feed = s.feed := rfl

@[simp] theorem takeFault_mSeq (f : Fault) (s : State) : (takeFault f s).mSeq = s.mSeq := rfl

@[simp] theorem takeFault_out (f : Fault) (s : State) : (takeFault f s).out = s.out := rfl

@[simp] theorem takeFault_replies (f : Fault) (s : State) : (takeFault f s).replies = s.replies := rfl

/-! ### `answer` -/

@[simp] theorem answer_cpuHz (st : Status) (v : RetVal) (s : State) : (answer st v s).cpuHz = s.cpuHz := rfl

@[simp] theorem answer_vol (st : Status) (v : RetVal) (s : State) : (answer st v s).vol = s.vol := rfl

@[simp] theorem answer_muted (st : Status) (v : RetVal) (s : State) : (answer st v s).muted = s.muted := rfl

@[simp] theorem answer_fault (st : Status) (v : RetVal) (s : State) : (answer st v s).fault = s.fault := rfl

@[simp] theorem answer_macc (st : Status) (v : RetVal) (s : State) : (answer st v s).macc = s.macc := rfl

@[simp] theorem answer_chans (st : Status) (v : RetVal) (s : State) : (answer st v s).chans = s.chans := rfl

@[simp] theorem answer_psgA (st : Status) (v : RetVal) (s : State) : (answer st v s).psgA = s.psgA := rfl

@[simp] theorem answer_psgB (st : Status) (v : RetVal) (s : State) : (answer st v s).psgB = s.psgB := rfl

@[simp] theorem answer_speech (st : Status) (v : RetVal) (s : State) : (answer st v s).speech = s.speech := rfl

@[simp] theorem answer_reg (st : Status) (v : RetVal) (s : State) : (answer st v s).reg = s.reg := rfl

@[simp] theorem answer_holdS (st : Status) (v : RetVal) (s : State) : (answer st v s).holdS = s.holdS := rfl

@[simp] theorem answer_cfg (st : Status) (v : RetVal) (s : State) : (answer st v s).cfg = s.cfg := rfl

@[simp] theorem answer_feed (st : Status) (v : RetVal) (s : State) : (answer st v s).feed = s.feed := rfl

@[simp] theorem answer_mSeq (st : Status) (v : RetVal) (s : State) : (answer st v s).mSeq = s.mSeq := rfl

@[simp] theorem answer_out (st : Status) (v : RetVal) (s : State) : (answer st v s).out = s.out := rfl

@[simp] theorem answer_replies (st : Status) (v : RetVal) (s : State) : (answer st v s).replies = s.replies ++ [⟨st, v⟩] := rfl

/-! ### `payTick` -/

@[simp] theorem payTick_cpuHz (c : CoreId) (s : State) : (payTick c s).cpuHz = s.cpuHz := rfl

@[simp] theorem payTick_vol (c : CoreId) (s : State) : (payTick c s).vol = s.vol := rfl

@[simp] theorem payTick_muted (c : CoreId) (s : State) : (payTick c s).muted = s.muted := rfl

@[simp] theorem payTick_fault (c : CoreId) (s : State) : (payTick c s).fault = s.fault := rfl

@[simp] theorem payTick_macc (c : CoreId) (s : State) : (payTick c s).macc = s.macc := rfl

@[simp] theorem payTick_chans (c : CoreId) (s : State) : (payTick c s).chans = s.chans.set c { chanOf s c with debt := (chanOf s c).debt - 1 } := rfl

@[simp] theorem payTick_psgA (c : CoreId) (s : State) : (payTick c s).psgA = s.psgA := rfl

@[simp] theorem payTick_psgB (c : CoreId) (s : State) : (payTick c s).psgB = s.psgB := rfl

@[simp] theorem payTick_speech (c : CoreId) (s : State) : (payTick c s).speech = s.speech := rfl

@[simp] theorem payTick_reg (c : CoreId) (s : State) : (payTick c s).reg = s.reg := rfl

@[simp] theorem payTick_holdS (c : CoreId) (s : State) : (payTick c s).holdS = s.holdS := rfl

@[simp] theorem payTick_cfg (c : CoreId) (s : State) : (payTick c s).cfg = s.cfg := rfl

@[simp] theorem payTick_feed (c : CoreId) (s : State) : (payTick c s).feed = s.feed := rfl

@[simp] theorem payTick_mSeq (c : CoreId) (s : State) : (payTick c s).mSeq = s.mSeq := rfl

@[simp] theorem payTick_out (c : CoreId) (s : State) : (payTick c s).out = s.out := rfl

@[simp] theorem payTick_replies (c : CoreId) (s : State) : (payTick c s).replies = s.replies := rfl

/-! ### `accrue` -/

@[simp] theorem accrue_cpuHz (c : CoreId) (h : Nat) (s : State) : (accrue c h s).cpuHz = s.cpuHz := rfl

@[simp] theorem accrue_vol (c : CoreId) (h : Nat) (s : State) : (accrue c h s).vol = s.vol := rfl

@[simp] theorem accrue_muted (c : CoreId) (h : Nat) (s : State) : (accrue c h s).muted = s.muted := rfl

@[simp] theorem accrue_fault (c : CoreId) (h : Nat) (s : State) : (accrue c h s).fault = s.fault := rfl

@[simp] theorem accrue_macc (c : CoreId) (h : Nat) (s : State) : (accrue c h s).macc = s.macc := rfl

@[simp] theorem accrue_psgA (c : CoreId) (h : Nat) (s : State) : (accrue c h s).psgA = s.psgA := rfl

@[simp] theorem accrue_psgB (c : CoreId) (h : Nat) (s : State) : (accrue c h s).psgB = s.psgB := rfl

@[simp] theorem accrue_speech (c : CoreId) (h : Nat) (s : State) : (accrue c h s).speech = s.speech := rfl

@[simp] theorem accrue_reg (c : CoreId) (h : Nat) (s : State) : (accrue c h s).reg = s.reg := rfl

@[simp] theorem accrue_holdS (c : CoreId) (h : Nat) (s : State) : (accrue c h s).holdS = s.holdS := rfl

@[simp] theorem accrue_cfg (c : CoreId) (h : Nat) (s : State) : (accrue c h s).cfg = s.cfg := rfl

@[simp] theorem accrue_feed (c : CoreId) (h : Nat) (s : State) : (accrue c h s).feed = s.feed := rfl

@[simp] theorem accrue_mSeq (c : CoreId) (h : Nat) (s : State) : (accrue c h s).mSeq = s.mSeq := rfl

@[simp] theorem accrue_out (c : CoreId) (h : Nat) (s : State) : (accrue c h s).out = s.out := rfl

@[simp] theorem accrue_replies (c : CoreId) (h : Nat) (s : State) : (accrue c h s).replies = s.replies := rfl

/-! ### `applyA` -/

@[simp] theorem applyA_cpuHz (n : Fin 16) (v : Byte) (s : State) : (applyA n v s).cpuHz = s.cpuHz := rfl

@[simp] theorem applyA_vol (n : Fin 16) (v : Byte) (s : State) : (applyA n v s).vol = s.vol := rfl

@[simp] theorem applyA_muted (n : Fin 16) (v : Byte) (s : State) : (applyA n v s).muted = s.muted := rfl

@[simp] theorem applyA_fault (n : Fin 16) (v : Byte) (s : State) : (applyA n v s).fault = s.fault := rfl

@[simp] theorem applyA_macc (n : Fin 16) (v : Byte) (s : State) : (applyA n v s).macc = s.macc := rfl

@[simp] theorem applyA_chans (n : Fin 16) (v : Byte) (s : State) : (applyA n v s).chans = s.chans := rfl

@[simp] theorem applyA_psgA (n : Fin 16) (v : Byte) (s : State) : (applyA n v s).psgA = writeRegA s.psgA n v := rfl

@[simp] theorem applyA_psgB (n : Fin 16) (v : Byte) (s : State) : (applyA n v s).psgB = s.psgB := rfl

@[simp] theorem applyA_speech (n : Fin 16) (v : Byte) (s : State) : (applyA n v s).speech = s.speech := rfl

@[simp] theorem applyA_reg (n : Fin 16) (v : Byte) (s : State) : (applyA n v s).reg = s.reg := rfl

@[simp] theorem applyA_holdS (n : Fin 16) (v : Byte) (s : State) : (applyA n v s).holdS = s.holdS := rfl

@[simp] theorem applyA_cfg (n : Fin 16) (v : Byte) (s : State) : (applyA n v s).cfg = s.cfg := rfl

@[simp] theorem applyA_feed (n : Fin 16) (v : Byte) (s : State) : (applyA n v s).feed = s.feed := rfl

@[simp] theorem applyA_mSeq (n : Fin 16) (v : Byte) (s : State) : (applyA n v s).mSeq = s.mSeq := rfl

@[simp] theorem applyA_out (n : Fin 16) (v : Byte) (s : State) : (applyA n v s).out = s.out := rfl

@[simp] theorem applyA_replies (n : Fin 16) (v : Byte) (s : State) : (applyA n v s).replies = s.replies := rfl

/-! ### `applyB` -/

@[simp] theorem applyB_cpuHz (v : Byte) (s : State) : (applyB v s).cpuHz = s.cpuHz := rfl

@[simp] theorem applyB_vol (v : Byte) (s : State) : (applyB v s).vol = s.vol := rfl

@[simp] theorem applyB_muted (v : Byte) (s : State) : (applyB v s).muted = s.muted := rfl

@[simp] theorem applyB_fault (v : Byte) (s : State) : (applyB v s).fault = s.fault := rfl

@[simp] theorem applyB_macc (v : Byte) (s : State) : (applyB v s).macc = s.macc := rfl

@[simp] theorem applyB_chans (v : Byte) (s : State) : (applyB v s).chans = s.chans := rfl

@[simp] theorem applyB_psgA (v : Byte) (s : State) : (applyB v s).psgA = s.psgA := rfl

@[simp] theorem applyB_psgB (v : Byte) (s : State) : (applyB v s).psgB = writeByteB s.cfg s.psgB v := rfl

@[simp] theorem applyB_speech (v : Byte) (s : State) : (applyB v s).speech = s.speech := rfl

@[simp] theorem applyB_reg (v : Byte) (s : State) : (applyB v s).reg = s.reg := rfl

@[simp] theorem applyB_holdS (v : Byte) (s : State) : (applyB v s).holdS = s.holdS := rfl

@[simp] theorem applyB_cfg (v : Byte) (s : State) : (applyB v s).cfg = s.cfg := rfl

@[simp] theorem applyB_feed (v : Byte) (s : State) : (applyB v s).feed = s.feed := rfl

@[simp] theorem applyB_mSeq (v : Byte) (s : State) : (applyB v s).mSeq = s.mSeq := rfl

@[simp] theorem applyB_out (v : Byte) (s : State) : (applyB v s).out = s.out := rfl

@[simp] theorem applyB_replies (v : Byte) (s : State) : (applyB v s).replies = s.replies := rfl

/-! ### `applyS` -/

@[simp] theorem applyS_cpuHz (v : Byte) (s : State) : (applyS v s).cpuHz = s.cpuHz := rfl

@[simp] theorem applyS_vol (v : Byte) (s : State) : (applyS v s).vol = s.vol := rfl

@[simp] theorem applyS_muted (v : Byte) (s : State) : (applyS v s).muted = s.muted := rfl

@[simp] theorem applyS_fault (v : Byte) (s : State) : (applyS v s).fault = s.fault := rfl

@[simp] theorem applyS_macc (v : Byte) (s : State) : (applyS v s).macc = s.macc := rfl

@[simp] theorem applyS_chans (v : Byte) (s : State) : (applyS v s).chans = s.chans := rfl

@[simp] theorem applyS_psgA (v : Byte) (s : State) : (applyS v s).psgA = s.psgA := rfl

@[simp] theorem applyS_psgB (v : Byte) (s : State) : (applyS v s).psgB = s.psgB := rfl

@[simp] theorem applyS_speech (v : Byte) (s : State) : (applyS v s).speech = offerAddress s.speech v := rfl

@[simp] theorem applyS_reg (v : Byte) (s : State) : (applyS v s).reg = s.reg := rfl

@[simp] theorem applyS_holdS (v : Byte) (s : State) : (applyS v s).holdS = s.holdS := rfl

@[simp] theorem applyS_cfg (v : Byte) (s : State) : (applyS v s).cfg = s.cfg := rfl

@[simp] theorem applyS_feed (v : Byte) (s : State) : (applyS v s).feed = s.feed := rfl

@[simp] theorem applyS_mSeq (v : Byte) (s : State) : (applyS v s).mSeq = s.mSeq := rfl

@[simp] theorem applyS_out (v : Byte) (s : State) : (applyS v s).out = s.out := rfl

@[simp] theorem applyS_replies (v : Byte) (s : State) : (applyS v s).replies = s.replies := rfl

/-! ### `emit` -/

@[simp] theorem emit_cpuHz (s : State) : (Machine.emit s).cpuHz = s.cpuHz := rfl

@[simp] theorem emit_vol (s : State) : (Machine.emit s).vol = s.vol := rfl

@[simp] theorem emit_muted (s : State) : (Machine.emit s).muted = s.muted := rfl

@[simp] theorem emit_fault (s : State) : (Machine.emit s).fault = s.fault := rfl

@[simp] theorem emit_macc (s : State) : (Machine.emit s).macc = List.replicate s.cfg.blockLen 0 := rfl

@[simp] theorem emit_chans (s : State) : (Machine.emit s).chans = s.chans := rfl

@[simp] theorem emit_psgA (s : State) : (Machine.emit s).psgA = s.psgA := rfl

@[simp] theorem emit_psgB (s : State) : (Machine.emit s).psgB = s.psgB := rfl

@[simp] theorem emit_speech (s : State) : (Machine.emit s).speech = s.speech := rfl

@[simp] theorem emit_reg (s : State) : (Machine.emit s).reg = s.reg := rfl

@[simp] theorem emit_holdS (s : State) : (Machine.emit s).holdS = s.holdS := rfl

@[simp] theorem emit_cfg (s : State) : (Machine.emit s).cfg = s.cfg := rfl

@[simp] theorem emit_feed (s : State) : (Machine.emit s).feed = s.feed := rfl

@[simp] theorem emit_mSeq (s : State) : (Machine.emit s).mSeq = s.mSeq := rfl

@[simp] theorem emit_out (s : State) : (Machine.emit s).out = s.out ++ [hostBlock s] := rfl

@[simp] theorem emit_replies (s : State) : (Machine.emit s).replies = s.replies := rfl

/-! ### The accessors after an update -/

@[simp] theorem chanOf_withChan_same (s : State) (c : CoreId) (x : Channel) : chanOf (withChan s c x) c = x := by simp [chanOf]

theorem chanOf_withChan_ne (s : State) {c c' : CoreId} (x : Channel) (h : c' ≠ c) : chanOf (withChan s c x) c' = chanOf s c' := by
  simp [chanOf, perCore_get_set_ne _ _ h]

@[simp] theorem withChan_chanOf (s : State) (c : CoreId) : withChan s c (chanOf s c) = s := by simp [withChan, chanOf]

@[simp] theorem withChan_withChan (s : State) (c : CoreId) (x y : Channel) : withChan (withChan s c x) c y = withChan s c y := by simp [withChan]

@[simp] theorem chanOf_withSlot (s : State) (k : Nat) (d : Option Source) (c : CoreId) : chanOf (withSlot s k d) c = chanOf s c := rfl

@[simp] theorem chanOf_takeFault (f : Fault) (s : State) (c : CoreId) : chanOf (takeFault f s) c = chanOf s c := rfl

@[simp] theorem chanOf_answer (st : Status) (v : RetVal) (s : State) (c : CoreId) : chanOf (answer st v s) c = chanOf s c := rfl

@[simp] theorem chanOf_applyA (n : Fin 16) (v : Byte) (s : State) (c : CoreId) : chanOf (applyA n v s) c = chanOf s c := rfl

@[simp] theorem chanOf_applyB (v : Byte) (s : State) (c : CoreId) : chanOf (applyB v s) c = chanOf s c := rfl

@[simp] theorem chanOf_applyS (v : Byte) (s : State) (c : CoreId) : chanOf (applyS v s) c = chanOf s c := rfl

@[simp] theorem chanOf_emit (s : State) (c : CoreId) : chanOf (Machine.emit s) c = chanOf s c := rfl

@[simp] theorem sourceAt_withChan (s : State) (c : CoreId) (x : Channel) (k : Nat) : sourceAt (withChan s c x) k = sourceAt s k := rfl

@[simp] theorem sourceAt_takeFault (f : Fault) (s : State) (k : Nat) : sourceAt (takeFault f s) k = sourceAt s k := rfl

@[simp] theorem sourceAt_answer (st : Status) (v : RetVal) (s : State) (k : Nat) : sourceAt (answer st v s) k = sourceAt s k := rfl

@[simp] theorem sourceAt_applyA (n : Fin 16) (v : Byte) (s : State) (k : Nat) : sourceAt (applyA n v s) k = sourceAt s k := rfl

@[simp] theorem sourceAt_applyB (v : Byte) (s : State) (k : Nat) : sourceAt (applyB v s) k = sourceAt s k := rfl

@[simp] theorem sourceAt_applyS (v : Byte) (s : State) (k : Nat) : sourceAt (applyS v s) k = sourceAt s k := rfl

@[simp] theorem sourceAt_payTick (c : CoreId) (s : State) (k : Nat) : sourceAt (payTick c s) k = sourceAt s k := rfl

@[simp] theorem sourceAt_accrue (c : CoreId) (h : Nat) (s : State) (k : Nat) : sourceAt (accrue c h s) k = sourceAt s k := rfl

@[simp] theorem sourceAt_emit (s : State) (k : Nat) : sourceAt (Machine.emit s) k = sourceAt s k := rfl

/-- The slot of a registered source is one of the registry's. -/
theorem sourceAt_lt {s : State} {k : Nat} {d : Source} (h : sourceAt s k = some d) : k < s.reg.length := by
  by_contra hk
  simp [sourceAt, List.getElem?_eq_none (Nat.le_of_not_lt hk)] at h

theorem reg_of_sourceAt {s : State} {k : Nat} {d : Source} (h : sourceAt s k = some d) : s.reg[k]? = some (some d) := by
  unfold sourceAt at h
  cases hr : s.reg[k]? with
  | none => simp [hr] at h
  | some o => simpa [hr] using h

theorem sourceAt_withSlot_same {s : State} {k : Nat} (d : Option Source) (h : k < s.reg.length) :
    sourceAt (withSlot s k d) k = d := by
  simp [sourceAt, h]

theorem sourceAt_withSlot_ne (s : State) {k j : Nat} (d : Option Source) (h : j ≠ k) :
    sourceAt (withSlot s k d) j = sourceAt s j := by
  simp [sourceAt, List.getElem?_set_ne (Ne.symm h)]

/-- The source of a core, read off its handle and its slot. -/
theorem sourceOf_eq_some {s : State} {c : CoreId} {k : Nat} {d : Source} :
    sourceOf s c = some (k, d) ↔ (chanOf s c).handle = some k ∧ sourceAt s k = some d := by
  unfold sourceOf
  cases (chanOf s c).handle with
  | none => simp
  | some j =>
    simp only [Option.some.injEq]
    cases hs : sourceAt s j with
    | none => exact ⟨fun h => by simp at h, fun ⟨h1, h2⟩ => by subst h1; simp [hs] at h2⟩
    | some e =>
      simp only [Option.some.injEq, Prod.mk.injEq]
      exact ⟨fun ⟨h1, h2⟩ => ⟨h1, by subst h1; simp [hs, h2]⟩, fun ⟨h1, h2⟩ => ⟨h1, by subst h1; simpa [hs] using h2⟩⟩

theorem syncOf_eq_true {s : State} {c : CoreId} :
    syncOf s c = true ↔ ∃ k d, (chanOf s c).handle = some k ∧ sourceAt s k = some d ∧ d.sync = true := by
  unfold syncOf
  cases h : sourceOf s c with
  | none =>
    simp only [Bool.false_eq_true, false_iff, not_exists]
    rintro k d ⟨h1, h2, -⟩
    simp [sourceOf_eq_some.2 ⟨h1, h2⟩] at h
  | some p =>
    obtain ⟨k, d⟩ := p
    obtain ⟨h1, h2⟩ := sourceOf_eq_some.1 h
    constructor
    · exact fun hd => ⟨k, d, h1, h2, hd⟩
    · rintro ⟨k', d', h1', h2', hd⟩
      rw [h1] at h1'
      cases h1'
      simp_all

/-- Whether a core's source is synchronous depends on its handle and on the sync flags in the registry alone. -/
theorem syncOf_congr {s t : State} {c : CoreId} (hh : (chanOf t c).handle = (chanOf s c).handle)
    (hr : ∀ k, (chanOf s c).handle = some k → (sourceAt t k).map Source.sync = (sourceAt s k).map Source.sync) :
    syncOf t c = syncOf s c := by
  simp only [syncOf, sourceOf, hh]
  cases hs : (chanOf s c).handle with
  | none => rfl
  | some k =>
    have := hr k hs
    cases h1 : sourceAt t k <;> cases h2 : sourceAt s k <;> simp_all

/-! ### The ends of a step -/

theorem runStep_of_running {s : State} (h : s.fault = none) (body : State → Res (Option Reply)) :
    runStep s body = settle (body s) := by
  simp [runStep, h]

theorem runStep_of_fault {s : State} {f : Fault} (h : s.fault = some f) (body : State → Res (Option Reply)) :
    runStep s body = .fault f := by
  simp [runStep, h]

theorem runCommandS_of_free {s : State} (h : Free s) (body : State → Res (Option Reply)) :
    runCommandS s body = settle (body s) := by
  simp [runCommandS, h.1, h.2]

theorem runCommandS_of_held {s : State} {k : Nat} (hf : s.fault = none) (h : s.holdS = some k)
    (body : State → Res (Option Reply)) : runCommandS s body = .refused (.held k) := by
  simp [runCommandS, hf, h]

theorem runCommandS_of_fault {s : State} {f : Fault} (h : s.fault = some f) (body : State → Res (Option Reply)) :
    runCommandS s body = .fault f := by
  simp [runCommandS, h]

@[simp] theorem settle_raised (f : Fault) (s : State) : settle (.raised f s) = .next (takeFault f s) := rfl

@[simp] theorem settle_none (s : State) : settle (.done none s) = .next s := rfl

@[simp] theorem settle_statusOnly (st : Status) (s : State) : settle (.done (statusOnly st) s) = .next (answer st .none s) :=
  rfl

@[simp] theorem settle_reply (st : Status) (v : RetVal) (s : State) :
    settle (.done (some ⟨st, v⟩) s) = .next (answer st v s) := rfl

@[simp] theorem onCore_coreField (c : CoreId) (s : State) (body : CoreId → State → Res (Option Reply)) :
    onCore (coreField c) s body = body c s := by
  cases c <;> rfl

@[simp] theorem onCore_none (s : State) (body : CoreId → State → Res (Option Reply)) :
    onCore 3 s body = .done (statusOnly .ignored) s := rfl

/-- What a step that answers a next state did: it ran to its end or raised a fault, from a state without one. -/
theorem runStep_next {s t : State} {body : State → Res (Option Reply)} (h : runStep s body = .next t) :
    s.fault = none ∧ ((∃ r u, body s = .done r u ∧ t = returned r u) ∨ ∃ f u, body s = .raised f u ∧ t = takeFault f u) := by
  cases hf : s.fault with
  | some f => simp [runStep, hf] at h
  | none =>
    refine ⟨rfl, ?_⟩
    rw [runStep_of_running hf] at h
    cases hb : body s with
    | done r u => rw [hb] at h; exact .inl ⟨r, u, rfl, by simpa [settle] using h.symm⟩
    | raised f u => rw [hb] at h; exact .inr ⟨f, u, rfl, by simpa [settle] using h.symm⟩

/-- The same of a command of agent S, which is not held then. -/
theorem runCommandS_next {s t : State} {body : State → Res (Option Reply)} (h : runCommandS s body = .next t) :
    Free s ∧ ((∃ r u, body s = .done r u ∧ t = returned r u) ∨ ∃ f u, body s = .raised f u ∧ t = takeFault f u) := by
  cases hf : s.fault with
  | some f => simp [runCommandS, hf] at h
  | none =>
    cases hh : s.holdS with
    | some k => simp [runCommandS, hf, hh] at h
    | none =>
      refine ⟨⟨hf, hh⟩, ?_⟩
      rw [runCommandS_of_free ⟨hf, hh⟩] at h
      cases hb : body s with
      | done r u => rw [hb] at h; exact .inl ⟨r, u, rfl, by simpa [settle] using h.symm⟩
      | raised f u => rw [hb] at h; exact .inr ⟨f, u, rfl, by simpa [settle] using h.symm⟩

end Sys2Proof.Laws
end

