-- ==== Sys2Proof/Laws/Memory.lean ====
section
/-! SUPPORT. The laws of the byte stores: every write keeps the canonical form, a read after a write, and that equal
reads of canonical stores make equal stores. -/

namespace Sys2Proof.Laws

open Sys2Proof.Machine Sys2Proof.Safety

@[simp] theorem memRead_nil (a : Nat) : memRead [] a = memUnlisted := rfl

theorem memWfFrom_mono {m : Memory} {lo lo' : Nat} (h : memWfFrom lo m = true) (hl : lo' ≤ lo) :
    memWfFrom lo' m = true := by
  cases m with
  | nil => rfl
  | cons e m =>
    obtain ⟨b, w⟩ := e
    simp only [memWfFrom, Bool.and_eq_true, decide_eq_true_eq] at h ⊢
    exact ⟨⟨hl.trans h.1.1, h.1.2⟩, h.2⟩

/-- Below the addresses of a canonical store everything reads as unlisted. -/
theorem memRead_below {m : Memory} {lo a : Nat} (h : memWfFrom lo m = true) (ha : a < lo) :
    memRead m a = memUnlisted := by
  induction m generalizing lo with
  | nil => rfl
  | cons e m ih =>
    obtain ⟨b, w⟩ := e
    simp only [memWfFrom, Bool.and_eq_true, decide_eq_true_eq] at h
    simp [memRead, show b ≠ a by omega, ih h.2 (by omega)]

theorem memWfFrom_memWrite {m : Memory} {lo a : Nat} (v : Byte) (h : memWfFrom lo m = true) (ha : lo ≤ a) :
    memWfFrom lo (memWrite m a v) = true := by
  induction m generalizing lo with
  | nil => by_cases hv : v = memUnlisted <;> simp [memWrite, memWfFrom, hv, ha]
  | cons e m ih =>
    obtain ⟨b, w⟩ := e
    have hs := h
    simp only [memWfFrom, Bool.and_eq_true, decide_eq_true_eq] at hs
    obtain ⟨⟨hb, hw⟩, hm⟩ := hs
    unfold memWrite
    split
    · split
      · exact h
      · rename_i hlt hv
        simp [memWfFrom, hv, ha, hw, hm, show a + 1 ≤ b by omega]
    · split
      · rename_i hab
        subst hab
        split
        · exact memWfFrom_mono hm (by omega)
        · rename_i hv
          simp [memWfFrom, hv, ha, hm]
      · simp [memWfFrom, hb, hw, ih hm (by omega)]

/-- A write keeps the canonical form. -/
theorem wf_memWrite {m : Memory} (a : Nat) (v : Byte) (h : m.wf = true) : (memWrite m a v).wf = true :=
  memWfFrom_memWrite v h (Nat.zero_le a)

theorem memRead_memWrite_from {m : Memory} {lo : Nat} (a : Nat) (v : Byte) (h : memWfFrom lo m = true) :
    memRead (memWrite m a v) a = v := by
  induction m generalizing lo with
  | nil => by_cases hv : v = memUnlisted <;> simp [memWrite, memRead, hv]
  | cons e m ih =>
    obtain ⟨b, w⟩ := e
    simp only [memWfFrom, Bool.and_eq_true, decide_eq_true_eq] at h
    unfold memWrite
    split
    · rename_i hlt
      split
      · rename_i hv
        simp [memRead, show b ≠ a by omega, hv, memRead_below h.2 (show a < b + 1 by omega)]
      · simp [memRead]
    · split
      · rename_i hab
        subst hab
        split
        · rename_i hv
          rw [hv]
          exact memRead_below h.2 (Nat.lt_succ_self _)
        · simp [memRead]
      · rename_i hab
        simp [memRead, Ne.symm hab, ih h.2]

/-- A read after a write to the same address gives the byte written. -/
theorem memRead_memWrite_same {m : Memory} (a : Nat) (v : Byte) (h : m.wf = true) : memRead (memWrite m a v) a = v :=
  memRead_memWrite_from a v h

/-- A write leaves every other address alone. -/
theorem memRead_memWrite_ne (m : Memory) {a a' : Nat} (v : Byte) (h : a' ≠ a) :
    memRead (memWrite m a v) a' = memRead m a' := by
  induction m with
  | nil => by_cases hv : v = memUnlisted <;> simp [memWrite, memRead, hv, Ne.symm h]
  | cons e m ih =>
    obtain ⟨b, w⟩ := e
    unfold memWrite
    split
    · split
      · rfl
      · simp [memRead, Ne.symm h]
    · split
      · rename_i hab
        subst hab
        split <;> simp [memRead, Ne.symm h]
      · simp [memRead, ih]

theorem memory_ext_from {m n : Memory} {lo lo' : Nat} (hm : memWfFrom lo m = true) (hn : memWfFrom lo' n = true)
    (h : ∀ a, memRead m a = memRead n a) : m = n := by
  induction m generalizing n lo lo' with
  | nil =>
    cases n with
    | nil => rfl
    | cons e n =>
      obtain ⟨b, w⟩ := e
      simp only [memWfFrom, Bool.and_eq_true, decide_eq_true_eq] at hn
      exact absurd (by simpa [memRead] using (h b).symm) hn.1.2
  | cons e m ih =>
    obtain ⟨b, w⟩ := e
    simp only [memWfFrom, Bool.and_eq_true, decide_eq_true_eq] at hm
    cases n with
    | nil => exact absurd (by simpa [memRead] using h b) hm.1.2
    | cons e' n =>
      obtain ⟨b', w'⟩ := e'
      simp only [memWfFrom, Bool.and_eq_true, decide_eq_true_eq] at hn
      have hbb : b = b' := by
        rcases lt_trichotomy b b' with hlt | heq | hlt
        · have := h b
          rw [show memRead ((b', w') :: n) b = memUnlisted by
            simp [memRead, show b' ≠ b by omega, memRead_below hn.2 (show b < b' + 1 by omega)]] at this
          exact absurd (by simpa [memRead] using this) hm.1.2
        · exact heq
        · have := h b'
          rw [show memRead ((b, w) :: m) b' = memUnlisted by
            simp [memRead, show b ≠ b' by omega, memRead_below hm.2 (show b' < b + 1 by omega)]] at this
          exact absurd (by simpa [memRead] using this.symm) hn.1.2
      subst hbb
      have hww : w = w' := by simpa [memRead] using h b
      subst hww
      rw [ih hm.2 hn.2 (fun a => ?_)]
      by_cases ha : a = b
      · subst ha
        rw [memRead_below hm.2 (Nat.lt_succ_self _), memRead_below hn.2 (Nat.lt_succ_self _)]
      · simpa [memRead, Ne.symm ha] using h a

/-- Two canonical stores that read alike are the same data. -/
theorem memory_ext {m n : Memory} (hm : m.wf = true) (hn : n.wf = true) (h : ∀ a, memRead m a = memRead n a) : m = n :=
  memory_ext_from hm hn h

/-- Every ring and every block of the state after reset is in canonical form. -/
theorem reset_memory_wf (cfg : Config) (c : CoreId) : (chanOf (State.resetOf cfg) c).buf.wf = true := by
  cases c <;> rfl

theorem reset_sourceAt (cfg : Config) (k : Nat) : sourceAt (State.resetOf cfg) k = none := by
  simp only [sourceAt, State.resetOf, List.getElem?_replicate]
  split <;> rfl

/-- The memory of `State.reset` has the canonical form. -/
theorem state_reset_memory_wf (c : CoreId) : (chanOf State.reset c).buf.wf = true := reset_memory_wf Config.vc c

end Sys2Proof.Laws
end

