-- ==== Sys2Proof/Laws/Ring.lean ====
section
/-! SUPPORT. What the ring operations do: the counts, PUT_SAMPLE, the converter and DRAIN, each said once. -/

namespace Sys2Proof.Laws

open Sys2Proof.Machine Sys2Proof.Safety

/-! ### Counts -/

theorem capacity_pos (cfg : Config) : 0 < capacity cfg := Nat.two_pow_pos _

theorem samplesAvailable_cast (cfg : Config) (x : Channel) :
    (samplesAvailable cfg x : Int) = ((x.head : Int) - x.tail) % (capacity cfg : Int) := by
  have := Int.emod_nonneg ((x.head : Int) - x.tail) (b := (capacity cfg : Int)) (by have := capacity_pos cfg; omega)
  simp only [samplesAvailable]
  omega

/-- A ring never holds its whole capacity (R103, R104). -/
theorem samplesAvailable_lt (cfg : Config) (x : Channel) : samplesAvailable cfg x < capacity cfg := by
  have h := Int.emod_lt_of_pos ((x.head : Int) - x.tail) (b := (capacity cfg : Int)) (by have := capacity_pos cfg; omega)
  rw [← samplesAvailable_cast] at h
  omega

theorem spaceRemaining_eq_zero {cfg : Config} {x : Channel} :
    spaceRemaining cfg x = 0 ↔ samplesAvailable cfg x + 1 = capacity cfg := by
  have := samplesAvailable_lt cfg x
  simp only [spaceRemaining]
  omega

theorem samplesAvailable_congr {cfg : Config} {x y : Channel} (hh : y.head = x.head) (ht : y.tail = x.tail) :
    samplesAvailable cfg y = samplesAvailable cfg x := by
  simp [samplesAvailable, hh, ht]

theorem emod_succ {a c : Int} (n : Int) (h : a % c = n) (hn : n + 1 < c) (h0 : 0 ≤ n) :
    (a + 1) % c = n + 1 := by
  rw [Int.add_emod, h, Int.emod_eq_of_lt (a := (1 : Int)) (by omega) (by omega), Int.emod_eq_of_lt (by omega) hn]

theorem emod_pred {a c : Int} (n : Int) (h : a % c = n) (hn : 0 < n) (hlt : n < c) :
    (a - 1) % c = n - 1 := by
  have : (a - 1) = (n - 1) + c * (a / c) := by have := Int.emod_add_mul_ediv a c; rw [h] at this; omega
  rw [this, Int.add_mul_emod_self_left, Int.emod_eq_of_lt (by omega) (by omega)]

/-- A put adds one sample (R105). -/
theorem samplesAvailable_put {cfg : Config} {x y : Channel} (hh : y.head = (x.head + 1) % capacity cfg)
    (ht : y.tail = x.tail) (h : spaceRemaining cfg x ≠ 0) : samplesAvailable cfg y = samplesAvailable cfg x + 1 := by
  have hl := samplesAvailable_lt cfg x
  have hs : samplesAvailable cfg x + 1 < capacity cfg := by simp only [ne_eq, spaceRemaining_eq_zero] at h; omega
  have hx := samplesAvailable_cast cfg x
  have hy := samplesAvailable_cast cfg y
  rw [hh, ht] at hy
  push_cast at hy
  rw [Int.emod_sub_emod] at hy
  have he := emod_succ (a := (x.head : Int) - x.tail) (c := capacity cfg) _ hx.symm (by omega) (by omega)
  rw [show (x.head : Int) - x.tail + 1 = x.head + 1 - x.tail by ring] at he
  omega

/-- A take removes one sample (R105). -/
theorem samplesAvailable_take {cfg : Config} {x y : Channel} (hh : y.head = x.head)
    (ht : y.tail = (x.tail + 1) % capacity cfg) (h : 0 < samplesAvailable cfg x) :
    samplesAvailable cfg y = samplesAvailable cfg x - 1 := by
  have hl := samplesAvailable_lt cfg x
  have hx := samplesAvailable_cast cfg x
  have hy := samplesAvailable_cast cfg y
  rw [hh, ht] at hy
  push_cast at hy
  rw [Int.sub_emod_emod] at hy
  have he := emod_pred (a := (x.head : Int) - x.tail) (c := capacity cfg) _ hx.symm (by omega) (by omega)
  rw [show (x.head : Int) - x.tail - 1 = x.head - (x.tail + 1) by ring] at he
  omega

/-! ### PUT_SAMPLE -/

theorem codeOf_toNat (level : Int) : ((codeOf level).toNat : Int) = min 127 (max (-127) level) + 127 := by
  have h : 0 ≤ clip (-127) 127 level + 127 ∧ clip (-127) 127 level + 127 < 256 := by unfold clip; omega
  rw [codeOf, BitVec.toNat_ofInt, Int.toNat_of_nonneg (by omega)]
  rw [Int.emod_eq_of_lt (by omega) (by simpa using h.2)]
  rfl

@[simp] theorem storeLevel_head (cfg : Config) (x : Channel) (level : Int) :
    (storeLevel cfg x level).head = (x.head + 1) % capacity cfg := rfl

@[simp] theorem storeLevel_tail (cfg : Config) (x : Channel) (level : Int) : (storeLevel cfg x level).tail = x.tail := rfl

@[simp] theorem storeLevel_decay (cfg : Config) (x : Channel) (level : Int) :
    (storeLevel cfg x level).decay = decayAfter x level := rfl

@[simp] theorem storeLevel_buf (cfg : Config) (x : Channel) (level : Int) :
    (storeLevel cfg x level).buf = memWrite x.buf x.head (codeOf (decayOut x level)) := rfl

/-- Storing a level changes the ring, its head and the decay accumulator alone. -/
theorem storeLevel_eq (cfg : Config) (x : Channel) (level : Int) :
    storeLevel cfg x level =
      { x with
        buf := memWrite x.buf x.head (codeOf (decayOut x level)), head := (x.head + 1) % capacity cfg,
        decay := decayAfter x level } := rfl

/-- What a stored level leaves behind, in the terms of the claims. -/
theorem storeLevel_stored (cfg : Config) (x : Channel) (level : Int) (h : x.buf.wf = true) :
    Stored cfg x level (storeLevel cfg x level) := by
  refine ⟨rfl, by simp only [storeLevel_decay, decayAfter], ?_, fun a ha => ?_⟩
  · rw [storeLevel_buf, memRead_memWrite_same _ _ h, codeOf_toNat]
    by_cases ht : x.tau = 0 <;> simp [decayOut, ht]
  · rw [storeLevel_buf, memRead_memWrite_ne _ _ ha]

/-- PUT_SAMPLE with room for a level in range stores it. -/
theorem putSample_stores {c : CoreId} {level : Int} {s : State} (hlo : -32768 ≤ level) (hhi : level ≤ 32767)
    (hs : spaceRemaining s.cfg (chanOf s c) ≠ 0) :
    putSample c level s = .done () (withChan s c (storeLevel s.cfg (chanOf s c) level)) := by
  simp [putSample, hs, show ¬ (level < -32768 ∨ 32767 < level) by omega]

/-- Everything PUT_SAMPLE can do: store the level, or raise one of its two faults and leave the state as it stood. -/
theorem putSample_cases (c : CoreId) (level : Int) (s : State) :
    (-32768 ≤ level ∧ level ≤ 32767 ∧ spaceRemaining s.cfg (chanOf s c) ≠ 0 ∧
        putSample c level s = .done () (withChan s c (storeLevel s.cfg (chanOf s c) level))) ∨
      ((level < -32768 ∨ 32767 < level) ∧ putSample c level s = .raised (.levelRange c level) s) ∨
      (-32768 ≤ level ∧ level ≤ 32767 ∧ spaceRemaining s.cfg (chanOf s c) = 0 ∧
        putSample c level s = .raised (.ringOverflow c) s) := by
  by_cases hl : level < -32768 ∨ 32767 < level
  · exact .inr (.inl ⟨hl, by simp [putSample, hl]⟩)
  · by_cases hs : spaceRemaining s.cfg (chanOf s c) = 0
    · exact .inr (.inr ⟨by omega, by omega, hs, by simp [putSample, hl, hs]⟩)
    · exact .inl ⟨by omega, by omega, hs, putSample_stores (by omega) (by omega) hs⟩

/-- A truncated quotient lies between 0 and the exact one, so one decay step moves the accumulator towards its aim and not
past it. -/
theorem tdiv_between (v : Int) {n : Nat} (hn : 0 < n) :
    (0 ≤ v → 0 ≤ Int.tdiv v n ∧ n * Int.tdiv v n ≤ v) ∧ (v ≤ 0 → Int.tdiv v n ≤ 0 ∧ v ≤ n * Int.tdiv v n) := by
  constructor
  · intro h
    rw [Int.tdiv_eq_ediv_of_nonneg h]
    exact ⟨Int.ediv_nonneg h (by omega), by rw [mul_comm]; exact Int.ediv_mul_le v (by omega)⟩
  · intro h
    have h' : Int.tdiv v n = -((-v) / n) := by
      rw [← Int.tdiv_eq_ediv_of_nonneg (by omega : 0 ≤ -v), Int.neg_tdiv, neg_neg]
    rw [h']
    have h1 := Int.ediv_nonneg (by omega : 0 ≤ -v) (by omega : (0 : Int) ≤ n)
    have h2 := Int.ediv_mul_le (-v) (by omega : (n : Int) ≠ 0)
    constructor
    · omega
    · have : (n : Int) * -(-v / n) = -((-v / n) * n) := by ring
      omega

/-! ### The converter -/

theorem reducedRatio_eq_some {dst src : Nat} (hd : dst ≠ 0) (hs : src ≠ 0) :
    reducedRatio dst src = some (dst / Nat.gcd dst src, src / Nat.gcd dst src) := by
  simp [reducedRatio, hd, hs]

/-- A ratio in lowest terms: both terms positive and coprime. -/
theorem reducedRatio_lowest {dst src num den : Nat} (h : reducedRatio dst src = some (num, den)) :
    0 < num ∧ 0 < den ∧ Nat.Coprime num den ∧ num * Nat.gcd dst src = dst ∧ den * Nat.gcd dst src = src := by
  unfold reducedRatio at h
  split at h
  · cases h
  · rename_i hz
    simp only [Option.some.injEq, Prod.mk.injEq] at h
    obtain ⟨rfl, rfl⟩ := h
    have hg : 0 < Nat.gcd dst src := Nat.gcd_pos_of_pos_left _ (by omega)
    have h1 := Nat.div_mul_cancel (Nat.gcd_dvd_left dst src)
    have h2 := Nat.div_mul_cancel (Nat.gcd_dvd_right dst src)
    refine ⟨Nat.pos_of_ne_zero fun h0 => ?_, Nat.pos_of_ne_zero fun h0 => ?_, Nat.coprime_div_gcd_div_gcd hg, h1, h2⟩
    · rw [h0] at h1; omega
    · rw [h0] at h2; omega

/-! ### DRAIN -/

@[simp] theorem takeCode_index (cfg : Config) (x : Channel) : (takeCode cfg x).index = x.index + x.increment := rfl

@[simp] theorem takeCode_limit (cfg : Config) (x : Channel) : (takeCode cfg x).limit = x.limit := rfl

@[simp] theorem takeCode_increment (cfg : Config) (x : Channel) : (takeCode cfg x).increment = x.increment := rfl

@[simp] theorem takeCode_tail (cfg : Config) (x : Channel) : (takeCode cfg x).tail = (x.tail + 1) % capacity cfg := rfl

@[simp] theorem takeCode_head (cfg : Config) (x : Channel) : (takeCode cfg x).head = x.head := rfl

@[simp] theorem takeCode_last (cfg : Config) (x : Channel) : (takeCode cfg x).last = memRead x.buf x.tail := rfl

@[simp] theorem takeCode_buf (cfg : Config) (x : Channel) : (takeCode cfg x).buf = x.buf := rfl

/-- The channel after DRAIN's loop has taken `k` codes. -/
def taken (cfg : Config) : Nat → Channel → Channel
  | 0, x => x
  | k + 1, x => taken cfg k (takeCode cfg x)

/-- After `k` codes the channel differs from the one before in `tail`, `last` and `index` alone. -/
theorem taken_eq (cfg : Config) (k : Nat) (x : Channel) (ht : x.tail < capacity cfg) :
    taken cfg k x =
      { x with
        tail := if k = 0 then x.tail else (x.tail + k) % capacity cfg,
        last := if k = 0 then x.last else memRead x.buf ((x.tail + (k - 1)) % capacity cfg),
        index := x.index + k * x.increment } := by
  induction k generalizing x with
  | zero => simp [taken]
  | succ k ih =>
    rw [taken, ih _ (by simpa using Nat.mod_lt _ (capacity_pos cfg))]
    cases k with
    | zero => simp [takeCode, ringDrop, ringOldest, Nat.mod_eq_of_lt ht]
    | succ k =>
      simp only [takeCode, ringDrop, ringOldest, Nat.add_eq_zero_iff, one_ne_zero, and_false, if_false,
        Nat.add_sub_cancel, Nat.mod_add_mod]
      congr 1
      · congr 1; omega
      · ring
      · congr 2; omega

/-- The loop stops after the least number of codes that brings `index` to `limit`. -/
theorem drainLoop_reaches {cfg : Config} {n k : Nat} {x : Channel} (hk : k ≤ n)
    (hr : x.limit ≤ x.index + k * x.increment) (hm : ∀ j < k, x.index + j * x.increment < x.limit) :
    drainLoop cfg n x = (true, taken cfg k x) := by
  induction k generalizing n x with
  | zero =>
    have : x.limit ≤ x.index := by simpa using hr
    cases n <;> simp [drainLoop, taken, this]
  | succ k ih =>
    have h0 := hm 0 (Nat.succ_pos k)
    cases n with
    | zero => omega
    | succ n =>
      rw [drainLoop, if_neg (by omega), taken]
      refine ih (by omega) ?_ fun j hj => ?_
      · simp only [takeCode_limit, takeCode_index, takeCode_increment]
        calc x.limit ≤ x.index + (k + 1) * x.increment := hr
          _ = _ := by ring
      · have := hm (j + 1) (by omega)
        simp only [takeCode_limit, takeCode_index, takeCode_increment]
        calc _ = x.index + (j + 1) * x.increment := by ring
          _ < _ := this

/-- Without enough codes the loop takes them all. -/
theorem drainLoop_runs_out {cfg : Config} {n : Nat} {x : Channel} (h : x.index + n * x.increment < x.limit) :
    drainLoop cfg n x = (false, taken cfg n x) := by
  induction n generalizing x with
  | zero => simp [drainLoop, taken, show ¬ x.limit ≤ x.index by omega]
  | succ n ih =>
    have h' : x.index + x.increment + n * x.increment < x.limit := by
      calc _ = x.index + (n + 1) * x.increment := by ring
        _ < _ := h
    rw [drainLoop, if_neg (by have := Nat.zero_le (n * x.increment); omega), taken]
    exact ih (by simpa using h')

theorem samplesAvailable_taken {cfg : Config} {k : Nat} {x : Channel} (h : k ≤ samplesAvailable cfg x) :
    samplesAvailable cfg (taken cfg k x) = samplesAvailable cfg x - k := by
  induction k generalizing x with
  | zero => rfl
  | succ k ih =>
    have h1 := samplesAvailable_take (cfg := cfg) (x := x) (y := takeCode cfg x) rfl rfl (by omega)
    rw [taken, ih (by omega)]
    omega

theorem taken_kept (cfg : Config) (k : Nat) (x : Channel) :
    (taken cfg k x).index = x.index + k * x.increment ∧ (taken cfg k x).limit = x.limit ∧
      (taken cfg k x).increment = x.increment ∧ (taken cfg k x).head = x.head ∧ (taken cfg k x).buf = x.buf := by
  induction k generalizing x with
  | zero => simp [taken]
  | succ k ih =>
    obtain ⟨h1, h2, h3, h4, h5⟩ := ih (takeCode cfg x)
    simp only [taken, h1, h2, h3, h4, h5, takeCode_index, takeCode_increment, takeCode_limit, takeCode_head, takeCode_buf,
      and_self, and_true]
    ring

/-- Where the ring can give a sample there is a least number of codes that gives it. -/
theorem exists_needed {cfg : Config} {x : Channel} (h : canDrain cfg x = true) :
    ∃ k ≤ samplesAvailable cfg x, x.limit ≤ x.index + k * x.increment ∧ ∀ j < k, x.index + j * x.increment < x.limit := by
  have hex : ∃ k, x.limit ≤ x.index + k * x.increment := ⟨_, by simpa [canDrain] using h⟩
  classical
  refine ⟨Nat.find hex, Nat.find_le (by simpa [canDrain] using h), Nat.find_spec hex, fun j hj => ?_⟩
  have := Nat.find_min hex hj
  omega

/-- Everything DRAIN can do to a channel: with enough codes it takes the least number and gives the last of them; without,
it takes all and gives none. -/
theorem drainChan_cases (cfg : Config) (x : Channel) :
    (∃ k ≤ samplesAvailable cfg x, x.limit ≤ x.index + k * x.increment ∧ (∀ j < k, x.index + j * x.increment < x.limit) ∧
        drainChan cfg x = (some (taken cfg k x).last, { taken cfg k x with index := x.index + k * x.increment - x.limit })) ∨
      (canDrain cfg x = false ∧ drainChan cfg x = (none, taken cfg (samplesAvailable cfg x) x)) := by
  by_cases hc : canDrain cfg x = true
  · obtain ⟨k, hk, hr, hm⟩ := exists_needed hc
    refine .inl ⟨k, hk, hr, hm, ?_⟩
    simp only [drainChan, drainLoop_reaches hk hr hm, (taken_kept cfg k x).1, (taken_kept cfg k x).2.1]
  · refine .inr ⟨by simpa using hc, ?_⟩
    have h : x.index + samplesAvailable cfg x * x.increment < x.limit := by simpa [canDrain] using hc
    simp only [drainChan, drainLoop_runs_out h]

/-- DRAIN changes `tail`, `last` and `index` of a channel alone, and `tail` stays a ring index. -/
theorem drainChan_form (cfg : Config) (x : Channel) : ∃ t l i,
    (drainChan cfg x).2 = { x with tail := t, last := l, index := i } ∧ (t = x.tail ∨ t < capacity cfg) := by
  have key : ∀ n (x : Channel), ∃ t l i, (drainLoop cfg n x).2 = { x with tail := t, last := l, index := i } ∧
      (t = x.tail ∨ t < capacity cfg) := by
    intro n
    induction n with
    | zero => exact fun x => ⟨_, _, _, rfl, .inl rfl⟩
    | succ n ih =>
      intro x
      rw [drainLoop]
      split
      · exact ⟨_, _, _, rfl, .inl rfl⟩
      · obtain ⟨t, l, i, h, ht⟩ := ih (takeCode cfg x)
        refine ⟨t, l, i, h, .inr ?_⟩
        rcases ht with rfl | ht
        · exact Nat.mod_lt _ (capacity_pos cfg)
        · exact ht
  obtain ⟨t, l, i, h, ht⟩ := key (samplesAvailable cfg x) x
  unfold drainChan
  split <;> rename_i hd <;> rw [hd] at h <;> subst h
  · exact ⟨t, l, _, rfl, ht⟩
  · exact ⟨t, l, i, rfl, ht⟩

/-- The amount a ring can still give: DRAIN that gives a sample takes exactly `limit` from it (R214). -/
theorem drainChan_amount {cfg : Config} {x : Channel} (h : canDrain cfg x = true) :
    ∃ v, (drainChan cfg x).1 = some v ∧ (drainChan cfg x).2.limit = x.limit ∧
      (drainChan cfg x).2.increment = x.increment ∧ (drainChan cfg x).2.head = x.head ∧
      (drainChan cfg x).2.index + samplesAvailable cfg (drainChan cfg x).2 * x.increment + x.limit =
        x.index + samplesAvailable cfg x * x.increment := by
  rcases drainChan_cases cfg x with ⟨k, hk, hr, -, he⟩ | ⟨hf, -⟩
  · obtain ⟨-, h2, h3, h4, -⟩ := taken_kept cfg k x
    have hs : samplesAvailable cfg (drainChan cfg x).2 = samplesAvailable cfg x - k := by
      rw [he]
      exact (samplesAvailable_congr (x := taken cfg k x) rfl rfl).trans (samplesAvailable_taken hk)
    have hi : (drainChan cfg x).2.index = x.index + k * x.increment - x.limit := by rw [he]
    refine ⟨_, by rw [he], by rw [he]; exact h2, by rw [he]; exact h3, by rw [he]; exact h4, ?_⟩
    rw [hs, hi]
    obtain ⟨m, hm⟩ := Nat.exists_eq_add_of_le hk
    rw [hm]
    simp only [Nat.add_sub_cancel_left]
    have : (k + m) * x.increment = k * x.increment + m * x.increment := by ring
    omega
  · simp [hf] at h

end Sys2Proof.Laws
end

