-- ==== Sys2Proof/Laws/Step.lean ====
section
/-! SUPPORT. What a step can do, said once: every next state is reached by a chain of the changes listed in `Change`, so
an invariant that each of these keeps is kept by every step. -/

namespace Sys2Proof.Laws

open Sys2Proof.Machine Sys2Proof.Safety

/-- One change an operation makes to the state, with what the operation had checked when it made it. -/
inductive Change : State → State → Prop where
  /-- A level stored by PUT_SAMPLE (R200). -/
  | store (s : State) (c : CoreId) (level : Int) (lo : -32768 ≤ level) (hi : level ≤ 32767)
      (space : spaceRemaining s.cfg (chanOf s c) ≠ 0) :
      Change s (withChan s c (storeLevel s.cfg (chanOf s c) level))
  /-- A converter set by CONFIGURE_RATE (R210). -/
  | rate (s : State) (c : CoreId) (dst src num den : Nat) (h : reducedRatio dst src = some (num, den)) :
      Change s (withChan s c (withRatio (chanOf s c) num den))
  /-- DRAIN (R213). -/
  | drain (s : State) (c : CoreId) : Change s (drain c s).2
  /-- GET_WORK_BUFFER (R452). -/
  | get (s : State) (k : Nat) : Change s (getWorkBuffer k s).2
  /-- PUT_WORK_BUFFER (R455). -/
  | put (s t : State) (k : Nat) (h : putWorkBuffer k s = .done () t) : Change s t
  /-- One sample pumped into the current block (R216). -/
  | pump (s t : State) (c : CoreId) (k b : Nat) (d : Source) (hc : canDrain s.cfg (chanOf s c) = true)
      (hs : sourceAt s k = some d) (hb : d.current = some b) (h : pumpSample c k b d s = .done () t) : Change s t
  /-- APPLY (R405). -/
  | apply (s : State) (c : CoreId) (addr : Nat) (val : Byte) : Change s (applyTo c addr val s)
  /-- A latch or a data byte of core B (R301, R302). -/
  | latch (s : State) (r : BitVec 3) (d : BitVec 4) : Change s { s with psgB := latchB s.cfg s.psgB r d }
  | data (s : State) (d : BitVec 6) : Change s { s with psgB := dataB s.cfg s.psgB d }
  /-- The counters of one tick of core A or core B (R260, R310). -/
  | countA (s : State) : Change s { s with psgA := advanceA s.psgA }
  | countB (s : State) : Change s { s with psgB := advanceB s.cfg s.psgB }
  /-- Any change of core S's own state. -/
  | speech (s : State) (p : Speech) : Change s { s with speech := p }
  /-- A due write taken from its queue (R411). -/
  | due (s : State) (c : CoreId) (e : QEntry) (rest : List QEntry) (h : (chanOf s c).q = e :: rest) :
      Change s (withChan s c { chanOf s c with q := rest })
  /-- The cycles of an interval turned into ticks (R411). -/
  | accrue (s : State) (c : CoreId) (h : Nat) : Change s (accrue c h s)
  /-- One tick of debt worked off (R415). -/
  | pay (s : State) (c : CoreId) : Change s (payTick c s)
  /-- A write queued (R401). -/
  | enqueue (s : State) (c : CoreId) (e : QEntry) (cap : (chanOf s c).q.length < s.cfg.queueCap)
      (ord : (chanOf s c).lastTs ≤ e.ts) :
      Change s (withChan s c { chanOf s c with q := (chanOf s c).q ++ [e], lastTs := e.ts })
  /-- The time of a detached core moved (R412). -/
  | moveTime (s : State) (c : CoreId) (h : Nat) : Change s (withChan s c { chanOf s c with lastH := h })
  /-- A horizon posted or taken (R412, R470). -/
  | posted (s : State) (c : CoreId) (h : Option Nat) : Change s (withChan s c { chanOf s c with postedH := h })
  /-- The sample count of a source cleared by FRAME (R458). -/
  | clearCount (s : State) (k : Nat) (d : Source) (h : sourceAt s k = some d) :
      Change s (withSlot s k (some { d with newSamples := 0 }))
  /-- REGISTER (R465) and DEREGISTER (R466) of an agent S that is not held. -/
  | register (s : State) (c : CoreId) (sync blocking : Bool) (ms : Nat) : Change s (register c sync blocking ms s).2
  | deregister (s : State) (k : Nat) (free : s.holdS = none) : Change s (deregister k s).2
  /-- CLOCK (R425). -/
  | clock (s : State) (hz : Nat) : Change s (clock hz s).2
  /-- The hold ended by RESUME (R416). -/
  | release (s : State) : Change s { s with holdS := none }
  /-- MIX_SOURCE (R471) and EMIT (R473). -/
  | mix (s : State) (k : Nat) : Change s (mixSource k s).2
  | emit (s : State) : Change s (emit s)
  /-- The master controls (R480, R481). -/
  | volume (s : State) (v : Nat) (h : v ≤ 100) : Change s { s with vol := v }
  | mute (s : State) (on : Bool) : Change s { s with muted := on }
  /-- The model's own fields, and the record of a fault. -/
  | mSeq (s : State) (l : List MStep) : Change s { s with mSeq := l }
  | feed (s : State) (l : List Issue) : Change s { s with feed := l }
  | replies (s : State) (l : List Reply) : Change s { s with replies := l }
  | fault (s : State) (f : Fault) : Change s (takeFault f s)

/-- A chain of changes. -/
def Changes : State → State → Prop := Relation.ReflTransGen Change

theorem Changes.refl (s : State) : Changes s s := Relation.ReflTransGen.refl

theorem Changes.trans {s t u : State} (h : Changes s t) (h' : Changes t u) : Changes s u := Relation.ReflTransGen.trans h h'

theorem Change.one {s t : State} (h : Change s t) : Changes s t := Relation.ReflTransGen.single h

theorem Changes.then {s t u : State} (h : Changes s t) (h' : Change t u) : Changes s u := h.trans h'.one

/-- What every change keeps, a chain of changes keeps. -/
theorem Changes.keeps {P : State → Prop} (hP : ∀ s t, Change s t → P s → P t) {s t : State} (h : Changes s t) (hs : P s) :
    P t := by
  induction h with
  | refl => exact hs
  | tail _ h ih => exact hP _ _ h ih

/-! ### The operations inside a step -/

/-- The state an operation ends in, whichever way. -/
def endState {α : Type} : Res α → State
  | .done _ s => s
  | .raised _ s => s

theorem changes_putSample (c : CoreId) (level : Int) (s : State) : Changes s (endState (putSample c level s)) := by
  rcases putSample_cases c level s with ⟨lo, hi, sp, h⟩ | ⟨-, h⟩ | ⟨-, -, -, h⟩ <;> rw [h]
  · exact (Change.store s c level lo hi sp).one
  · exact .refl _
  · exact .refl _

theorem changes_configureRate (c : CoreId) (dst src : Nat) (s : State) : Changes s (configureRate c dst src s).2 := by
  unfold configureRate
  cases h : reducedRatio dst src with
  | none => exact .refl _
  | some p => exact (Change.rate s c dst src p.1 p.2 h).one

theorem changes_tick (c : CoreId) (s : State) : Changes s (endState (tick c s)) := by
  cases c with
  | A => exact (Change.countA s).one.trans (changes_putSample _ _ _)
  | B => exact (Change.countB s).one.trans (changes_putSample _ _ _)
  | S =>
    simp only [tick, tickS]
    split
    · exact (Change.speech s _).one
    · exact (Change.speech s _).one.trans (changes_putSample _ _ _)

theorem changes_filterUpdate (n : Nat) (s : State) : Changes s (endState (filterUpdate n s)) := by
  induction n generalizing s with
  | zero => exact .refl _
  | succ n ih =>
    have h := changes_tick .S s
    simp only [tick] at h
    rw [filterUpdate]
    cases ht : tickS s with
    | raised f u => rw [ht] at h; exact h
    | done a u => rw [ht] at h; exact h.trans (ih u)

theorem changes_putWorkBuffer (k : Nat) (s : State) : Changes s (endState (putWorkBuffer k s)) := by
  cases h : putWorkBuffer k s with
  | done a u => exact (Change.put s u k h).one
  | raised f u =>
    have : u = s := by
      simp only [putWorkBuffer] at h
      split at h
      · exact (Res.raised.inj h).2.symm
      · split at h
        · exact (Res.raised.inj h).2.symm
        · cases h
    subst this
    exact .refl _

/-- PUT_WORK_BUFFER with a current block queues it. -/
theorem putWorkBuffer_done {s : State} {k b : Nat} {d : Source} (hs : sourceAt s k = some d) (hb : d.current = some b) :
    putWorkBuffer k s = .done () (withSlot s k (some { d with dirty := d.dirty ++ [b], current := none })) := by
  simp [putWorkBuffer, hs, hb]

/-- A pumped sample is never turned away: the block it goes into is the current one (R455). -/
theorem pumpSample_done {s : State} {c : CoreId} {k b : Nat} {d : Source} (hs : sourceAt s k = some d)
    (hb : d.current = some b) : ∃ t, pumpSample c k b d s = .done () t := by
  simp only [pumpSample]
  split
  · exact ⟨_, putWorkBuffer_done (sourceAt_withSlot_same _ (by simpa [drain] using sourceAt_lt hs)) (by simpa [withBlock])⟩
  · exact ⟨_, rfl⟩

/-- What GET_WORK_BUFFER leaves when it does not fail: the source with a current block. -/
theorem getWorkBuffer_source {s t : State} {k : Nat} {st : Status} (h : getWorkBuffer k s = (st, t)) :
    st = .held ∨ st = .noBuffer ∨ (sourceAt s k = none ∧ t = s) ∨
      ∃ d b, sourceAt t k = some d ∧ d.current = some b := by
  unfold getWorkBuffer at h
  split at h
  · rename_i hs
    simp only [Prod.mk.injEq] at h
    exact .inr (.inr (.inl ⟨hs, h.2.symm⟩))
  · rename_i d hs
    split at h
    · rename_i b hb
      simp only [Prod.mk.injEq] at h
      exact .inr (.inr (.inr ⟨d, b, h.2 ▸ hs, hb⟩))
    · split at h <;> simp only [Prod.mk.injEq] at h
      · exact .inl h.1.symm
      · exact .inr (.inl h.1.symm)
    · rename_i b rest _ _
      simp only [Prod.mk.injEq] at h
      exact .inr (.inr (.inr ⟨_, b, by rw [← h.2]; exact sourceAt_withSlot_same _ (sourceAt_lt hs), rfl⟩))

theorem changes_pumpLoop (c : CoreId) (n : Nat) (s : State) : Changes s (endState (pumpLoop c n s)) := by
  induction n generalizing s with
  | zero => exact .refl _
  | succ n ih =>
    rw [pumpLoop]
    split
    · exact .refl _
    · rename_i hc
      simp only [Bool.not_eq_true, Bool.not_eq_false'] at hc
      split
      · exact (Change.drain s c).one.trans (ih _)
      · rename_i k d0 hso
        have hg := (Change.get s k).one
        split
        · rename_i u hgw; rw [hgw] at hg; exact hg
        · rename_i u hgw; rw [hgw] at hg; exact hg
        · rename_i u _ _ hgw
          rw [hgw] at hg
          have hch : canDrain u.cfg (chanOf u c) = true := by
            have : u.cfg = s.cfg ∧ u.chans = s.chans := by
              unfold getWorkBuffer at hgw
              repeat' split at hgw
              all_goals first | (simp only [Prod.mk.injEq] at hgw; obtain ⟨-, rfl⟩ := hgw; exact ⟨rfl, rfl⟩)
            rw [chanOf, this.1, this.2]
            exact hc
          split
          · exact hg
          · rename_i d hs
            split
            · exact hg
            · rename_i b hb
              obtain ⟨t, ht⟩ := pumpSample_done (c := c) hs hb
              rw [ht]
              exact (hg.then (Change.pump u t c k b d hch hs hb ht)).trans (ih t)

theorem changes_pump (c : CoreId) (s : State) : Changes s (endState (pump c s)) := changes_pumpLoop c _ s

theorem changes_generateLoop (c : CoreId) (n : Nat) (s : State) : Changes s (endState (generateLoop c n s)) := by
  induction n generalizing s with
  | zero =>
    have h := changes_pump c s
    rw [generateLoop]
    split <;> rename_i hp <;> rw [hp] at h <;> exact h
  | succ n ih =>
    have h := changes_pump c s
    rw [generateLoop]
    split <;> rename_i hp
    · rw [hp] at h; exact h
    · rw [hp] at h; exact h
    · rw [hp] at h
      split
      · exact h
      · have ht := changes_tick c ‹State›
        split <;> rename_i hk <;> rw [hk] at ht
        · exact h.trans ht
        · exact (h.trans ht).trans ((Change.pay _ c).one.trans (ih _))

theorem changes_generate (c : CoreId) (s : State) : Changes s (endState (generate c s)) := changes_generateLoop c _ s

theorem applyTo_chans (c : CoreId) (addr : Nat) (val : Byte) (s : State) : (applyTo c addr val s).chans = s.chans := by
  cases c <;> rfl

theorem changes_applyDue (c : CoreId) (h : Nat) (l : List QEntry) (s : State) (hq : (chanOf s c).q = l) :
    Changes s (applyDue c h l s) := by
  induction l generalizing s with
  | nil => exact .refl _
  | cons e rest ih =>
    rw [applyDue]
    split
    · refine ((Change.due s c e rest hq).one.then (Change.apply _ c e.addr e.val)).trans (ih _ ?_)
      simp [chanOf, applyTo_chans]
    · exact .refl _

theorem changes_iterate (c : CoreId) (h : Nat) (s : State) : Changes s (endState (iterate c h s)) := by
  unfold iterate
  split
  · exact .refl _
  · have hd := changes_applyDue c h _ s rfl
    have hg := changes_generate c (accrue c h (applyDue c h (chanOf s c).q s))
    split <;> rename_i hr <;> rw [hr] at hg <;> exact (hd.then (Change.accrue _ c h)).trans hg

theorem changes_frame (c : CoreId) (s : State) : Changes s (endState (frame c s)) := by
  have clear : ∀ (k : Nat) (u : State), Changes u (match sourceAt u k with
      | none => u
      | some d => withSlot u k (some { d with newSamples := 0 })) := by
    intro k u
    split
    · exact .refl _
    · rename_i d hs
      exact (Change.clearCount u k d hs).one
  unfold frame
  split
  · exact .refl _
  · split
    · exact .refl _
    · rename_i k d _
      split
      · unfold frameOf
        simp only
        split
        · exact clear k s
        · split
          · have hp := changes_putWorkBuffer k s
            split <;> rename_i h <;> rw [h] at hp
            · exact hp
            · exact hp.trans (clear k _)
          · exact clear k s
      · exact .refl _

theorem changes_write (c : CoreId) (ts addr : Nat) (val : Byte) (s : State) :
    Changes s (endState (write c ts addr val s)) := by
  simp only [write]
  split_ifs with h1 h2 h3 h4
  any_goals exact .refl _
  exact (Change.enqueue s c ⟨ts, addr, val⟩ (by omega) (by simpa using h4)).one

theorem changes_advance (c : CoreId) (h : Nat) (s : State) : Changes s (endState (advance c h s)) := by
  simp only [advance]
  split
  · split
    · exact .refl _
    · exact (Change.moveTime s c h).one
  · split
    · have hi := changes_iterate c h s
      split <;> rename_i he <;> rw [he] at hi <;> exact hi
    · split
      · exact .refl _
      · exact (Change.posted s c (some h)).one

theorem changes_resumeOn (k : Nat) (s : State) : Changes s (endState (resumeOn k s)) := by
  unfold resumeOn
  split
  · exact .refl _
  · rename_i d _
    have hg := changes_generate d.core { s with holdS := none }
    split <;> rename_i hr <;> rw [hr] at hg <;> exact (Change.release s).one.trans hg

theorem changes_mixerLoop (l : List MStep) (s : State) : Changes s (endState (mixerLoop l s)) := by
  induction l with
  | nil => exact (Change.mSeq s []).one
  | cons m rest ih =>
    cases m with
    | iterate c =>
      rw [mixerLoop]
      split
      · exact ih
      · rename_i h _
        have hi := changes_iterate c h { s with mSeq := rest }
        simp only [iteratePosted]
        split <;> rename_i hr <;> rw [hr] at hi
        · exact (Change.mSeq s rest).one.trans hi
        · exact ((Change.mSeq s rest).one.trans hi).then (Change.posted _ c none)
    | mix k => exact (Change.mSeq s rest).one.then (Change.mix _ k)
    | emit => exact (Change.mSeq s rest).one.then (Change.emit _)

/-! ### Whole steps -/

theorem changes_returned (r : Option Reply) (s : State) : Changes s (returned r s) := by
  cases r with
  | none => exact .refl _
  | some v => exact (Change.replies s _).one

theorem changes_settle {r : Res (Option Reply)} {s t : State} (hr : Changes s (endState r)) (h : settle r = .next t) :
    Changes s t := by
  cases r with
  | done a u => cases h; exact Changes.trans hr (changes_returned _ _)
  | raised f u => cases h; exact Changes.then hr (Change.fault _ f)

theorem changes_runStep {body : State → Res (Option Reply)} {s t : State} (h : runStep s body = .next t)
    (hr : Changes s (endState (body s))) : Changes s t := by
  rw [runStep_of_running (runStep_next h).1] at h
  exact changes_settle hr h

theorem changes_runCommandS {body : State → Res (Option Reply)} {s t : State} (h : runCommandS s body = .next t)
    (hr : s.holdS = none → Changes s (endState (body s))) : Changes s t := by
  have hf := (runCommandS_next h).1
  rw [runCommandS_of_free hf] at h
  exact changes_settle (hr hf.2) h

theorem changes_onCore {core : BitVec 2} {s : State} {body : CoreId → State → Res (Option Reply)}
    (h : ∀ c, Changes s (endState (body c s))) : Changes s (endState (onCore core s body)) := by
  unfold onCore
  split
  · exact .refl _
  · exact h _

theorem changes_mixerStep {s t : State} (h : mixerStep s = .next t) : Changes s t :=
  changes_runStep h (changes_mixerLoop _ s)

theorem changes_runRegA {n : Fin 16} {v : Byte} {s t : State} (h : runRegA n v s = .next t) : Changes s t := by
  refine changes_runStep h ?_
  have := (Change.apply s .A n.val v).one
  simpa [applyTo, endState] using this

theorem changes_runLatchB {r : BitVec 3} {d : BitVec 4} {s t : State} (h : runLatchB r d s = .next t) : Changes s t :=
  changes_runStep h (Change.latch s r d).one

/-- Every next state of an instruction is reached by a chain of changes. -/
theorem changes_exec {i : Instr} {s t : State} (h : exec i s = .next t) : Changes s t := by
  cases i with
  | write core ts addr val =>
    simp only [exec, execWrite] at h
    exact changes_runCommandS h (fun _ => changes_onCore fun c => changes_write c _ _ _ s)
  | advance core hz =>
    simp only [exec, execAdvance] at h
    exact changes_runCommandS h (fun _ => changes_onCore fun c => changes_advance c _ s)
  | frame core =>
    simp only [exec, execFrame] at h
    exact changes_runCommandS h (fun _ => changes_onCore fun c => changes_frame c s)
  | clock hz =>
    simp only [exec, execClock] at h
    exact changes_runCommandS h (fun _ => (Change.clock s _).one)
  | register core sync blocking ms =>
    simp only [exec, execRegister] at h
    exact changes_runCommandS h (fun _ => changes_onCore fun c => (Change.register s c sync blocking _).one)
  | deregister k =>
    simp only [exec, execDeregister] at h
    exact changes_runCommandS h (fun hf => (Change.deregister s _ hf).one)
  | volume pct =>
    simp only [exec, execVolume] at h
    refine changes_runCommandS h fun _ => ?_
    split_ifs with hp
    · exact .refl _
    · exact (Change.volume s _ (by omega)).one
  | mute on =>
    simp only [exec, execMute] at h
    exact changes_runCommandS h (fun _ => (Change.mute s on).one)
  | update =>
    simp only [exec, execUpdate] at h
    exact changes_runStep h (Change.mSeq s _).one
  | resume =>
    simp only [exec, execResume] at h
    split at h
    · exact changes_runCommandS h (fun _ => .refl _)
    · split_ifs at h
      · exact changes_runStep h (changes_resumeOn _ s)
      · exact changes_runCommandS h (fun _ => changes_resumeOn _ s)
  | putSample core level =>
    simp only [exec, execPutSample] at h
    refine changes_runStep h (changes_onCore fun c => ?_)
    have hp := changes_putSample c level.toInt s
    split <;> rename_i hr <;> rw [hr] at hp <;> exact hp
  | configureRate core dst src =>
    simp only [exec, execConfigureRate] at h
    exact changes_runStep h (changes_onCore fun c => changes_configureRate c _ _ s)
  | samplesAvailable core =>
    simp only [exec, execSamplesAvailable] at h
    exact changes_runStep h (changes_onCore fun c => .refl _)
  | spaceRemaining core =>
    simp only [exec, execSpaceRemaining] at h
    exact changes_runStep h (changes_onCore fun c => .refl _)
  | drain core =>
    simp only [exec, execDrain] at h
    exact changes_runStep h (changes_onCore fun c => (Change.drain s c).one)
  | getWorkBuffer k =>
    simp only [exec, execGetWorkBuffer] at h
    exact changes_runStep h (Change.get s _).one
  | putWorkBuffer k =>
    simp only [exec, execPutWorkBuffer] at h
    refine changes_runStep h ?_
    have hp := changes_putWorkBuffer k.toNat s
    split <;> rename_i hr <;> rw [hr] at hp <;> exact hp
  | iterate core hz =>
    simp only [exec, execIterate] at h
    refine changes_runStep h (changes_onCore fun c => ?_)
    have hp := changes_iterate c hz.toNat s
    split <;> rename_i hr <;> rw [hr] at hp <;> exact hp
  | apply core addr val =>
    simp only [exec, execApply] at h
    refine changes_runStep h (changes_onCore fun c => ?_)
    split_ifs
    · exact (Change.apply s c _ val).one
    · exact .refl _
  | tick core =>
    simp only [exec, execTick] at h
    refine changes_runStep h (changes_onCore fun c => ?_)
    have hp := changes_tick c s
    split <;> rename_i hr <;> rw [hr] at hp <;> exact hp
  | loadAddress addr =>
    simp only [exec, execLoadAddress] at h
    exact changes_runStep h (Change.apply s .S 0 addr).one
  | runMicro =>
    simp only [exec, execRunMicro] at h
    refine changes_runStep h ?_
    split <;> exact (Change.speech s _).one
  | filterUpdate n =>
    simp only [exec, execFilterUpdate] at h
    refine changes_runStep h ?_
    have hp := changes_filterUpdate n.toNat s
    split <;> rename_i hr <;> rw [hr] at hp <;> exact hp
  | mixSource k =>
    simp only [exec, execMixSource] at h
    exact changes_runStep h (Change.mix s _).one
  | emit =>
    simp only [exec, execEmit] at h
    exact changes_runStep h (Change.emit s).one
  | r0 v => exact changes_runRegA h
  | r1 v => exact changes_runRegA h
  | r2 v => exact changes_runRegA h
  | r3 v => exact changes_runRegA h
  | r4 v => exact changes_runRegA h
  | r5 v => exact changes_runRegA h
  | r6 v => exact changes_runRegA h
  | r7 v => exact changes_runRegA h
  | r8 v => exact changes_runRegA h
  | r9 v => exact changes_runRegA h
  | r10 v => exact changes_runRegA h
  | r11 v => exact changes_runRegA h
  | r12 v => exact changes_runRegA h
  | r13 v => exact changes_runRegA h
  | r14 v => exact changes_runRegA h
  | r15 v => exact changes_runRegA h
  | latch0 d => exact changes_runLatchB h
  | latch1 d => exact changes_runLatchB h
  | latch2 d => exact changes_runLatchB h
  | latch3 d => exact changes_runLatchB h
  | latch4 d => exact changes_runLatchB h
  | latch5 d => exact changes_runLatchB h
  | latch6 d => exact changes_runLatchB h
  | latch7 d => exact changes_runLatchB h
  | data d =>
    simp only [exec, execData] at h
    exact changes_runStep h (Change.data s d).one
  | load addr =>
    simp only [exec, execLoad] at h
    exact changes_runStep h (Change.apply s .S 0 addr).one
  | micro =>
    simp only [exec, execMicro] at h
    refine changes_runStep h ?_
    split <;> exact (Change.speech s _).one

/-- Every next state of a step of the block is reached by a chain of changes. -/
theorem changes_step {s t : State} (h : step s = .next t) : Changes s t := by
  unfold step nextMove at h
  split at h
  · cases h
  · rename_i u hm
    split at hm
    · cases hm
    · split at hm
      · cases hm
      · cases hm; exact changes_mixerStep h
    · split at hm
      · cases hm; exact (Change.feed s _).one.trans (changes_mixerStep h)
      · split at hm <;> cases hm
  · rename_i i u hm
    split at hm
    · cases hm
    · split at hm <;> cases hm
    · split at hm
      · cases hm
      · split at hm
        · cases hm; exact (Change.feed s _).one.trans (changes_exec h)
        · cases hm
  · cases h

/-- The shape of every invariant proof: what each change keeps, every step keeps. -/
theorem step_keeps {P : State → Prop} (hP : ∀ s t, Change s t → P s → P t) {s t : State} (h : step s = .next t)
    (hs : P s) : P t :=
  (changes_step h).keeps hP hs

end Sys2Proof.Laws
end

