-- ==== Sys2Proof/Laws/Pool.lean ====
section
/-! SUPPORT. What the pool operations do, each said once. -/

namespace Sys2Proof.Laws

open Sys2Proof.Machine Sys2Proof.Safety

/-! ### Pools -/

theorem blockOf_eq {d : Source} {b : Nat} {blk : Block} (h : d.blocks[b]? = some blk) : blockOf d b = blk := by
  simp [blockOf, List.getD, h]

theorem blockOf_withBlock_ne (d : Source) {b b' : Nat} (blk : Block) (h : b' ≠ b) :
    blockOf (withBlock d b blk) b' = blockOf d b' := by
  simp [blockOf, withBlock, List.getD, List.getElem?_set_ne (Ne.symm h)]

theorem blockOf_withBlock_same {d : Source} {b : Nat} (blk : Block) (h : b < d.blocks.length) :
    blockOf (withBlock d b blk) b = blk := by
  simp [blockOf, withBlock, List.getD, h]

/-- Everything GET_WORK_BUFFER can do (R452): nothing, a hold, or the first clean block made current. -/
theorem getWorkBuffer_cases (k : Nat) (s : State) :
    ((getWorkBuffer k s).2 = s ∧ (getWorkBuffer k s).1 ≠ .held) ∨
      (∃ d, sourceAt s k = some d ∧ d.sync = true ∧ d.blocking = true ∧ d.current = none ∧ d.clean = [] ∧
        getWorkBuffer k s = (.held, { s with holdS := some k })) ∨
      ∃ d b rest, sourceAt s k = some d ∧ d.current = none ∧ d.clean = b :: rest ∧
        getWorkBuffer k s =
          (.ok, withSlot s k (some (withBlock { d with clean := rest, current := some b } b { blockOf d b with fill := 0 }))) := by
  unfold getWorkBuffer
  split
  · exact .inl ⟨rfl, by simp⟩
  · rename_i d hs
    split
    · exact .inl ⟨rfl, by simp⟩
    · rename_i h1 h2
      split
      · rename_i hb
        simp only [Bool.and_eq_true] at hb
        exact .inr (.inl ⟨d, hs, hb.2, hb.1, h1, h2, rfl⟩)
      · exact .inl ⟨rfl, by simp⟩
    · rename_i b rest h1 h2
      exact .inr (.inr ⟨d, b, rest, hs, h1, h2, rfl⟩)

/-- GET_WORK_BUFFER holds for a synchronous source that waits, and for no other (R454). -/
theorem getWorkBuffer_held {k : Nat} {s u : State} (h : getWorkBuffer k s = (.held, u)) :
    ∃ d, sourceAt s k = some d ∧ d.sync = true ∧ d.blocking = true ∧ u = { s with holdS := some k } := by
  rcases getWorkBuffer_cases k s with ⟨-, hn⟩ | ⟨d, hs, h1, h2, -, -, he⟩ | ⟨d, b, rest, -, -, -, he⟩
  · simp [h] at hn
  · rw [he] at h
    exact ⟨d, hs, h1, h2, (Prod.mk.inj h).2.symm⟩
  · rw [he] at h
    cases (Prod.mk.inj h).1

/-- PUT_WORK_BUFFER that does not fault queues the current block (R455). -/
theorem putWorkBuffer_cases {k : Nat} {s t : State} (h : putWorkBuffer k s = .done () t) :
    ∃ d b, sourceAt s k = some d ∧ d.current = some b ∧
      t = withSlot s k (some { d with dirty := d.dirty ++ [b], current := none }) := by
  unfold putWorkBuffer at h
  split at h
  · cases h
  · rename_i d hs
    split at h
    · cases h
    · rename_i b hb
      cases h
      exact ⟨d, b, hs, hb, rfl⟩

/-- A source with one more code in its current block (R216). -/
def sourceFilled (d : Source) (b : Nat) (v : Byte) : Source :=
  { withBlock d b ⟨memWrite (blockOf d b).data (blockOf d b).fill v, (blockOf d b).fill + 1⟩ with
    newSamples := d.newSamples + 1 }

/-- One pumped sample (R216): a code drained, put into the current block, and the block queued when it is full. -/
theorem pumpSample_eq {s : State} (c : CoreId) {k b : Nat} {d : Source} (hs : sourceAt s k = some d)
    (hb : d.current = some b) :
    pumpSample c k b d s = .done () (withSlot (withChan s c (drainChan s.cfg (chanOf s c)).2) k (some
      (if (blockOf d b).fill + 1 = s.cfg.blockLen then
        { sourceFilled d b ((drainChan s.cfg (chanOf s c)).1.getD (chanOf s c).last) with
          dirty := d.dirty ++ [b], current := none }
      else sourceFilled d b ((drainChan s.cfg (chanOf s c)).1.getD (chanOf s c).last)))) := by
  simp only [pumpSample, drain]
  split
  · rw [putWorkBuffer_done (sourceAt_withSlot_same _ (by simpa using sourceAt_lt hs)) (by simpa [withBlock] using hb)]
    simp [withSlot, sourceFilled, withBlock]
  · rfl

end Sys2Proof.Laws
end

