-- ==== Sys2Proof/Laws/Mixer.lean ====
section
/-! SUPPORT. What REGISTER, DEREGISTER, CLOCK, MIX_SOURCE and EMIT do, each said once. -/

namespace Sys2Proof.Laws

open Sys2Proof.Machine Sys2Proof.Safety

/-! ### MIX_SOURCE (R471) -/

@[simp] theorem wakeSource_dirty (cfg : Config) (d : Source) : (wakeSource cfg d).dirty = d.dirty := by
  unfold wakeSource; split <;> rfl

@[simp] theorem wakeSource_blocks (cfg : Config) (d : Source) : (wakeSource cfg d).blocks = d.blocks := by
  unfold wakeSource; split <;> rfl

theorem wakeSource_of_empty (cfg : Config) {d : Source} (h : d.dirty = []) : wakeSource cfg d = d := by
  simp [wakeSource, h]

/-- Everything MIX_SOURCE can do: nothing, a starved source, or one block mixed and returned. -/
theorem mixSource_cases (k : Nat) (s : State) :
    (mixSource k s).2 = s ∨
      (∃ d, sourceAt s k = some d ∧ d.st ≠ .quiescent ∧ d.dirty = [] ∧
        (mixSource k s).2 = withSlot s k (some (starveSource s.cfg d))) ∨
      ∃ d b rest r, sourceAt s k = some d ∧ d.dirty = b :: rest ∧
        r = mixCodes (blockOf d b).data (blockOf d b).fill 0 (wakeSource s.cfg d).holdoffCnt s.macc ∧
        (mixSource k s).2 = { withSlot s k (some (returnBlock (wakeSource s.cfg d) b rest r.1)) with macc := r.2 } := by
  simp only [mixSource]
  split
  · exact .inl rfl
  · rename_i d hs
    split
    · exact .inl rfl
    · rename_i hq
      split <;> rename_i h <;> rw [wakeSource_dirty] at h
      · rw [wakeSource_of_empty _ h] at hq ⊢
        exact .inr (.inl ⟨d, hs, hq, h, rfl⟩)
      · rename_i b rest
        refine .inr (.inr ⟨d, b, rest, _, hs, h, rfl, ?_⟩)
        simp [blockOf]

/-- What mixing the rest of a block does: the holdoff runs down, and what is left of it is silent. -/
theorem mixCodes_eq (data : Memory) (n i hold : Nat) (macc : List Int) :
    (mixCodes data n i hold macc).1 = hold - n ∧ (mixCodes data n i hold macc).2.length = macc.length ∧
      ∀ j < macc.length, (mixCodes data n i hold macc).2.getD j 0 = macc.getD j 0 +
        (if i + hold ≤ j ∧ j < i + n then levelOf (memRead data j) else 0) := by
  induction n generalizing i hold macc with
  | zero => exact ⟨rfl, rfl, fun j hj => by rw [if_neg (by omega)]; simp [mixCodes]⟩
  | succ n ih =>
    rw [mixCodes]
    split
    · obtain ⟨h1, h2, h3⟩ := ih (i + 1) (hold - 1) macc
      refine ⟨by omega, h2, fun j hj => (h3 j hj).trans ?_⟩
      congr 1
      exact if_congr (by omega) rfl rfl
    · obtain ⟨h1, h2, h3⟩ := ih (i + 1) hold (macc.modify i (fun m => m + levelOf (memRead data i)))
      rw [List.length_modify] at h2 h3
      refine ⟨by omega, h2, fun j hj => (h3 j hj).trans ?_⟩
      simp only [List.getD, List.getElem?_modify, List.getElem?_eq_getElem hj, Option.map_eq_map, Option.map_some,
        Option.getD_some]
      by_cases hji : i = j
      · subst hji
        rw [if_pos rfl, if_neg (by omega), if_pos (by omega), add_zero]
      · rw [if_neg hji]
        congr 1
        exact if_congr (by omega) rfl rfl

/-! ### REGISTER and DEREGISTER (R465, R466) -/

theorem findIdx_isNone {l : List (Option Source)} {k : Nat} (h : l.findIdx? (fun d => d.isNone) = some k) :
    k < l.length ∧ l[k]? = some none ∧ ∀ j < k, (l[j]?).join ≠ none := by
  rw [List.findIdx?_eq_some_iff_getElem] at h
  obtain ⟨hk, h0, h1⟩ := h
  refine ⟨hk, by rw [List.getElem?_eq_getElem hk]; simpa using h0, fun j hj => ?_⟩
  rw [List.getElem?_eq_getElem (by omega)]
  simpa using h1 j hj

/-- The channel that REGISTER starts from: the core's own, or the reset one of a core that is attached again. -/
def attachedChannel (s : State) (c : CoreId) : Channel :=
  if (chanOf s c).attached then chanOf s c
  else { Channel.reset s.cfg c with lastH := (chanOf s c).lastH, lastTs := (chanOf s c).lastTs }

/-- The state REGISTER starts from, the channel aside. -/
def attachedState (s : State) (c : CoreId) : State := if (chanOf s c).attached then s else resetChip c s

/-- The channel that REGISTER leaves. -/
def registeredChannel (s : State) (c : CoreId) (sync : Bool) (k : Nat) : Channel :=
  let x := joinSource (attachedChannel s c) k
  match reducedRatio (s.cfg.dstRate * (if sync then s.cfg.clkDen.get c * tickDivider c else tickDivider c))
      (if sync then s.cpuHz * s.cfg.clkNum.get c else chipClock s.cfg c) with
  | none => x
  | some (num, den) => withRatio x num den

theorem reattach_eq (s : State) (c : CoreId) : reattach c s = withChan (attachedState s c) c (attachedChannel s c) := by
  simp only [reattach, attachedState, attachedChannel]
  split
  · cases c <;> rfl
  · rfl

@[simp] theorem attachedState_cfg (s : State) (c : CoreId) : (attachedState s c).cfg = s.cfg := by
  unfold attachedState; split <;> (try cases c) <;> rfl

@[simp] theorem attachedState_cpuHz (s : State) (c : CoreId) : (attachedState s c).cpuHz = s.cpuHz := by
  unfold attachedState; split <;> (try cases c) <;> rfl

@[simp] theorem attachedState_reg (s : State) (c : CoreId) : (attachedState s c).reg = s.reg := by
  unfold attachedState; split <;> (try cases c) <;> rfl

@[simp] theorem attachedState_chans (s : State) (c : CoreId) : (attachedState s c).chans = s.chans := by
  unfold attachedState; split <;> (try cases c) <;> rfl

@[simp] theorem attachedChannel_handle (s : State) (c : CoreId) (h : (chanOf s c).handle = none) :
    (attachedChannel s c).handle = none := by
  unfold attachedChannel; split
  · exact h
  · rfl

/-- Everything REGISTER can do: nothing, or a source in the least empty slot. -/
theorem register_cases (c : CoreId) (sync blocking : Bool) (ms : Nat) (s : State) :
    ((chanOf s c).handle ≠ none ∧ register c sync blocking ms s = (statusOnly .ignored, s)) ∨
      ((chanOf s c).handle = none ∧ (∀ k < s.reg.length, sourceAt s k ≠ none) ∧
        register c sync blocking ms s = (statusOnly .registryFull, s)) ∨
      ∃ k, (chanOf s c).handle = none ∧ k < s.reg.length ∧ sourceAt s k = none ∧ (∀ j < k, sourceAt s j ≠ none) ∧
        register c sync blocking ms s = (some ⟨.ok, .handle k⟩,
          withSlot (withChan (attachedState s c) c (registeredChannel s c sync k)) k
            (some (newSource s.cfg c sync blocking ms))) := by
  unfold register
  split
  · rename_i h
    exact .inl ⟨h, rfl⟩
  · rename_i h
    rw [not_not] at h
    split
    · rename_i hf
      refine .inr (.inl ⟨h, fun k hk hn => ?_, rfl⟩)
      rw [freeSlot, List.findIdx?_eq_none_iff] at hf
      have := hf _ (List.getElem_mem hk)
      rw [sourceAt, List.getElem?_eq_getElem hk] at hn
      simp_all
    · rename_i k hf
      obtain ⟨h1, h2, h3⟩ := findIdx_isNone hf
      refine .inr (.inr ⟨k, h, h1, by simp [sourceAt, h2], h3, ?_⟩)
      have key : ∀ u : State, u = withChan (withSlot (withChan (attachedState s c) c (attachedChannel s c)) k
          (some (newSource s.cfg c sync blocking ms))) c (joinSource (attachedChannel s c) k) →
          syncOf u c = sync := by
        rintro u rfl
        have : sourceAt (withChan (withSlot (withChan (attachedState s c) c (attachedChannel s c)) k
          (some (newSource s.cfg c sync blocking ms))) c (joinSource (attachedChannel s c) k)) k =
            some (newSource s.cfg c sync blocking ms) := by
          simp only [sourceAt, withSlot, withChan, attachedState_reg, List.getElem?_set_self h1, Option.join_some]
        rw [syncOf, sourceOf_eq_some.2 ⟨by simp [joinSource], this⟩]
        rfl
      simp only [reattach_eq]
      rw [show chanOf (withSlot (withChan (attachedState s c) c (attachedChannel s c)) k
        (some (newSource s.cfg c sync blocking ms))) c = attachedChannel s c by simp [chanOf, withSlot, withChan]]
      have hk := key _ rfl
      simp only [configureCoreRate, configureRate, tickDen, tickNum, hk, registeredChannel]
      simp only [withChan_cfg, withSlot_cfg, attachedState_cfg, withChan_cpuHz, withSlot_cpuHz, attachedState_cpuHz]
      generalize reducedRatio _ _ = r
      cases r <;> simp [withChan, withSlot, chanOf]

/-- DEREGISTER of a source as one change of its slot and its core's channel. -/
theorem deregister_eq {k : Nat} {s : State} {d : Source} (h : sourceAt s k = some d) :
    deregister k s = (statusOnly .ok, withSlot (withChan s d.core (leaveSource (chanOf s d.core))) k none) := by
  rw [deregister, h]

/-! ### CLOCK (R425) -/

/-- A channel after CLOCK from `s.cpuHz` to `hz`. -/
def clockChannel (s : State) (hz : Nat) (c : CoreId) : Channel :=
  let x : Channel := { chanOf s c with cycAcc := (chanOf s c).cycAcc * hz / s.cpuHz }
  if syncOf s c then
    match reducedRatio (s.cfg.dstRate * (s.cfg.clkDen.get c * tickDivider c)) (hz * s.cfg.clkNum.get c) with
    | none => x
    | some (num, den) => withRatio x num den
  else x

theorem clockCore_eq (hz : Nat) (s u : State) (c : CoreId) (hc : chanOf u c = chanOf s c) (hr : u.reg = s.reg)
    (hz' : u.cpuHz = hz) (hcfg : u.cfg = s.cfg) : clockCore hz s.cpuHz c u = withChan u c (clockChannel s hz c) := by
  have hsync : ∀ v : State, (chanOf v c).handle = (chanOf s c).handle → v.reg = s.reg → syncOf v c = syncOf s c := by
    intro v h1 h2
    simp only [syncOf, sourceOf, sourceAt, h1, h2]
  unfold clockCore clockChannel
  simp only [hc]
  have h' := hsync (withChan u c { chanOf s c with cycAcc := (chanOf s c).cycAcc * hz / s.cpuHz }) (by simp) (by simpa using hr)
  rw [h']
  cases hs : syncOf s c with
  | false => simp
  | true =>
    rw [hs] at h'
    simp only [if_true, configureCoreRate, configureRate, tickDen, tickNum, h', withChan_cfg, withChan_cpuHz, hcfg, hz']
    generalize reducedRatio _ _ = r
    cases r <;> simp

/-- CLOCK as one change of the clock and of the channels. -/
theorem clock_eq (hz : Nat) (s : State) (h : hz ≠ 0) :
    clock hz s = (.ok, { s with
      cpuHz := hz, chans := ⟨clockChannel s hz .A, clockChannel s hz .B, clockChannel s hz .S⟩ }) := by
  have hA := clockCore_eq hz s { s with cpuHz := hz } .A rfl rfl rfl rfl
  have hB := clockCore_eq hz s (withChan { s with cpuHz := hz } .A (clockChannel s hz .A)) .B rfl rfl rfl rfl
  have hS := clockCore_eq hz s (withChan (withChan { s with cpuHz := hz } .A (clockChannel s hz .A)) .B
    (clockChannel s hz .B)) .S rfl rfl rfl rfl
  rw [clock, if_neg h, hA, hB, hS]
  rfl

end Sys2Proof.Laws
end

