-- ==== Sys2Proof/Laws/Generate.lean ====
section
/-! SUPPORT. What the pump, a native tick, and the generation loop do, each said once. -/

namespace Sys2Proof.Laws

open Sys2Proof.Machine Sys2Proof.Safety

/-! ### What the pump does to a source -/

/-- `SourceKept` with what makes it hold over a chain: no block becomes clean, a block that becomes current was clean, and
a current block does not lose codes. -/
structure Grown (d d' : Source) : Prop where
  kept : SourceKept d d'
  clean : ∀ b ∈ d'.clean, b ∈ d.clean
  current : ∀ b, d'.current = some b → d.current = some b ∨ b ∈ d.clean
  fill : ∀ b, b ∉ d.clean → d.current = some b → (blockOf d b).fill ≤ (blockOf d' b).fill

theorem Grown.refl (d : Source) : Grown d d where
  kept := ⟨rfl, rfl, rfl, rfl, rfl, rfl, rfl, List.prefix_refl _, le_refl _, fun _ _ _ => rfl, fun _ _ _ _ _ => rfl⟩
  clean := fun _ h => h
  current := fun _ h => .inl h
  fill := fun _ _ _ => le_refl _

theorem Grown.trans {d e f : Source} (h : Grown d e) (h' : Grown e f) : Grown d f where
  kept := by
    obtain ⟨a1, a2, a3, a4, a5, a6, a7, a8, a9, a10, a11⟩ := h.kept
    obtain ⟨b1, b2, b3, b4, b5, b6, b7, b8, b9, b10, b11⟩ := h'.kept
    have hcur : ∀ b, b ∉ d.clean → d.current ≠ some b → e.current ≠ some b := fun b hb hc hc' =>
      (h.current b hc').elim hc hb
    refine ⟨b1.trans a1, b2.trans a2, b3.trans a3, b4.trans a4, b5.trans a5, b6.trans a6, b7.trans a7, a8.trans b8,
      a9.trans b9, fun b hb hc => (b10 b (fun hx => hb (h.clean b hx)) (hcur b hb hc)).trans (a10 b hb hc),
      fun b hb hc i hi => ?_⟩
    have he : b ∉ e.clean := fun hx => hb (h.clean b hx)
    have hf := h.fill b hb hc
    by_cases hce : e.current = some b
    · exact (b11 b he hce i (by omega)).trans (a11 b hb hc i hi)
    · rw [b10 b he hce]
      exact a11 b hb hc i hi
  clean := fun b hb => h.clean b (h'.clean b hb)
  current := fun b hb => (h'.current b hb).elim (h.current b) fun hx => .inr (h.clean b hx)
  fill := by
    intro b hb hc
    have he : b ∉ e.clean := fun hx => hb (h.clean b hx)
    by_cases hce : e.current = some b
    · exact (h.fill b hb hc).trans (h'.fill b he hce)
    · rw [h'.kept.2.2.2.2.2.2.2.2.2.1 b he hce]
      exact h.fill b hb hc

/-- A clean block made current. -/
theorem grown_get {d : Source} {b : Nat} {rest : List Nat} (hn : d.current = none) (hc : d.clean = b :: rest) :
    Grown d (withBlock { d with clean := rest, current := some b } b { blockOf d b with fill := 0 }) where
  kept := by
    refine ⟨rfl, rfl, rfl, rfl, rfl, rfl, rfl, List.prefix_refl _, le_refl _, fun j hj _ => ?_, fun j _ hcur => ?_⟩
    · have hjb : j ≠ b := by
        rintro rfl
        exact hj (by simp [hc])
      exact blockOf_withBlock_ne { d with clean := rest, current := some b } _ hjb
    · rw [hn] at hcur
      cases hcur
  clean := fun j hj => by
    rw [hc]
    exact List.mem_cons_of_mem _ hj
  current := fun j hj => .inr (by
    cases hj
    simp [hc])
  fill := fun j _ hcur => by
    rw [hn] at hcur
    cases hcur

/-- A code put into the current block, which may then be queued. -/
theorem grown_fill (cfg : Config) {d : Source} {b : Nat} (v : Byte) (hb : d.current = some b) :
    Grown d (if (blockOf d b).fill + 1 = cfg.blockLen then
      { sourceFilled d b v with dirty := d.dirty ++ [b], current := none } else sourceFilled d b v) := by
  have hne : ∀ j, j ≠ b → blockOf (sourceFilled d b v) j = blockOf d j := fun j hj => blockOf_withBlock_ne d _ hj
  have hblk : blockOf (sourceFilled d b v) b = blockOf d b ∨
      blockOf (sourceFilled d b v) b = ⟨memWrite (blockOf d b).data (blockOf d b).fill v, (blockOf d b).fill + 1⟩ := by
    by_cases hl : b < d.blocks.length
    · exact .inr (blockOf_withBlock_same _ hl)
    · exact .inl (by simp [blockOf, sourceFilled, withBlock, List.set_eq_of_length_le (Nat.le_of_not_lt hl)])
  have hdata : ∀ i < (blockOf d b).fill,
      memRead (blockOf (sourceFilled d b v) b).data i = memRead (blockOf d b).data i := by
    intro i hi
    rcases hblk with h | h <;> rw [h]
    exact memRead_memWrite_ne _ _ (by omega)
  have hfill : (blockOf d b).fill ≤ (blockOf (sourceFilled d b v) b).fill := by
    rcases hblk with h | h <;> rw [h]
    exact Nat.le_succ _
  split
  · exact
      { kept := ⟨rfl, rfl, rfl, rfl, rfl, rfl, rfl, List.prefix_append _ _, Nat.le_succ _,
          fun j _ hc => hne j fun h => hc (h ▸ hb), fun j _ hc i hi => by
            rw [hb] at hc
            cases hc
            exact hdata i hi⟩
        clean := fun _ h => h
        current := fun j hj => by cases hj
        fill := fun j _ hc => by
          rw [hb] at hc
          cases hc
          exact hfill }
  · exact
      { kept := ⟨rfl, rfl, rfl, rfl, rfl, rfl, rfl, List.prefix_refl _, Nat.le_succ _,
          fun j _ hc => hne j fun h => hc (h ▸ hb), fun j _ hc i hi => by
            rw [hb] at hc
            cases hc
            exact hdata i hi⟩
        clean := fun _ h => h
        current := fun j hj => .inl hj
        fill := fun j _ hc => by
          rw [hb] at hc
          cases hc
          exact hfill }

/-! ### What the pump does to the state -/

/-- A pump of core `c` moves the core's `tail`, `last` and `index`, works on the core's source, and may hold S. -/
structure Pumped (c : CoreId) (s t : State) : Prop where
  form : t = { s with chans := t.chans, reg := t.reg, holdS := t.holdS }
  chan : ∃ tl l i, t.chans = s.chans.set c { chanOf s c with tail := tl, last := l, index := i }
  other : ∀ k, (chanOf s c).handle ≠ some k → t.reg[k]? = s.reg[k]?
  source : ∀ k d, sourceAt s k = some d → ∃ d', sourceAt t k = some d' ∧ Grown d d'
  empty : ∀ k, sourceAt s k = none → sourceAt t k = none

theorem Pumped.refl (c : CoreId) (s : State) : Pumped c s s where
  form := rfl
  chan := ⟨(chanOf s c).tail, (chanOf s c).last, (chanOf s c).index, congrArg State.chans (withChan_chanOf s c).symm⟩
  other := fun _ _ => rfl
  source := fun _ d h => ⟨d, h, .refl d⟩
  empty := fun _ h => h

theorem Pumped.chanOf_same {c : CoreId} {s t : State} (h : Pumped c s t) :
    ∃ tl l i, chanOf t c = { chanOf s c with tail := tl, last := l, index := i } := by
  obtain ⟨tl, l, i, he⟩ := h.chan
  exact ⟨tl, l, i, by simp [chanOf, he]⟩

theorem Pumped.chanOf_ne {c c' : CoreId} {s t : State} (h : Pumped c s t) (hc : c' ≠ c) : chanOf t c' = chanOf s c' := by
  obtain ⟨tl, l, i, he⟩ := h.chan
  simp [chanOf, he, perCore_get_set_ne _ _ hc]

theorem Pumped.trans {c : CoreId} {s t u : State} (h : Pumped c s t) (h' : Pumped c t u) : Pumped c s u where
  form := by
    have h1 := h.form
    have h2 := h'.form
    rw [h1] at h2
    exact h2
  chan := by
    obtain ⟨tl, l, i, he⟩ := h.chan
    obtain ⟨tl', l', i', he'⟩ := h'.chan
    obtain ⟨tl2, l2, i2, hs⟩ := h.chanOf_same
    exact ⟨tl', l', i', by rw [he', hs, he]; simp⟩
  other := fun k hk => by
    obtain ⟨tl, l, i, hs⟩ := h.chanOf_same
    exact (h'.other k (by rw [hs]; exact hk)).trans (h.other k hk)
  source := fun k d hd => by
    obtain ⟨e, he, g⟩ := h.source k d hd
    obtain ⟨f, hf, g'⟩ := h'.source k e he
    exact ⟨f, hf, g.trans g'⟩
  empty := fun k hk => h'.empty k (h.empty k hk)

/-- A change of the core's own slot to a grown source. -/
theorem pumped_slot {c : CoreId} {s : State} {k : Nat} {d d' : Source} (hh : (chanOf s c).handle = some k)
    (hd : sourceAt s k = some d) (hg : Grown d d') : Pumped c s (withSlot s k (some d')) where
  form := rfl
  chan := ⟨(chanOf s c).tail, (chanOf s c).last, (chanOf s c).index, congrArg State.chans (withChan_chanOf s c).symm⟩
  other := fun j hj => by
    have : j ≠ k := by
      rintro rfl
      exact hj hh
    simp [withSlot, List.getElem?_set_ne (Ne.symm this)]
  source := fun j e he => by
    by_cases hj : j = k
    · subst hj
      rw [hd] at he
      cases he
      exact ⟨d', sourceAt_withSlot_same _ (sourceAt_lt hd), hg⟩
    · exact ⟨e, by rw [sourceAt_withSlot_ne _ _ hj]; exact he, .refl e⟩
  empty := fun j he => by
    by_cases hj : j = k
    · subst hj
      rw [hd] at he
      cases he
    · rw [sourceAt_withSlot_ne _ _ hj]
      exact he

theorem pumped_drain (c : CoreId) (s : State) : Pumped c s (withChan s c (drainChan s.cfg (chanOf s c)).2) where
  form := rfl
  chan := by
    obtain ⟨tl, l, i, h, -⟩ := drainChan_form s.cfg (chanOf s c)
    exact ⟨tl, l, i, by simp [withChan, h]⟩
  other := fun _ _ => rfl
  source := fun _ d h => ⟨d, h, .refl d⟩
  empty := fun _ h => h

theorem pumped_hold (c : CoreId) (s : State) (o : Option Nat) : Pumped c s { s with holdS := o } where
  form := rfl
  chan := ⟨(chanOf s c).tail, (chanOf s c).last, (chanOf s c).index, congrArg State.chans (withChan_chanOf s c).symm⟩
  other := fun _ _ => rfl
  source := fun _ d h => ⟨d, h, .refl d⟩
  empty := fun _ h => h

/-- How a pump ended: with S held on the core's synchronous, blocking source, or with the hold as it was. -/
def PumpEnd (c : CoreId) (s t : State) (st : Status) : Prop :=
  (st = .held ∧ ∃ k d, (chanOf s c).handle = some k ∧ sourceAt s k = some d ∧ d.sync = true ∧ d.blocking = true ∧
      t.holdS = some k) ∨
    (st ≠ .held ∧ t.holdS = s.holdS)

theorem PumpEnd.trans {c : CoreId} {s t u : State} {st : Status} (h : Pumped c s t) (hh : t.holdS = s.holdS)
    (h' : PumpEnd c t u st) : PumpEnd c s u st := by
  rcases h' with ⟨h1, k, d, h2, h3, h4, h5, h6⟩ | ⟨h1, h2⟩
  · obtain ⟨tl, l, i, hs⟩ := h.chanOf_same
    rw [hs] at h2
    refine .inl ⟨h1, k, ?_⟩
    cases hd : sourceAt s k with
    | none =>
      rw [h.empty k hd] at h3
      cases h3
    | some e =>
      obtain ⟨e', he', hg⟩ := h.source k e hd
      rw [h3] at he'
      cases he'
      obtain ⟨-, a, b, -⟩ := hg.kept
      exact ⟨e, h2, rfl, a ▸ h4, b ▸ h5, h6⟩
  · exact .inr ⟨h1, h2.trans hh⟩

/-- Everything a pump can do. -/
theorem pumpLoop_spec (c : CoreId) (n : Nat) (s : State) :
    ∃ st t, pumpLoop c n s = .done st t ∧ Pumped c s t ∧ PumpEnd c s t st := by
  induction n generalizing s with
  | zero => exact ⟨_, _, rfl, .refl c s, .inr ⟨by simp, rfl⟩⟩
  | succ n ih =>
    rw [pumpLoop]
    split
    · exact ⟨_, _, rfl, .refl c s, .inr ⟨by simp, rfl⟩⟩
    · split
      · obtain ⟨st, t, h, hp, he⟩ := ih (drain c s).2
        exact ⟨st, t, h, (pumped_drain c s).trans hp, he.trans (pumped_drain c s) rfl⟩
      · rename_i k d0 hso
        obtain ⟨hh, hd0⟩ := sourceOf_eq_some.1 hso
        have key : ∀ (u : State) (d : Source) (b : Nat), Pumped c s u → u.holdS = s.holdS →
            (chanOf u c).handle = some k → sourceAt u k = some d → d.current = some b →
            ∃ st t, (match pumpSample c k b d u with
              | .raised f v => (.raised f v : Res Status)
              | .done _ v => pumpLoop c n v) = .done st t ∧ Pumped c s t ∧ PumpEnd c s t st := by
          intro u d b hu hhold hk hd hb
          rw [pumpSample_eq c hd hb]
          have h1 : Pumped c u (withSlot (withChan u c (drainChan u.cfg (chanOf u c)).2) k (some _)) :=
            (pumped_drain c u).trans (pumped_slot (d := d) (by
              obtain ⟨tl, l, i, hf, -⟩ := drainChan_form u.cfg (chanOf u c)
              simp [hf, hk]) hd (grown_fill u.cfg ((drainChan u.cfg (chanOf u c)).1.getD (chanOf u c).last) hb))
          obtain ⟨st, t, h, hp, he⟩ := ih _
          exact ⟨st, t, h, (hu.trans h1).trans hp, he.trans (hu.trans h1) hhold⟩
        rcases getWorkBuffer_cases k s with ⟨h2, hne⟩ | ⟨d, hd, h1, h2, -, -, he⟩ | ⟨d, b, rest, hd, hn, hc, he⟩
        · rcases hg : getWorkBuffer k s with ⟨st, u⟩
          rw [hg] at h2 hne
          simp only at h2 hne
          subst h2
          cases st with
          | held => exact absurd rfl hne
          | noBuffer => exact ⟨_, _, rfl, .refl c _, .inr ⟨by simp, rfl⟩⟩
          | _ =>
            simp only [hd0]
            cases hb : d0.current with
            | none => exact ⟨_, _, rfl, .refl c _, .inr ⟨by simp, rfl⟩⟩
            | some b => exact key _ d0 b (.refl c _) rfl hh hd0 hb
        · rw [he]
          exact ⟨_, _, rfl, pumped_hold c s _, .inl ⟨rfl, k, d, hh, hd, h1, h2, rfl⟩⟩
        · rw [he]
          have hg := pumped_slot hh hd (grown_get hn hc)
          have hs := sourceAt_withSlot_same (some (withBlock { d with clean := rest, current := some b } b
            { blockOf d b with fill := 0 })) (sourceAt_lt hd)
          simp only [hs]
          exact key _ _ b hg rfl hh hs rfl

theorem pump_spec (c : CoreId) (s : State) : ∃ st t, pump c s = .done st t ∧ Pumped c s t ∧ PumpEnd c s t st :=
  pumpLoop_spec c _ s

/-- A sample drained is one less that the pump's bound counts (R214). -/
theorem pumpBound_drain {cfg : Config} {x : Channel} (hl : 0 < x.limit) (hc : canDrain cfg x = true) :
    pumpBound cfg x = pumpBound cfg (drainChan cfg x).2 + 1 := by
  obtain ⟨v, -, h2, h3, -, h5⟩ := drainChan_amount hc
  simp only [pumpBound, h2, h3, ← h5]
  rw [Nat.add_div_right _ hl]

/-! ### Native ticks -/

theorem bank16_get_mem {α : Type} (t : Bank16 α) (i : Fin 16) : t.get i ∈ t.toList := by
  fin_cases i <;> simp [Bank16.get, Bank16.toList]

/-- A level of core A is the sum of three contributions of at most 42 (R270). -/
theorem levelA_range {cfg : Config} (h : TablesFit cfg) (a : PsgA) : -126 ≤ levelA cfg a ∧ levelA cfg a ≤ 126 := by
  have key : ∀ ch, -42 ≤ contributionA cfg a ch ∧ contributionA cfg a ch ≤ 42 := by
    intro ch
    simp only [contributionA]
    have := h.1 _ (bank16_get_mem cfg.ampTableA (if ampModeA a.ra ch then envLevel a else ampLevelA a.ra ch).toFin)
    split <;> omega
  have h0 := key 0
  have h1 := key 1
  have h2 := key 2
  simp only [levelA]
  omega

/-- A level of core B is the sum of four contributions of at most 31 (R315, R318). -/
theorem levelB_range {cfg : Config} (h : TablesFit cfg) (b : PsgB) : -124 ≤ levelB cfg b ∧ levelB cfg b ≤ 124 := by
  have key : ∀ ch, -31 ≤ contributionB cfg b ch ∧ contributionB cfg b ch ≤ 31 := by
    intro ch
    simp only [contributionB]
    have := h.2 _ (bank16_get_mem cfg.ampTableB (b.att.get ch).toFin)
    split <;> omega
  have h0 := key 0
  have h1 := key 1
  have h2 := key 2
  have h3 := key 3
  simp only [levelB]
  omega

/-- The faults of the speech microcode (R556, R557). -/
def SpeechFault (cfg : Config) (f : Fault) : Prop :=
  (∃ m, f = .microRunaway m) ∨ ∃ a, f = .romRange a ∧ cfg.rom.length ≤ a

theorem microStep_raised {cfg : Config} {p q : Speech} {f : Fault} (h : microStep cfg p = .raised f q) :
    SpeechFault cfg f := by
  unfold microStep at h
  simp only at h
  split at h
  · rename_i a ha
    cases h
    have := List.find?_some ha
    exact .inr ⟨a, rfl, by simpa [romRead] using this⟩
  · cases h

theorem runMicro_raised {cfg : Config} {n : Nat} {p q : Speech} {f : Fault} (h : runMicro cfg n p = .raised f q) :
    SpeechFault cfg f := by
  induction n generalizing p with
  | zero => cases h; exact .inl ⟨_, rfl⟩
  | succ n ih =>
    rw [runMicro] at h
    split at h
    · rename_i hm
      cases h
      exact microStep_raised hm
    · exact ih h
    · cases h
    · cases h

theorem needFrame_raised {cfg : Config} {n left : Nat} {p q : Speech} {f : Fault}
    (h : needFrame cfg n left p = .raised f q) : SpeechFault cfg f := by
  induction n generalizing p left with
  | zero => cases h; exact .inl ⟨_, rfl⟩
  | succ n ih =>
    rw [needFrame] at h
    split at h
    · cases h
    · split at h
      · split at h
        · cases h
        · split at h
          · rename_i hm
            cases h
            exact runMicro_raised hm
          · exact ih h
      · split at h
        · rename_i hm
          cases h
          exact runMicro_raised hm
        · exact ih h

theorem asr_range {y : Int} (n : Nat) (lo : -32768 ≤ y) (hi : y ≤ 32767) : -32768 ≤ asr y n ∧ asr y n ≤ 32767 := by
  have hp : (1 : Int) ≤ 2 ^ n := one_le_pow₀ (by norm_num)
  unfold asr
  constructor
  · exact (Int.le_ediv_iff_mul_le (by omega)).2 (by nlinarith)
  · rcases le_or_gt 0 y with h | h
    · exact (Int.ediv_le_self _ h).trans hi
    · have := Int.ediv_neg_of_neg_of_pos h (by omega : (0 : Int) < 2 ^ n)
      omega

/-- A tick of core S gives a level of 16 bits (R363), or raises a fault of its microcode. -/
theorem speechLevel_spec (cfg : Config) (n left : Nat) (p : Speech) :
    (∃ level q, speechLevel cfg n left p = .done level q ∧ -32768 ≤ level ∧ level ≤ 32767) ∨
      ∃ f q, speechLevel cfg n left p = .raised f q ∧ SpeechFault cfg f := by
  induction n generalizing p left with
  | zero => exact .inr ⟨_, _, rfl, .inl ⟨_, rfl⟩⟩
  | succ n ih =>
    rw [speechLevel]
    split
    · rename_i hn
      exact .inr ⟨_, _, rfl, needFrame_raised hn⟩
    · exact .inl ⟨_, _, rfl, by omega, by omega⟩
    · simp only
      split
      · exact ih _ _
      · have hlo := BitVec.le_toInt (latticeOuts cfg (excite cfg ‹Speech›).2 (excite cfg ‹Speech›).1).s5
        have hhi := BitVec.toInt_lt (x := (latticeOuts cfg (excite cfg ‹Speech›).2 (excite cfg ‹Speech›).1).s5)
        exact .inl ⟨_, _, rfl, asr_range _ (by simpa [lattice] using hlo) (by simp [lattice]; omega)⟩

/-- A micro-instruction whose reads all lie in the ROM takes its outcome (R353). -/
theorem microStep_reads {cfg : Config} {p : Speech} (h : ReadsInRom cfg (microInstr cfg p.ms)) :
    microStep cfg p = .done (microInstr cfg p.ms).out
      (takeOutcome cfg { p with ms := (microInstr cfg p.ms).next } (microInstr cfg p.ms).out) := by
  have : (microInstr cfg p.ms).reads.find? (fun a => (romRead cfg a).isNone) = none :=
    List.find?_eq_none.2 fun a ha => by simp [romRead, h a ha]
  simp only [microStep, this]

/-- What a micro-instruction that is not stopped did. -/
theorem microStep_done {cfg : Config} {p q : Speech} {o : MicroOutcome} (h : microStep cfg p = .done o q) :
    ReadsInRom cfg (microInstr cfg p.ms) ∧ o = (microInstr cfg p.ms).out ∧
      q = takeOutcome cfg { p with ms := (microInstr cfg p.ms).next } o := by
  unfold microStep at h
  simp only at h
  split at h
  · cases h
  · rename_i ha
    cases h
    refine ⟨fun a hm => ?_, rfl, rfl⟩
    have := List.find?_eq_none.1 ha a hm
    simpa [romRead] using this

/-- RUN_MICRO that ends: some instructions that only continue, and then the one whose outcome it gives (R354). -/
theorem runMicro_done {cfg : Config} {left left' : Nat} {p q : Speech} {o : MicroOutcome}
    (h : runMicro cfg left p = .done (o, left') q) :
    ∃ n ms, left = left' + n + 1 ∧ ContinuesTo cfg n p.ms ms ∧ ReadsInRom cfg (microInstr cfg ms) ∧
      (microInstr cfg ms).out = o ∧ o ≠ .cont ∧ q = takeOutcome cfg { p with ms := (microInstr cfg ms).next } o := by
  induction left generalizing p with
  | zero => cases h
  | succ left ih =>
    rw [runMicro] at h
    split at h
    · cases h
    · rename_i hm
      obtain ⟨h1, h2, rfl⟩ := microStep_done hm
      obtain ⟨n, ms, e, hc, g1, g2, g3, g4⟩ := ih h
      exact ⟨n + 1, ms, by omega, ⟨h1, h2.symm, hc⟩, g1, g2, g3, g4⟩
    · rename_i hm
      obtain ⟨h1, h2, rfl⟩ := microStep_done hm
      cases h
      exact ⟨0, p.ms, rfl, rfl, h1, h2.symm, by simp, rfl⟩
    · rename_i hm
      obtain ⟨h1, h2, rfl⟩ := microStep_done hm
      cases h
      exact ⟨0, p.ms, rfl, rfl, h1, h2.symm, by simp, rfl⟩

/-- RUN_MICRO over instructions that only continue and one that ends it, with the fuel for them (R354). -/
theorem runMicro_run {cfg : Config} {n left : Nat} {p : Speech} {ms : MicroState} {o : MicroOutcome}
    (hc : ContinuesTo cfg n p.ms ms) (hm : ReadsInRom cfg (microInstr cfg ms)) (ho : (microInstr cfg ms).out = o)
    (hne : o ≠ .cont) :
    runMicro cfg (left + n + 1) p = .done (o, left) (takeOutcome cfg { p with ms := (microInstr cfg ms).next } o) := by
  induction n generalizing p with
  | zero =>
    cases hc
    rw [show left + 0 + 1 = left + 1 from rfl, runMicro, microStep_reads hm, ho]
    cases o with
    | cont => exact absurd rfl hne
    | frame => rfl
    | halt => rfl
  | succ n ih =>
    obtain ⟨h1, h2, h3⟩ := hc
    rw [show left + (n + 1) + 1 = (left + n + 1) + 1 by omega, runMicro, microStep_reads h1, h2]
    exact ih h3

/-- A tick goes on after RUN_MICRO as it would from the core that RUN_MICRO leaves. -/
theorem tickRun_runMicro {cfg : Config} {left left' : Nat} {p q r : Speech} {o : MicroOutcome} {level : Int}
    (hr : p.rpt ≤ 0) (hh : p.halted = false) (h : runMicro cfg left p = .done (o, left') q)
    (ht : TickRun cfg left' q level r) : TickRun cfg left p level r := by
  obtain ⟨n, ms, rfl, hc, h1, h2, h3, rfl⟩ := runMicro_done h
  cases o with
  | cont => exact absurd rfl h3
  | frame fr => exact .frame hr hh hc h1 h2 ht
  | halt => exact .halt hr hh hc h1 h2 ht

/-- NEED_FRAME that ends: ready for an excitation step, from which the tick goes on, or silent (R357). -/
theorem needFrame_done {cfg : Config} {passes left left' : Nat} {p q : Speech} {b : Bool}
    (h : needFrame cfg passes left p = .done (b, left') q) :
    (b = true → 0 < q.rpt ∧ ∀ level r, TickRun cfg left' q level r → TickRun cfg left p level r) ∧
      (b = false → TickRun cfg left p 0 q) := by
  induction passes generalizing left p with
  | zero => cases h
  | succ passes ih =>
    rw [needFrame] at h
    split at h
    · rename_i hr
      cases h
      exact ⟨fun _ => ⟨hr, fun _ _ ht => ht⟩, nofun⟩
    · rename_i hr
      split at h
      · rename_i hh
        split at h
        · rename_i hp
          cases h
          exact ⟨nofun, fun _ => .silent (by omega) hh hp⟩
        · rename_i a hp
          split at h
          · cases h
          · rename_i hm
            obtain ⟨h1, h2⟩ := ih h
            have hgo : ∀ level r, TickRun cfg _ _ level r → TickRun cfg left p level r := fun level r ht =>
              .start (by omega) hh hp (tickRun_runMicro (by simp only; omega) rfl hm ht)
            exact ⟨fun hb => ⟨(h1 hb).1, fun level r ht => hgo _ _ ((h1 hb).2 level r ht)⟩, fun hb => hgo _ _ (h2 hb)⟩
      · rename_i hh
        split at h
        · cases h
        · rename_i hm
          obtain ⟨h1, h2⟩ := ih h
          have hgo : ∀ level r, TickRun cfg _ _ level r → TickRun cfg left p level r := fun level r ht =>
            tickRun_runMicro (by omega) (by simpa using hh) hm ht
          exact ⟨fun hb => ⟨(h1 hb).1, fun level r ht => hgo _ _ ((h1 hb).2 level r ht)⟩, fun hb => hgo _ _ (h2 hb)⟩

/-- The model's shift is the spec's `fdiv` (R15). -/
theorem asr_fdiv (y : Int) (n : Nat) : Int.fdiv y (2 ^ n) = asr y n :=
  Int.fdiv_eq_ediv_of_nonneg y (by positivity)

/-- A level that core S puts out is that of a native tick (R360). -/
theorem speechLevel_done {cfg : Config} {passes left : Nat} {p q : Speech} {level : Int}
    (h : speechLevel cfg passes left p = .done level q) : TickRun cfg left p level q := by
  induction passes generalizing left p with
  | zero => cases h
  | succ passes ih =>
    rw [speechLevel] at h
    split at h
    · cases h
    · rename_i hn
      cases h
      exact (needFrame_done hn).2 rfl
    · rename_i hn
      obtain ⟨hr, hgo⟩ := (needFrame_done hn).1 rfl
      simp only at h
      split at h
      · exact hgo _ _ (.expired hr (by assumption) (ih h))
      · rename_i hx
        obtain ⟨rfl, rfl⟩ := SpeechRes.done.inj h
        rw [← asr_fdiv]
        exact hgo _ _ (TickRun.output hr (not_le.1 hx) (Prod.eta _).symm)

/-- One native tick of core `c` that has been made. -/
structure Ticked (c : CoreId) (s t : State) : Prop where
  form : ∃ level, t = withChan { s with psgA := t.psgA, psgB := t.psgB, speech := t.speech } c
    (storeLevel s.cfg (chanOf s c) level)
  psgA : t.psgA = if c = .A then advanceA s.psgA else s.psgA
  psgB : t.psgB = if c = .B then advanceB s.cfg s.psgB else s.psgB
  speech : c ≠ .S → t.speech = s.speech
  run : c = .S → ∃ level, TickRun s.cfg s.cfg.microFuel s.speech level t.speech

/-- Everything a native tick can do when the ring has room: one sample stored, or a fault of the speech microcode. -/
theorem tick_spec (c : CoreId) (s : State) (hs : spaceRemaining s.cfg (chanOf s c) ≠ 0) (hf : c ≠ .S → TablesFit s.cfg) :
    (∃ t, tick c s = .done () t ∧ Ticked c s t) ∨
      (c = .S ∧ ∃ f p, tick c s = .raised f { s with speech := p } ∧ SpeechFault s.cfg f) := by
  cases c with
  | A =>
    have h := levelA_range (hf (by simp)) (advanceA s.psgA)
    refine .inl ⟨_, putSample_stores (by omega) (by omega) hs, ⟨_, rfl⟩, rfl, rfl, fun _ => rfl, fun h => nomatch h⟩
  | B =>
    have h := levelB_range (hf (by simp)) (advanceB s.cfg s.psgB)
    refine .inl ⟨_, putSample_stores (by omega) (by omega) hs, ⟨_, rfl⟩, rfl, rfl, fun _ => rfl, fun h => nomatch h⟩
  | S =>
    simp only [tick, tickS]
    rcases speechLevel_spec s.cfg (s.cfg.microFuel + 2) s.cfg.microFuel s.speech with
      ⟨level, q, h, lo, hi⟩ | ⟨f, q, h, hf⟩ <;> rw [h]
    · exact .inl ⟨_, putSample_stores lo hi hs, ⟨level, rfl⟩, rfl, rfl, fun h => absurd rfl h,
        fun _ => ⟨level, speechLevel_done h⟩⟩
    · exact .inr ⟨trivial, f, q, rfl, hf⟩

/-! ### Generation -/

/-- What `n` ticks of core `c`, with the pumps around them, leave. -/
structure Made (c : CoreId) (n : Nat) (s t : State) : Prop where
  form : t = { s with
    chans := t.chans, psgA := t.psgA, psgB := t.psgB, speech := t.speech, reg := t.reg, holdS := t.holdS }
  ne : ∀ c', c' ≠ c → chanOf t c' = chanOf s c'
  chan : ∃ bf hd tl dc ix la db, chanOf t c =
    { chanOf s c with buf := bf, head := hd, tail := tl, decay := dc, index := ix, last := la, debt := db }
  debt : n + (chanOf t c).debt = (chanOf s c).debt
  ring : RingFrame s.cfg (chanOf s c) n (chanOf t c)
  psgA : t.psgA = (advanceA)^[if c = .A then n else 0] s.psgA
  psgB : t.psgB = (advanceB s.cfg)^[if c = .B then n else 0] s.psgB
  speech : c ≠ .S → t.speech = s.speech
  other : ∀ k, (chanOf s c).handle ≠ some k → t.reg[k]? = s.reg[k]?
  source : ∀ k d, sourceAt s k = some d → ∃ d', sourceAt t k = some d' ∧ Grown d d'
  empty : ∀ k, sourceAt s k = none → sourceAt t k = none

/-- A pump makes no tick. -/
theorem Pumped.made {c : CoreId} {s t : State} (h : Pumped c s t) (p : Speech) (hp : c ≠ .S → p = t.speech) :
    Made c 0 s { t with speech := p } := by
  obtain ⟨tl, l, i, hc⟩ := h.chanOf_same
  have hf := h.form
  have hA : t.psgA = s.psgA := by rw [hf]
  have hB : t.psgB = s.psgB := by rw [hf]
  have hS : t.speech = s.speech := by rw [hf]
  refine ⟨?_, fun c' hne => h.chanOf_ne hne, ⟨_, _, tl, _, i, l, _, hc⟩, ?_, ?_, ?_, ?_, fun hne => (hp hne).trans hS, h.other,
    h.source, h.empty⟩
  · rw [hf]
  · show 0 + (chanOf t c).debt = _
    rw [hc, Nat.zero_add]
  · show RingFrame s.cfg (chanOf s c) 0 (chanOf t c)
    rw [hc]
    exact ⟨rfl, fun _ _ => rfl⟩
  · simpa using hA
  · simpa using hB

theorem Ticked.chanOf_same {c : CoreId} {s t : State} (h : Ticked c s t) :
    ∃ level, chanOf t c = storeLevel s.cfg (chanOf s c) level := by
  obtain ⟨level, hf⟩ := h.form
  exact ⟨level, by rw [hf]; simp⟩

theorem Ticked.chanOf_ne {c c' : CoreId} {s t : State} (h : Ticked c s t) (hc : c' ≠ c) : chanOf t c' = chanOf s c' := by
  obtain ⟨level, hf⟩ := h.form
  rw [hf, chanOf_withChan_ne _ _ hc]
  rfl

theorem ringAddress_succ {cfg : Config} {x y : Channel} (h : y.head = (x.head + 1) % capacity cfg) (i : Nat) :
    ringAddress cfg y i = ringAddress cfg x (i + 1) := by
  cases i with
  | zero => simp [ringAddress, h, capacity]
  | succ i =>
    simp only [ringAddress, h, capacity, Nat.add_eq_zero_iff, one_ne_zero, and_false, if_false, Nat.mod_add_mod]
    congr 1
    omega

/-- One more tick at the front of a chain of ticks. -/
theorem Made.cons {c : CoreId} {n : Nat} {s u v t : State} (hp : Pumped c s u) (hk : Ticked c u v)
    (hd : (chanOf u c).debt ≠ 0) (h : Made c n (payTick c v) t) : Made c (n + 1) s t := by
  obtain ⟨tl, l, i, hc⟩ := hp.chanOf_same
  obtain ⟨level, hv⟩ := hk.chanOf_same
  obtain ⟨level', hform⟩ := hk.form
  have hpay : chanOf (payTick c v) c = { chanOf v c with debt := (chanOf v c).debt - 1 } := by simp [payTick]
  have hvc : v.cfg = s.cfg := by rw [hform, hp.form]; rfl
  have hvreg : v.reg = u.reg := by rw [hform]; rfl
  have hat : ∀ k, sourceAt (payTick c v) k = sourceAt u k := fun k => by simp [sourceAt, hvreg]
  obtain ⟨bf, hd', tl', dc, ix, la, db, hct⟩ := h.chan
  have huc : u.cfg = s.cfg := by rw [hp.form]
  have hdebt := h.debt
  have hu : u.psgA = s.psgA ∧ u.psgB = s.psgB ∧ u.speech = s.speech := by rw [hp.form]; exact ⟨rfl, rfl, rfl⟩
  rw [hpay, hv, hc] at hct
  refine ⟨?_, fun c' hne => ?_, ⟨bf, hd', tl', dc, ix, la, db, hct⟩, ?_, ?_, ?_, ?_, fun hne => ?_, fun k hne => ?_,
    fun k d hd => ?_, fun k hd => ?_⟩
  · have h1 := h.form
    rw [payTick, hform, hp.form] at h1
    exact h1
  · rw [h.ne c' hne]
    show chanOf (withChan v c _) c' = _
    rw [chanOf_withChan_ne _ _ hne, hk.chanOf_ne hne, hp.chanOf_ne hne]
  · rw [hpay, hv, hc] at hdebt
    rw [hc] at hd
    simp only [storeLevel_eq] at hdebt hd
    omega
  · have hr := h.ring
    have hcfg : (payTick c v).cfg = s.cfg := hvc
    rw [hcfg] at hr
    have hhead : (chanOf (payTick c v) c).head = ((chanOf s c).head + 1) % capacity s.cfg := by
      rw [hpay, hv, hc, huc]
      rfl
    refine ⟨hr.1.trans (ringAddress_succ hhead n), fun a ha => ?_⟩
    rw [hr.2 a fun j hj => by rw [ringAddress_succ hhead]; exact ha (j + 1) (by omega)]
    rw [hpay, hv, hc]
    exact memRead_memWrite_ne _ _ (ha 0 (Nat.succ_pos n))
  · rw [h.psgA, payTick_psgA, hk.psgA, hu.1]
    split <;> rfl
  · rw [h.psgB, payTick_psgB, hk.psgB, hu.2.1, payTick_cfg, hvc, huc]
    split <;> rfl
  · rw [h.speech hne, payTick_speech, hk.speech hne, hu.2.2]
  · have : (chanOf (payTick c v) c).handle ≠ some k := by rw [hpay, hv, hc]; exact hne
    rw [h.other k this, payTick_reg, hvreg, hp.other k hne]
  · obtain ⟨e, he, g⟩ := hp.source k d hd
    obtain ⟨f, hf, g'⟩ := h.source k e ((hat k).trans he)
    exact ⟨f, hf, g.trans g'⟩
  · exact h.empty k ((hat k).trans (hp.empty k hd))

/-- How a generation ended (R415). -/
def MadeEnd (c : CoreId) (s t : State) (st : Status) : Prop :=
  (st = .ok ∧ (chanOf t c).debt = 0 ∧ t.holdS = s.holdS) ∨
    (st = .full ∧ spaceRemaining t.cfg (chanOf t c) = 0 ∧ t.holdS = s.holdS) ∨
    (st = .held ∧ ∃ k d, (chanOf s c).handle = some k ∧ sourceAt s k = some d ∧ d.sync = true ∧ d.blocking = true ∧
      t.holdS = some k)

/-- A generation of core S that ended at a fault in `t`: the tick after those made, from the speech core `q`, raised it; it
was due, and the ring had room for it. -/
def MadeFault (s t : State) (q : Speech) (f : Fault) : Prop :=
  SpeechFault s.cfg f ∧ tick .S { t with speech := q } = .raised f t ∧ 0 < (chanOf t .S).debt ∧
    spaceRemaining t.cfg (chanOf t .S) ≠ 0 ∧ t.holdS = s.holdS

/-- Everything a generation can do. -/
theorem generateLoop_spec (c : CoreId) (m : Nat) (s : State) (hm : (chanOf s c).debt = m) (hf : c ≠ .S → TablesFit s.cfg) :
    ∃ n t q, Made c n s t ∧ (c = .S → TickRuns s.cfg n s.speech q) ∧
      ((∃ st, generateLoop c m s = .done st t ∧ MadeEnd c s t st ∧ t.speech = q) ∨
        (c = .S ∧ ∃ f, generateLoop c m s = .raised f t ∧ MadeFault s t q f)) := by
  induction m generalizing s with
  | zero =>
    obtain ⟨st, t, h, hp, he⟩ := pump_spec c s
    refine ⟨0, t, t.speech, hp.made t.speech (fun _ => rfl), fun _ => by rw [hp.form]; rfl, .inl ?_⟩
    obtain ⟨tl, l, i, hc⟩ := hp.chanOf_same
    rw [generateLoop, h]
    rcases he with ⟨rfl, k, d, h1, h2, h3, h4, h5⟩ | ⟨hne, hh⟩
    · exact ⟨_, rfl, .inr (.inr ⟨rfl, k, d, h1, h2, h3, h4, h5⟩), rfl⟩
    · refine ⟨.ok, ?_, .inl ⟨rfl, by rw [hc]; exact hm, hh⟩, rfl⟩
      cases st <;> first | rfl | exact absurd rfl hne
  | succ m ih =>
    obtain ⟨st, u, h, hp, he⟩ := pump_spec c s
    obtain ⟨tl, l, i, hc⟩ := hp.chanOf_same
    have huc : u.cfg = s.cfg := by rw [hp.form]
    have hus : u.speech = s.speech := by rw [hp.form]
    rcases he with ⟨rfl, k, d, h1, h2, h3, h4, h5⟩ | ⟨hne, hh⟩
    · exact ⟨0, u, s.speech, hp.made u.speech (fun _ => rfl), fun _ => rfl,
        .inl ⟨_, by rw [generateLoop, h], .inr (.inr ⟨rfl, k, d, h1, h2, h3, h4, h5⟩), hus⟩⟩
    · have hred : generateLoop c (m + 1) s =
          if spaceRemaining u.cfg (chanOf u c) = 0 then .done .full u
          else match tick c u with
            | .raised f s => .raised f s
            | .done _ s => generateLoop c m (payTick c s) := by
        rw [generateLoop, h]
        cases st <;> first | rfl | exact absurd rfl hne
      rw [hred]
      split
      · rename_i hsp
        exact ⟨0, u, s.speech, hp.made u.speech (fun _ => rfl), fun _ => rfl,
          .inl ⟨_, rfl, .inr (.inl ⟨rfl, hsp, hh⟩), hus⟩⟩
      · rename_i hsp
        rcases tick_spec c u hsp (fun hne => by rw [huc]; exact hf hne) with ⟨v, hv, hk⟩ | ⟨rfl, f, p, hv, hsf⟩
        · rw [hv]
          obtain ⟨level, hform⟩ := hk.form
          obtain ⟨level', hvch⟩ := hk.chanOf_same
          have hud : (chanOf u c).debt = m + 1 := by rw [hc]; exact hm
          have hvd : (chanOf (payTick c v) c).debt = m := by
            simp [payTick, hvch, storeLevel_eq, hud]
          have hvcfg : (payTick c v).cfg = s.cfg := by rw [payTick_cfg, hform]; exact huc
          obtain ⟨n, t, q, hmade, hruns, hend⟩ := ih (payTick c v) hvd (fun hne => by rw [hvcfg]; exact hf hne)
          refine ⟨n + 1, t, q, hmade.cons hp hk (by omega), fun hS => ?_, ?_⟩
          · obtain ⟨level, hrun⟩ := hk.run hS
            rw [huc, hus] at hrun
            have hrest := hruns hS
            rw [hvcfg, payTick_speech] at hrest
            exact ⟨level, v.speech, hrun, hrest⟩
          have hhold : (payTick c v).holdS = s.holdS := by rw [payTick_holdS, hform]; exact hh
          rcases hend with ⟨st', h1, h2, hq⟩ | ⟨h1, f, h2, h3⟩
          · refine .inl ⟨st', h1, ?_, hq⟩
            rcases h2 with ⟨a, b, e⟩ | ⟨a, b, e⟩ | ⟨a, k, d, g1, g2, g3, g4, g5⟩
            · exact .inl ⟨a, b, e.trans hhold⟩
            · exact .inr (.inl ⟨a, b, e.trans hhold⟩)
            · have hh1 : (chanOf s c).handle = some k := by
                simp only [payTick, chanOf_withChan_same, hvch, storeLevel_eq, hc] at g1
                exact g1
              have hsu : sourceAt u k = some d := by
                rw [sourceAt_payTick, hform] at g2
                exact g2
              refine .inr (.inr ⟨a, k, ?_⟩)
              cases hd : sourceAt s k with
              | none => rw [hp.empty k hd] at hsu; cases hsu
              | some e =>
                obtain ⟨e', he', hg⟩ := hp.source k e hd
                rw [hsu] at he'
                cases he'
                obtain ⟨-, x, y, -⟩ := hg.kept
                exact ⟨e, hh1, rfl, x ▸ g3, y ▸ g4, g5⟩
          · obtain ⟨g1, g2, g3, g4, g5⟩ := h3
            exact .inr ⟨h1, f, h2, by rw [hvcfg] at g1; exact g1, g2, g3, g4, g5.trans hhold⟩
        · rw [hv]
          have hdue : (chanOf u .S).debt = m + 1 := by rw [hc]; exact hm
          have hback : { ({ u with speech := p } : State) with speech := s.speech } = u := by rw [← hus]
          exact ⟨0, _, s.speech, hp.made p (fun hne => absurd rfl hne), fun _ => rfl,
            .inr ⟨rfl, f, rfl, by rw [huc] at hsf; exact hsf, by rw [hback]; exact hv, hdue ▸ Nat.succ_pos m, hsp, hh⟩⟩

/-- GENERATE, once: some ticks are made, and then it ends as R415 lists, or core S stops on bad data. -/
theorem generate_spec (c : CoreId) (s : State) (hf : c ≠ .S → TablesFit s.cfg) :
    ∃ n t q, Made c n s t ∧ (c = .S → TickRuns s.cfg n s.speech q) ∧
      ((∃ st, generate c s = .done st t ∧ MadeEnd c s t st ∧ t.speech = q) ∨
        (c = .S ∧ ∃ f, generate c s = .raised f t ∧ MadeFault s t q f)) :=
  generateLoop_spec c _ s rfl hf

end Sys2Proof.Laws
end

