-- ==== Sys2Proof/Laws/PerInstr.lean ====
section
/-! SUPPORT. The statement made of every instruction, one lemma per constructor (LAWS.json). -/

namespace Sys2Proof

theorem joinBits_lt {n k : Nat} {hi : Nat} (v : BitVec n) (h : hi < 2 ^ k) : joinBits hi v < 2 ^ (k + n) := by
  have hv := v.isLt
  have : (hi + 1) * 2 ^ n ≤ 2 ^ k * 2 ^ n := Nat.mul_le_mul_right _ h
  rw [pow_add, joinBits]
  rw [Nat.succ_mul] at this
  omega

theorem aregWord_lt {n : Nat} (v : Byte) (h : n < 2 ^ 4) : (aregWord n v).word < 2 ^ 12 := joinBits_lt v h

theorem latchWord_lt {r : Nat} (d : BitVec 4) (h : 8 + r < 2 ^ 4) : (latchWord r d).word < 2 ^ 8 := joinBits_lt d h

end Sys2Proof

/-- The encoder's word fits the width the encoding gives the instruction (R141 to R145). -/
def Sys2Proof.Laws.EncodeFits.Statement (i : Sys2Proof.Instr) : Prop :=
  (Sys2Proof.encode i).word < 2 ^ (Sys2Proof.encode i).nbits

namespace Sys2Proof.Laws.EncodeFits

theorem write (core : BitVec 2) (ts : BitVec 64) (addr : Byte) (val : Byte) : Statement (.write core ts addr val) := joinBits_lt _ (joinBits_lt _ (joinBits_lt _ (joinBits_lt _ (by decide : _ < 2 ^ 8))))

theorem advance (core : BitVec 2) (h : BitVec 64) : Statement (.advance core h) := joinBits_lt _ (joinBits_lt _ (by decide : _ < 2 ^ 8))

theorem frame (core : BitVec 2) : Statement (.frame core) := joinBits_lt _ (by decide : _ < 2 ^ 8)

theorem clock (hz : BitVec 32) : Statement (.clock hz) := joinBits_lt _ (by decide : _ < 2 ^ 8)

theorem register (core : BitVec 2) (sync : Bool) (blocking : Bool) (holdoffMs : BitVec 16) : Statement (.register core sync blocking holdoffMs) := joinBits_lt _ (joinBits_lt _ (joinBits_lt _ (joinBits_lt _ (by decide : _ < 2 ^ 8))))

theorem deregister (handle : Byte) : Statement (.deregister handle) := joinBits_lt _ (by decide : _ < 2 ^ 8)

theorem volume (pct : Byte) : Statement (.volume pct) := joinBits_lt _ (by decide : _ < 2 ^ 8)

theorem mute (on : Bool) : Statement (.mute on) := joinBits_lt _ (by decide : _ < 2 ^ 8)

theorem update : Statement (.update) := by unfold Statement; decide

theorem resume : Statement (.resume) := by unfold Statement; decide

theorem putSample (core : BitVec 2) (level : BitVec 32) : Statement (.putSample core level) := joinBits_lt _ (joinBits_lt _ (by decide : _ < 2 ^ 8))

theorem configureRate (core : BitVec 2) (dst : BitVec 48) (src : BitVec 48) : Statement (.configureRate core dst src) := joinBits_lt _ (joinBits_lt _ (joinBits_lt _ (by decide : _ < 2 ^ 8)))

theorem samplesAvailable (core : BitVec 2) : Statement (.samplesAvailable core) := joinBits_lt _ (by decide : _ < 2 ^ 8)

theorem spaceRemaining (core : BitVec 2) : Statement (.spaceRemaining core) := joinBits_lt _ (by decide : _ < 2 ^ 8)

theorem drain (core : BitVec 2) : Statement (.drain core) := joinBits_lt _ (by decide : _ < 2 ^ 8)

theorem getWorkBuffer (handle : Byte) : Statement (.getWorkBuffer handle) := joinBits_lt _ (by decide : _ < 2 ^ 8)

theorem putWorkBuffer (handle : Byte) : Statement (.putWorkBuffer handle) := joinBits_lt _ (by decide : _ < 2 ^ 8)

theorem iterate (core : BitVec 2) (h : BitVec 64) : Statement (.iterate core h) := joinBits_lt _ (joinBits_lt _ (by decide : _ < 2 ^ 8))

theorem apply (core : BitVec 2) (addr : Byte) (val : Byte) : Statement (.apply core addr val) := joinBits_lt _ (joinBits_lt _ (joinBits_lt _ (by decide : _ < 2 ^ 8)))

theorem tick (core : BitVec 2) : Statement (.tick core) := joinBits_lt _ (by decide : _ < 2 ^ 8)

theorem loadAddress (addr : Byte) : Statement (.loadAddress addr) := joinBits_lt _ (by decide : _ < 2 ^ 8)

theorem runMicro : Statement (.runMicro) := by unfold Statement; decide

theorem filterUpdate (n : BitVec 32) : Statement (.filterUpdate n) := joinBits_lt _ (by decide : _ < 2 ^ 8)

theorem mixSource (handle : Byte) : Statement (.mixSource handle) := joinBits_lt _ (by decide : _ < 2 ^ 8)

theorem emit : Statement (.emit) := by unfold Statement; decide

theorem r0 (val : Byte) : Statement (.r0 val) := aregWord_lt _ (by decide)

theorem r1 (val : Byte) : Statement (.r1 val) := aregWord_lt _ (by decide)

theorem r2 (val : Byte) : Statement (.r2 val) := aregWord_lt _ (by decide)

theorem r3 (val : Byte) : Statement (.r3 val) := aregWord_lt _ (by decide)

theorem r4 (val : Byte) : Statement (.r4 val) := aregWord_lt _ (by decide)

theorem r5 (val : Byte) : Statement (.r5 val) := aregWord_lt _ (by decide)

theorem r6 (val : Byte) : Statement (.r6 val) := aregWord_lt _ (by decide)

theorem r7 (val : Byte) : Statement (.r7 val) := aregWord_lt _ (by decide)

theorem r8 (val : Byte) : Statement (.r8 val) := aregWord_lt _ (by decide)

theorem r9 (val : Byte) : Statement (.r9 val) := aregWord_lt _ (by decide)

theorem r10 (val : Byte) : Statement (.r10 val) := aregWord_lt _ (by decide)

theorem r11 (val : Byte) : Statement (.r11 val) := aregWord_lt _ (by decide)

theorem r12 (val : Byte) : Statement (.r12 val) := aregWord_lt _ (by decide)

theorem r13 (val : Byte) : Statement (.r13 val) := aregWord_lt _ (by decide)

theorem r14 (val : Byte) : Statement (.r14 val) := aregWord_lt _ (by decide)

theorem r15 (val : Byte) : Statement (.r15 val) := aregWord_lt _ (by decide)

theorem latch0 (d : BitVec 4) : Statement (.latch0 d) := latchWord_lt _ (by decide)

theorem latch1 (d : BitVec 4) : Statement (.latch1 d) := latchWord_lt _ (by decide)

theorem latch2 (d : BitVec 4) : Statement (.latch2 d) := latchWord_lt _ (by decide)

theorem latch3 (d : BitVec 4) : Statement (.latch3 d) := latchWord_lt _ (by decide)

theorem latch4 (d : BitVec 4) : Statement (.latch4 d) := latchWord_lt _ (by decide)

theorem latch5 (d : BitVec 4) : Statement (.latch5 d) := latchWord_lt _ (by decide)

theorem latch6 (d : BitVec 4) : Statement (.latch6 d) := latchWord_lt _ (by decide)

theorem latch7 (d : BitVec 4) : Statement (.latch7 d) := latchWord_lt _ (by decide)

theorem data (d : BitVec 6) : Statement (.data d) := lt_of_lt_of_le d.isLt (by decide : 2 ^ 6 ≤ 2 ^ 8)

theorem load (addr : Byte) : Statement (.load addr) := addr.isLt

theorem micro : Statement (.micro) := by unfold Statement; decide

end Sys2Proof.Laws.EncodeFits
end

