-- ==== Sys2Proof/Laws/Queue.lean ====
section
/-! SUPPORT. The due writes of a queue as one change of state, and what a generation leaves in the terms of the claims. -/

namespace Sys2Proof.Laws

open Sys2Proof.Machine Sys2Proof.Safety

/-! ### Due writes (R403, R411) -/

/-- Applying a write and setting the core's channel commute. -/
theorem applyTo_withChan (c : CoreId) (addr : Nat) (val : Byte) (s : State) (x : Channel) :
    applyTo c addr val (withChan s c x) = withChan (applyTo c addr val s) c x := by
  cases c <;> rfl

/-- The due writes are applied in queue order and leave the queue; the others stay in it. -/
theorem applyDue_eq (c : CoreId) (h : Nat) (l : List QEntry) (s : State) (hq : (chanOf s c).q = l) :
    applyDue c h l s =
      withChan ((l.takeWhile (fun e => decide (e.ts ≤ h))).foldl (fun s e => applyTo c e.addr e.val s) s) c
        { chanOf s c with q := l.dropWhile (fun e => decide (e.ts ≤ h)) } := by
  induction l generalizing s with
  | nil =>
    have : { chanOf s c with q := ([] : List QEntry).dropWhile (fun e => decide (e.ts ≤ h)) } = chanOf s c := by
      rw [List.dropWhile_nil, ← hq]
    rw [this]
    exact (withChan_chanOf s c).symm
  | cons e l ih =>
    rw [applyDue]
    by_cases he : e.ts ≤ h
    · rw [if_pos he, ih _ (by cases c <;> rfl), List.takeWhile_cons_of_pos (by simpa using he),
        List.dropWhile_cons_of_pos (by simpa using he), List.foldl_cons]
      have hch : chanOf (applyTo c e.addr e.val (withChan s c { chanOf s c with q := l })) c =
          { chanOf s c with q := l } := by
        cases c <;> rfl
      have hset : ∀ (m : List QEntry) (u : State) (x y : Channel),
          withChan (m.foldl (fun s e => applyTo c e.addr e.val s) (withChan u c x)) c y =
            withChan (m.foldl (fun s e => applyTo c e.addr e.val s) u) c y := by
        intro m
        induction m with
        | nil => intro u x y; simp
        | cons f m ih' => intro u x y; simp only [List.foldl_cons, applyTo_withChan, ih']
      rw [hch]
      simp only [applyTo_withChan, hset]
    · rw [if_neg he, List.takeWhile_cons_of_neg (by simpa using he), List.dropWhile_cons_of_neg (by simpa using he)]
      simp only [List.foldl_nil, ← hq]
      exact (withChan_chanOf s c).symm

/-- Core A's writes change its registers alone. -/
theorem foldl_applyA (l : List QEntry) (s : State) : l.foldl (fun s e => applyTo .A e.addr e.val s) s =
    { s with psgA := l.foldl (fun a e => writeRegA a (Fin.ofNat 16 e.addr) e.val) s.psgA } := by
  induction l generalizing s with
  | nil => rfl
  | cons e l ih => rw [List.foldl_cons, ih]; rfl

/-- Core B's writes change its registers alone. -/
theorem foldl_applyB (l : List QEntry) (s : State) : l.foldl (fun s e => applyTo .B e.addr e.val s) s =
    { s with psgB := l.foldl (fun b e => writeByteB s.cfg b e.val) s.psgB } := by
  induction l generalizing s with
  | nil => rfl
  | cons e l ih => rw [List.foldl_cons, ih]; rfl

/-- Core S's writes offer their addresses, in order, and change nothing else. -/
theorem foldl_applyS (l : List QEntry) (s : State) : l.foldl (fun s e => applyTo .S e.addr e.val s) s =
    { s with speech := l.foldl (fun p e => offerAddress p e.val) s.speech } := by
  induction l generalizing s with
  | nil => rfl
  | cons e l ih => rw [List.foldl_cons, ih]; rfl

/-- Dropping as many as a prefix has is dropping that prefix. -/
theorem drop_takeWhile {α : Type} (p : α → Bool) (l : List α) : l.drop (l.takeWhile p).length = l.dropWhile p := by
  induction l with
  | nil => rfl
  | cons a l ih => by_cases h : p a <;> simp [h, ih]

/-! ### Generations -/

/-- Ticks made leave alone what a generation leaves alone. -/
theorem Made.frame {c : CoreId} {n : Nat} {s t : State} (h : Made c n s t) : GenerationFrame c s t := by
  have hf := h.form
  obtain ⟨bf, hd, tl, dc, ix, la, db, hc⟩ := h.chan
  refine ⟨by rw [hf], by rw [hf], by rw [hf], by rw [hf], by rw [hf], by rw [hf], by rw [hf], by rw [hf], h.ne,
    fun hne => ?_, fun hne => ?_, h.speech, h.other, fun k d hd => ?_, ?_⟩
  · rw [h.psgA]; simp [hne]
  · rw [h.psgB]; simp [hne]
  · obtain ⟨e, he, g⟩ := h.source k d hd
    exact ⟨e, he, g.kept⟩
  · rw [hc]; simp

/-- The end of a generation in the terms of the claims. -/
theorem MadeEnd.generationEnd {c : CoreId} {n : Nat} {s t : State} {st : Status} (h : MadeEnd c s t st)
    (hm : Made c n s t) : GenerationEnd c s t st (chanOf s c).debt n := by
  refine ⟨hm.debt, ?_⟩
  rcases h with h | h | ⟨h1, k, d, h2, h3, h4, h5, h6⟩
  · exact .inl h
  · exact .inr (.inl h)
  · exact .inr (.inr ⟨h1, by rw [h6, h2], by rw [h6]; simp⟩)

/-- What a generation leaves alone after the core's own writes and its accrual, said of the state before them. -/
theorem frame_of_start {c : CoreId} {s u t : State} (x : Channel) (h : GenerationFrame c (withChan u c x) t)
    (hu : u = { s with psgA := u.psgA, psgB := u.psgB, speech := u.speech, holdS := u.holdS })
    (hA : c ≠ .A → u.psgA = s.psgA) (hB : c ≠ .B → u.psgB = s.psgB) (hS : c ≠ .S → u.speech = s.speech)
    (hx : x = { chanOf s c with q := x.q, debt := x.debt, cycAcc := x.cycAcc, lastH := x.lastH }) :
    GenerationFrame c s t := by
  obtain ⟨a1, a2, a3, a4, a5, a6, a7, a8, a9, a10, a11, a12, a13, a14, a15⟩ := h
  have hc : chanOf (withChan u c x) c = x := by simp
  rw [hc] at a15 a13
  have hr : u.reg = s.reg := by rw [hu]
  refine ⟨a1.trans (by rw [hu]; rfl), a2.trans (by rw [hu]; rfl), a3.trans (by rw [hu]; rfl), a4.trans (by rw [hu]; rfl),
    a5.trans (by rw [hu]; rfl), a6.trans (by rw [hu]; rfl), a7.trans (by rw [hu]; rfl), a8.trans (by rw [hu]; rfl),
    fun c' hne => ?_, fun hne => (a10 hne).trans (hA hne), fun hne => (a11 hne).trans (hB hne),
    fun hne => (a12 hne).trans (hS hne), fun k hk => ?_, fun k d hd => ?_, ?_⟩
  · rw [a9 c' hne, chanOf_withChan_ne _ _ hne, hu]; rfl
  · rw [a13 k (by rw [hx]; exact hk)]; exact congrArg (·[k]?) hr
  · exact a14 k d (by simp only [sourceAt, withChan_reg, hr]; exact hd)
  · rw [hx] at a15; exact a15

end Sys2Proof.Laws
end

