-- ==== Sys2Proof/Tests/Slice0.lean ====
section
/-! SUPPORT. Tests: the well-formedness smoke test, the decoding of words written out from 30_encoding.md, one step of each
instruction with the values of 95_test_vectors.md (or worked by hand from the rule cited), and for each statement with
hypotheses a state that meets them. -/

namespace Sys2Proof.Tests

open Sys2Proof.Machine Sys2Proof.Safety

/-! ### States the tests start from -/

/-- Reset with the vector configuration VC. -/
def base : State := State.resetOf Config.vc

/-- Reset with the vector configuration and another ring size. -/
def ringOf (bits : Nat) : State := State.resetOf { Config.vc with ringBits := bits }

/-- `base` with core `c`'s channel changed. -/
def withChannel (c : CoreId) (g : Channel → Channel) (s : State) : State := withChan s c (g (chanOf s c))

/-- A registered source of core `c` with VC's two blocks. -/
def source (c : CoreId) (sync blocking : Bool) : Source := newSource Config.vc c sync blocking 0

/-- `base` with the source `d` of its core in slot 0. -/
def registered (d : Source) : State :=
  withChannel d.core (fun x => { x with handle := some 0 }) (withSlot base 0 (some d))

/-- Core A with a synchronous source that does not block. -/
def syncA : State := registered (source .A true false)

/-- What `g` reads of the state that a step leaves. -/
def after {α : Type} (o : Host.Outcome State Fault Refusal) (g : State → α) : Option α :=
  match o with
  | .next t => some (g t)
  | _ => none

/-- The same of one command on `s`. -/
def ran {α : Type} (i : Instr) (s : State) (g : State → α) : Option α := after (exec i s) g

/-- The reply with a status alone. -/
def replyOf (st : Status) : List Reply := [⟨st, .none⟩]

/-! ### Well-formedness: each check refuses an ill-formed term -/

theorem test_wf_core_field : ([.putSample 3 0, .configureRate 3 1 1, .samplesAvailable 3, .spaceRemaining 3, .drain 3,
    .iterate 3 0, .apply 3 0 0, .tick 3] : List Instr).all (fun i => !i.wf) = true := by decide

theorem test_wf_address : ([.apply 0 16 0, .apply 1 1 0, .apply 2 1 0] : List Instr).all (fun i => !i.wf) = true := by decide

theorem test_wf_accepts : ([.putSample 2 0, .apply 0 15 0, .apply 1 0 0, .apply 2 0 0, .write 3 0 255 0, .advance 3 0,
    .frame 3, .register 3 false false 0, .volume 255, .micro] : List Instr).all Instr.wf = true := by decide

theorem test_wf_vector_configuration : Config.vc.wf = true := by decide

/-- One configuration outside each range of R11, R313 and R420. -/
theorem test_wf_configuration : ([
    { Config.vc with ringBits := 0 }, { Config.vc with ringBits := 25 }, { Config.vc with dstRate := 0 },
    { Config.vc with cpuHz0 := 0 }, { Config.vc with chipHzA := 0 }, { Config.vc with chipHzB := 0 },
    { Config.vc with clkNum := ⟨1, 0, 1⟩ }, { Config.vc with clkDen := ⟨1, 1, 0⟩ }, { Config.vc with speechRate := 0 },
    { Config.vc with ampTableA := Config.vc.ampTableA.set 15 43 },
    { Config.vc with ampTableB := Config.vc.ampTableB.set 0 (-1) },
    { Config.vc with snZeroPeriod := 2 }, { Config.vc with snLfsrWidth := 1 }, { Config.vc with snLfsrWidth := 17 },
    { Config.vc with snTaps := 2 }, { Config.vc with snNoiseDiv := ⟨16, 32, 0⟩ },
    { Config.vc with microFuel := 0 }, { Config.vc with noisePer := 0 }, { Config.vc with queueCap := 0 },
    { Config.vc with poolBlocks := 0 }, { Config.vc with blockLen := 0 }, { Config.vc with maxSources := 0 },
    { Config.vc with starveLimit := 0 }, { Config.vc with initVolume := 101 },
    { Config.vc with chipHzA := 2 ^ 48 }, { Config.vc with dstRate := 2 ^ 44 },
    { Config.vc with clkDen := ⟨1, 1, 2 ^ 34⟩ }, { Config.vc with clkNum := ⟨65537, 1, 1⟩ },
    { Config.vc with cpuHz0 := 2 ^ 48 }] : List Config).all (fun c => !c.wf) = true := by decide

/-- R420 at its boundary: `hz` is at most 2^32 - 1, and the divider of core S is 1. R313 constrains bit 0 of the taps
alone (log 28). -/
theorem test_wf_accepts_boundaries : ([
    { Config.vc with clkNum := ⟨65536, 65536, 65536⟩ }, { Config.vc with dstRate := 1, clkDen := ⟨1, 1, 2 ^ 48 - 1⟩ },
    { Config.vc with dstRate := 1, clkDen := ⟨2 ^ 44 - 1, 1, 1⟩ }, { Config.vc with cpuHz0 := 2 ^ 48 - 1 },
    { Config.vc with snTaps := 0x8001 }] : List Config).all Config.wf = true := by decide

/-! ### Decoding: one word of every row, written out from R141 to R145 -/

theorem test_decode_write : decode ⟨.cmd, 90, 0x00400000000000000000008⟩ = .instr (.write 0 0 0 8) ∧
    decode ⟨.cmd, 90, 0x00600000000000006400000⟩ = .instr (.write 2 1600 0 0) := by decide

theorem test_decode_advance : decode ⟨.cmd, 74, 0x0080000000000000200⟩ = .instr (.advance 0 512) ∧
    decode ⟨.cmd, 74, 0x00A0000000000000320⟩ = .instr (.advance 2 800) := by decide

theorem test_decode_frame : decode ⟨.cmd, 10, 0b0000001101⟩ = .instr (.frame 1) := by decide

theorem test_decode_clock : decode ⟨.cmd, 40, 0x0400337F98⟩ = .instr (.clock 3375000) := by decide

theorem test_decode_register : decode ⟨.cmd, 28, 0x0530000⟩ = .instr (.register 0 true true 0) ∧
    decode ⟨.cmd, 28, 0x0580000⟩ = .instr (.register 2 false false 0) := by decide

theorem test_decode_controls : decode ⟨.cmd, 16, 0x0601⟩ = .instr (.deregister 1) ∧
    decode ⟨.cmd, 16, 0x0732⟩ = .instr (.volume 50) ∧ decode ⟨.cmd, 9, 0b000010001⟩ = .instr (.mute true) ∧
    decode ⟨.cmd, 8, 0x09⟩ = .instr .update ∧ decode ⟨.cmd, 8, 0x0A⟩ = .instr .resume := by decide

theorem test_decode_ring : decode ⟨.cmd, 42, 0x041FFFFFF80⟩ = .instr (.putSample 1 (BitVec.ofInt 32 (-128))) ∧
    decode ⟨.cmd, 106, 0x0440000000562200000001E8480⟩ = .instr (.configureRate 0 352800 2000000) ∧
    decode ⟨.cmd, 10, 0b0001001010⟩ = .instr (.samplesAvailable 2) ∧
    decode ⟨.cmd, 10, 0b0001001100⟩ = .instr (.spaceRemaining 0) ∧
    decode ⟨.cmd, 10, 0b0001010001⟩ = .instr (.drain 1) := by decide

theorem test_decode_pool : decode ⟨.cmd, 16, 0x1802⟩ = .instr (.getWorkBuffer 2) ∧
    decode ⟨.cmd, 16, 0x1902⟩ = .instr (.putWorkBuffer 2) := by decide

theorem test_decode_queue : decode ⟨.cmd, 74, 0x08000000000000000A0⟩ = .instr (.iterate 0 160) ∧
    decode ⟨.cmd, 26, 0b00100001010000000010001110⟩ = .instr (.apply 1 0 0x8E) ∧
    decode ⟨.cmd, 10, 0b0010001010⟩ = .instr (.tick 2) := by decide

theorem test_decode_speech : decode ⟨.cmd, 16, 0x282A⟩ = .instr (.loadAddress 0x2A) ∧
    decode ⟨.cmd, 8, 0x29⟩ = .instr .runMicro ∧ decode ⟨.cmd, 40, 0x2A00000003⟩ = .instr (.filterUpdate 3) ∧
    decode ⟨.saddr, 8, 0x2A⟩ = .instr (.load 0x2A) ∧ decode ⟨.micro, 0, 0⟩ = .instr .micro := by decide

theorem test_decode_mixer : decode ⟨.cmd, 16, 0x3001⟩ = .instr (.mixSource 1) ∧
    decode ⟨.cmd, 8, 0x31⟩ = .instr .emit := by decide

theorem test_decode_areg : decode ⟨.areg, 12, 0x008⟩ = .instr (.r0 8) ∧ decode ⟨.areg, 12, 0x100⟩ = .instr (.r1 0) ∧
    decode ⟨.areg, 12, 0x2FE⟩ = .instr (.r2 0xFE) ∧ decode ⟨.areg, 12, 0x30F⟩ = .instr (.r3 15) ∧
    decode ⟨.areg, 12, 0x401⟩ = .instr (.r4 1) ∧ decode ⟨.areg, 12, 0x502⟩ = .instr (.r5 2) ∧
    decode ⟨.areg, 12, 0x61F⟩ = .instr (.r6 31) ∧ decode ⟨.areg, 12, 0x73E⟩ = .instr (.r7 0x3E) ∧
    decode ⟨.areg, 12, 0x80F⟩ = .instr (.r8 15) ∧ decode ⟨.areg, 12, 0x910⟩ = .instr (.r9 16) ∧
    decode ⟨.areg, 12, 0xA0A⟩ = .instr (.r10 10) ∧ decode ⟨.areg, 12, 0xB34⟩ = .instr (.r11 0x34) ∧
    decode ⟨.areg, 12, 0xC12⟩ = .instr (.r12 0x12) ∧ decode ⟨.areg, 12, 0xD0E⟩ = .instr (.r13 14) ∧
    decode ⟨.areg, 12, 0xE55⟩ = .instr (.r14 0x55) ∧ decode ⟨.areg, 12, 0xFAA⟩ = .instr (.r15 0xAA) := by decide

theorem test_decode_bbyte : decode ⟨.bbyte, 8, 0b10001110⟩ = .instr (.latch0 14) ∧
    decode ⟨.bbyte, 8, 0b10011111⟩ = .instr (.latch1 15) ∧ decode ⟨.bbyte, 8, 0b10100101⟩ = .instr (.latch2 5) ∧
    decode ⟨.bbyte, 8, 0b10110011⟩ = .instr (.latch3 3) ∧ decode ⟨.bbyte, 8, 0b11000001⟩ = .instr (.latch4 1) ∧
    decode ⟨.bbyte, 8, 0b11011000⟩ = .instr (.latch5 8) ∧ decode ⟨.bbyte, 8, 0b11101100⟩ = .instr (.latch6 12) ∧
    decode ⟨.bbyte, 8, 0b11110000⟩ = .instr (.latch7 0) ∧ decode ⟨.bbyte, 8, 0b00001111⟩ = .instr (.data 15) ∧
    decode ⟨.bbyte, 8, 0b01111111⟩ = .instr (.data 63) := by decide

/-- Words that are no instruction: an opcode outside the table, a wrong width, bits above the width. -/
theorem test_decode_rejects : decode ⟨.cmd, 8, 0x0B⟩ = .reject (.unknownOpcode 0x0B) ∧
    decode ⟨.cmd, 24, 0x090000⟩ = .reject (.wrongWidth 24) ∧ decode ⟨.cmd, 8, 0x109⟩ = .reject (.wrongWidth 8) ∧
    decode ⟨.areg, 12, 0x1000⟩ = .reject (.wrongWidth 12) ∧ decode ⟨.bbyte, 8, 0x100⟩ = .reject (.wrongWidth 8) ∧
    decode ⟨.saddr, 8, 0x100⟩ = .reject (.wrongWidth 8) ∧ decode ⟨.micro, 1, 0⟩ = .reject (.wrongWidth 1) := by
  decide

/-- The words of the opcode table, opcode byte first (log 14): P1's first ADVANCE, VOLUME 50, R7, LATCH2. -/
theorem test_decode_table : decodeTableWord 8 0x09 = some .update ∧ decodeTableWord 16 0x3207 = some (.volume 50) ∧
    decodeTableWord 80 0x00800000000000000002 = some (.advance 0 512) ∧
    decodeTableWord 16 0x073E = some (.r7 0x3E) ∧ decodeTableWord 12 0xE73 = some (.r14 0x73) ∧
    decodeTableWord 8 0xA5 = some (.latch2 5) := by decide

/-- An opcode byte alone is its command with zero operands in the table's numbering, and no command as an issued word
(log 14). -/
theorem test_decode_table_opcode_alone : decodeTableWord 8 0x01 = some (.write 0 0 0 0) ∧
    decode ⟨.cmd, 8, 0x01⟩ = .reject (.wrongWidth 8) ∧ decode ⟨.bbyte, 8, 0x01⟩ = .instr (.data 1) := by decide

/-! ### One step of each instruction -/

/-- The ring of core A with these codes from address 0 on, and the converter at `inc/lim`. -/
def ringed (inc lim : Nat) (codes : Memory) (n : Nat) : State :=
  withChannel .A (fun x => { x with buf := codes, head := n, rateNum := inc, rateDen := lim, increment := inc, limit := lim })
    base

/-- The codes of core A's ring from address `i` to `i + n - 1`. -/
def codesA (i n : Nat) (s : State) : List Byte := (List.range n).map fun j => memRead (chanOf s .A).buf (i + j)

/-- The toy micro-instruction set of 95_test_vectors.md over [0x01, 3, 3, 0xFF, 0x00], at its two instructions. -/
def speechRom : Config :=
  { Config.vc with
    rom := [0x01, 3, 3, 0xFF, 0x00], entry := [(0, 0)],
    micro := [(0, ⟨[0, 1, 2, 3], 4, .frame { rpt := some 3, per := some 3, ampRaw := some 0xFF }⟩), (4, ⟨[4], 5, .halt⟩)] }

/-- `speechRom` at reset, address 0 pending. -/
def speaking : State := { State.resetOf speechRom with speech := { Speech.reset with pending := some 0 } }

/-- Q-1. -/
theorem test_write_queues : ran (.write 0 100 8 15) base (fun t => ((chanOf t .A).q, (chanOf t .A).lastTs, t.replies)) =
    some ([⟨100, 8, 15⟩], 100, replyOf .ok) := by decide

/-- Q-3. -/
theorem test_write_order : ran (.write 0 40 0 1) (withChannel .A (fun x => { x with lastTs := 50 }) base)
    (fun t => (t.fault, (chanOf t .A).q)) = some (some (.timestampOrder .A 40), []) := by decide

/-- Q-9. -/
theorem test_advance_posts : ran (.advance 1 5000) base (fun t => ((chanOf t .B).postedH, (chanOf t .B).head, t.replies)) =
    some (some 5000, 0, replyOf .ok) := by decide

/-- R412: a synchronous core ticks at once, 64 cycles being 4 ticks. -/
theorem test_advance_iterates : ran (.advance 0 64) syncA (fun t => ((chanOf t .A).head, (chanOf t .A).lastH, t.replies)) =
    some (4, 64, replyOf .ok) := by decide

/-- MX-14: the current block with one code is queued. -/
theorem test_frame_queues : ran (.frame 0) (registered { source .A true false with
      blocks := [⟨[(0, 169)], 1⟩, ⟨[], 0⟩], clean := [1], current := some 0, newSamples := 1 })
    (fun t => (sourceAt t 0).map fun d => (d.dirty, d.current, d.newSamples)) = some (some ([0], none, 0)) := by
  decide

/-- MX-15. -/
theorem test_frame_no_source : ran (.frame 1) syncA (fun t => t.replies) = some (replyOf .ignored) := by decide

/-- Q-12. -/
theorem test_clock_sets : ran (.clock 3375000) syncA
    (fun t => (t.cpuHz, (chanOf t .A).increment, (chanOf t .A).limit, (chanOf t .B).limit)) =
    some (3375000, 196, 1875, 2500) := by decide

/-- Q-13. -/
theorem test_clock_keeps_fraction : ran (.clock 1000000) (withChannel .B (fun x => { x with cycAcc := 20000000 }) base)
    (fun t => (chanOf t .B).cycAcc) = some 10000000 := by decide

/-- MX-3. -/
theorem test_register_holdoff : ran (.register 0 true false 5) base
    (fun t => ((sourceAt t 0).map fun d => (d.holdoffCnt, d.clean), (chanOf t .A).handle, t.replies)) =
    some (some (110, [0, 1]), some 0, [⟨.ok, .handle 0⟩]) := by decide

/-- MX-16: a detached core starts anew, its horizon kept. -/
theorem test_register_reattaches : ran (.register 0 true false 0) (withChannel .A (fun x =>
      { x with attached := false, head := 32, lastH := 1000 }) { base with psgA := { PsgA.reset with ra := Bank16.const 15 } })
    (fun t => ((chanOf t .A).head, (chanOf t .A).lastH, t.psgA.ra.r8)) = some (0, 1000, 0) := by decide

/-- MX-16. -/
theorem test_deregister_detaches : ran (.deregister 0) syncA
    (fun t => (sourceAt t 0, (chanOf t .A).attached, (chanOf t .A).handle, t.replies)) =
    some (none, false, none, replyOf .ok) := by decide

/-- MX-6. -/
theorem test_deregister_empty : ran (.deregister 7) base (fun t => t.replies) = some (replyOf .ignored) := by decide

/-- MX-10. -/
theorem test_volume_sets : ran (.volume 0) base (fun t => (t.vol, t.replies)) = some (0, replyOf .ok) := by decide

/-- MX-10. -/
theorem test_volume_ignored : ran (.volume 101) base (fun t => (t.vol, t.replies)) = some (100, replyOf .ignored) := by
  decide

/-- MX-17. -/
theorem test_mute_sets : ran (.mute true) base (fun t => (t.muted, t.vol)) = some (true, 100) := by decide

/-- R470. -/
theorem test_update_arms : ran .update base (fun t => t.mSeq) =
    some [.iterate .A, .iterate .B, .iterate .S, .mix 0, .mix 1, .mix 2, .emit] := by decide

/-- Program P4, step 10. -/
theorem test_resume_ignored : ran .resume base (fun t => t.replies) = some (replyOf .ignored) := by decide

/-- R416: the held generation goes on with its one tick of debt. -/
theorem test_resume_generates : ran .resume { withChannel .A (fun x => { x with debt := 1 }) (registered
      (source .A true true)) with holdS := some 0 } (fun t => (t.holdS, (chanOf t .A).debt, (chanOf t .A).head, t.replies)) =
    some (none, 0, 1, replyOf .ok) := by decide

/-- RB-1. -/
theorem test_put_sample_clips : ran (.putSample 0 200) base (fun t => (codesA 0 1 t, (chanOf t .A).head)) =
    some ([254], 1) := by decide

/-- RB-6: the level is checked before the space. -/
theorem test_put_sample_faults : ran (.putSample 0 40000) (withChannel .A (fun x => { x with head := 3 }) (ringOf 2))
    (fun t => (t.fault, (chanOf t .A).head)) = some (some (.levelRange .A 40000), 3) := by decide

/-- RB-7. -/
theorem test_configure_rate_reduces : ran (.configureRate 0 352800 2000000) base
    (fun t => ((chanOf t .A).rateNum, (chanOf t .A).limit, (chanOf t .A).index)) = some (441, 2500, 0) := by decide

/-- RB-9. -/
theorem test_configure_rate_rejects : ran (.configureRate 0 7 0) base (fun t => ((chanOf t .A).increment, t.replies)) =
    some (441, replyOf .configRejected) := by decide

/-- RB-15: capacity 8, head 1, tail 2. -/
theorem test_samples_available : ran (.samplesAvailable 0)
    (withChannel .A (fun x => { x with head := 1, tail := 2 }) (ringOf 3)) (fun t => t.replies) =
    some [⟨.ok, .count 7⟩] := by decide

/-- RB-3. -/
theorem test_space_remaining : ran (.spaceRemaining 0) (withChannel .A (fun x => { x with head := 3 }) (ringOf 2))
    (fun t => t.replies) = some [⟨.ok, .count 0⟩] := by decide

/-- RB-16. -/
theorem test_drain_halves : ran (.drain 0) (ringed 1 2 [(0, 130), (1, 140)] 2)
    (fun t => (t.replies, (chanOf t .A).index, (chanOf t .A).tail)) = some ([⟨.ok, .sample (some 140)⟩], 0, 2) := by
  decide

/-- RB-21, its second call. -/
theorem test_drain_runs_out : ran (.drain 0) (ringed 1 2 [(0, 150)] 1)
    (fun t => (t.replies, (chanOf t .A).index, (chanOf t .A).last)) = some ([⟨.ok, .sample none⟩], 1, 150) := by
  decide

/-- MX-4. -/
theorem test_get_work_buffer : ran (.getWorkBuffer 0) syncA
    (fun t => (t.replies, (sourceAt t 0).map fun d => (d.current, d.clean))) = some (replyOf .ok, some (some 0, [1])) := by
  decide

/-- R452: a blocking source without a clean block holds S. -/
theorem test_get_work_buffer_holds : ran (.getWorkBuffer 0)
    (registered { source .A true true with clean := [], dirty := [0, 1] }) (fun t => (t.holdS, t.replies)) =
    some (some 0, replyOf .held) := by decide

/-- MX-5. -/
theorem test_put_work_buffer_faults : ran (.putWorkBuffer 0) syncA (fun t => t.fault) =
    some (some (.protocolError 0)) := by decide

/-- R455. -/
theorem test_put_work_buffer_queues : ran (.putWorkBuffer 0)
    (registered { source .A true false with clean := [], dirty := [1], current := some 0 })
    (fun t => (sourceAt t 0).map fun d => (d.dirty, d.current)) = some (some ([1, 0], none)) := by decide

/-- Q-4. -/
theorem test_iterate_ticks : ran (.iterate 0 160) base
    (fun t => ((chanOf t .A).head, (chanOf t .A).tail, (chanOf t .A).index, (chanOf t .A).cycAcc)) =
    some (10, 6, 146, 0) := by decide

/-- Q-5. -/
theorem test_iterate_fraction : ran (.iterate 0 170) base (fun t => ((chanOf t .A).debt, (chanOf t .A).cycAcc)) =
    some (0, 20000000) := by decide

/-- PA-1. -/
theorem test_apply_masks : ran (.apply 0 6 0xE5) base (fun t => t.psgA.ra.r6) = some 5 := by decide

/-- PB-5. -/
theorem test_apply_core_b : ran (.apply 1 0 0xEC) { base with psgB := { PsgB.reset Config.vc with lfsr := 1 } }
    (fun t => (t.psgB.nreg, t.psgB.lfsr)) = some (4, 0x4000) := by decide

/-- PA-8: every gate open, 3 * 42 = 126. -/
theorem test_tick_core_a : ran (.tick 0) { base with psgA := { PsgA.reset with
      ra := ⟨0, 0, 0, 0, 0, 0, 0, 0x3F, 15, 15, 15, 0, 0, 0, 0, 0⟩ } } (codesA 0 1) = some [253] := by decide

/-- SP-4, its first tick: a pulse of 62. -/
theorem test_tick_core_s : ran (.tick 2) speaking
    (fun t => (memRead (chanOf t .S).buf 0, t.speech.rpt, t.speech.cnt, t.speech.ms)) = some (189, 2, 3, 4) := by
  decide

/-- SP-2. -/
theorem test_load_address_ignored : ran (.loadAddress 5) speaking (fun t => t.speech.pending) = some (some 0) := by
  decide

/-- R351. -/
theorem test_load_address_taken : ran (.loadAddress 5) base (fun t => t.speech.pending) = some (some 5) := by decide

/-- SP-11: a jump to itself uses up the fuel of 64. -/
theorem test_run_micro_runaway : ran .runMicro (State.resetOf { Config.vc with
      rom := [0x02, 0x00], micro := [(0, ⟨[0, 1], 0, .cont⟩)] }) (fun t => t.fault) = some (some (.microRunaway 0)) := by
  decide

/-- SP-12. -/
theorem test_run_micro_rom_range : ran .runMicro (State.resetOf { Config.vc with
      rom := [0x02, 0x09], micro := [(0, ⟨[0, 1], 9, .cont⟩), (9, ⟨[9], 10, .halt⟩)] }) (fun t => (t.fault, t.speech.ms)) =
    some (some (.romRange 9), 9) := by decide

/-- SP-15. -/
theorem test_filter_update_silent : ran (.filterUpdate 3) base
    (fun t => ((chanOf t .S).head, (chanOf t .S).buf, t.speech)) = some (3, [], Speech.reset) := by decide

/-- MX-18, its first UPDATE: no holdoff, so the source plays. -/
theorem test_mix_source_plays : ran (.mixSource 0) (registered { source .A true false with
      blocks := [⟨[(0, 169), (1, 169), (2, 85), (3, 85)], 4⟩, ⟨[], 0⟩], clean := [1], dirty := [0] })
    (fun t => (t.macc, (sourceAt t 0).map fun d => (d.st, d.clean, d.dirty))) =
    some ([42, 42, -42, -42], some (.playing, [1, 0], [])) := by decide

/-- MX-18: `starveLimit` = 2. -/
theorem test_mix_source_starves : ran (.mixSource 0) (registered { source .A true false with st := .playing, starve := 1 })
    (fun t => (sourceAt t 0).map fun d => (d.st, d.starve)) = some (some (.quiescent, 2)) := by decide

/-- MX-7. -/
theorem test_emit_scales : ran .emit { base with macc := [50, -300, 300, 0], vol := 50 } (fun t => (t.out, t.macc)) =
    some ([[152, 0, 254, 127]], [0, 0, 0, 0]) := by decide

/-- MX-9. -/
theorem test_emit_truncates : ran .emit { base with macc := [1, -1, 199, -199], vol := 1 } (fun t => t.out) =
    some [[127, 127, 128, 126]] := by decide

/-- R250, R253 to R259: the bits each row stores of 0xFF. -/
theorem test_core_a_rows : (List.finRange 16).map (fun n => ran (aregRow n 0xFF) base (fun t => (t.psgA.ra.get n).toNat)) =
    [0xFF, 0x0F, 0xFF, 0x0F, 0xFF, 0x0F, 0x1F, 0xFF, 0x1F, 0x1F, 0x1F, 0xFF, 0xFF, 0x0F, 0xFF, 0xFF].map some := by
  decide

/-- R268: a write to register 13 alone restarts the envelope. -/
theorem test_core_a_restart : ran (.r13 0xF4) base (fun t => (t.psgA.envStep, t.psgA.envDir, t.psgA.envHold)) =
      some (0, 0, false) ∧
    ran (.r12 0xF4) base (fun t => (t.psgA.envStep, t.psgA.envDir, t.psgA.envHold)) = some (15, 15, true) := by
  decide

/-- PB-1, PB-2, PB-3, R304, R305: what each tone and attenuation row sets. -/
theorem test_core_b_rows : ran (.latch0 14) base (fun t => (t.psgB.per.c0, t.psgB.latch)) = some (14, 0) ∧
    ran (.latch2 5) base (fun t => (t.psgB.per.c1, t.psgB.latch)) = some (5, 2) ∧
    ran (.latch4 9) base (fun t => (t.psgB.per.c2, t.psgB.latch)) = some (9, 4) ∧
    ran (.latch1 3) base (fun t => (t.psgB.att.c0, t.psgB.latch)) = some (3, 1) ∧
    ran (.latch3 3) base (fun t => (t.psgB.att.c1, t.psgB.latch)) = some (3, 3) ∧
    ran (.latch5 3) base (fun t => (t.psgB.att.c2, t.psgB.latch)) = some (3, 5) ∧
    ran (.latch7 3) base (fun t => (t.psgB.att.c3, t.psgB.latch)) = some (3, 7) := by decide

/-- PB-5. -/
theorem test_core_b_noise_row : ran (.latch6 0b1100) { base with psgB := { PsgB.reset Config.vc with lfsr := 1 } }
    (fun t => (t.psgB.nreg, t.psgB.lfsr, t.psgB.latch)) = some (4, 0x4000, 6) := by decide

/-- PB-1 and PB-4: the second byte. -/
theorem test_data : ran (.data 15) { base with psgB := { PsgB.reset Config.vc with per := ⟨14, 0, 0⟩ } }
      (fun t => t.psgB.per.c0) = some 254 ∧
    ran (.data 0x3A) { base with psgB := { PsgB.reset Config.vc with latch := 1 } } (fun t => t.psgB.att.c0) = some 10 := by
  decide

/-- R144, R351. -/
theorem test_load : ran (.load 7) base (fun t => (t.speech.pending, t.replies)) = some (some 7, []) := by decide

/-- SP-4: the first instruction loads its frame; SP-3: the last halts. -/
theorem test_micro : ran .micro (State.resetOf speechRom) (fun t => (t.speech.rpt, t.speech.amp, t.speech.ms)) =
      some (3, 3968, 4) ∧
    ran .micro { State.resetOf speechRom with speech := { Speech.reset with ms := 4, halted := false } }
      (fun t => (t.speech.halted, t.speech.ms)) = some (true, 5) := by decide

/-- FLT-1, its third input: the direct and the delayed sections. -/
theorem test_lattice : (lattice Config.vc { Speech.reset with
      f := ⟨256, 0, 0, 0, 0, 0⟩, b := ⟨BitVec.ofInt 10 (-256), 0, 0, 0, 0, 0⟩,
      z0 := ⟨1000, 0, 0, 0, 0, 0⟩, z1 := ⟨1000, 0, 0, 0, 0, 0⟩ } 0).1 = 500 := by decide

/-- PA-11 and SP-10: the first step of the two noise registers. -/
theorem test_noise_registers : lfsrStepA 1 = 0x10000 ∧ rngStep Config.vc 1 = 0x4001 := by decide

/-! ### Witnesses: states and operands that meet each statement's hypotheses, clause by clause -/

/-- A state with one UPDATE word to come. -/
def issuing : State := base.withFetchWord 8 0x09

/-- Core A's source holds S, without and with a clean block. -/
def heldOn (d : Source) : State := { registered d with holdS := some 0 }

/-- The blocks of `d` are all dirty. -/
def allDirty (d : Source) : Source := { d with clean := [], dirty := [0, 1] }

/-- A block of VC's size, full of level 42. -/
def fullBlock : Block := ⟨[(0, 169), (1, 169), (2, 169), (3, 169)], 4⟩

/-- A source with one full dirty block. -/
def dirtySource (st : SrcState) (hold : Nat) : Source :=
  { source .A true false with
    st := st, holdoffCnt := hold, blocks := [fullBlock, ⟨[], 0⟩], clean := [1], dirty := [0] }

theorem base_running : Running base := rfl

theorem base_free : Free base := ⟨rfl, rfl⟩

theorem vc_tablesFit : TablesFit Config.vc := by
  unfold TablesFit
  decide

theorem test_witness_ResetGivesTheResetValues : (seedB { Config.vc with snLfsrWidth := 1 }).toNat = 2 ^ 0 ∧
    (seedB { Config.vc with snLfsrWidth := 16 }).toNat = 2 ^ 15 := by decide

theorem test_witness_ResetSetsTheConverters : (0 < Config.vc.dstRate ∧ 0 < chipClock Config.vc .A ∧
    0 < chipClock Config.vc .B ∧ 0 < chipClock Config.vc .S) ∧ Config.vc.dstRate = 22050 ∧ Config.vc.chipHzA = 2000000 := by
  decide

theorem test_witness_StepRunsTheIssuedInstruction :
    (Running issuing ∧ issuing.feed = [⟨⟨.cmd, 8, 9⟩, 0⟩] ∧ issuing.mSeq = [] ∧ decode ⟨.cmd, 8, 9⟩ = .instr .update) ∧
    (Running { issuing with mSeq := [.emit] } ∧ (⟨⟨.cmd, 8, 9⟩, 0⟩ : Issue).mFirst = 0) ∧
    decodeTableWord 8 9 = some .update := by
  refine ⟨⟨rfl, ?_, rfl, ?_⟩, ⟨rfl, rfl⟩, ?_⟩ <;> decide

theorem test_witness_StepOtherwise :
    (Running { base with mSeq := [.emit], feed := [⟨encode .resume, 1⟩] } ∧ 0 < (⟨encode .resume, 1⟩ : Issue).mFirst) ∧
    (Running { base with mSeq := [.emit] } ∧ { base with mSeq := [.emit] }.feed = []) ∧
    (base.feed = [] ∧ base.mSeq = []) ∧ decode ⟨.cmd, 8, 0x0B⟩ = .reject (.unknownOpcode 0x0B) ∧
    ((8 : Nat) ≤ 8 ∧ 0x0B < 2 ^ 8 ∧ 0x0B / 2 ^ (8 - 8) ∉ [0x09, 0x0A, 0x10]) ∧
    (takeFault (.protocolError 0) base).fault = some (.protocolError 0) := by
  refine ⟨⟨rfl, by decide⟩, ⟨rfl, rfl⟩, ⟨rfl, rfl⟩, by decide, by decide, rfl⟩

theorem test_witness_EncodeOfDecode : decode ⟨.bbyte, 8, 0x3F⟩ = .instr (.data 63) ∧
    decode ⟨.bbyte, 8, 0x7F⟩ = .instr (.data 63) ∧ (encode (.data 63)).word = 0x3F := by decide

/-- `issuing` has a step. -/
theorem issuing_steps : ∃ t, step issuing = .next t := ⟨_, rfl⟩

theorem test_witness_StepKeepsMemoryCanonical : MemoryCanonical issuing ∧ ∃ t, step issuing = .next t := by
  refine ⟨⟨fun c => by cases c <;> rfl, fun k d h => ?_⟩, issuing_steps⟩
  have : ∀ j, (issuing.reg[j]?).join = none
    | 0 => rfl
    | 1 => rfl
    | 2 => rfl
    | _ + 3 => rfl
  exact absurd ((this k).symm.trans h) (by simp)

theorem test_witness_StepKeepsRegisterRanges : RangesLegal issuing ∧ ∃ t, step issuing = .next t := by
  refine ⟨⟨by decide, by decide, by decide, by decide, by decide, fun c => ?_, ?_, ?_⟩, issuing_steps⟩
  · cases c <;> unfold ChannelLegal <;> decide
  · unfold PsgALegal
    decide
  · unfold PsgBLegal
    decide

/-- A state with a registered source and a word to come. -/
def issuingA : State := syncA.withFetchWord 8 0x09

theorem issuingA_source : ∀ k d, sourceAt issuingA k = some d → k = 0 ∧ d = source .A true false
  | 0, d, h => ⟨rfl, (Option.some.inj h).symm⟩
  | 1, _, h => by cases h
  | 2, _, h => by cases h
  | _ + 3, _, h => by cases h

theorem test_witness_StepKeepsRegistry : RegistryLegal issuingA ∧ ∃ t, step issuingA = .next t := by
  refine ⟨⟨by decide, by decide, fun k d h => ?_, fun c k h => ?_, fun k h => ?_, fun c _ => ?_⟩, ⟨_, rfl⟩⟩
  · obtain ⟨rfl, rfl⟩ := issuingA_source k d h
    refine ⟨rfl, rfl, ?_, ?_⟩
    · unfold PoolLegal
      exact ⟨by decide, by decide, by decide, fun b hb => by cases hb⟩
    · unfold PlayLegal
      decide
  · cases c
    · cases h
      exact ⟨_, rfl, rfl⟩
    · cases h
    · cases h
  · cases h
  · cases c <;> decide

theorem test_witness_StepKeepsDecayBounded : DecayBounded issuing ∧ ∃ t, step issuing = .next t :=
  ⟨fun c => by cases c <;> decide, issuing_steps⟩

/-- An UPDATE under way whose ITERATE comes to a horizon that goes back. -/
def late : State :=
  withChannel .A (fun x => { x with postedH := some 160, lastH := 161 }) { base with mSeq := [.iterate .A, .mix 0, .emit] }

theorem test_witness_FaultEndsTheRun : (takeFault (.protocolError 0) base).fault = some (.protocolError 0) ∧
    (∃ t, exec (.putSample 0 40000) base = .next t ∧ t.fault ≠ none) ∧
    (∃ t, mixerStep late = .next t ∧ t.fault ≠ none) ∧ ∃ t, step late = .next t ∧ t.fault ≠ none :=
  ⟨rfl, ⟨takeFault (.levelRange .A 40000) base, by rfl, by decide⟩, ⟨_, rfl, by decide⟩, _, rfl, by decide⟩

theorem test_witness_HeldAgentOnlyResumes :
    ((heldOn (allDirty (source .A true true))).fault = none ∧ (heldOn (allDirty (source .A true true))).holdS = some 0 ∧
      sourceAt (heldOn (allDirty (source .A true true))) 0 = some (allDirty (source .A true true)) ∧
      (allDirty (source .A true true)).clean = []) ∧
    (heldOn (source .A true true)).holdS = some 0 ∧
      sourceAt (heldOn (source .A true true)) 0 = some (source .A true true) ∧ (source .A true true).clean ≠ [] :=
  ⟨⟨rfl, rfl, rfl, rfl⟩, rfl, rfl, by decide⟩

theorem test_witness_MixerNeverHolds : (∃ t, mixerStep { base with mSeq := [.emit] } = .next t) ∧
    ∃ t, exec .update base = .next t := ⟨⟨_, rfl⟩, ⟨_, rfl⟩⟩

theorem test_witness_IgnoredCommandsChangeNothing : Free base ∧ ¬ AddressValid .A 16 ∧ ¬ AddressValid .B 1 ∧
    ¬ AddressValid .S 1 ∧ (chanOf (withChannel .B leaveSource base) .B).attached = false ∧ syncOf base .A = false ∧
    (chanOf syncA .A).handle ≠ none ∧ sourceAt base (0 : Byte).toNat = none ∧ sourceAt base (255 : Byte).toNat = none ∧
    100 < (101 : Byte).toNat :=
  ⟨base_free, by unfold AddressValid; decide, by unfold AddressValid; decide, by unfold AddressValid; decide, rfl, rfl,
    by decide, rfl, rfl, by decide⟩

theorem test_witness_WriteFollowsItsRule : Free base ∧
    ((chanOf base .A).attached = true ∧ AddressValid .A 15 ∧ AddressValid .B 0 ∧ ¬ AddressValid .A 16 ∧
      (chanOf base .A).q.length < Config.vc.queueCap ∧ (chanOf base .A).lastTs ≤ (0 : BitVec 64).toNat) ∧
    (40 : BitVec 64).toNat < (chanOf (withChannel .A (fun x => { x with lastTs := 41 }) base) .A).lastTs ∧
    Config.vc.queueCap ≤ (chanOf (withChannel .A (fun x => { x with q := List.replicate 16 ⟨0, 0, 0⟩ }) base) .A).q.length :=
  ⟨base_free, ⟨rfl, by unfold AddressValid; decide, by unfold AddressValid; decide, by unfold AddressValid; decide,
    by decide, by decide⟩, by decide, by decide⟩

theorem test_witness_AdvanceFollowsItsRule : Free base ∧
    (Free (withChannel .A leaveSource base) ∧ (chanOf (withChannel .A leaveSource base) .A).attached = false ∧
      (chanOf (withChannel .A leaveSource base) .A).lastH ≤ (0 : BitVec 64).toNat) ∧
    (0 : BitVec 64).toNat < (chanOf (withChannel .A (fun x => { x with attached := false, lastH := 1 }) base) .A).lastH ∧
    ((chanOf syncA .A).attached = true ∧ ∃ k d, (chanOf syncA .A).handle = some k ∧ sourceAt syncA k = some d ∧ d.sync = true) ∧
    (syncOf base .A = false ∧ (chanOf base .A).postedH = none) ∧
    ((chanOf (withChannel .A (fun x => { x with postedH := some 5000 }) base) .A).postedH = some 5000 ∧
      (4999 : BitVec 64).toNat < 5000 ∧ 5000 ≤ (5000 : BitVec 64).toNat) :=
  ⟨base_free, ⟨⟨rfl, rfl⟩, rfl, by decide⟩, by decide, ⟨rfl, 0, _, rfl, rfl, rfl⟩, ⟨rfl, rfl⟩, rfl, by decide, by decide⟩

theorem test_witness_IterateNeverGoesBack : Running (withChannel .A (fun x => { x with lastH := 1 }) base) ∧
    (0 : BitVec 64).toNat < (chanOf (withChannel .A (fun x => { x with lastH := 1 }) base) .A).lastH := ⟨rfl, by decide⟩

theorem test_witness_IterateOfCoreA : Running base ∧ TablesFit base.cfg ∧
    (chanOf base .A).lastH ≤ (0 : BitVec 64).toNat ∧ (chanOf base .A).lastH ≤ (160 : BitVec 64).toNat :=
  ⟨rfl, vc_tablesFit, by decide, by decide⟩

theorem test_witness_IterateOfCoreB : Running base ∧ TablesFit base.cfg ∧
    (chanOf base .B).lastH ≤ (0 : BitVec 64).toNat ∧ (chanOf base .B).lastH ≤ (160 : BitVec 64).toNat :=
  ⟨rfl, vc_tablesFit, by decide, by decide⟩

theorem test_witness_IterateOfCoreS : Running speaking ∧ (chanOf speaking .S).lastH ≤ (0 : BitVec 64).toNat ∧
    (chanOf speaking .S).lastH ≤ (800 : BitVec 64).toNat := ⟨rfl, by decide, by decide⟩

theorem test_witness_CycleToTickConversionIsExact : 0 < base.cpuHz * tickDen base .A ∧
    ((chanOf base .A).lastH :: [7, 23] ++ [24]).Pairwise (· ≤ ·) ∧ (chanOf base .A).cycAcc = 0 :=
  ⟨by decide, by decide, rfl⟩

theorem test_witness_ApplyIsTheRegisterWrite : Running base ∧ (0x8E : Byte).getLsbD 7 = true ∧
    (0x7F : Byte).getLsbD 7 = false := ⟨rfl, by decide, by decide⟩

theorem test_witness_ResumeContinuesTheGeneration : Free base ∧ Running (heldOn (source .A true true)) ∧
    TablesFit (heldOn (source .A true true)).cfg ∧ (heldOn (source .A true true)).holdS = some 0 ∧
    sourceAt (heldOn (source .A true true)) 0 = some (source .A true true) ∧ (source .A true true).clean ≠ [] ∧
    (source .A true true).core ≠ .S ∧
    (Running (heldOn (source .S true true)) ∧ (heldOn (source .S true true)).holdS = some 0 ∧
      sourceAt (heldOn (source .S true true)) 0 = some (source .S true true) ∧ (source .S true true).clean ≠ []) :=
  ⟨base_free, rfl, vc_tablesFit, rfl, rfl, by decide, by decide, rfl, rfl, rfl, by decide⟩

theorem test_witness_ClockFollowsItsRule : Free syncA ∧ syncA.cfg.wf = true ∧ (1 : BitVec 32) ≠ 0 ∧
    syncOf syncA .A = true ∧ syncOf syncA .B = false := ⟨⟨rfl, rfl⟩, by decide, by decide, rfl, rfl⟩

theorem test_witness_PutSampleStoresOneCode : Running base ∧ (chanOf base .A).buf.wf = true ∧
    (32767 < (32768 : BitVec 32).toInt ∧ (BitVec.ofInt 32 (-32769)).toInt < -32768) ∧
    (0 < spaceRemaining base.cfg (chanOf base .A) ∧ (BitVec.ofInt 32 (-32768)).toInt = -32768) ∧
    spaceRemaining (ringOf 2).cfg (chanOf (withChannel .A (fun x => { x with head := 3 }) (ringOf 2)) .A) = 0 :=
  ⟨rfl, rfl, by decide, by decide, by decide⟩

theorem test_witness_RingCounts : Running base ∧ ∃ t, exec (.putSample (coreField .A) 0) base = .next t ∧ t.fault = none :=
  ⟨rfl, _, rfl, rfl⟩

theorem test_witness_ConfigureRateReducesTheRatio : Running base ∧ (1 : BitVec 48) ≠ 0 ∧ BitVec.allOnes 48 ≠ 0 :=
  ⟨rfl, by decide, by decide⟩

/-- RB-16 and RB-21 meet the two clauses, the first at its least `k`. -/
theorem test_witness_DrainTakesTheCodesItNeeds :
    (Running (ringed 1 2 [(0, 130), (1, 140)] 2) ∧ samplesAvailable Config.vc (chanOf (ringed 1 2 [(0, 130), (1, 140)] 2) .A) = 2 ∧
      0 < 2 ^ Config.vc.ringBits ∧ 2 ≤ 0 + 2 * 1 ∧ ∀ j < 2, 0 + j * 1 < 2) ∧
    samplesAvailable Config.vc (chanOf (ringed 1 2 [(0, 150)] 1) .A) = 1 ∧ 0 + 1 * 1 < 2 :=
  ⟨⟨rfl, by decide, by decide, by decide, by decide⟩, by decide, by decide⟩

theorem test_witness_DrainCountLaw : 0 < (chanOf base .A).limit := by decide

theorem test_witness_LoopBoundsCutNothing : 0 < (chanOf base .A).limit ∧ pumpBound base.cfg (chanOf base .A) ≤ 0 ∧
    0 + 1 ≤ 1 ∧ 0 + 2 ≤ 2 := ⟨by decide, by decide, by decide, by decide⟩

theorem test_witness_GetWorkBufferFollowsItsRule :
    (Running syncA ∧ sourceAt syncA (0 : Byte).toNat = some (source .A true false) ∧ (source .A true false).current = none ∧
      (source .A true false).clean = [0, 1] ∧ (source .A true false).blocks[0]? = some ⟨[], 0⟩) ∧
    ({ source .A true false with current := some 0 } : Source).current ≠ none ∧
    ((allDirty (source .A true true)).clean = [] ∧ (allDirty (source .A true true)).blocking = true ∧
      (allDirty (source .A true true)).sync = true) ∧
    (allDirty (source .A true false)).blocking = false :=
  ⟨⟨rfl, rfl, rfl, by decide, rfl⟩, by decide, ⟨rfl, rfl, rfl⟩, rfl⟩

theorem test_witness_PutWorkBufferFollowsItsRule : Running syncA ∧ sourceAt syncA (0 : Byte).toNat = some (source .A true false) ∧
    (source .A true false).current = none ∧ ({ source .A true false with current := some 0 } : Source).current = some 0 :=
  ⟨rfl, rfl, rfl, rfl⟩

/-- Core A's source with a current block of one code. -/
def filling : Source :=
  { source .A true false with blocks := [⟨[(0, 169)], 1⟩, ⟨[], 0⟩], clean := [1], current := some 0, newSamples := 1 }

theorem test_witness_FrameFollowsItsRule : Free (registered filling) ∧ (chanOf (registered filling) .A).attached = true ∧
    (chanOf (registered filling) .A).handle = some 0 ∧ sourceAt (registered filling) 0 = some filling ∧
    filling.sync = true ∧ filling.current = some 0 ∧ filling.blocks[0]? = some ⟨[(0, 169)], 1⟩ ∧
    (source .A true false).current = none ∧ syncOf base .A = false :=
  ⟨⟨rfl, rfl⟩, rfl, rfl, rfl, rfl, rfl, rfl, rfl, rfl⟩

theorem test_witness_RegisterFollowsItsRule : (Free base ∧ base.cfg.wf = true ∧ 0 < base.cpuHz) ∧
    ((chanOf base .A).handle = none ∧ 0 < base.reg.length ∧ sourceAt base 0 = none) ∧
    (chanOf syncA .A).handle ≠ none ∧
    ((chanOf syncA .B).handle = none ∧ 1 < syncA.reg.length ∧ sourceAt syncA 1 = none ∧ ∀ j < 1, sourceAt syncA j ≠ none) ∧
    ((chanOf { syncA with reg := [some (source .A true false)] } .B).handle = none ∧
      ∀ k < 1, sourceAt { syncA with reg := [some (source .A true false)] } k ≠ none) :=
  ⟨⟨base_free, by decide, by decide⟩, ⟨rfl, by decide, rfl⟩, by decide, ⟨rfl, by decide, rfl, by decide⟩, rfl,
    by decide⟩

theorem test_witness_DeregisterFollowsItsRule : Free syncA ∧ sourceAt syncA (0 : Byte).toNat = some (source .A true false) ∧
    sourceAt syncA (1 : Byte).toNat = none := ⟨⟨rfl, rfl⟩, rfl, rfl⟩

theorem test_witness_SlotsChangeAtRegistrationOnly : (∃ t, exec .emit syncA = .next t) ∧
    ∃ t, mixerStep { syncA with mSeq := [.emit] } = .next t := ⟨⟨_, rfl⟩, ⟨_, rfl⟩⟩

/-- Core A asynchronous with a posted horizon and its step of an UPDATE to come. -/
def posted : State := withChannel .A (fun x => { x with postedH := some 160 }) { base with mSeq := [.iterate .A, .mix 0, .emit] }

theorem test_witness_UpdateIsASequenceOfSteps : Running posted ∧ posted.mSeq = .iterate .A :: [.mix 0, .emit] ∧
    (chanOf posted .A).attached = true ∧ syncOf posted .A = false ∧ (chanOf posted .A).postedH = some 160 ∧
    (∃ r t, iterate .A 160 { posted with mSeq := [.mix 0, .emit] } = .done r t) ∧
    (∃ f t, iterate .A 160 (withChannel .A (fun x => { x with lastH := 161 }) posted) = .raised f t) ∧
    (chanOf base .A).postedH = none ∧
    { base with mSeq := [.mix 0, .emit] }.mSeq = .mix (0 : Byte).toNat :: [.emit] ∧
    { base with mSeq := [.emit] }.mSeq = .emit :: [] :=
  ⟨rfl, rfl, rfl, rfl, rfl, ⟨_, _, rfl⟩, ⟨_, _, rfl⟩, rfl, rfl, rfl⟩

theorem test_witness_UpdateDeliversOneBlock : Running base ∧ base.mSeq = [] ∧ base.feed = [] ∧
    ∃ u, exec .update base = .next u := ⟨rfl, rfl, rfl, ⟨_, rfl⟩⟩

theorem test_witness_MixSourceFollowsItsRule :
    (sourceAt syncA (0 : Byte).toNat = some (source .A true false) ∧ (source .A true false).st = .quiescent ∧
      (source .A true false).dirty = []) ∧
    ({ source .A true false with st := .playing } : Source).st ≠ .quiescent ∧
    (sourceAt (registered (dirtySource .buffering 4)) (0 : Byte).toNat = some (dirtySource .buffering 4) ∧
      (dirtySource .buffering 4).dirty = 0 :: [] ∧ (dirtySource .buffering 4).blocks[0]? = some fullBlock ∧
      fullBlock.fill ≤ (registered (dirtySource .buffering 4)).macc.length) ∧
    (dirtySource .quiescent 0).dirty ≠ [] ∧ sourceAt syncA (3 : Byte).toNat = none :=
  ⟨⟨rfl, rfl, rfl⟩, by decide, ⟨rfl, rfl, rfl, by decide⟩, by decide, rfl⟩

theorem test_witness_MasterControls : Free base ∧ 100 < (101 : Byte).toNat ∧ (100 : Byte).toNat ≤ 100 :=
  ⟨base_free, by decide, by decide⟩

theorem test_witness_TickOfCoreA : Running base ∧ TablesFit base.cfg ∧ (chanOf base .A).buf.wf = true ∧
    0 < spaceRemaining base.cfg (chanOf base .A) ∧ (∀ ch, 1 ≤ base.psgA.toneCnt.get ch) ∧ 1 ≤ base.psgA.noiseCnt ∧
    1 ≤ base.psgA.envCnt := ⟨rfl, vc_tablesFit, rfl, by decide, by decide, by decide, by decide⟩

theorem test_witness_NoiseRegisterAPeriod : (1 : BitVec 17) ≠ 0 ∧ 0 < 131070 ∧ 131070 < 131071 := by decide

theorem test_witness_CoreBRegisterWrites : Running base ∧ base.psgB.latch.toNat = 2 * (0 : Fin 3).val ∧
    (5 : BitVec 3).toNat = 2 * (2 : Fin 4).val + 1 ∧ (7 : BitVec 3).toNat = 2 * (3 : Fin 4).val + 1 ∧
    (4 : Fin 8).val = 2 * (2 : Fin 3).val := ⟨rfl, by decide, by decide, by decide, by decide⟩

theorem test_witness_TickOfCoreB : Running base ∧ TablesFit base.cfg ∧ (chanOf base .B).buf.wf = true ∧
    0 < spaceRemaining base.cfg (chanOf base .B) ∧ (∀ ch, 1 ≤ base.psgB.toneCnt.get ch) ∧ 1 ≤ base.psgB.noiseCnt :=
  ⟨rfl, vc_tablesFit, rfl, by decide, by decide, by decide⟩

theorem test_witness_NoiseRegisterB : Config.vc.snTaps.getLsbD 0 = true ∧ 1 ≤ Config.vc.snLfsrWidth ∧
    Config.vc.snLfsrWidth ≤ 16 ∧ (0x7FFF : BitVec 16) ≠ 0 ∧ (0x7FFF : BitVec 16).toNat < 2 ^ Config.vc.snLfsrWidth := by
  decide

theorem test_witness_LoadAddressFollowsItsRule : Running base ∧ base.speech.pending = none ∧ Running speaking ∧
    speaking.speech.pending ≠ none := ⟨rfl, rfl, rfl, by decide⟩

/-- The second instruction of SP-12's ROM reads address 9. -/
def farRead : MicroInstr := ⟨[0, 9], 1, .cont⟩

theorem test_witness_MicroInstructionFollowsItsRule :
    (Running (State.resetOf speechRom) ∧
      microInstr speechRom 4 = ⟨[4], 5, .halt⟩ ∧ ReadsInRom speechRom ⟨[4], 5, .halt⟩) ∧
    (∃ fr, (microInstr speechRom 0).out = .frame fr ∧ ReadsInRom speechRom (microInstr speechRom 0)) ∧
    (farRead.reads = [0] ++ 9 :: [] ∧ (∀ r ∈ [0], r < speechRom.rom.length) ∧ speechRom.rom.length ≤ 9) ∧
    farRead.out = .cont := by
  refine ⟨⟨rfl, by decide, ?_⟩, ⟨_, rfl, ?_⟩, ⟨rfl, by decide, by decide⟩, rfl⟩ <;>
    unfold ReadsInRom <;> decide

/-- A microcontroller that goes on from 0 to 4, where it halts. -/
def twoSteps : Config := { speechRom with micro := [(0, ⟨[0], 4, .cont⟩), (4, ⟨[4], 5, .halt⟩)], microFuel := 2 }

theorem test_witness_RunMicroFollowsItsRule : ContinuesTo twoSteps 1 0 4 ∧ 1 < twoSteps.microFuel ∧
    (microInstr twoSteps 4).out = .halt ∧ ReadsInRom twoSteps (microInstr twoSteps 4) ∧
    ContinuesTo { twoSteps with microFuel := 1 } 1 0 4 ∧ 1 = { twoSteps with microFuel := 1 }.microFuel := by
  have h : ∀ a ∈ ([0] : List Nat), a < 5 := by decide
  refine ⟨⟨h, rfl, rfl⟩, by decide, rfl, ?_, ⟨h, rfl, rfl⟩, rfl⟩
  unfold ReadsInRom
  decide

theorem test_witness_ExciteFollowsItsRule : (3 : Byte) ≠ 0 ∧ (0 : Int) < 1 ∧ (0 : Int) ≤ 0 ∧ (1 : Int) < 2 ∧ (1 : Int) ≤ 1 := by
  decide

/-- Core S after the frame at address 0 has been loaded. -/
def framed : Speech :=
  { Speech.reset with halted := false, ms := 4, rpt := 3, per := 3, ampRaw := 0xFF, amp := 3968 }

theorem speaking_ticks : ∃ level q, TickRun speechRom 64 speaking.speech level q := by
  refine ⟨_, _, .start (a := 0) (by decide) rfl rfl (TickRun.frame (left := 63) (n := 0) (by decide) rfl rfl ?_ rfl
    (.output (by decide) (by decide) rfl))⟩
  unfold ReadsInRom
  decide

/-- A microcontroller that reads outside its ROM at once. -/
def stray : Config := { speechRom with micro := [(0, ⟨[9], 0, .cont⟩)] }

theorem stray_never_ticks (left : Nat) (level : Int) (q : Speech) :
    ¬ TickRun stray left { Speech.reset with halted := false } level q := by
  have hr : ¬ ReadsInRom stray (microInstr stray 0) := fun h => absurd (h 9 (by decide)) (by decide)
  have hc : ∀ n ms, ContinuesTo stray n 0 ms → ReadsInRom stray (microInstr stray ms) → False := by
    intro n ms h hm
    cases n with
    | zero => cases h; exact hr hm
    | succ n => exact hr h.1
  intro h
  cases h with
  | silent _ hh _ => cases hh
  | output h _ _ => exact absurd h (by decide)
  | expired h _ _ => exact absurd h (by decide)
  | start _ hh _ _ => cases hh
  | frame _ _ h hm _ _ => exact hc _ _ h hm
  | halt _ _ h hm _ _ => exact hc _ _ h hm

theorem test_witness_TickOfCoreS : Running base ∧ (chanOf base .S).buf.wf = true ∧
    0 < spaceRemaining base.cfg (chanOf base .S) ∧ base.speech.rpt ≤ 0 ∧ base.speech.halted = true ∧
    base.speech.pending = none ∧
    0 < (excite Config.vc { Speech.reset with rpt := 2, per := 3, amp := 3968 }).2.rpt ∧
    (Running speaking ∧ speaking.speech.rpt ≤ 0 ∧ speaking.speech.halted = true ∧ speaking.speech.pending = some 0 ∧
      ContinuesTo speechRom 0 (entryState speechRom 0) 0 ∧ 0 < speechRom.microFuel ∧
      ReadsInRom speechRom (microInstr speechRom 0) ∧
      (∃ fr, (microInstr speechRom 0).out = .frame fr ∧ loadFrame speechRom { Speech.reset with halted := false, ms := 4 } fr =
        framed) ∧ 0 < framed.rpt ∧ 0 < (excite speechRom framed).2.rpt) ∧
    (0 < { framed with rpt := 1 }.rpt ∧ (excite speechRom { framed with rpt := 1 }).2.rpt ≤ 0) ∧
    (∃ level q, TickRun speechRom speechRom.microFuel speaking.speech level q) ∧
    ∀ level q, ¬ TickRun stray stray.microFuel { Speech.reset with halted := false } level q := by
  refine ⟨rfl, rfl, by decide, by decide, rfl, rfl, by decide, ⟨rfl, by decide, rfl, rfl, rfl, by decide, ?_,
    ⟨_, rfl, by decide⟩, by decide, by decide⟩, by decide, speaking_ticks, fun _ _ => stray_never_ticks _ _ _⟩
  unfold ReadsInRom
  decide

theorem test_witness_ImmediateHaltIsSilent : Running { State.resetOf { twoSteps with entry := [(0, 4)] } with
      speech := { Speech.reset with pending := some 0 } } ∧
    entryState { twoSteps with entry := [(0, 4)] } 0 = 4 ∧ 0 < twoSteps.microFuel ∧
    (microInstr { twoSteps with entry := [(0, 4)] } 4).out = .halt :=
  ⟨rfl, by decide, by decide, by decide⟩

theorem test_witness_FilterUpdateIsRepeatedTicks : Running base ∧
    (∃ t, exec (.tick 2) base = .next t ∧ t.fault = none) ∧
    (∃ t, exec (.tick 2) (withChannel .S (fun x => { x with head := 3 }) (ringOf 2)) = .next t ∧ t.fault ≠ none) ∧
    (255 : BitVec 32).toNat ≤ spaceRemaining base.cfg (chanOf base .S) ∧ (chanOf base .S).tau = 0 ∧
    (chanOf base .S).head < 2 ^ base.cfg.ringBits :=
  ⟨rfl, ⟨_, rfl, rfl⟩, ⟨_, rfl, by decide⟩, by decide, rfl, by decide⟩

/-- Core A with two codes in its ring, the identity ratio and the source `d` in slot 0. -/
def pumping (d : Source) : State :=
  withSlot (withChannel .A (fun x => { x with handle := some 0 }) (ringed 1 1 [(0, 130), (1, 140)] 2)) 0 (some d)

theorem test_witness_PumpMovesConvertedSamples :
    (0 < (chanOf base .A).limit ∧ (chanOf base .A).index + samplesAvailable Config.vc (chanOf base .A) * 441 < 2500 ∧
      (chanOf base .A).limit = 2500 ∧ (chanOf base .A).increment = 441) ∧
    (1 ≤ 0 + samplesAvailable Config.vc (chanOf (ringed 1 1 [(0, 130), (1, 140)] 2) .A) * 1 ∧
      (chanOf (ringed 1 1 [(0, 130), (1, 140)] 2) .A).handle = none) ∧
    ((chanOf (pumping filling) .A).handle = some 0 ∧ sourceAt (pumping filling) 0 = some filling ∧
      filling.current = some 0 ∧ filling.blocks[0]? = some ⟨[(0, 169)], 1⟩ ∧
      Memory.wf [(0, 169)] = true ∧ 1 < Config.vc.blockLen ∧
      (∃ y, drains Config.vc 2 (chanOf (pumping filling) .A) = ([130, 140].map some, y)) ∧
      1 + 2 ≤ Config.vc.blockLen) ∧
    ((allDirty (source .A true true)).current = none ∧ (allDirty (source .A true true)).clean = [] ∧
      (allDirty (source .A true true)).blocking = true ∧ (allDirty (source .A true false)).blocking = false ∧
      (source .A true true).clean = 0 :: [1] ∧ (source .A true true).blocks[0]? = some ⟨[], 0⟩) ∧
    (Running (pumping filling) ∧ (0 : BitVec 64).toNat = (chanOf (pumping filling) .A).lastH ∧
      (chanOf (pumping filling) .A).debt = 0 ∧
      (chanOf (pumping filling) .A).cycAcc < (pumping filling).cpuHz * tickDen (pumping filling) .A ∧
      (chanOf (pumping filling) .A).q = [] ∧ ∃ st t, pump .A (pumping filling) = .done st t) :=
  ⟨by decide, by decide, ⟨rfl, rfl, rfl, rfl, by decide, by decide, ⟨_, rfl⟩, by decide⟩, by decide,
    rfl, by decide, rfl, by decide, rfl, _, _, rfl⟩

/-- The example of R216: an ITERATE with nothing else to do puts the codes of the ring into the current block. -/
theorem test_iterate_pumps : ran (.iterate 0 0) (pumping filling) (fun t => (samplesAvailable t.cfg (chanOf t .A),
    (sourceAt t 0).map (fun d => (d.newSamples, d.blocks.map Block.fill, (d.blocks.map fun b => memRead b.data 2))))) =
    some (0, some (3, [3, 0], [140, 127])) := by decide

end Sys2Proof.Tests
end

section
/-! No operation of the block writes its configuration (00_scope.md R11): one frame lemma per operation that `Change` names
by the whole operation, then every change, then every step. -/

namespace Sys2Proof.Proofs.Configuration

open Sys2Proof.Machine Sys2Proof.Laws

/-! ### What each operation leaves of the configuration -/

@[simp] theorem drain_cfg (c : CoreId) (s : State) : (drain c s).2.cfg = s.cfg := rfl

@[simp] theorem applyTo_cfg (c : CoreId) (addr : Nat) (val : Byte) (s : State) : (applyTo c addr val s).cfg = s.cfg := by
  cases c <;> rfl

@[simp] theorem getWorkBuffer_cfg (k : Nat) (s : State) : (getWorkBuffer k s).2.cfg = s.cfg := by
  rcases getWorkBuffer_cases k s with ⟨same, -⟩ | ⟨_, -, -, -, -, -, holds⟩ | ⟨_, _, _, -, -, -, takes⟩
  · rw [same]
  · rw [holds]
  · rw [takes, withSlot_cfg]

theorem putWorkBuffer_cfg {k : Nat} {s t : State} (h : putWorkBuffer k s = .done () t) : t.cfg = s.cfg := by
  obtain ⟨_, _, -, -, rfl⟩ := putWorkBuffer_cases h
  exact withSlot_cfg ..

theorem pumpSample_cfg {c : CoreId} {k b : Nat} {d : Source} {s t : State} (hs : sourceAt s k = some d)
    (hb : d.current = some b) (h : pumpSample c k b d s = .done () t) : t.cfg = s.cfg := by
  rw [pumpSample_eq c hs hb] at h
  cases h
  rw [withSlot_cfg, withChan_cfg]

@[simp] theorem register_cfg (c : CoreId) (sync blocking : Bool) (ms : Nat) (s : State) :
    (register c sync blocking ms s).2.cfg = s.cfg := by
  rcases register_cases c sync blocking ms s with ⟨-, ignored⟩ | ⟨-, -, full⟩ | ⟨_, -, -, -, -, joins⟩
  · rw [ignored]
  · rw [full]
  · rw [joins, withSlot_cfg, withChan_cfg, attachedState_cfg]

@[simp] theorem deregister_cfg (k : Nat) (s : State) : (deregister k s).2.cfg = s.cfg := by
  cases hs : sourceAt s k with
  | none => rw [deregister, hs]
  | some d => rw [deregister_eq hs, withSlot_cfg, withChan_cfg]

@[simp] theorem clock_cfg (hz : Nat) (s : State) : (clock hz s).2.cfg = s.cfg := by
  by_cases h : hz = 0
  · rw [clock, if_pos h]
  · rw [clock_eq hz s h]

@[simp] theorem mixSource_cfg (k : Nat) (s : State) : (mixSource k s).2.cfg = s.cfg := by
  cases hs : sourceAt s k with
  | none => simp only [mixSource, hs]
  | some d =>
    simp only [mixSource, hs]
    split
    · rfl
    · split <;> rfl

/-! ### Every change, every step -/

/-- Where a change is a whole operation its frame lemma says it; every other change updates named fields, and the
configuration is none of them. -/
theorem change_cfg {s t : State} (h : Change s t) : t.cfg = s.cfg := by
  cases h with
  | drain c => exact drain_cfg c s
  | get k => exact getWorkBuffer_cfg k s
  | put _ k put => exact putWorkBuffer_cfg put
  | pump _ c k b d _ hs hb pump => exact pumpSample_cfg hs hb pump
  | apply c addr val => exact applyTo_cfg c addr val s
  | register c sync blocking ms => exact register_cfg c sync blocking ms s
  | deregister k => exact deregister_cfg k s
  | clock hz => exact clock_cfg hz s
  | mix k => exact mixSource_cfg k s
  | _ => rfl

/-- Settles O13: "the configuration is the one the step began with" is kept by every change, so by every step. -/
theorem stepKeepsConfiguration : Obligations.StepKeepsConfiguration := by
  intro s t h
  exact step_keeps (P := fun u => u.cfg = s.cfg) (fun _ _ change kept => (change_cfg change).trans kept) h rfl

end Sys2Proof.Proofs.Configuration
end

section
/-! The changes of `Laws.Change`, taken apart into effects with an explicit target: an operation on a channel, on one
source, on a chip, on the mixer's accumulator. An invariant that each effect keeps is kept by every step. -/

namespace Sys2Proof.Proofs.StepEffects

open Sys2Proof.Machine Sys2Proof.Laws Sys2Proof.Safety

/-! ### The effects -/

/-- What one effect makes of core `c`'s channel in the state `s`. -/
inductive ChannelEffect (s : State) (c : CoreId) : Channel → Prop where
  /-- A level in range stored by PUT_SAMPLE (R200). -/
  | store (level : Int) (lo : -32768 ≤ level) (hi : level ≤ 32767) :
      ChannelEffect s c (storeLevel s.cfg (chanOf s c) level)
  /-- A converter set to a ratio in lowest terms (R210). -/
  | rate (dst src num den : Nat) (h : reducedRatio dst src = some (num, den)) :
      ChannelEffect s c (withRatio (chanOf s c) num den)
  /-- DRAIN (R213). -/
  | drain : ChannelEffect s c (drainChan s.cfg (chanOf s c)).2
  /-- A due write taken from the queue (R411). -/
  | due (e : QEntry) (rest : List QEntry) (h : (chanOf s c).q = e :: rest) :
      ChannelEffect s c { chanOf s c with q := rest }
  /-- A write queued (R401). -/
  | enqueue (e : QEntry) (cap : (chanOf s c).q.length < s.cfg.queueCap) (ord : (chanOf s c).lastTs ≤ e.ts) :
      ChannelEffect s c { chanOf s c with q := (chanOf s c).q ++ [e], lastTs := e.ts }
  /-- The timing accumulators moved; the tick fraction is kept, or what remains of some cycles below one tick (R411). -/
  | timing (lastH cycAcc debt : Nat) (postedH : Option Nat)
      (fraction : cycAcc = (chanOf s c).cycAcc ∨ ∃ acc, cycAcc = acc % (s.cpuHz * tickDen s c)) :
      ChannelEffect s c { chanOf s c with lastH := lastH, cycAcc := cycAcc, debt := debt, postedH := postedH }
  /-- A core without a source attached again (R465, R604). -/
  | attach (h : (chanOf s c).handle = none) :
      ChannelEffect s c
        { Channel.reset s.cfg c with lastH := (chanOf s c).lastH, lastTs := (chanOf s c).lastTs }

/-- What one effect makes of a registered source `d`. -/
inductive SourceEffect (cfg : Config) (d : Source) : Source → Prop where
  /-- The first clean block made current (R452). -/
  | get (b : Nat) (rest : List Nat) (idle : d.current = none) (clean : d.clean = b :: rest) :
      SourceEffect cfg d (withBlock { d with clean := rest, current := some b } b { blockOf d b with fill := 0 })
  /-- The current block queued (R455). -/
  | put (b : Nat) (cur : d.current = some b) : SourceEffect cfg d { d with dirty := d.dirty ++ [b], current := none }
  /-- A code put into the current block, which is not full then (R216). -/
  | fill (b : Nat) (v : Byte) (cur : d.current = some b) (room : (blockOf d b).fill + 1 ≠ cfg.blockLen) :
      SourceEffect cfg d (sourceFilled d b v)
  /-- The last code put into the current block, which is queued (R216, R455). -/
  | fillLast (b : Nat) (v : Byte) (cur : d.current = some b) (full : (blockOf d b).fill + 1 = cfg.blockLen) :
      SourceEffect cfg d { sourceFilled d b v with dirty := d.dirty ++ [b], current := none }
  /-- The sample count cleared (R458). -/
  | clearCount : SourceEffect cfg d { d with newSamples := 0 }
  /-- An update without a dirty block (R471). -/
  | starve (active : d.st ≠ .quiescent) : SourceEffect cfg d (starveSource cfg d)
  /-- The first dirty block mixed and returned, its codes counted off the holdoff (R471). -/
  | mixed (b : Nat) (rest : List Nat) (dirty : d.dirty = b :: rest) :
      SourceEffect cfg d
        (returnBlock (wakeSource cfg d) b rest ((wakeSource cfg d).holdoffCnt - (blockOf d b).fill))

/-- What one effect makes of core A's own state. -/
inductive PsgAEffect (a : PsgA) : PsgA → Prop where
  | write (addr : Fin 16) (val : Byte) : PsgAEffect a (writeRegA a addr val)
  | count : PsgAEffect a (advanceA a)
  | reset : PsgAEffect a PsgA.reset

/-- What one effect makes of core B's own state. -/
inductive PsgBEffect (cfg : Config) (b : PsgB) : PsgB → Prop where
  | latch (r : BitVec 3) (d : BitVec 4) : PsgBEffect cfg b (latchB cfg b r d)
  | data (d : BitVec 6) : PsgBEffect cfg b (dataB cfg b d)
  | count : PsgBEffect cfg b (advanceB cfg b)
  | reset : PsgBEffect cfg b (PsgB.reset cfg)

/-- A channel with its tick fraction turned from the clock `s.cpuHz` to `hz` (R425). -/
def scaledChannel (s : State) (hz : Nat) (c : CoreId) : Channel :=
  { chanOf s c with cycAcc := (chanOf s c).cycAcc * hz / s.cpuHz }

/-- The state with the CPU clock `hz`, the converters not yet set to it (R425). -/
def scaledClock (s : State) (hz : Nat) : State :=
  { s with cpuHz := hz, chans := ⟨scaledChannel s hz .A, scaledChannel s hz .B, scaledChannel s hz .S⟩ }

/-- The state in which core `c` has the source `d` in slot `k` (R465). -/
def joined (s : State) (c : CoreId) (k : Nat) (d : Source) : State :=
  withSlot (withChan s c (joinSource (chanOf s c) k)) k (some d)

/-- The state in which the source of core `c` has left slot `k` (R466). -/
def departed (s : State) (c : CoreId) (k : Nat) : State := withSlot (withChan s c (leaveSource (chanOf s c))) k none

/-- One effect on the state. -/
inductive Effect : State → State → Prop where
  | chan (s : State) (c : CoreId) (x : Channel) (h : ChannelEffect s c x) : Effect s (withChan s c x)
  | slot (s : State) (k : Nat) (d d' : Source) (hs : sourceAt s k = some d) (h : SourceEffect s.cfg d d') :
      Effect s (withSlot s k (some d'))
  | join (s : State) (c : CoreId) (k : Nat) (sync blocking : Bool) (ms : Nat) (single : (chanOf s c).handle = none)
      (attached : (chanOf s c).attached = true) (inRange : k < s.reg.length) (free : sourceAt s k = none) :
      Effect s (joined s c k (newSource s.cfg c sync blocking ms))
  | leave (s : State) (k : Nat) (d : Source) (unheld : s.holdS = none) (hs : sourceAt s k = some d) :
      Effect s (departed s d.core k)
  | hold (s : State) (k : Nat) (d : Source) (hs : sourceAt s k = some d) (sync : d.sync = true)
      (blocking : d.blocking = true) : Effect s { s with holdS := some k }
  | release (s : State) : Effect s { s with holdS := none }
  | clock (s : State) (hz : Nat) (pos : 0 < hz) : Effect s (scaledClock s hz)
  | psgA (s : State) (a : PsgA) (h : PsgAEffect s.psgA a) : Effect s { s with psgA := a }
  | psgB (s : State) (b : PsgB) (h : PsgBEffect s.cfg s.psgB b) : Effect s { s with psgB := b }
  | speech (s : State) (p : Speech) : Effect s { s with speech := p }
  | volume (s : State) (v : Nat) (h : v ≤ 100) : Effect s { s with vol := v }
  | accumulate (s : State) (m : List Int) (h : m.length = s.macc.length ∨ m.length = s.cfg.blockLen) :
      Effect s { s with macc := m }
  /-- The fields that no invariant speaks of: the mute, the record of a fault and the model's own fields. -/
  | record (s : State) (muted : Bool) (fault : Option Fault) (feed : List Issue) (mSeq : List MStep)
      (out : List (List Byte)) (replies : List Reply) :
      Effect s { s with muted := muted, fault := fault, feed := feed, mSeq := mSeq, out := out, replies := replies }

/-- A chain of effects. -/
def Effects : State → State → Prop := Relation.ReflTransGen Effect

theorem Effects.refl (s : State) : Effects s s := Relation.ReflTransGen.refl

theorem Effect.one {s t : State} (h : Effect s t) : Effects s t := Relation.ReflTransGen.single h

theorem Effects.trans {s t u : State} (h : Effects s t) (h' : Effects t u) : Effects s u :=
  Relation.ReflTransGen.trans h h'

theorem Effects.then {s t u : State} (h : Effects s t) (h' : Effect t u) : Effects s u := h.trans h'.one

/-- What every effect keeps, a chain of effects keeps. -/
theorem Effects.keeps {P : State → Prop} (hP : ∀ s t, Effect s t → P s → P t) {s t : State} (h : Effects s t)
    (hs : P s) : P t := by
  induction h with
  | refl => exact hs
  | tail _ effect ih => exact hP _ _ effect ih

/-! ### What the effects do to the accessors -/

@[simp] theorem chanOf_scaledClock (s : State) (hz : Nat) (c : CoreId) :
    chanOf (scaledClock s hz) c = scaledChannel s hz c := by
  cases c <;> rfl

@[simp] theorem scaledClock_cfg (s : State) (hz : Nat) : (scaledClock s hz).cfg = s.cfg := rfl

@[simp] theorem scaledClock_cpuHz (s : State) (hz : Nat) : (scaledClock s hz).cpuHz = hz := rfl

@[simp] theorem joined_cfg (s : State) (c : CoreId) (k : Nat) (d : Source) : (joined s c k d).cfg = s.cfg := rfl

@[simp] theorem joined_cpuHz (s : State) (c : CoreId) (k : Nat) (d : Source) : (joined s c k d).cpuHz = s.cpuHz := rfl

@[simp] theorem chanOf_joined_same (s : State) (c : CoreId) (k : Nat) (d : Source) :
    chanOf (joined s c k d) c = joinSource (chanOf s c) k := by
  simp [joined]

theorem chanOf_joined_ne (s : State) {c c' : CoreId} (k : Nat) (d : Source) (h : c' ≠ c) :
    chanOf (joined s c k d) c' = chanOf s c' := by
  simp [joined, chanOf_withChan_ne _ _ h]

theorem sourceAt_joined_same {s : State} (c : CoreId) {k : Nat} (d : Source) (h : k < s.reg.length) :
    sourceAt (joined s c k d) k = some d :=
  sourceAt_withSlot_same _ h

theorem sourceAt_joined_ne (s : State) (c : CoreId) {k j : Nat} (d : Source) (h : j ≠ k) :
    sourceAt (joined s c k d) j = sourceAt s j := by
  simp [joined, sourceAt_withSlot_ne _ _ h]

@[simp] theorem departed_cfg (s : State) (c : CoreId) (k : Nat) : (departed s c k).cfg = s.cfg := rfl

@[simp] theorem departed_cpuHz (s : State) (c : CoreId) (k : Nat) : (departed s c k).cpuHz = s.cpuHz := rfl

@[simp] theorem chanOf_departed_same (s : State) (c : CoreId) (k : Nat) :
    chanOf (departed s c k) c = leaveSource (chanOf s c) := by
  simp [departed]

theorem chanOf_departed_ne (s : State) {c c' : CoreId} (k : Nat) (h : c' ≠ c) :
    chanOf (departed s c k) c' = chanOf s c' := by
  simp [departed, chanOf_withChan_ne _ _ h]

theorem sourceAt_departed_same {s : State} (c : CoreId) {k : Nat} (h : k < s.reg.length) :
    sourceAt (departed s c k) k = none :=
  sourceAt_withSlot_same _ h

theorem sourceAt_departed_ne (s : State) (c : CoreId) {k j : Nat} (h : j ≠ k) :
    sourceAt (departed s c k) j = sourceAt s j := by
  simp [departed, sourceAt_withSlot_ne _ _ h]

/-- A property of every core's channel, after one of them is replaced. -/
theorem forall_chanOf_withChan {P : Channel → Prop} {s : State} {c : CoreId} {x : Channel}
    (h : ∀ c, P (chanOf s c)) (hx : P x) (c' : CoreId) : P (chanOf (withChan s c x) c') := by
  by_cases hc : c' = c
  · subst hc
    rwa [chanOf_withChan_same]
  · rw [chanOf_withChan_ne _ _ hc]
    exact h c'

/-- A property of every registered source, after one slot is set. -/
theorem forall_sourceAt_withSlot {P : Source → Prop} {s : State} {k : Nat} {o : Option Source}
    (h : ∀ j d, sourceAt s j = some d → P d) (ho : ∀ d, o = some d → P d) (j : Nat) (d : Source)
    (hd : sourceAt (withSlot s k o) j = some d) : P d := by
  by_cases hj : j = k
  · subst hj
    have hlt : j < s.reg.length := by simpa using sourceAt_lt hd
    rw [sourceAt_withSlot_same _ hlt] at hd
    exact ho d hd
  · rw [sourceAt_withSlot_ne _ _ hj] at hd
    exact h j d hd

/-- What all blocks of a pool and the empty block have, the block of any number has (log 26). -/
theorem forall_blockOf {P : Block → Prop} {d : Source} (h : ∀ blk ∈ d.blocks, P blk) (empty : P ⟨[], 0⟩) (b : Nat) :
    P (blockOf d b) := by
  unfold blockOf
  rw [List.getD_eq_getElem?_getD]
  cases hb : d.blocks[b]? with
  | none => exact empty
  | some blk => exact h blk (List.mem_of_getElem? hb)

theorem forall_withBlock {P : Block → Prop} {d : Source} {b : Nat} {blk : Block} (h : ∀ blk ∈ d.blocks, P blk)
    (hb : P blk) : ∀ blk' ∈ (withBlock d b blk).blocks, P blk' := by
  intro blk' mem
  rcases List.mem_or_eq_of_mem_set mem with old | rfl
  · exact h blk' old
  · exact hb

/-- The configuration is none of the fields an effect changes. -/
theorem effect_cfg {s t : State} (h : Effect s t) : t.cfg = s.cfg := by
  cases h <;> rfl

/-! ### Every change is a chain of effects -/

theorem effects_getWorkBuffer (k : Nat) (s : State) : Effects s (getWorkBuffer k s).2 := by
  rcases getWorkBuffer_cases k s with
    ⟨same, -⟩ | ⟨d, hs, sync, blocking, -, -, holds⟩ | ⟨d, b, rest, hs, idle, clean, takes⟩
  · rw [same]
    exact .refl s
  · rw [holds]
    exact (Effect.hold s k d hs sync blocking).one
  · rw [takes]
    exact (Effect.slot s k d _ hs (.get b rest idle clean)).one

theorem effects_putWorkBuffer {k : Nat} {s t : State} (h : putWorkBuffer k s = .done () t) : Effects s t := by
  obtain ⟨d, b, hs, cur, rfl⟩ := putWorkBuffer_cases h
  exact (Effect.slot s k d _ hs (.put b cur)).one

/-- A pumped sample is drained from the ring, then put into the block. -/
theorem effects_pumpSample {c : CoreId} {k b : Nat} {d : Source} {s t : State} (hs : sourceAt s k = some d)
    (cur : d.current = some b) (h : pumpSample c k b d s = .done () t) : Effects s t := by
  rw [pumpSample_eq c hs cur] at h
  cases h
  refine (Effect.chan s c _ .drain).one.then (Effect.slot _ k d _ hs ?_)
  split
  · exact .fillLast b _ cur ‹_›
  · exact .fill b _ cur ‹_›

theorem effects_applyTo (c : CoreId) (addr : Nat) (val : Byte) (s : State) : Effects s (applyTo c addr val s) := by
  cases c with
  | A => exact (Effect.psgA s _ (.write _ val)).one
  | B =>
    refine (Effect.psgB s (writeByteB s.cfg s.psgB val) ?_).one
    unfold writeByteB
    split
    · exact .latch _ _
    · exact .data _
  | S => exact (Effect.speech s _).one

theorem effects_attachedState (c : CoreId) (s : State) : Effects s (attachedState s c) := by
  unfold attachedState
  split
  · exact .refl s
  · cases c with
    | A => exact (Effect.psgA s _ .reset).one
    | B => exact (Effect.psgB s _ .reset).one
    | S => exact (Effect.speech s _).one

theorem chanOf_attachedState (s : State) (c c' : CoreId) : chanOf (attachedState s c) c' = chanOf s c' := by
  simp [chanOf]

theorem attachedChannel_attached (s : State) (c : CoreId) : (attachedChannel s c).attached = true := by
  unfold attachedChannel
  split
  · assumption
  · rfl

theorem effects_attachedChannel {s : State} {c : CoreId} (h : (chanOf s c).handle = none) :
    Effects s (withChan s c (attachedChannel s c)) := by
  unfold attachedChannel
  split
  · rw [withChan_chanOf]
    exact .refl s
  · exact (Effect.chan s c _ (.attach h)).one

/-- REGISTER resets a detached core, attaches it, enters the source and sets the converter. -/
theorem effects_register (c : CoreId) (sync blocking : Bool) (ms : Nat) (s : State) :
    Effects s (register c sync blocking ms s).2 := by
  rcases register_cases c sync blocking ms s with ⟨-, ignored⟩ | ⟨-, -, full⟩ | ⟨k, single, inRange, free, -, joins⟩
  · rw [ignored]
    exact .refl s
  · rw [full]
    exact .refl s
  · rw [joins]
    have chip := effects_attachedState c s
    have chan : Effects (attachedState s c) (withChan (attachedState s c) c (attachedChannel s c)) := by
      have := effects_attachedChannel (s := attachedState s c) (c := c) (by rwa [chanOf_attachedState])
      simpa only [attachedChannel, chanOf_attachedState, attachedState_cfg] using this
    have enter := Effect.join (withChan (attachedState s c) c (attachedChannel s c)) c k sync blocking ms
      (by simpa using attachedChannel_handle s c single) (by simpa using attachedChannel_attached s c)
      (by simpa using inRange) (by simpa [sourceAt] using free)
    have ratio : Effects (joined (withChan (attachedState s c) c (attachedChannel s c)) c k
        (newSource s.cfg c sync blocking ms)) (withSlot (withChan (attachedState s c) c (registeredChannel s c sync k)) k
          (some (newSource s.cfg c sync blocking ms))) := by
      unfold registeredChannel
      dsimp only
      split
      · simpa [joined] using Effects.refl _
      · rename_i num den reduced
        have := (Effect.chan (joined (withChan (attachedState s c) c (attachedChannel s c)) c k
          (newSource s.cfg c sync blocking ms)) c _ (.rate _ _ num den reduced)).one
        simpa [joined, withSlot, withChan, chanOf] using this
    simp only [withChan_cfg, attachedState_cfg] at enter
    exact ((chip.trans chan).then enter).trans ratio

/-- CLOCK sets the converter of a core with a synchronous source after the clock. -/
theorem effects_clockChannel {s u : State} (hz : Nat) (c : CoreId) (h : chanOf u c = scaledChannel s hz c) :
    Effects u (withChan u c (clockChannel s hz c)) := by
  have keep : withChan u c (scaledChannel s hz c) = u := by rw [← h, withChan_chanOf]
  change Effects u (withChan u c (if syncOf s c then
    match reducedRatio (s.cfg.dstRate * (s.cfg.clkDen.get c * tickDivider c)) (hz * s.cfg.clkNum.get c) with
    | none => scaledChannel s hz c
    | some (num, den) => withRatio (scaledChannel s hz c) num den
    else scaledChannel s hz c))
  split
  · split
    · rw [keep]
      exact .refl u
    · rename_i num den reduced
      rw [← h]
      exact (Effect.chan u c _ (.rate _ _ num den reduced)).one
  · rw [keep]
    exact .refl u

theorem effects_clock (hz : Nat) (s : State) : Effects s (clock hz s).2 := by
  by_cases h0 : hz = 0
  · rw [clock, if_pos h0]
    exact .refl s
  · rw [clock_eq hz s h0]
    have scaled := (Effect.clock s hz (Nat.pos_of_ne_zero h0)).one
    have onA := effects_clockChannel (s := s) (u := scaledClock s hz) hz .A rfl
    have onB := effects_clockChannel (s := s) (u := withChan (scaledClock s hz) .A (clockChannel s hz .A)) hz .B rfl
    have onS := effects_clockChannel (s := s)
      (u := withChan (withChan (scaledClock s hz) .A (clockChannel s hz .A)) .B (clockChannel s hz .B)) hz .S rfl
    exact ((scaled.trans onA).trans onB).trans onS

theorem effects_mixSource (k : Nat) (s : State) : Effects s (mixSource k s).2 := by
  rcases mixSource_cases k s with same | ⟨d, hs, active, -, starves⟩ | ⟨d, b, rest, r, hs, dirty, hr, mixes⟩
  · rw [same]
    exact .refl s
  · rw [starves]
    exact (Effect.slot s k d _ hs (.starve active)).one
  · obtain ⟨hold, len, -⟩ := mixCodes_eq (blockOf d b).data (blockOf d b).fill 0 (wakeSource s.cfg d).holdoffCnt s.macc
    rw [← hr] at hold len
    rw [mixes, hold]
    exact (Effect.slot s k d _ hs (.mixed b rest dirty)).one.then (Effect.accumulate _ r.2 (.inl len))

theorem effects_of_change {s t : State} (h : Change s t) : Effects s t := by
  cases h with
  | store c level lo hi => exact (Effect.chan s c _ (.store level lo hi)).one
  | rate c dst src num den reduced => exact (Effect.chan s c _ (.rate dst src num den reduced)).one
  | drain c => exact (Effect.chan s c _ .drain).one
  | get k => exact effects_getWorkBuffer k s
  | put _ k put => exact effects_putWorkBuffer put
  | pump _ c k b d _ hs cur pump => exact effects_pumpSample hs cur pump
  | apply c addr val => exact effects_applyTo c addr val s
  | latch r d => exact (Effect.psgB s _ (.latch r d)).one
  | data d => exact (Effect.psgB s _ (.data d)).one
  | countA => exact (Effect.psgA s _ .count).one
  | countB => exact (Effect.psgB s _ .count).one
  | speech p => exact (Effect.speech s p).one
  | due c e rest queued => exact (Effect.chan s c _ (.due e rest queued)).one
  | accrue c h => exact (Effect.chan s c _ (.timing _ _ _ _ (.inr ⟨_, rfl⟩))).one
  | pay c => exact (Effect.chan s c _ (.timing _ _ _ _ (.inl rfl))).one
  | enqueue c e cap ord => exact (Effect.chan s c _ (.enqueue e cap ord)).one
  | moveTime c h => exact (Effect.chan s c _ (.timing _ _ _ _ (.inl rfl))).one
  | posted c h => exact (Effect.chan s c _ (.timing _ _ _ _ (.inl rfl))).one
  | clearCount k d hs => exact (Effect.slot s k d _ hs .clearCount).one
  | register c sync blocking ms => exact effects_register c sync blocking ms s
  | deregister k free =>
    cases hs : sourceAt s k with
    | none =>
      rw [deregister, hs]
      exact .refl s
    | some d =>
      rw [deregister_eq hs]
      exact (Effect.leave s k d free hs).one
  | clock hz => exact effects_clock hz s
  | release => exact (Effect.release s).one
  | mix k => exact effects_mixSource k s
  | emit =>
    exact (Effect.accumulate s _ (.inr List.length_replicate)).one.then (Effect.record _ _ _ _ _ _ _)
  | volume v le => exact (Effect.volume s v le).one
  | mute => exact (Effect.record s _ _ _ _ _ _).one
  | mSeq => exact (Effect.record s _ _ _ _ _ _).one
  | feed => exact (Effect.record s _ _ _ _ _ _).one
  | replies => exact (Effect.record s _ _ _ _ _ _).one
  | fault => exact (Effect.record s _ _ _ _ _ _).one

/-- What every effect keeps, every step keeps. -/
theorem step_keeps_of_effects {P : State → Prop} (hP : ∀ s t, Effect s t → P s → P t) {s t : State}
    (h : step s = .next t) (hs : P s) : P t :=
  step_keeps (fun _ _ change => (effects_of_change change).keeps hP) h hs

end Sys2Proof.Proofs.StepEffects
end

section
/-! A held agent S has no step but RESUME (10_state.md R64, 60_exceptions.md R567). -/

namespace Sys2Proof.Proofs.HeldAgent

open Sys2Proof.Machine Sys2Proof.Laws

/-- A step of a state without a fault ends in a next state, by a raise or without one. -/
theorem runStep_total {s : State} (running : s.fault = none) (body : State → Res (Option Reply)) :
    ∃ t, runStep s body = .next t := by
  rw [runStep_of_running running]
  cases body s with
  | done r u => exact ⟨returned r u, rfl⟩
  | raised f u => exact ⟨takeFault f u, rfl⟩

theorem resumeEnabled_of_sourceAt {s : State} {k : Nat} {d : Source} (hs : sourceAt s k = some d) :
    resumeEnabled s k = !d.clean.isEmpty := by
  rw [resumeEnabled, hs]

/-- RESUME of a held agent is a step once the source has a clean block, and is refused as the other commands until then. -/
theorem execResume_of_held {s : State} {k : Nat} (running : s.fault = none) (held : s.holdS = some k) :
    execResume s = if resumeEnabled s k then runStep s (resumeOn k) else .refused (.held k) := by
  unfold execResume
  rw [held]
  exact if_congr Iff.rfl rfl (runCommandS_of_held running held _)

/-- Settles O15: the commands of S but RESUME are all issued through `runCommandS`, which refuses them while S is held;
RESUME asks for a clean block. -/
theorem heldAgentOnlyResumes : Obligations.HeldAgentOnlyResumes := by
  intro s k running held
  refine ⟨?write, ?advance, ?frame, ?clock, ?register, ?deregister, ?volume, ?mute, ?waits, ?resumes⟩
  case waits =>
    intro d hs clean
    change execResume s = _
    rw [execResume_of_held running held, resumeEnabled_of_sourceAt hs, clean]
    rfl
  case resumes =>
    intro d hs clean
    change ∃ t, execResume s = _
    rw [execResume_of_held running held, resumeEnabled_of_sourceAt hs, List.isEmpty_eq_false_iff.2 clean]
    exact runStep_total running (resumeOn k)
  all_goals
    intros
    simp only [exec, execWrite, execAdvance, execFrame, execClock, execRegister, execDeregister, execVolume, execMute,
      runCommandS_of_held running held]

end Sys2Proof.Proofs.HeldAgent
end

section
/-! Rings and blocks stay in canonical form (20_memory.md, 10_state.md R35, R62): every byte that an effect stores goes
through `memWrite`, which keeps the form. -/

namespace Sys2Proof.Proofs.CanonicalMemory

open Sys2Proof.Machine Sys2Proof.Laws Sys2Proof.Safety Sys2Proof.Proofs.StepEffects

theorem drainChan_buf (cfg : Config) (x : Channel) : (drainChan cfg x).2.buf = x.buf := by
  obtain ⟨_, _, _, form, -⟩ := drainChan_form cfg x
  rw [form]

theorem channelEffect_canonical {s : State} {c : CoreId} {x : Channel} (h : ChannelEffect s c x)
    (canonical : (chanOf s c).buf.wf = true) : x.buf.wf = true := by
  cases h with
  | store level => exact wf_memWrite _ _ canonical
  | drain => rwa [drainChan_buf]
  | attach => rfl
  | _ => exact canonical

/-- Every block of the source is in canonical form. -/
def BlocksCanonical (d : Source) : Prop := ∀ blk ∈ d.blocks, blk.data.wf = true

theorem BlocksCanonical.blockOf {d : Source} (h : BlocksCanonical d) (b : Nat) : (blockOf d b).data.wf = true :=
  forall_blockOf h rfl b

theorem BlocksCanonical.sourceFilled {d : Source} (h : BlocksCanonical d) (b : Nat) (v : Byte) :
    BlocksCanonical (sourceFilled d b v) :=
  forall_withBlock h (wf_memWrite _ v (h.blockOf b))

theorem blocksCanonical_newSource (cfg : Config) (c : CoreId) (sync blocking : Bool) (ms : Nat) :
    BlocksCanonical (newSource cfg c sync blocking ms) := by
  intro blk mem
  rw [List.eq_of_mem_replicate mem]
  rfl

theorem sourceEffect_canonical {cfg : Config} {d d' : Source} (h : SourceEffect cfg d d') (canonical : BlocksCanonical d) :
    BlocksCanonical d' := by
  cases h with
  | get b => exact forall_withBlock (P := fun blk => blk.data.wf = true) canonical (canonical.blockOf b)
  | fill b v => exact canonical.sourceFilled b v
  | fillLast b v => exact canonical.sourceFilled b v
  | mixed =>
    rw [BlocksCanonical, returnBlock, wakeSource_blocks]
    exact canonical
  | _ => exact canonical

theorem effect_memoryCanonical {s t : State} (h : Effect s t) (canonical : MemoryCanonical s) : MemoryCanonical t := by
  obtain ⟨rings, blocks⟩ := canonical
  have ring := fun c x => forall_chanOf_withChan (P := fun x => x.buf.wf = true) (c := c) (x := x) rings
  have slot := fun k o => forall_sourceAt_withSlot (P := BlocksCanonical) (k := k) (o := o) blocks
  cases h with
  | chan c x effect => exact ⟨ring c x (channelEffect_canonical effect (rings c)), blocks⟩
  | slot k d d' hs effect =>
    refine ⟨rings, slot k (some d') fun e he => ?_⟩
    cases he
    exact sourceEffect_canonical effect (blocks k d hs)
  | join c k sync blocking ms =>
    refine ⟨ring c _ (rings c), slot k (some _) fun e he => ?_⟩
    cases he
    exact blocksCanonical_newSource s.cfg c sync blocking ms
  | leave k d => exact ⟨ring d.core _ (rings d.core), slot k none fun _ he => nomatch he⟩
  | clock hz =>
    refine ⟨fun c => ?_, blocks⟩
    rw [chanOf_scaledClock]
    exact rings c
  | _ => exact ⟨rings, blocks⟩

/-- Settles O9: every effect keeps rings and blocks canonical, so every step does. -/
theorem stepKeepsMemoryCanonical : Obligations.StepKeepsMemoryCanonical :=
  fun _ _ canonical h => step_keeps_of_effects (fun _ _ => effect_memoryCanonical) h canonical

end Sys2Proof.Proofs.CanonicalMemory
end

section
/-! What a well-formed configuration (00_scope.md R11, 42_psg_b.md R313) gives the invariants, each range by name. -/

namespace Sys2Proof.Proofs.ConfigurationRanges

open Sys2Proof.Machine Sys2Proof.Laws

/-- The ranges of `Config.wf` that the invariants rest on. -/
structure ConfigRanges (cfg : Config) : Prop where
  dstRate_pos : 0 < cfg.dstRate
  chipHzA_pos : 0 < cfg.chipHzA
  chipHzB_pos : 0 < cfg.chipHzB
  clkDen_pos : ∀ c, 0 < cfg.clkDen.get c
  speechRate_pos : 0 < cfg.speechRate
  snZeroPeriod : cfg.snZeroPeriod = 1 ∨ cfg.snZeroPeriod = 1024
  snLfsrWidth_ge : 2 ≤ cfg.snLfsrWidth
  snLfsrWidth_le : cfg.snLfsrWidth ≤ 16
  snTaps : cfg.snTaps.getLsbD 0 = true
  snNoiseDiv_pos : 0 < cfg.snNoiseDiv.c0 ∧ 0 < cfg.snNoiseDiv.c1 ∧ 0 < cfg.snNoiseDiv.c2
  blockLen_pos : 0 < cfg.blockLen
  starveLimit_pos : 0 < cfg.starveLimit

theorem configRanges_of_wf {cfg : Config} (h : cfg.wf = true) : ConfigRanges cfg := by
  simp only [Config.wf, Bool.and_eq_true, Bool.or_eq_true, decide_eq_true_eq, List.all_cons, List.all_nil] at h
  constructor
  case clkDen_pos =>
    intro c
    cases c <;> tauto
  all_goals tauto

theorem tickDivider_pos (c : CoreId) : 0 < tickDivider c := by
  cases c <;> decide

theorem ConfigRanges.chipClock_pos {cfg : Config} (h : ConfigRanges cfg) (c : CoreId) : 0 < chipClock cfg c := by
  cases c with
  | A => exact h.chipHzA_pos
  | B => exact h.chipHzB_pos
  | S => exact h.speechRate_pos

/-- The converter of every core has a ratio at reset (R601). -/
theorem ConfigRanges.resetRatio {cfg : Config} (h : ConfigRanges cfg) (c : CoreId) :
    reducedRatio (cfg.dstRate * tickDivider c) (chipClock cfg c) = some (resetRatio cfg c) := by
  have dst := Nat.mul_pos h.dstRate_pos (tickDivider_pos c)
  rw [Machine.resetRatio, reducedRatio_eq_some dst.ne' (h.chipClock_pos c).ne', Option.getD_some]

/-- A tick takes some cycles (R41). -/
theorem ConfigRanges.tickDen_pos {s : State} (h : ConfigRanges s.cfg) (c : CoreId) : 0 < tickDen s c := by
  unfold tickDen
  split
  · exact Nat.mul_pos (h.clkDen_pos c) (tickDivider_pos c)
  · exact tickDivider_pos c

end Sys2Proof.Proofs.ConfigurationRanges
end

section
/-! A core's channel stays in its ranges (10_state.md R35, R37, R38). -/

namespace Sys2Proof.Proofs.ChannelRanges

open Sys2Proof.Machine Sys2Proof.Laws Sys2Proof.Safety Sys2Proof.Proofs.StepEffects
open Sys2Proof.Proofs.ConfigurationRanges

/-- `head` and `tail` are ring indices (R35). -/
def RingLegal (cfg : Config) (x : Channel) : Prop := x.head < capacity cfg ∧ x.tail < capacity cfg

/-- The converter holds a ratio in lowest terms and an index that it can stand at (R37, log 27). -/
def ConverterLegal (x : Channel) : Prop :=
  0 < x.rateNum ∧ 0 < x.rateDen ∧ Nat.Coprime x.rateNum x.rateDen ∧ x.increment = x.rateNum ∧ x.limit = x.rateDen ∧
    x.index < max x.limit x.increment

/-- The queue is within its capacity and in time order (R38). -/
def QueueLegal (cfg : Config) (x : Channel) : Prop :=
  x.q.length ≤ cfg.queueCap ∧ (x.q.map QEntry.ts).Pairwise (· ≤ ·) ∧ ∀ e ∈ x.q, e.ts ≤ x.lastTs

theorem channelLegal_iff {cfg : Config} {x : Channel} :
    ChannelLegal cfg x ↔ RingLegal cfg x ∧ ConverterLegal x ∧ QueueLegal cfg x := by
  simp only [ChannelLegal, RingLegal, ConverterLegal, QueueLegal, capacity, and_assoc]

/-- A ratio that CONFIGURE_RATE accepts leaves a legal converter. -/
theorem converterLegal_withRatio {dst src num den : Nat} (x : Channel) (h : reducedRatio dst src = some (num, den)) :
    ConverterLegal (withRatio x num den) := by
  obtain ⟨num_pos, den_pos, coprime, -, -⟩ := reducedRatio_lowest h
  exact ⟨num_pos, den_pos, coprime, rfl, rfl, lt_max_of_lt_left den_pos⟩

/-- The first code that brings `index` to `limit` takes it past by less than one increment; with no code to take, `index`
falls. -/
theorem drainChan_index_lt (cfg : Config) {x : Channel} (h : x.index < max x.limit x.increment) :
    (drainChan cfg x).2.index < max x.limit x.increment := by
  rcases drainChan_cases cfg x with ⟨k, -, reached, least, gives⟩ | ⟨short, runsOut⟩
  · rw [gives]
    change x.index + k * x.increment - x.limit < _
    cases k with
    | zero => omega
    | succ j =>
      have before := least j j.lt_succ_self
      rw [Nat.succ_mul]
      omega
  · rw [runsOut, (taken_kept cfg _ x).1]
    have : x.index + samplesAvailable cfg x * x.increment < x.limit := by simpa [canDrain] using short
    exact lt_max_of_lt_left this

theorem ringLegal_drainChan {cfg : Config} {x : Channel} (h : RingLegal cfg x) : RingLegal cfg (drainChan cfg x).2 := by
  obtain ⟨head, tail⟩ := h
  obtain ⟨t, _, _, form, index⟩ := drainChan_form cfg x
  rw [form]
  refine ⟨head, ?_⟩
  rcases index with rfl | index
  · exact tail
  · exact index

theorem converterLegal_drainChan (cfg : Config) {x : Channel} (h : ConverterLegal x) :
    ConverterLegal (drainChan cfg x).2 := by
  obtain ⟨num_pos, den_pos, coprime, increment, limit, index⟩ := h
  have index' := drainChan_index_lt cfg index
  obtain ⟨_, _, _, form, -⟩ := drainChan_form cfg x
  rw [form] at index' ⊢
  exact ⟨num_pos, den_pos, coprime, increment, limit, index'⟩

theorem queueLegal_drainChan {cfg : Config} {x : Channel} (h : QueueLegal cfg x) : QueueLegal cfg (drainChan cfg x).2 := by
  obtain ⟨_, _, _, form, -⟩ := drainChan_form cfg x
  rw [form]
  exact h

theorem queueLegal_due {cfg : Config} {x : Channel} {e : QEntry} {rest : List QEntry} (h : QueueLegal cfg x)
    (hq : x.q = e :: rest) : QueueLegal cfg { x with q := rest } := by
  obtain ⟨cap, sorted, last⟩ := h
  rw [hq] at cap sorted last
  exact ⟨(Nat.le_succ _).trans cap, (List.pairwise_cons.1 sorted).2, fun f mem => last f (List.mem_cons_of_mem e mem)⟩

theorem queueLegal_enqueue {cfg : Config} {x : Channel} {e : QEntry} (h : QueueLegal cfg x)
    (cap : x.q.length < cfg.queueCap) (ord : x.lastTs ≤ e.ts) :
    QueueLegal cfg { x with q := x.q ++ [e], lastTs := e.ts } := by
  obtain ⟨-, sorted, last⟩ := h
  have before : ∀ f ∈ x.q, f.ts ≤ e.ts := fun f mem => (last f mem).trans ord
  refine ⟨by simpa using cap, ?_, ?_⟩
  · simpa [List.pairwise_append, sorted] using before
  · simpa [or_imp, forall_and] using before

theorem channelLegal_reset {cfg : Config} (h : ConfigRanges cfg) (c : CoreId) : ChannelLegal cfg (Channel.reset cfg c) := by
  refine channelLegal_iff.2 ⟨⟨capacity_pos cfg, capacity_pos cfg⟩, ?_, ⟨Nat.zero_le _, .nil, fun _ mem => nomatch mem⟩⟩
  exact converterLegal_withRatio (Channel.reset cfg c) (h.resetRatio c)

theorem channelEffect_legal {s : State} {c : CoreId} {x : Channel} (ranges : ConfigRanges s.cfg)
    (h : ChannelEffect s c x) (legal : ChannelLegal s.cfg (chanOf s c)) : ChannelLegal s.cfg x := by
  obtain ⟨ring, converter, queue⟩ := channelLegal_iff.1 legal
  cases h with
  | store level => exact channelLegal_iff.2 ⟨⟨Nat.mod_lt _ (capacity_pos _), ring.2⟩, converter, queue⟩
  | rate dst src num den reduced => exact channelLegal_iff.2 ⟨ring, converterLegal_withRatio _ reduced, queue⟩
  | drain =>
    exact channelLegal_iff.2 ⟨ringLegal_drainChan ring, converterLegal_drainChan _ converter, queueLegal_drainChan queue⟩
  | due e rest queued => exact channelLegal_iff.2 ⟨ring, converter, queueLegal_due queue queued⟩
  | enqueue e cap ord => exact channelLegal_iff.2 ⟨ring, converter, queueLegal_enqueue queue cap ord⟩
  | timing => exact legal
  | attach =>
    obtain ⟨resetRing, resetConverter, cap, sorted, -⟩ := channelLegal_iff.1 (channelLegal_reset ranges c)
    exact channelLegal_iff.2 ⟨resetRing, resetConverter, cap, sorted, fun _ mem => nomatch mem⟩

end Sys2Proof.Proofs.ChannelRanges
end

section
/-! Core A's counters, noise register, envelope and register bits stay in their ranges (10_state.md R45 to R48, R147). -/

namespace Sys2Proof.Proofs.PsgARanges

open Sys2Proof.Machine Sys2Proof.Laws Sys2Proof.Safety Sys2Proof.Proofs.StepEffects

/-! ### Banks -/

theorem forall_tri_set {α : Type} {P : α → Prop} {t : Tri α} {i : Fin 3} {v : α} (h : ∀ j, P (t.get j)) (hv : P v)
    (j : Fin 3) : P ((t.set i v).get j) := by
  by_cases hj : j = i
  · subst hj
    rwa [tri_get_set_same]
  · rw [tri_get_set_ne _ _ hj]
    exact h j

/-- The unused bits of core A's registers are 0 exactly when no register is above its mask (R147, R250). -/
theorem masked_iff {ra : Bank16 Byte} :
    (ra.r1 < 16 ∧ ra.r3 < 16 ∧ ra.r5 < 16 ∧ ra.r6 < 32 ∧ ra.r8 < 32 ∧ ra.r9 < 32 ∧ ra.r10 < 32 ∧ ra.r13 < 16) ↔
      ∀ n, ra.get n ≤ maskA n := by
  have below (v m : Byte) (hm : m.toNat < 255) : v < m + 1 ↔ v ≤ m := by
    rw [BitVec.lt_def, BitVec.le_def, BitVec.toNat_add_of_lt (by simpa using Nat.succ_lt_succ hm)]
    exact Nat.lt_succ_iff
  have free (v : Byte) : v ≤ 255#8 := BitVec.le_def.2 (Nat.le_of_lt_succ v.isLt)
  have low (v : Byte) : v < 16 ↔ v ≤ 0x0F := below v 0x0F (by decide)
  have five (v : Byte) : v < 32 ↔ v ≤ 0x1F := below v 0x1F (by decide)
  simp only [Fin.forall_fin_succ, Fin.forall_fin_zero, low, five]
  simp [Bank16.get, maskA, free]

/-! ### The periods fit the counters -/

theorem tonePeriodA_le (ra : Bank16 Byte) (ch : Fin 3) : tonePeriodA ra ch ≤ 4095 := Nat.le_of_lt_succ (BitVec.isLt _)

theorem noisePeriodA_le (ra : Bank16 Byte) : noisePeriodA ra ≤ 31 := Nat.le_of_lt_succ (BitVec.isLt _)

theorem envPeriodA_le (ra : Bank16 Byte) : envPeriodA ra ≤ 65535 := Nat.le_of_lt_succ (BitVec.isLt _)

/-! ### The counters of a tick -/

theorem toneStepA_legal {a : PsgA} (h : PsgALegal a) (ch : Fin 3) : PsgALegal (toneStepA a ch) := by
  obtain ⟨tone, rest⟩ := h
  have := tone ch
  have := tonePeriodA_le a.ra ch
  unfold toneStepA
  split <;> exact ⟨forall_tri_set (P := fun n => 1 ≤ n ∧ n ≤ 4095) tone (by omega), rest⟩

/-- What a shift to the right turns into 0 was 1, if it was not 0. -/
theorem toNat_eq_one_of_half_zero {n : Nat} {x : BitVec n} (ne_zero : x ≠ 0) (half : x >>> 1 = 0) : x.toNat = 1 := by
  have quotient : x.toNat / 2 = 0 := by
    have := congrArg BitVec.toNat half
    rwa [BitVec.toNat_ushiftRight, Nat.shiftRight_eq_div_pow, pow_one, BitVec.ofNat_eq_ofNat, BitVec.toNat_zero] at this
  have : x.toNat ≠ 0 := fun h0 => ne_zero (BitVec.eq_of_toNat_eq h0)
  omega

/-- The feedback bit enters at the top when the register would become 0, because its last 1 is then bit 0 (R265). -/
theorem lfsrStepA_ne_zero {x : BitVec 17} (h : x ≠ 0) : lfsrStepA x ≠ 0 := by
  intro zero
  obtain ⟨shifted, fed⟩ := BitVec.or_eq_zero_iff.1 zero
  have one : x = 1 := BitVec.eq_of_toNat_eq (toNat_eq_one_of_half_zero h shifted)
  subst one
  exact absurd fed (by decide)

theorem noiseStepA_legal {a : PsgA} (h : PsgALegal a) : PsgALegal (noiseStepA a) := by
  obtain ⟨tone, noise_pos, noise_le, lfsr, rest⟩ := h
  have := noisePeriodA_le a.ra
  unfold noiseStepA
  split
  · exact ⟨tone, by simp, by simp [this], lfsrStepA_ne_zero lfsr, rest⟩
  · exact ⟨tone, by simp only; omega, by simp only; omega, lfsr, rest⟩

/-- An envelope step moves the step, the direction and the hold alone; the direction is kept, inverted, or set to 15
(R267). -/
theorem envAdvance_form (a : PsgA) : ∃ step dir hold,
    envAdvance a = { a with envStep := step, envDir := dir, envHold := hold } ∧
      (dir = a.envDir ∨ dir = a.envDir ^^^ 15 ∨ dir = 15) := by
  unfold envAdvance
  split
  · exact ⟨_, _, _, rfl, .inl rfl⟩
  · split
    · exact ⟨_, _, _, rfl, .inl rfl⟩
    · split
      · exact ⟨_, _, _, rfl, .inr (.inr rfl)⟩
      · split <;>
        · refine ⟨_, _, _, rfl, ?_⟩
          split
          · exact .inr (.inl rfl)
          · exact .inl rfl

theorem envCount_legal {a : PsgA} (h : PsgALegal a) : PsgALegal (envCount a) := by
  obtain ⟨tone, noise_pos, noise_le, lfsr, env_pos, env_le, dir, regs⟩ := h
  have := envPeriodA_le a.ra
  unfold envCount
  split
  · obtain ⟨step, dir', hold, form, turned⟩ := envAdvance_form a
    have dir_ok : dir' = 0 ∨ dir' = 15 := by
      rcases turned with rfl | rfl | rfl
      · exact dir
      · rcases dir with zero | full
        · exact .inr (by rw [zero]; rfl)
        · exact .inl (by rw [full]; rfl)
      · exact .inr rfl
    rw [form]
    exact ⟨tone, noise_pos, noise_le, lfsr, by simp, by simp [this], dir_ok, regs⟩
  · exact ⟨tone, noise_pos, noise_le, lfsr, by simp only; omega, by simp only; omega, dir, regs⟩

theorem advanceA_legal {a : PsgA} (h : PsgALegal a) : PsgALegal (advanceA a) :=
  envCount_legal (noiseStepA_legal (toneStepA_legal (toneStepA_legal (toneStepA_legal h 0) 1) 2))

/-! ### Register writes -/

theorem envRestart_legal {a : PsgA} (h : PsgALegal a) : PsgALegal (envRestart a) := by
  obtain ⟨tone, noise_pos, noise_le, lfsr, -, -, -, regs⟩ := h
  have := envPeriodA_le a.ra
  refine ⟨tone, noise_pos, noise_le, lfsr, by simp [envRestart], by simp [envRestart, this], ?_, regs⟩
  unfold envRestart
  split
  · exact .inl rfl
  · exact .inr rfl

theorem writeRegA_legal {a : PsgA} (h : PsgALegal a) (addr : Fin 16) (val : Byte) : PsgALegal (writeRegA a addr val) := by
  obtain ⟨tone, noise_pos, noise_le, lfsr, env_pos, env_le, dir, regs⟩ := h
  have stored : PsgALegal { a with ra := a.ra.set addr (val &&& maskA addr) } := by
    refine ⟨tone, noise_pos, noise_le, lfsr, env_pos, env_le, dir, masked_iff.2 fun n => ?_⟩
    by_cases hn : n = addr
    · subst hn
      rw [bank16_get_set_same, BitVec.le_def, BitVec.toNat_and]
      exact Nat.and_le_right
    · rw [bank16_get_set_ne _ _ hn]
      exact masked_iff.1 regs n
  unfold writeRegA
  split
  · exact envRestart_legal stored
  · exact stored

theorem psgALegal_reset : PsgALegal PsgA.reset := by
  refine ⟨fun ch => ?_, ?_⟩
  · fin_cases ch <;> decide
  · decide

theorem psgAEffect_legal {a a' : PsgA} (h : PsgAEffect a a') (legal : PsgALegal a) : PsgALegal a' := by
  cases h with
  | write addr val => exact writeRegA_legal legal addr val
  | count => exact advanceA_legal legal
  | reset => exact psgALegal_reset

end Sys2Proof.Proofs.PsgARanges
end

section
/-! Core B's counters and noise register stay in their ranges (10_state.md R50, R51, 42_psg_b.md R312, R313). -/

namespace Sys2Proof.Proofs.PsgBRanges

open Sys2Proof.Machine Sys2Proof.Laws Sys2Proof.Safety Sys2Proof.Proofs.StepEffects
open Sys2Proof.Proofs.ConfigurationRanges Sys2Proof.Proofs.PsgARanges

/-! ### The noise register -/

/-- `x` is a state the noise register can run from: not 0, and within its width (R51, R313). -/
def LfsrBLegal (cfg : Config) (x : BitVec 16) : Prop := x ≠ 0 ∧ x.toNat < 2 ^ cfg.snLfsrWidth

/-- The bit that a step of the noise register feeds back at its top (R313). -/
def feedbackB (cfg : Config) (white : Bool) (x : BitVec 16) : Bool :=
  if white then parity16 (x &&& cfg.snTaps) else x.getLsbD 0

theorem lfsrStepB_eq (cfg : Config) (white : Bool) (x : BitVec 16) :
    lfsrStepB cfg white x = (x >>> 1) ||| (if feedbackB cfg white x then seedB cfg else 0) := rfl

theorem seedB_toNat {cfg : Config} (h : ConfigRanges cfg) : (seedB cfg).toNat = 2 ^ (cfg.snLfsrWidth - 1) := by
  have width := h.snLfsrWidth_le
  have top : 2 ^ (cfg.snLfsrWidth - 1) < 2 ^ 16 := Nat.pow_lt_pow_right (by decide) (by have := h.snLfsrWidth_ge; omega)
  rw [seedB, BitVec.toNat_shiftLeft, Nat.shiftLeft_eq]
  simpa using Nat.mod_eq_of_lt top

theorem seedB_ne_zero {cfg : Config} (h : ConfigRanges cfg) : seedB cfg ≠ 0 := by
  intro zero
  have := seedB_toNat h
  rw [zero] at this
  exact absurd this.symm (Nat.two_pow_pos _).ne'

theorem seedB_legal {cfg : Config} (h : ConfigRanges cfg) : LfsrBLegal cfg (seedB cfg) := by
  refine ⟨seedB_ne_zero h, ?_⟩
  rw [seedB_toNat h]
  exact Nat.pow_lt_pow_right (by decide) (by have := h.snLfsrWidth_ge; omega)

/-- A register that holds bit 0 alone feeds a 1 back, because bit 0 is among the taps (R313). -/
theorem feedbackB_one {cfg : Config} (h : ConfigRanges cfg) (white : Bool) : feedbackB cfg white 1 = true := by
  unfold feedbackB
  split
  · have tap : (1 : BitVec 16) &&& cfg.snTaps = 1 := by
      have bit := h.snTaps
      apply BitVec.eq_of_getLsbD_eq
      intro i hi
      cases i with
      | zero => simp [bit]
      | succ i => simp
    rw [tap]
    decide
  · rfl

theorem lfsrStepB_legal {cfg : Config} (h : ConfigRanges cfg) (white : Bool) {x : BitVec 16} (legal : LfsrBLegal cfg x) :
    LfsrBLegal cfg (lfsrStepB cfg white x) := by
  obtain ⟨ne_zero, below⟩ := legal
  rw [lfsrStepB_eq]
  constructor
  · intro zero
    obtain ⟨shifted, fed⟩ := BitVec.or_eq_zero_iff.1 zero
    have one : x = 1 := BitVec.eq_of_toNat_eq (toNat_eq_one_of_half_zero ne_zero shifted)
    rw [one, feedbackB_one h, if_pos rfl] at fed
    exact seedB_ne_zero h fed
  · rw [BitVec.toNat_or]
    refine Nat.or_lt_two_pow ?_ ?_
    · rw [BitVec.toNat_ushiftRight, Nat.shiftRight_eq_div_pow]
      omega
    · split
      · exact (seedB_legal h).2
      · exact Nat.two_pow_pos _

/-! ### The counters of a tick -/

theorem effectivePeriodB_range {cfg : Config} (h : ConfigRanges cfg) (p : BitVec 10) :
    1 ≤ effectivePeriodB cfg p ∧ effectivePeriodB cfg p ≤ 1024 := by
  unfold effectivePeriodB
  split
  · have := h.snZeroPeriod
    omega
  · rename_i ne_zero
    have : p.toNat ≠ 0 := fun h0 => ne_zero (BitVec.eq_of_toNat_eq h0)
    have := p.isLt
    omega

theorem noiseReloadB_range {cfg : Config} (h : ConfigRanges cfg) (b : PsgB) : 1 ≤ noiseReloadB cfg b ∧
    noiseReloadB cfg b ≤ max 1024 (max cfg.snNoiseDiv.c0 (max cfg.snNoiseDiv.c1 cfg.snNoiseDiv.c2)) := by
  obtain ⟨pos0, pos1, pos2⟩ := h.snNoiseDiv_pos
  have := effectivePeriodB_range h (b.per.get 2)
  unfold noiseReloadB
  split <;> omega

theorem toneStepB_legal {cfg : Config} (ranges : ConfigRanges cfg) {b : PsgB} (h : PsgBLegal cfg b) (ch : Fin 3) :
    PsgBLegal cfg (toneStepB cfg b ch) := by
  obtain ⟨tone, rest⟩ := h
  have := tone ch
  have := effectivePeriodB_range ranges (b.per.get ch)
  unfold toneStepB
  split <;> exact ⟨forall_tri_set (P := fun n => 1 ≤ n ∧ n ≤ 1024) tone (by omega), rest⟩

theorem noiseStepB_legal {cfg : Config} (ranges : ConfigRanges cfg) {b : PsgB} (h : PsgBLegal cfg b) :
    PsgBLegal cfg (noiseStepB cfg b) := by
  obtain ⟨tone, noise_pos, noise_le, lfsr⟩ := h
  obtain ⟨reload_pos, reload_le⟩ := noiseReloadB_range ranges b
  unfold noiseStepB
  split
  · refine ⟨tone, reload_pos, reload_le, ?_⟩
    dsimp only
    split
    · exact lfsr
    · exact lfsrStepB_legal ranges _ lfsr
  · exact ⟨tone, by simp only; omega, (Nat.sub_le _ _).trans noise_le, lfsr⟩

theorem advanceB_legal {cfg : Config} (ranges : ConfigRanges cfg) {b : PsgB} (h : PsgBLegal cfg b) :
    PsgBLegal cfg (advanceB cfg b) :=
  noiseStepB_legal ranges
    (toneStepB_legal ranges (toneStepB_legal ranges (toneStepB_legal ranges h 0) 1) 2)

/-! ### Latch and data bytes -/

/-- `b'` has the counters of `b`, and its noise register, which may be seeded again. -/
def CountersKept (cfg : Config) (b b' : PsgB) : Prop :=
  b'.toneCnt = b.toneCnt ∧ b'.noiseCnt = b.noiseCnt ∧ (b'.lfsr = b.lfsr ∨ b'.lfsr = seedB cfg)

theorem countersKept_latchB (cfg : Config) (b : PsgB) (r : BitVec 3) (d : BitVec 4) :
    CountersKept cfg b (latchB cfg b r d) := by
  unfold latchB
  dsimp only
  split
  case h_7 => exact ⟨rfl, rfl, .inr rfl⟩
  all_goals exact ⟨rfl, rfl, .inl rfl⟩

theorem countersKept_dataB (cfg : Config) (b : PsgB) (d : BitVec 6) : CountersKept cfg b (dataB cfg b d) := by
  unfold dataB
  split
  case h_7 => exact ⟨rfl, rfl, .inr rfl⟩
  all_goals exact ⟨rfl, rfl, .inl rfl⟩

theorem CountersKept.legal {cfg : Config} (ranges : ConfigRanges cfg) {b b' : PsgB} (h : CountersKept cfg b b')
    (legal : PsgBLegal cfg b) : PsgBLegal cfg b' := by
  obtain ⟨toneCnt, noiseCnt, lfsr⟩ := h
  obtain ⟨tone, noise_pos, noise_le, lfsr_legal⟩ := legal
  unfold PsgBLegal
  rw [toneCnt, noiseCnt]
  refine ⟨tone, noise_pos, noise_le, ?_⟩
  rcases lfsr with kept | seeded
  · rw [kept]
    exact lfsr_legal
  · rw [seeded]
    exact seedB_legal ranges

theorem psgBLegal_reset {cfg : Config} (ranges : ConfigRanges cfg) : PsgBLegal cfg (PsgB.reset cfg) := by
  have small : 1 ≤ 1024 := by decide
  refine ⟨fun ch => ?_, le_refl 1, le_max_of_le_left small, seedB_legal ranges⟩
  fin_cases ch <;> exact ⟨le_refl 1, small⟩

theorem psgBEffect_legal {cfg : Config} (ranges : ConfigRanges cfg) {b b' : PsgB} (h : PsgBEffect cfg b b')
    (legal : PsgBLegal cfg b) : PsgBLegal cfg b' := by
  cases h with
  | latch r d => exact (countersKept_latchB cfg b r d).legal ranges legal
  | data d => exact (countersKept_dataB cfg b d).legal ranges legal
  | count => exact advanceB_legal ranges legal
  | reset => exact psgBLegal_reset ranges

end Sys2Proof.Proofs.PsgBRanges
end

section
/-! Every register stays in the range 10_state.md gives it. -/

namespace Sys2Proof.Proofs.RegisterRanges

open Sys2Proof.Machine Sys2Proof.Laws Sys2Proof.Safety Sys2Proof.Proofs.StepEffects
open Sys2Proof.Proofs.ConfigurationRanges Sys2Proof.Proofs.ChannelRanges Sys2Proof.Proofs.PsgARanges
open Sys2Proof.Proofs.PsgBRanges

theorem channelLegal_leaveSource {cfg : Config} {x : Channel} (h : ChannelLegal cfg x) :
    ChannelLegal cfg (leaveSource x) := by
  obtain ⟨ring, converter, -⟩ := channelLegal_iff.1 h
  exact channelLegal_iff.2 ⟨ring, converter, Nat.zero_le _, .nil, fun _ mem => nomatch mem⟩

theorem effect_rangesLegal {s t : State} (h : Effect s t) (legal : RangesLegal s) : RangesLegal t := by
  obtain ⟨wf, cpuHz, vol, macc, reg, chans, psgA, psgB⟩ := legal
  have ranges := configRanges_of_wf wf
  have chan := fun c x => forall_chanOf_withChan (P := ChannelLegal s.cfg) (c := c) (x := x) chans
  cases h with
  | chan c x effect =>
    exact ⟨wf, cpuHz, vol, macc, reg, chan c x (channelEffect_legal ranges effect (chans c)), psgA, psgB⟩
  | slot k d d' => exact ⟨wf, cpuHz, vol, macc, List.length_set.trans reg, chans, psgA, psgB⟩
  | join c k => exact ⟨wf, cpuHz, vol, macc, List.length_set.trans reg, chan c _ (chans c), psgA, psgB⟩
  | leave k d =>
    exact ⟨wf, cpuHz, vol, macc, List.length_set.trans reg, chan d.core _ (channelLegal_leaveSource (chans d.core)),
      psgA, psgB⟩
  | clock hz pos =>
    refine ⟨wf, pos, vol, macc, reg, fun c => ?_, psgA, psgB⟩
    rw [chanOf_scaledClock]
    exact chans c
  | psgA a effect => exact ⟨wf, cpuHz, vol, macc, reg, chans, psgAEffect_legal effect psgA, psgB⟩
  | psgB b effect => exact ⟨wf, cpuHz, vol, macc, reg, chans, psgA, psgBEffect_legal ranges effect psgB⟩
  | volume v le => exact ⟨wf, cpuHz, le, macc, reg, chans, psgA, psgB⟩
  | accumulate m len => exact ⟨wf, cpuHz, vol, len.elim (·.trans macc) id, reg, chans, psgA, psgB⟩
  | _ => exact ⟨wf, cpuHz, vol, macc, reg, chans, psgA, psgB⟩

/-- Settles O10: every effect keeps the registers in their ranges, so every step does. -/
theorem stepKeepsRegisterRanges : Obligations.StepKeepsRegisterRanges :=
  fun _ _ legal h => step_keeps_of_effects (fun _ _ => effect_rangesLegal) h legal

end Sys2Proof.Proofs.RegisterRanges
end

section
/-! Every pool conserves its blocks and every playing state stays legal (10_state.md R62, 45_pool_mixer.md R450, R456,
R472): what one effect makes of one source. -/

namespace Sys2Proof.Proofs.SourceLegality

open Sys2Proof.Machine Sys2Proof.Laws Sys2Proof.Safety Sys2Proof.Proofs.StepEffects
open Sys2Proof.Proofs.ConfigurationRanges

/-! ### Pools -/

/-- The numbers of a pool's blocks, by where they stand. -/
def places (d : Source) : List Nat := d.clean ++ d.dirty ++ d.current.toList

/-- No block holds more codes than `cfg.blockLen`. -/
def FillsFit (cfg : Config) (d : Source) : Prop := ∀ blk ∈ d.blocks, blk.fill ≤ cfg.blockLen

theorem poolLegal_iff {cfg : Config} {d : Source} :
    PoolLegal cfg d ↔ d.blocks.length = cfg.poolBlocks ∧ (places d).Perm (List.range cfg.poolBlocks) ∧
      FillsFit cfg d ∧ ∀ b, d.current = some b → (blockOf d b).fill < cfg.blockLen := Iff.rfl

/-- A block that stands somewhere is one of the pool's. -/
theorem lt_length_of_mem_places {cfg : Config} {d : Source} {b : Nat} (h : PoolLegal cfg d) (mem : b ∈ places d) :
    b < d.blocks.length := by
  obtain ⟨len, perm, -, -⟩ := poolLegal_iff.1 h
  rw [len]
  exact List.mem_range.1 (perm.mem_iff.1 mem)

/-- A source whose blocks have only moved between the places, none of them to `current`. -/
theorem poolLegal_of_moved {cfg : Config} {d d' : Source} (h : PoolLegal cfg d) (blocks : d'.blocks = d.blocks)
    (moved : (places d').Perm (places d)) (current : ∀ b, d'.current = some b → d.current = some b) :
    PoolLegal cfg d' := by
  obtain ⟨len, perm, fits, room⟩ := poolLegal_iff.1 h
  refine poolLegal_iff.2 ⟨by rw [blocks, len], moved.trans perm, by rwa [FillsFit, blocks], fun b cur => ?_⟩
  unfold blockOf
  rw [blocks]
  exact room b (current b cur)

/-- The current block queued is a block moved (R455). -/
theorem poolLegal_queue {cfg : Config} {d : Source} {b : Nat} (len : d.blocks.length = cfg.poolBlocks)
    (perm : (places d).Perm (List.range cfg.poolBlocks)) (fits : FillsFit cfg d) (cur : d.current = some b) :
    PoolLegal cfg { d with dirty := d.dirty ++ [b], current := none } := by
  refine poolLegal_iff.2 ⟨len, ?_, fits, fun _ none => nomatch none⟩
  simpa [places, cur] using perm

theorem poolLegal_get {cfg : Config} (blockLen_pos : 0 < cfg.blockLen) {d : Source} {b : Nat} {rest : List Nat}
    (h : PoolLegal cfg d) (idle : d.current = none) (clean : d.clean = b :: rest) :
    PoolLegal cfg (withBlock { d with clean := rest, current := some b } b { blockOf d b with fill := 0 }) := by
  have inPool : b < d.blocks.length := lt_length_of_mem_places h (by simp [places, clean])
  obtain ⟨len, perm, fits, -⟩ := poolLegal_iff.1 h
  refine poolLegal_iff.2 ⟨List.length_set.trans len, ?_, ?_, ?_⟩
  · refine List.Perm.trans ?_ perm
    simp only [places, withBlock, idle, clean, Option.toList, List.append_nil]
    exact List.perm_append_singleton b (rest ++ d.dirty)
  · exact forall_withBlock (P := fun blk => blk.fill ≤ cfg.blockLen) fits (Nat.zero_le _)
  · rintro _ ⟨rfl⟩
    rw [blockOf_withBlock_same (d := { d with clean := rest, current := some b }) _ inPool]
    exact blockLen_pos

theorem fillsFit_sourceFilled {cfg : Config} {d : Source} {b : Nat} (fits : FillsFit cfg d)
    (room : (blockOf d b).fill < cfg.blockLen) (v : Byte) : FillsFit cfg (sourceFilled d b v) :=
  forall_withBlock (P := fun blk => blk.fill ≤ cfg.blockLen) fits room

theorem poolLegal_fill {cfg : Config} {d : Source} {b : Nat} (h : PoolLegal cfg d) (v : Byte) (cur : d.current = some b)
    (notFull : (blockOf d b).fill + 1 ≠ cfg.blockLen) : PoolLegal cfg (sourceFilled d b v) := by
  have inPool : b < d.blocks.length := lt_length_of_mem_places h (by simp [places, cur])
  obtain ⟨len, perm, fits, room⟩ := poolLegal_iff.1 h
  refine poolLegal_iff.2 ⟨List.length_set.trans len, perm, fillsFit_sourceFilled fits (room b cur) v, fun b' cur' => ?_⟩
  obtain rfl : b = b' := Option.some.inj (cur.symm.trans cur')
  change (blockOf (withBlock d b _) b).fill < cfg.blockLen
  rw [blockOf_withBlock_same _ inPool]
  have := room b cur
  change (blockOf d b).fill + 1 < cfg.blockLen
  omega

theorem poolLegal_fillLast {cfg : Config} {d : Source} {b : Nat} (h : PoolLegal cfg d) (v : Byte)
    (cur : d.current = some b) :
    PoolLegal cfg { sourceFilled d b v with dirty := d.dirty ++ [b], current := none } := by
  obtain ⟨len, perm, fits, room⟩ := poolLegal_iff.1 h
  exact poolLegal_queue (d := sourceFilled d b v) (List.length_set.trans len) perm
    (fillsFit_sourceFilled fits (room b cur) v) cur

/-- A block mixed goes from the front of `dirty` to the end of `clean` (R471). -/
theorem poolLegal_mixed {cfg : Config} {d : Source} {b : Nat} {rest : List Nat} (h : PoolLegal cfg d)
    (dirty : d.dirty = b :: rest) (hold : Nat) : PoolLegal cfg (returnBlock (wakeSource cfg d) b rest hold) := by
  have wake : (wakeSource cfg d).clean = d.clean ∧ (wakeSource cfg d).current = d.current := by
    unfold wakeSource
    split <;> exact ⟨rfl, rfl⟩
  refine poolLegal_of_moved h (wakeSource_blocks cfg d) ?_ fun c cur => wake.2 ▸ cur
  simp [places, returnBlock, wake, dirty]

theorem sourceEffect_poolLegal {cfg : Config} (ranges : ConfigRanges cfg) {d d' : Source} (h : SourceEffect cfg d d')
    (legal : PoolLegal cfg d) : PoolLegal cfg d' := by
  cases h with
  | get b rest idle clean => exact poolLegal_get ranges.blockLen_pos legal idle clean
  | put b cur =>
    obtain ⟨len, perm, fits, -⟩ := poolLegal_iff.1 legal
    exact poolLegal_queue len perm fits cur
  | fill b v cur notFull => exact poolLegal_fill legal v cur notFull
  | fillLast b v cur => exact poolLegal_fillLast legal v cur
  | mixed b rest dirty => exact poolLegal_mixed legal dirty _
  | _ => exact legal

theorem poolLegal_newSource (cfg : Config) (c : CoreId) (sync blocking : Bool) (ms : Nat) :
    PoolLegal cfg (newSource cfg c sync blocking ms) := by
  refine poolLegal_iff.2 ⟨List.length_replicate, by simp [places, newSource], fun blk mem => ?_, fun _ none => nomatch none⟩
  rw [List.eq_of_mem_replicate mem]
  exact Nat.zero_le _

/-! ### Playing states -/

/-- An update without a dirty block counts towards `cfg.starveLimit`, and silences the source there (R471). -/
theorem playLegal_starve {cfg : Config} {d : Source} (h : PlayLegal cfg d) :
    PlayLegal cfg (starveSource cfg d) := by
  obtain ⟨playing, buffering, -⟩ := h
  unfold starveSource
  split
  · exact ⟨fun st => (nomatch st), fun st => (nomatch st), fun st => absurd rfl st⟩
  · exact ⟨playing, buffering, fun _ => by simp only; omega⟩

theorem wakeSource_playing {cfg : Config} {d : Source} (h : PlayLegal cfg d)
    (playing : (wakeSource cfg d).st = .playing) : (wakeSource cfg d).holdoffCnt = 0 := by
  unfold wakeSource at playing ⊢
  split at playing
  · exact nomatch playing
  · rw [if_neg ‹_›]
    exact h.1 playing

/-- A source that has had a block mixed plays exactly when its holdoff is used up (R472). -/
theorem playLegal_mixed {cfg : Config} (starveLimit_pos : 0 < cfg.starveLimit) {d : Source} {b : Nat} {rest : List Nat}
    (h : PlayLegal cfg d) (n : Nat) :
    PlayLegal cfg (returnBlock (wakeSource cfg d) b rest ((wakeSource cfg d).holdoffCnt - n)) := by
  have playing := wakeSource_playing h
  unfold returnBlock
  refine ⟨fun st => ?_, fun st => ?_, fun _ => starveLimit_pos⟩
  · dsimp only at st ⊢
    split at st
    · rename_i done
      exact done.2
    · rw [playing st, Nat.zero_sub]
  · dsimp only at st ⊢
    split at st
    · exact nomatch st
    · rename_i more
      exact Nat.pos_of_ne_zero fun zero => more ⟨st, zero⟩

theorem sourceEffect_playLegal {cfg : Config} (ranges : ConfigRanges cfg) {d d' : Source} (h : SourceEffect cfg d d')
    (legal : PlayLegal cfg d) : PlayLegal cfg d' := by
  cases h with
  | starve => exact playLegal_starve legal
  | mixed b rest dirty => exact playLegal_mixed ranges.starveLimit_pos legal _
  | _ => exact legal

theorem playLegal_newSource (cfg : Config) (c : CoreId) (sync blocking : Bool) (ms : Nat) :
    PlayLegal cfg (newSource cfg c sync blocking ms) :=
  ⟨fun st => (nomatch st), fun st => (nomatch st), fun st => absurd rfl st⟩

/-! ### The descriptor -/

/-- No effect on a source changes whose it is, or how it was registered (R61). -/
theorem sourceEffect_descriptor {cfg : Config} {d d' : Source} (h : SourceEffect cfg d d') :
    d'.core = d.core ∧ d'.sync = d.sync ∧ d'.blocking = d.blocking := by
  cases h with
  | mixed =>
    unfold returnBlock wakeSource
    split <;> exact ⟨rfl, rfl, rfl⟩
  | _ => exact ⟨rfl, rfl, rfl⟩

end Sys2Proof.Proofs.SourceLegality
end

section
/-! The registry stays consistent (10_state.md R39, R40, R60, R64, 60_exceptions.md R567): handles and slots name each
other, the hold is on a synchronous blocking source, and the tick fractions are below one tick. -/

namespace Sys2Proof.Proofs.RegistryLegality

open Sys2Proof.Machine Sys2Proof.Laws Sys2Proof.Safety Sys2Proof.Proofs.StepEffects
open Sys2Proof.Proofs.ConfigurationRanges Sys2Proof.Proofs.SourceLegality

/-! ### The invariant in parts -/

/-- The core of every registered source is attached and has the source's slot as its handle (R40, R60). -/
def SourcesNamed (s : State) : Prop :=
  ∀ k d, sourceAt s k = some d → (chanOf s d.core).handle = some k ∧ (chanOf s d.core).attached = true

/-- The handle of every core is the slot of a source of that core (R40). -/
def HandlesNamed (s : State) : Prop := ∀ c k, (chanOf s c).handle = some k → ∃ d, sourceAt s k = some d ∧ d.core = c

/-- Every registered source has a legal pool and a legal playing state. -/
def SourcesLegal (s : State) : Prop := ∀ k d, sourceAt s k = some d → PoolLegal s.cfg d ∧ PlayLegal s.cfg d

/-- S is held only on a synchronous blocking source (R567). -/
def HoldLegal (s : State) : Prop :=
  ∀ k, s.holdS = some k → ∃ d, sourceAt s k = some d ∧ d.sync = true ∧ d.blocking = true

/-- The tick fraction of every attached core is below one tick (R39). -/
def FractionsLegal (s : State) : Prop :=
  ∀ c, (chanOf s c).attached = true → (chanOf s c).cycAcc < s.cpuHz * tickDen s c

theorem registryLegal_iff {s : State} : RegistryLegal s ↔ s.cfg.wf = true ∧ 0 < s.cpuHz ∧ SourcesNamed s ∧
    HandlesNamed s ∧ SourcesLegal s ∧ HoldLegal s ∧ FractionsLegal s := by
  constructor
  · rintro ⟨wf, cpuHz, sources, handles, hold, fractions⟩
    refine ⟨wf, cpuHz, fun k d hd => ?_, handles, fun k d hd => ?_, hold, fractions⟩
    · obtain ⟨handle, attached, -⟩ := sources k d hd
      exact ⟨handle, attached⟩
    · obtain ⟨-, -, legal⟩ := sources k d hd
      exact legal
  · rintro ⟨wf, cpuHz, named, handles, legal, hold, fractions⟩
    refine ⟨wf, cpuHz, fun k d hd => ?_, handles, hold, fractions⟩
    obtain ⟨handle, attached⟩ := named k d hd
    exact ⟨handle, attached, legal k d hd⟩

theorem holdLegal_of_free {s : State} (free : s.holdS = none) : HoldLegal s := by
  intro k held
  rw [free] at held
  exact nomatch held

/-! ### Pools and playing states -/

theorem effect_sourcesLegal {s t : State} (ranges : ConfigRanges s.cfg) (h : Effect s t) (legal : SourcesLegal s) :
    SourcesLegal t := by
  have slot := fun k o => forall_sourceAt_withSlot (P := fun d => PoolLegal s.cfg d ∧ PlayLegal s.cfg d) (k := k) (o := o)
    legal
  cases h with
  | slot k d d' hs effect =>
    obtain ⟨pool, play⟩ := legal k d hs
    refine slot k (some d') fun e he => ?_
    cases he
    exact ⟨sourceEffect_poolLegal ranges effect pool, sourceEffect_playLegal ranges effect play⟩
  | join c k sync blocking ms =>
    refine slot k (some _) fun e he => ?_
    cases he
    exact ⟨poolLegal_newSource .., playLegal_newSource ..⟩
  | leave k => exact slot k none fun _ he => nomatch he
  | _ => exact legal

/-! ### Effects that neither register nor remove a source -/

/-- The two slots hold sources of one core that were registered alike, or none does. -/
def SameDescriptor (o o' : Option Source) : Prop :=
  Option.Rel (fun d d' => d'.core = d.core ∧ d'.sync = d.sync ∧ d'.blocking = d.blocking) o o'

theorem SameDescriptor.refl (o : Option Source) : SameDescriptor o o := by
  cases o with
  | none => exact .none
  | some d => exact .some ⟨rfl, rfl, rfl⟩

/-- What binds cores and sources to each other is the same in `s` and `t`; a core may have been attached. -/
structure LinksKept (s t : State) : Prop where
  handle : ∀ c, (chanOf t c).handle = (chanOf s c).handle
  attached : ∀ c, (chanOf s c).attached = true → (chanOf t c).attached = true
  source : ∀ k, SameDescriptor (sourceAt s k) (sourceAt t k)

theorem LinksKept.source_back {s t : State} (h : LinksKept s t) {k : Nat} {d' : Source} (hd : sourceAt t k = some d') :
    ∃ d, sourceAt s k = some d ∧ d'.core = d.core := by
  have rel := h.source k
  rw [hd] at rel
  cases hs : sourceAt s k with
  | none => rw [hs] at rel; cases rel
  | some d =>
    rw [hs] at rel
    cases rel with
    | some same => exact ⟨d, rfl, same.1⟩

theorem LinksKept.source_forth {s t : State} (h : LinksKept s t) {k : Nat} {d : Source} (hd : sourceAt s k = some d) :
    ∃ d', sourceAt t k = some d' ∧ d'.core = d.core ∧ d'.sync = d.sync ∧ d'.blocking = d.blocking := by
  have rel := h.source k
  rw [hd] at rel
  cases ht : sourceAt t k with
  | none => rw [ht] at rel; cases rel
  | some d' =>
    rw [ht] at rel
    cases rel with
    | some same => exact ⟨d', rfl, same⟩

theorem LinksKept.sourcesNamed {s t : State} (h : LinksKept s t) (named : SourcesNamed s) : SourcesNamed t := by
  intro k d' hd'
  obtain ⟨d, hd, core⟩ := h.source_back hd'
  obtain ⟨handle, attached⟩ := named k d hd
  rw [core, h.handle]
  exact ⟨handle, h.attached _ attached⟩

theorem LinksKept.handlesNamed {s t : State} (h : LinksKept s t) (named : HandlesNamed s) : HandlesNamed t := by
  intro c k handle
  rw [h.handle] at handle
  obtain ⟨d, hd, core⟩ := named c k handle
  obtain ⟨d', hd', core', -⟩ := h.source_forth hd
  exact ⟨d', hd', core'.trans core⟩

theorem LinksKept.holdLegal {s t : State} (h : LinksKept s t) (kept : t.holdS = s.holdS) (legal : HoldLegal s) :
    HoldLegal t := by
  intro k held
  rw [kept] at held
  obtain ⟨d, hd, sync, blocking⟩ := legal k held
  obtain ⟨d', hd', -, sync', blocking'⟩ := h.source_forth hd
  exact ⟨d', hd', sync'.trans sync, blocking'.trans blocking⟩

theorem LinksKept.syncOf {s t : State} (h : LinksKept s t) (c : CoreId) : syncOf t c = syncOf s c := by
  refine syncOf_congr (h.handle c) fun k _ => ?_
  have rel := h.source k
  generalize sourceAt s k = o at *
  generalize sourceAt t k = o' at *
  cases rel with
  | none => rfl
  | some same => exact congrArg some same.2.1

theorem tickDen_congr {s t : State} {c : CoreId} (cfg : t.cfg = s.cfg) (sync : syncOf t c = syncOf s c) :
    tickDen t c = tickDen s c := by
  rw [tickDen, tickDen, cfg, sync]

/-- What one effect on a channel leaves of the core's attachment: all of it, or, for a core attached again, a handle that
is still none. -/
theorem channelEffect_links {s : State} {c : CoreId} {x : Channel} (h : ChannelEffect s c x) :
    x.handle = (chanOf s c).handle ∧ ((chanOf s c).attached = true → x.attached = true) := by
  cases h with
  | drain =>
    obtain ⟨_, _, _, form, -⟩ := drainChan_form s.cfg (chanOf s c)
    rw [form]
    exact ⟨rfl, id⟩
  | attach single => exact ⟨single.symm, fun _ => rfl⟩
  | _ => exact ⟨rfl, id⟩

/-- What one effect on a channel makes of its tick fraction. -/
theorem channelEffect_fraction {s : State} {c : CoreId} {x : Channel} (tick : 0 < s.cpuHz * tickDen s c)
    (h : ChannelEffect s c x) (legal : (chanOf s c).attached = true → (chanOf s c).cycAcc < s.cpuHz * tickDen s c)
    (attached : x.attached = true) : x.cycAcc < s.cpuHz * tickDen s c := by
  cases h with
  | drain =>
    obtain ⟨_, _, _, form, -⟩ := drainChan_form s.cfg (chanOf s c)
    rw [form] at attached ⊢
    exact legal attached
  | timing _ cycAcc _ _ fraction =>
    rcases fraction with kept | ⟨acc, remains⟩
    · exact kept.trans_lt (legal attached)
    · exact remains.trans_lt (Nat.mod_lt _ tick)
  | attach => exact tick
  | _ => exact legal attached

theorem linksKept_withChan {s : State} {c : CoreId} {x : Channel} (handle : x.handle = (chanOf s c).handle)
    (attached : (chanOf s c).attached = true → x.attached = true) : LinksKept s (withChan s c x) where
  handle c' := by
    by_cases hc : c' = c
    · subst hc
      rw [chanOf_withChan_same, handle]
    · rw [chanOf_withChan_ne _ _ hc]
  attached c' h := by
    by_cases hc : c' = c
    · subst hc
      rw [chanOf_withChan_same]
      exact attached h
    · rwa [chanOf_withChan_ne _ _ hc]
  source k := .refl _

theorem linksKept_withSlot {s : State} {k : Nat} {d d' : Source} (hs : sourceAt s k = some d)
    (same : d'.core = d.core ∧ d'.sync = d.sync ∧ d'.blocking = d.blocking) :
    LinksKept s (withSlot s k (some d')) where
  handle _ := rfl
  attached _ := id
  source j := by
    by_cases hj : j = k
    · subst hj
      rw [sourceAt_withSlot_same _ (sourceAt_lt hs), hs]
      exact .some same
    · rw [sourceAt_withSlot_ne _ _ hj]
      exact .refl _

theorem linksKept_scaledClock (s : State) (hz : Nat) : LinksKept s (scaledClock s hz) where
  handle c := by rw [chanOf_scaledClock, scaledChannel]
  attached c h := by rwa [chanOf_scaledClock, scaledChannel]
  source k := .refl _

/-! ### The tick fractions -/

/-- Where the links, the clock and the fractions are kept, the fractions stay legal. -/
theorem LinksKept.fractionsLegal {s t : State} (h : LinksKept s t) (cfg : t.cfg = s.cfg) (cpuHz : t.cpuHz = s.cpuHz)
    (fraction : ∀ c, (chanOf t c).attached = true → (chanOf t c).cycAcc < s.cpuHz * tickDen s c) : FractionsLegal t := by
  intro c attached
  rw [cpuHz, tickDen_congr cfg (h.syncOf c)]
  exact fraction c attached

theorem fractionsLegal_withChan {s : State} {c : CoreId} {x : Channel} (tick : ∀ c, 0 < s.cpuHz * tickDen s c)
    (h : ChannelEffect s c x) (legal : FractionsLegal s) : FractionsLegal (withChan s c x) := by
  obtain ⟨handle, attach⟩ := channelEffect_links h
  refine (linksKept_withChan handle attach).fractionsLegal rfl rfl fun c' attached => ?_
  by_cases hc : c' = c
  · subst hc
    rw [chanOf_withChan_same] at attached ⊢
    exact channelEffect_fraction (tick c') h (legal c') attached
  · rw [chanOf_withChan_ne _ _ hc] at attached ⊢
    exact legal c' attached

/-- CLOCK scales the fractions with the length of a tick (R425). -/
theorem fractionsLegal_scaledClock {s : State} {hz : Nat} (pos : 0 < hz) (legal : FractionsLegal s) :
    FractionsLegal (scaledClock s hz) := by
  intro c attached
  rw [chanOf_scaledClock] at attached ⊢
  rw [tickDen_congr (scaledClock_cfg s hz) ((linksKept_scaledClock s hz).syncOf c), scaledClock_cpuHz]
  have below := legal c attached
  change (chanOf s c).cycAcc * hz / s.cpuHz < hz * tickDen s c
  refine Nat.div_lt_of_lt_mul ?_
  calc (chanOf s c).cycAcc * hz < s.cpuHz * tickDen s c * hz := Nat.mul_lt_mul_of_pos_right below pos
    _ = s.cpuHz * (hz * tickDen s c) := by ring

/-! ### REGISTER -/

section Join

variable {s : State} {c : CoreId} {k : Nat} {d : Source}

theorem sourcesNamed_joined (single : (chanOf s c).handle = none) (attached : (chanOf s c).attached = true)
    (inRange : k < s.reg.length) (core : d.core = c) (named : SourcesNamed s) : SourcesNamed (joined s c k d) := by
  intro j e he
  by_cases hj : j = k
  · subst hj
    rw [sourceAt_joined_same c d inRange] at he
    cases he
    rw [core, chanOf_joined_same]
    exact ⟨rfl, attached⟩
  · rw [sourceAt_joined_ne s c d hj] at he
    have linked := named j e he
    have other : e.core ≠ c := by
      rintro rfl
      rw [single] at linked
      exact nomatch linked.1
    rwa [chanOf_joined_ne s k d other]

theorem handlesNamed_joined (inRange : k < s.reg.length) (free : sourceAt s k = none) (core : d.core = c)
    (named : HandlesNamed s) : HandlesNamed (joined s c k d) := by
  intro c' j handle
  by_cases hc : c' = c
  · subst hc
    rw [chanOf_joined_same] at handle
    obtain rfl : k = j := Option.some.inj handle
    exact ⟨d, sourceAt_joined_same c' d inRange, core⟩
  · rw [chanOf_joined_ne s k d hc] at handle
    obtain ⟨e, he, core'⟩ := named c' j handle
    have other : j ≠ k := by
      rintro rfl
      exact nomatch free.symm.trans he
    exact ⟨e, by rwa [sourceAt_joined_ne s c d other], core'⟩

theorem holdLegal_joined (free : sourceAt s k = none) (legal : HoldLegal s) : HoldLegal (joined s c k d) := by
  intro j held
  obtain ⟨e, he, flags⟩ := legal j held
  have other : j ≠ k := by
    rintro rfl
    exact nomatch free.symm.trans he
  exact ⟨e, by rwa [sourceAt_joined_ne s c d other], flags⟩

theorem fractionsLegal_joined (ranges : ConfigRanges s.cfg) (cpuHz : 0 < s.cpuHz) (free : sourceAt s k = none)
    (named : HandlesNamed s) (legal : FractionsLegal s) : FractionsLegal (joined s c k d) := by
  intro c' attached
  by_cases hc : c' = c
  · subst hc
    rw [chanOf_joined_same]
    exact Nat.mul_pos cpuHz (ConfigRanges.tickDen_pos (s := joined s c' k d) ranges c')
  · have handle : (chanOf (joined s c k d) c').handle = (chanOf s c').handle := by rw [chanOf_joined_ne s k d hc]
    have sync : syncOf (joined s c k d) c' = syncOf s c' := by
      refine syncOf_congr handle fun j hj => ?_
      obtain ⟨e, he, -⟩ := named c' j hj
      have other : j ≠ k := by
        rintro rfl
        exact nomatch free.symm.trans he
      rw [sourceAt_joined_ne s c d other]
    rw [chanOf_joined_ne s k d hc] at attached ⊢
    rw [joined_cpuHz, tickDen_congr (joined_cfg s c k d) sync]
    exact legal c' attached

end Join

/-! ### DEREGISTER -/

section Leave

variable {s : State} {k : Nat} {d : Source}

theorem sourcesNamed_departed (hs : sourceAt s k = some d) (named : SourcesNamed s) :
    SourcesNamed (departed s d.core k) := by
  intro j e he
  have hj : j ≠ k := by
    rintro rfl
    rw [sourceAt_departed_same d.core (sourceAt_lt hs)] at he
    exact nomatch he
  rw [sourceAt_departed_ne s d.core hj] at he
  have linked := named j e he
  have other : e.core ≠ d.core := fun core =>
    hj (Option.some.inj (linked.1.symm.trans (core ▸ (named k d hs).1)))
  rwa [chanOf_departed_ne s k other]

theorem handlesNamed_departed (hs : sourceAt s k = some d) (named : HandlesNamed s) :
    HandlesNamed (departed s d.core k) := by
  intro c j handle
  have hc : c ≠ d.core := by
    rintro rfl
    rw [chanOf_departed_same] at handle
    exact nomatch handle
  rw [chanOf_departed_ne s k hc] at handle
  obtain ⟨e, he, core⟩ := named c j handle
  have hj : j ≠ k := by
    rintro rfl
    rw [hs] at he
    cases he
    exact hc core.symm
  exact ⟨e, by rwa [sourceAt_departed_ne s d.core hj], core⟩

theorem fractionsLegal_departed (hs : sourceAt s k = some d) (named : HandlesNamed s) (legal : FractionsLegal s) :
    FractionsLegal (departed s d.core k) := by
  intro c attached
  have hc : c ≠ d.core := by
    rintro rfl
    rw [chanOf_departed_same] at attached
    exact nomatch attached
  have sync : syncOf (departed s d.core k) c = syncOf s c := by
    refine syncOf_congr (by rw [chanOf_departed_ne s k hc]) fun j hj => ?_
    obtain ⟨e, he, core⟩ := named c j hj
    have other : j ≠ k := by
      rintro rfl
      rw [hs] at he
      cases he
      exact hc core.symm
    rw [sourceAt_departed_ne s d.core other]
  rw [chanOf_departed_ne s k hc] at attached ⊢
  rw [departed_cpuHz, tickDen_congr (departed_cfg s d.core k) sync]
  exact legal c attached

end Leave

/-! ### Every effect, every step -/

theorem effect_registryLegal {s t : State} (h : Effect s t) (legal : RegistryLegal s) : RegistryLegal t := by
  obtain ⟨wf, cpuHz, named, handles, sources, hold, fractions⟩ := registryLegal_iff.1 legal
  have ranges := configRanges_of_wf wf
  have sources' := effect_sourcesLegal ranges h sources
  have kept {u : State} (links : LinksKept s u) := And.intro (links.sourcesNamed named) (links.handlesNamed handles)
  refine registryLegal_iff.2 ⟨effect_cfg h ▸ wf, ?_⟩
  cases h with
  | chan c x effect =>
    obtain ⟨handle, attached⟩ := channelEffect_links effect
    have links := linksKept_withChan handle attached
    have tick c := Nat.mul_pos cpuHz (ranges.tickDen_pos c)
    exact ⟨cpuHz, (kept links).1, (kept links).2, sources', links.holdLegal rfl hold,
      fractionsLegal_withChan tick effect fractions⟩
  | slot k d d' hs effect =>
    have links := linksKept_withSlot hs (sourceEffect_descriptor effect)
    exact ⟨cpuHz, (kept links).1, (kept links).2, sources', links.holdLegal rfl hold,
      links.fractionsLegal rfl rfl fractions⟩
  | join c k sync blocking ms single attached inRange free =>
    exact ⟨cpuHz, sourcesNamed_joined single attached inRange rfl named, handlesNamed_joined inRange free rfl handles,
      sources', holdLegal_joined free hold, fractionsLegal_joined ranges cpuHz free handles fractions⟩
  | leave k d unheld hs =>
    exact ⟨cpuHz, sourcesNamed_departed hs named, handlesNamed_departed hs handles, sources',
      holdLegal_of_free unheld, fractionsLegal_departed hs handles fractions⟩
  | hold k d hs sync blocking =>
    refine ⟨cpuHz, named, handles, sources', fun j held => ?_, fractions⟩
    cases held
    exact ⟨d, hs, sync, blocking⟩
  | release => exact ⟨cpuHz, named, handles, sources', holdLegal_of_free rfl, fractions⟩
  | clock hz pos =>
    have links := linksKept_scaledClock s hz
    exact ⟨pos, (kept links).1, (kept links).2, sources', links.holdLegal rfl hold,
      fractionsLegal_scaledClock pos fractions⟩
  | _ => exact ⟨cpuHz, named, handles, sources', hold, fractions⟩

/-- Settles O11: every effect keeps the registry consistent, so every step does. -/
theorem stepKeepsRegistry : Obligations.StepKeepsRegistry :=
  fun _ _ legal h => step_keeps_of_effects (fun _ _ => effect_registryLegal) h legal

end Sys2Proof.Proofs.RegistryLegality
end

section
/-! The decay accumulators stay within 2^31 (20_memory.md R106): one sample moves an accumulator towards
`-level * 65536` and not past it, and a level has 16 bits (40_ring_buffer.md R203). -/

namespace Sys2Proof.Proofs.DecayBound

open Sys2Proof.Machine Sys2Proof.Laws Sys2Proof.Safety Sys2Proof.Proofs.StepEffects

/-- With a time constant the accumulator ends between where it stood and its aim; without one it stays. -/
theorem decayAfter_between (x : Channel) (level : Int) :
    min x.decay (-(level * 65536)) ≤ decayAfter x level ∧ decayAfter x level ≤ max x.decay (-(level * 65536)) := by
  by_cases untimed : x.tau = 0
  · rw [decayAfter, if_pos untimed]
    exact ⟨min_le_left _ _, le_max_left _ _⟩
  · rw [decayAfter, if_neg untimed]
    have one : (1 : Int) ≤ x.tau := by omega
    obtain ⟨falls, rises⟩ := tdiv_between (level * 65536 + x.decay) (Nat.pos_of_ne_zero untimed)
    rcases le_total 0 (level * 65536 + x.decay) with above | below
    · obtain ⟨nonneg, within⟩ := falls above
      have := le_mul_of_one_le_left nonneg one
      omega
    · obtain ⟨nonpos, within⟩ := rises below
      have := mul_le_of_one_le_left nonpos one
      omega

theorem decayAfter_bounded {x : Channel} {level : Int} (lo : -32768 ≤ level) (hi : level ≤ 32767)
    (bounded : |x.decay| ≤ 2 ^ 31) : |decayAfter x level| ≤ 2 ^ 31 := by
  have between := decayAfter_between x level
  rw [abs_le] at bounded ⊢
  omega

theorem drainChan_decay (cfg : Config) (x : Channel) : (drainChan cfg x).2.decay = x.decay := by
  obtain ⟨_, _, _, form, -⟩ := drainChan_form cfg x
  rw [form]

theorem channelEffect_decayBounded {s : State} {c : CoreId} {x : Channel} (h : ChannelEffect s c x)
    (bounded : |(chanOf s c).decay| ≤ 2 ^ 31) : |x.decay| ≤ 2 ^ 31 := by
  cases h with
  | store level lo hi => exact decayAfter_bounded lo hi bounded
  | drain => rwa [drainChan_decay]
  | attach =>
    change |(0 : Int)| ≤ 2 ^ 31
    decide
  | _ => exact bounded

/-- Only an effect on a channel touches an accumulator; entering or leaving the registry and a new clock keep it. -/
theorem effect_decayBounded {s t : State} (h : Effect s t) (bounded : DecayBounded s) : DecayBounded t := by
  have chan := fun c x => forall_chanOf_withChan (P := fun x => |x.decay| ≤ 2 ^ 31) (c := c) (x := x) bounded
  cases h with
  | chan c x effect => exact chan c x (channelEffect_decayBounded effect (bounded c))
  | join c => exact chan c _ (bounded c)
  | leave k d => exact chan d.core _ (bounded d.core)
  | clock hz =>
    intro c
    rw [chanOf_scaledClock]
    exact bounded c
  | _ => exact bounded

/-- Settles O12: every effect keeps the accumulators within the bound, so every step does. -/
theorem stepKeepsDecayBounded : Obligations.StepKeepsDecayBounded :=
  fun _ _ bounded h => step_keeps_of_effects (fun _ _ => effect_decayBounded) h bounded

end Sys2Proof.Proofs.DecayBound
end

section
/-! The ring as its operations show it: the two counts (20_memory.md R103 to R105, 40_ring_buffer.md R218, R219) and the
codes DRAIN takes (R102, R213). -/

namespace Sys2Proof.Proofs.RingOperations

open Sys2Proof.Machine Sys2Proof.Laws Sys2Proof.Safety

/-! ### The operations of a running block -/

theorem exec_samplesAvailable {s : State} (running : Running s) (c : CoreId) :
    exec (.samplesAvailable (coreField c)) s = .next (answer .ok (.count (samplesAvailable s.cfg (chanOf s c))) s) := by
  simp only [exec, execSamplesAvailable, runStep_of_running running, onCore_coreField, settle_reply]

theorem exec_spaceRemaining {s : State} (running : Running s) (c : CoreId) :
    exec (.spaceRemaining (coreField c)) s = .next (answer .ok (.count (spaceRemaining s.cfg (chanOf s c))) s) := by
  simp only [exec, execSpaceRemaining, runStep_of_running running, onCore_coreField, settle_reply]

theorem exec_drain {s : State} (running : Running s) (c : CoreId) :
    exec (.drain (coreField c)) s =
      .next (answer .ok (.sample (drainChan s.cfg (chanOf s c)).1) (withChan s c (drainChan s.cfg (chanOf s c)).2)) := by
  simp only [exec, execDrain, runStep_of_running running, onCore_coreField, settle_reply, Machine.drain]

/-- A PUT_SAMPLE that ends without a fault found room and stored its level. -/
theorem exec_putSample_stored {s t : State} {c : CoreId} {level : BitVec 32}
    (h : exec (.putSample (coreField c) level) s = .next t) (stored : t.fault = none) :
    spaceRemaining s.cfg (chanOf s c) ≠ 0 ∧ t = withChan s c (storeLevel s.cfg (chanOf s c) level.toInt) := by
  simp only [exec, execPutSample] at h
  obtain ⟨running, -⟩ := runStep_next h
  simp only [runStep_of_running running, onCore_coreField] at h
  rcases putSample_cases c level.toInt s with ⟨-, -, room, put⟩ | ⟨-, put⟩ | ⟨-, -, -, put⟩ <;> rw [put] at h <;> cases h
  · exact ⟨room, rfl⟩
  · exact nomatch stored
  · exact nomatch stored

/-! ### The counts -/

/-- Settles O29: the count is `samples_available` itself, and a stored level moves `head` on by one. -/
theorem ringCounts : Obligations.RingCounts := by
  intro s c running
  refine ⟨samplesAvailable s.cfg (chanOf s c), ?count, Nat.le_sub_one_of_lt (samplesAvailable_lt _ _),
    exec_samplesAvailable running c, exec_spaceRemaining running c, fun level t put stored => ?put⟩
  case count => simpa [capacity] using samplesAvailable_cast s.cfg (chanOf s c)
  case put =>
    obtain ⟨room, rfl⟩ := exec_putSample_stored put stored
    rw [withChan_cfg, chanOf_withChan_same]
    exact samplesAvailable_put (storeLevel_head ..) (storeLevel_tail ..) room

/-! ### The codes DRAIN takes -/

/-- DRAIN with enough codes gives the last of the least number that brings `index` to `limit`. -/
theorem drainChan_reaches {cfg : Config} {k : Nat} {x : Channel} (enough : k ≤ samplesAvailable cfg x)
    (reached : x.limit ≤ x.index + k * x.increment) (least : ∀ j < k, x.index + j * x.increment < x.limit) :
    drainChan cfg x =
      (some (taken cfg k x).last, { taken cfg k x with index := x.index + k * x.increment - x.limit }) := by
  obtain ⟨index, limit, -⟩ := taken_kept cfg k x
  simp only [drainChan, drainLoop_reaches enough reached least, index, limit]

/-- DRAIN without enough codes takes them all and gives none. -/
theorem drainChan_runs_out {cfg : Config} {x : Channel}
    (short : x.index + samplesAvailable cfg x * x.increment < x.limit) :
    drainChan cfg x = (none, taken cfg (samplesAvailable cfg x) x) := by
  simp only [drainChan, drainLoop_runs_out short]

/-- Settles O31: DRAIN's loop ends after the least number of codes that reaches `limit`, or with the ring empty, and
`taken_eq` is the channel it leaves. -/
theorem drainTakesTheCodesItNeeds : Obligations.DrainTakesTheCodesItNeeds := by
  rintro s c x n running rfl rfl inRing
  refine ⟨fun k enough reached least => ⟨(taken s.cfg k (chanOf s c)).last, ?code, ?given⟩, fun short => ?short⟩
  case code =>
    rw [taken_eq s.cfg k _ inRing]
    rfl
  case given =>
    rw [exec_drain running, drainChan_reaches enough reached least, taken_eq s.cfg k _ inRing]
    rfl
  case short =>
    rw [exec_drain running, drainChan_runs_out short, taken_eq s.cfg _ _ inRing]
    rfl

end Sys2Proof.Proofs.RingOperations
end

section
/-! One micro-instruction of the speech microcontroller (43_speech.md R353 to R355, 20_memory.md R112). -/

namespace Sys2Proof.Proofs.MicroInstruction

open Sys2Proof.Machine Sys2Proof.Laws Sys2Proof.Safety

/-- The first read outside the ROM, the reads before it being inside, is the one that raises. -/
theorem microStep_stray {cfg : Config} {p : Speech} {pre post : List Nat} {a : Nat}
    (reads : (microInstr cfg p.ms).reads = pre ++ a :: post) (inside : ∀ r ∈ pre, r < cfg.rom.length)
    (outside : cfg.rom.length ≤ a) : microStep cfg p = .raised (.romRange a) p := by
  have before : pre.find? (fun r => (romRead cfg r).isNone) = none :=
    List.find?_eq_none.2 fun r mem => by simp [romRead, inside r mem]
  have first : (microInstr cfg p.ms).reads.find? (fun r => (romRead cfg r).isNone) = some a := by
    rw [reads, List.find?_append, before, Option.none_or, List.find?_cons_of_pos]
    simpa [romRead] using outside
  simp only [microStep, first]

theorem exec_micro_raised {s : State} {p : Speech} {f : Fault} (running : Running s)
    (h : microStep s.cfg s.speech = .raised f p) : exec .micro s = .next (takeFault f { s with speech := p }) := by
  simp only [exec, execMicro, runStep_of_running running, h, settle_raised]

/-- A micro-instruction whose reads lie in the ROM moves `ms`, takes its outcome and answers it. -/
theorem exec_micro_done {s : State} (running : Running s) (reads : ReadsInRom s.cfg (microInstr s.cfg s.speech.ms)) :
    exec .micro s = .next (answer .ok (.outcome (microInstr s.cfg s.speech.ms).out)
      { s with
        speech := takeOutcome s.cfg { s.speech with ms := (microInstr s.cfg s.speech.ms).next }
          (microInstr s.cfg s.speech.ms).out }) := by
  simp only [exec, execMicro, runStep_of_running running, microStep_reads reads, settle_reply]

/-- Settles O53: a stray read raises before anything is written; otherwise the outcome is taken, a frame by `loadFrame`. -/
theorem microInstructionFollowsItsRule : Obligations.MicroInstructionFollowsItsRule := by
  rintro s p m running rfl rfl
  refine ⟨fun pre a post reads inside outside => ?stray, fun reads cont => ?cont, fun reads halt => ?halt,
    fun fr reads frame => ?frame⟩
  case stray => exact exec_micro_raised running (microStep_stray reads inside outside)
  case cont =>
    rw [exec_micro_done running reads, cont]
    rfl
  case halt =>
    rw [exec_micro_done running reads, halt]
    rfl
  case frame =>
    rw [exec_micro_done running reads, frame]
    rfl

end Sys2Proof.Proofs.MicroInstruction
end

section
/-! What the next step of the block is (20_memory.md R120, log 1, log 2): the issued instruction, a step of the mixing
agent, or none (30_encoding.md R147, 60_exceptions.md R550). -/

namespace Sys2Proof.Proofs.NextStep

open Sys2Proof.Machine Sys2Proof.Laws Sys2Proof.Safety

/-! ### The kinds of step -/

theorem step_of_fault {s : State} {f : Fault} (h : s.fault = some f) : step s = .fault f := by
  simp only [step, nextMove, h]

theorem step_of_underway {s : State} (running : s.fault = none) (nothing : s.feed = []) (underway : s.mSeq ≠ []) :
    step s = mixerStep s := by
  simp [step, nextMove, running, nothing, underway]

theorem step_of_idle {s : State} (running : s.fault = none) (nothing : s.feed = []) (idle : s.mSeq = []) :
    step s = .refused .noIssue := by
  simp [step, nextMove, running, nothing, idle]

/-- A word that waits lets the mixing agent go first. -/
theorem step_of_waiting {s : State} {e : Issue} {rest : List Issue} (running : s.fault = none) (issued : s.feed = e :: rest)
    (underway : s.mSeq ≠ []) (waits : 0 < e.mFirst) :
    step s = mixerStep { s with feed := { e with mFirst := e.mFirst - 1 } :: rest } := by
  simp [step, nextMove, running, issued, underway, waits]

/-- With no UPDATE under way, or none to wait for, the mixing agent does not go before the issued word. -/
theorem not_mixerFirst {s : State} {e : Issue} (turn : s.mSeq = [] ∨ e.mFirst = 0) :
    (!s.mSeq.isEmpty && decide (0 < e.mFirst)) = false := by
  rcases turn with idle | now
  · simp [idle]
  · simp [now]

theorem step_of_command {s : State} {e : Issue} {rest : List Issue} {i : Instr} (running : s.fault = none)
    (issued : s.feed = e :: rest) (turn : s.mSeq = [] ∨ e.mFirst = 0) (decodes : decode e.enc = .instr i) :
    step s = exec i { s with feed := rest } := by
  simp only [step, nextMove, running, issued, not_mixerFirst turn, decodes, Bool.false_eq_true, if_false]

theorem step_of_noCommand {s : State} {e : Issue} {rest : List Issue} {why : Reject} (running : s.fault = none)
    (issued : s.feed = e :: rest) (turn : s.mSeq = [] ∨ e.mFirst = 0) (rejects : decode e.enc = .reject why) :
    step s = .refused (.notACommand why) := by
  simp only [step, nextMove, running, issued, not_mixerFirst turn, rejects, Bool.false_eq_true, if_false]

/-! ### The word of an issue -/

/-- A word of the opcode table that decodes is issued as the encoded word it stands for, with nothing to wait for. -/
theorem issueOfTable_decodes {nbits w : Nat} {i : Instr} (h : decodeTableWord nbits w = some i) :
    decode (issueOfTable nbits w).enc = .instr i := by
  unfold decodeTableWord at h
  split at h
  · cases h
  · rename_i e table
    split at h
    · rename_i decodes
      cases h
      rw [issueOfTable, table, Option.getD_some, decodes]
    · cases h

/-- The opcode bytes of R141. -/
def opcodes : List Nat :=
  [0x01, 0x02, 0x03, 0x04, 0x05, 0x06, 0x07, 0x08, 0x09, 0x0A, 0x10, 0x11, 0x12, 0x13, 0x14, 0x18, 0x19, 0x20, 0x21, 0x22,
    0x28, 0x29, 0x2A, 0x30, 0x31]

theorem cmdWidth_unlisted {op : Nat} (h : op ∉ opcodes) : cmdWidth op = none := by
  unfold cmdWidth
  split
  case h_26 => rfl
  all_goals exact absurd (by decide) h

theorem decode_unknownOpcode {nbits w : Nat} (long : 8 ≤ nbits) (fits : w < 2 ^ nbits)
    (unlisted : w / 2 ^ (nbits - 8) ∉ opcodes) :
    decode ⟨.cmd, nbits, w⟩ = .reject (.unknownOpcode (w / 2 ^ (nbits - 8))) := by
  have legal : ¬ (nbits < 8 ∨ 2 ^ nbits ≤ w) := by omega
  simp only [decode, decodeCmd, if_neg legal, cmdWidth_unlisted unlisted]

/-! ### The statements -/

/-- Settles O3: the issued word is decoded and run; a word of the opcode table is issued first and waits for nothing. -/
theorem stepRunsTheIssuedInstruction : Obligations.StepRunsTheIssuedInstruction :=
  ⟨fun _ _ _ _ => step_of_command, fun s nbits w _ running table =>
    step_of_command (s := s.withFetchWord nbits w) running rfl (.inr rfl) (issueOfTable_decodes table)⟩

/-- Settles O4: each clause is one kind of step, but for the one on the opcode bytes that begin no command. -/
theorem stepOtherwise : Obligations.StepOtherwise :=
  ⟨fun _ _ _ => step_of_waiting, fun _ => step_of_underway, fun _ => step_of_idle, fun _ _ _ _ => step_of_noCommand,
    fun _ _ => decode_unknownOpcode, fun _ _ => step_of_fault⟩

end Sys2Proof.Proofs.NextStep
end

section
/-! The encoder and the decoder are inverse to each other, but for bit 6 of a core B data byte (30_encoding.md R141 to R145,
42_psg_b.md R302). -/

namespace Sys2Proof.Proofs.Encoding

open Sys2Proof.Laws Sys2Proof.Safety

/-! ### Fields and joined bits (00_scope.md R13) -/

theorem joinBits_div {n m : Nat} (hi : Nat) (v : BitVec n) (h : n ≤ m) : joinBits hi v / 2 ^ m = hi / 2 ^ (m - n) := by
  rw [joinBits, ← Nat.add_sub_of_le h, pow_add, ← Nat.div_div_eq_div_mul, Nat.mul_comm,
    Nat.mul_add_div (Nat.two_pow_pos n), Nat.div_eq_of_lt v.isLt, Nat.add_sub_cancel_left, Nat.add_zero]

theorem joinBits_high {n : Nat} (hi : Nat) (v : BitVec n) : joinBits hi v / 2 ^ n = hi := by
  rw [joinBits_div hi v le_rfl, Nat.sub_self, pow_zero, Nat.div_one]

@[simp] theorem fieldAt_joinBits_low {n : Nat} (hi : Nat) (v : BitVec n) : fieldAt (joinBits hi v) 0 n = v := by
  apply BitVec.eq_of_toNat_eq
  simp [fieldAt, joinBits, Nat.mod_eq_of_lt v.isLt]

@[simp] theorem fieldAt_joinBits_high {n lo k : Nat} (hi : Nat) (v : BitVec n) (h : n ≤ lo) :
    fieldAt (joinBits hi v) lo k = fieldAt hi (lo - n) k := by
  rw [fieldAt, joinBits_div hi v h, fieldAt]

/-- A field put back below the bits above it. -/
theorem joinBits_fieldAt {w lo n hi : Nat} (above : w / 2 ^ (lo + n) = hi) :
    joinBits hi (fieldAt w lo n) = w / 2 ^ lo := by
  rw [← above, joinBits, fieldAt, BitVec.toNat_ofNat, pow_add, ← Nat.div_div_eq_div_mul, Nat.div_add_mod']

theorem joinBits_lowField (w n : Nat) : joinBits (w / 2 ^ n) (fieldAt w 0 n) = w := by
  rw [joinBits_fieldAt (by rw [Nat.zero_add]), pow_zero, Nat.div_one]

theorem fieldAt_toNat {n : Nat} (v : BitVec n) : fieldAt v.toNat 0 n = v := by
  rw [fieldAt, pow_zero, Nat.div_one, BitVec.ofNat_toNat, BitVec.setWidth_eq]

theorem toNat_wholeField {w n : Nat} (fits : w < 2 ^ n) : (fieldAt w 0 n).toNat = w := by
  rw [fieldAt, pow_zero, Nat.div_one, BitVec.toNat_ofNat, Nat.mod_eq_of_lt fits]

theorem toNat_topField {w nbits n : Nat} (long : n ≤ nbits) (fits : w < 2 ^ nbits) :
    (fieldAt w (nbits - n) n).toNat = w / 2 ^ (nbits - n) := by
  rw [fieldAt, BitVec.toNat_ofNat, Nat.mod_eq_of_lt]
  exact Nat.div_lt_of_lt_mul (by rwa [← pow_add, Nat.sub_add_cancel long])

@[simp] theorem flagBit_decide_one (b : BitVec 1) : flagBit (decide (b = 1#1)) = b := by
  revert b
  decide

@[simp] theorem flagBit_eq_one {b : Bool} : flagBit b = 1#1 ↔ b = true := by
  revert b
  decide

/-! ### Command words (R141) -/

theorem cmdWidth_bounds {op nbits : Nat} (h : cmdWidth op = some nbits) : op < 2 ^ 8 ∧ 8 ≤ nbits := by
  unfold cmdWidth at h
  split at h <;> cases h <;> decide

/-- What a word must be for `decodeCmd` to read `i` from it. -/
theorem decodeCmd_eq_instr_iff {nbits w : Nat} {i : Instr} : decodeCmd nbits w = .instr i ↔
    w < 2 ^ nbits ∧ cmdWidth (w / 2 ^ (nbits - 8)) = some nbits ∧ cmdInstr (w / 2 ^ (nbits - 8)) w = some i := by
  unfold decodeCmd
  constructor
  · intro h
    split at h
    · cases h
    · rename_i legal
      dsimp only at h
      split at h
      · rename_i width j hwidth hinstr
        split at h
        · rename_i same
          cases h
          exact ⟨by omega, same ▸ hwidth, hinstr⟩
        · cases h
      · cases h
  · rintro ⟨fits, width, operands⟩
    have ⟨_, long⟩ := cmdWidth_bounds width
    simp only [if_neg (show ¬ (nbits < 8 ∨ 2 ^ nbits ≤ w) by omega), width, operands, if_true]

/-- A word decodes to the command whose opcode and operands are its fields. -/
theorem decode_command {nbits w : Nat} {i : Instr} (op : Nat) (fits : w < 2 ^ nbits) (width : cmdWidth op = some nbits)
    (fields : fieldAt w (nbits - 8) 8 = fieldAt op 0 8 ∧ cmdInstr op w = some i) : decode ⟨.cmd, nbits, w⟩ = .instr i := by
  obtain ⟨opcode, operands⟩ := fields
  obtain ⟨byte, long⟩ := cmdWidth_bounds width
  have opcode : w / 2 ^ (nbits - 8) = op := by rw [← toNat_topField long fits, opcode, toNat_wholeField byte]
  exact decodeCmd_eq_instr_iff.2 ⟨fits, opcode ▸ width, opcode ▸ operands⟩

/-- The bits of a command word are those of its instruction's encoding: each operand is put back below the bits above it,
from the opcode down. -/
theorem encode_cmdInstr {nbits w op : Nat} {i : Instr} (opcode : w / 2 ^ (nbits - 8) = op)
    (width : cmdWidth op = some nbits) (operands : cmdInstr op w = some i) : ⟨.cmd, nbits, w⟩ = encode i := by
  unfold cmdInstr at operands
  split at operands
  case h_26 => cases operands
  all_goals
    cases operands
    cases width
    simp only [Nat.reduceSub, Nat.reducePow, Nat.div_one] at opcode
    simp [encode, joinBits_fieldAt, opcode]

theorem encode_of_decodeCmd {nbits w : Nat} {i : Instr} (h : decodeCmd nbits w = .instr i) :
    ⟨.cmd, nbits, w⟩ = encode i := by
  obtain ⟨-, width, operands⟩ := decodeCmd_eq_instr_iff.1 h
  exact encode_cmdInstr rfl width operands

/-! ### Register words of core A (R142) -/

theorem encode_aregRow (n : Fin 16) (v : Byte) : encode (aregRow n v) = aregWord n v := by
  fin_cases n <;> rfl

theorem decode_aregWord (n : Fin 16) (v : Byte) : decode (aregWord n v) = .instr (aregRow n v) := by
  have fits : ¬ (12 ≠ 12 ∨ 2 ^ 12 ≤ joinBits n v) := by simpa using joinBits_lt v (show n.val < 2 ^ 4 from n.isLt)
  simp only [decode, aregWord, decodeAreg, if_neg fits, joinBits_high, fieldAt_joinBits_low]
  fin_cases n <;> rfl

theorem decode_encode_aregRow (n : Fin 16) (v : Byte) : decode (encode (aregRow n v)) = .instr (aregRow n v) := by
  rw [encode_aregRow, decode_aregWord]

theorem decodeAreg_fits {nbits w : Nat} {i : Instr} (h : decodeAreg nbits w = .instr i) : nbits = 12 ∧ w < 2 ^ 12 := by
  unfold decodeAreg at h
  split at h
  · cases h
  · rename_i legal
    exact ⟨by omega, by omega⟩

/-- Every word of 12 bits is a register word. -/
theorem aregWord_fields {w : Nat} (fits : w < 2 ^ 12) :
    ∃ (n : Fin 16) (v : Byte), (⟨.areg, 12, w⟩ : Encoded) = aregWord n v :=
  ⟨⟨w / 2 ^ 8, by omega⟩, fieldAt w 0 8, by rw [aregWord, joinBits_lowField]⟩

/-! ### Bytes of core B (R143) -/

theorem encode_latchRow (r : Fin 8) (d : BitVec 4) : encode (latchRow r d) = latchWord r d := by
  fin_cases r <;> rfl

theorem decode_latchWord (r : Fin 8) (d : BitVec 4) : decode (latchWord r d) = .instr (latchRow r d) := by
  have fits : ¬ (8 ≠ 8 ∨ 2 ^ 8 ≤ joinBits (8 + r.val) d) := by
    simpa using joinBits_lt d (show 8 + r.val < 2 ^ 4 by omega)
  simp only [decode, latchWord, decodeBbyte, if_neg fits, joinBits_high, fieldAt_joinBits_low]
  fin_cases r <;> rfl

theorem decode_encode_latchRow (r : Fin 8) (d : BitVec 4) :
    decode (encode (latchRow r d)) = .instr (latchRow r d) := by
  rw [encode_latchRow, decode_latchWord]

/-- A byte whose bit 7 is clear is a data byte, whatever its bit 6 (R302). -/
theorem decode_dataByte {w : Nat} (clear : w < 2 ^ 7) : decode ⟨.bbyte, 8, w⟩ = .instr (.data (fieldAt w 0 6)) := by
  have fits : ¬ (8 ≠ 8 ∨ 2 ^ 8 ≤ w) := by omega
  simp only [decode, decodeBbyte, if_neg fits]
  split
  case h_9 => rfl
  all_goals omega

theorem decodeBbyte_fits {nbits w : Nat} {i : Instr} (h : decodeBbyte nbits w = .instr i) : nbits = 8 ∧ w < 2 ^ 8 := by
  unfold decodeBbyte at h
  split at h
  · cases h
  · rename_i legal
    exact ⟨by omega, by omega⟩

/-- Every byte whose bit 7 is set is a latch byte. -/
theorem latchWord_fields {w : Nat} (set : 2 ^ 7 ≤ w) (fits : w < 2 ^ 8) :
    ∃ (r : Fin 8) (d : BitVec 4), (⟨.bbyte, 8, w⟩ : Encoded) = latchWord r d :=
  have high : 8 + (w / 2 ^ 4 - 8) = w / 2 ^ 4 := by omega
  ⟨⟨w / 2 ^ 4 - 8, by omega⟩, fieldAt w 0 4, by rw [latchWord, high, joinBits_lowField]⟩

/-! ### Addresses of core S and the micro-instruction (R144, R145) -/

theorem decode_addressByte {w : Nat} (fits : w < 2 ^ 8) : decode ⟨.saddr, 8, w⟩ = .instr (.load (fieldAt w 0 8)) := by
  have fits : ¬ (8 ≠ 8 ∨ 2 ^ 8 ≤ w) := by omega
  simp only [decode, decodeSaddr, if_neg fits]

/-! ### The statements -/

/-- Settles O6: the words of the five formats, row by row; a command's operands are read back as fields of joined bits. -/
theorem decodeOfEncode : Obligations.DecodeOfEncode
  | .write .. => decode_command 0x01 (EncodeFits.write ..) rfl (by simp [cmdInstr])
  | .advance .. => decode_command 0x02 (EncodeFits.advance ..) rfl (by simp [cmdInstr])
  | .frame .. => decode_command 0x03 (EncodeFits.frame ..) rfl (by simp [cmdInstr])
  | .clock .. => decode_command 0x04 (EncodeFits.clock ..) rfl (by simp [cmdInstr])
  | .register .. => decode_command 0x05 (EncodeFits.register ..) rfl (by simp [cmdInstr])
  | .deregister .. => decode_command 0x06 (EncodeFits.deregister ..) rfl (by simp [cmdInstr])
  | .volume .. => decode_command 0x07 (EncodeFits.volume ..) rfl (by simp [cmdInstr])
  | .mute .. => decode_command 0x08 (EncodeFits.mute ..) rfl (by simp [cmdInstr])
  | .update => decode_command 0x09 EncodeFits.update rfl (by simp [cmdInstr])
  | .resume => decode_command 0x0A EncodeFits.resume rfl (by simp [cmdInstr])
  | .putSample .. => decode_command 0x10 (EncodeFits.putSample ..) rfl (by simp [cmdInstr])
  | .configureRate .. => decode_command 0x11 (EncodeFits.configureRate ..) rfl (by simp [cmdInstr])
  | .samplesAvailable .. => decode_command 0x12 (EncodeFits.samplesAvailable ..) rfl (by simp [cmdInstr])
  | .spaceRemaining .. => decode_command 0x13 (EncodeFits.spaceRemaining ..) rfl (by simp [cmdInstr])
  | .drain .. => decode_command 0x14 (EncodeFits.drain ..) rfl (by simp [cmdInstr])
  | .getWorkBuffer .. => decode_command 0x18 (EncodeFits.getWorkBuffer ..) rfl (by simp [cmdInstr])
  | .putWorkBuffer .. => decode_command 0x19 (EncodeFits.putWorkBuffer ..) rfl (by simp [cmdInstr])
  | .iterate .. => decode_command 0x20 (EncodeFits.iterate ..) rfl (by simp [cmdInstr])
  | .apply .. => decode_command 0x21 (EncodeFits.apply ..) rfl (by simp [cmdInstr])
  | .tick .. => decode_command 0x22 (EncodeFits.tick ..) rfl (by simp [cmdInstr])
  | .loadAddress .. => decode_command 0x28 (EncodeFits.loadAddress ..) rfl (by simp [cmdInstr])
  | .runMicro => decode_command 0x29 EncodeFits.runMicro rfl (by simp [cmdInstr])
  | .filterUpdate .. => decode_command 0x2A (EncodeFits.filterUpdate ..) rfl (by simp [cmdInstr])
  | .mixSource .. => decode_command 0x30 (EncodeFits.mixSource ..) rfl (by simp [cmdInstr])
  | .emit => decode_command 0x31 EncodeFits.emit rfl (by simp [cmdInstr])
  | .r0 v => decode_encode_aregRow 0 v
  | .r1 v => decode_encode_aregRow 1 v
  | .r2 v => decode_encode_aregRow 2 v
  | .r3 v => decode_encode_aregRow 3 v
  | .r4 v => decode_encode_aregRow 4 v
  | .r5 v => decode_encode_aregRow 5 v
  | .r6 v => decode_encode_aregRow 6 v
  | .r7 v => decode_encode_aregRow 7 v
  | .r8 v => decode_encode_aregRow 8 v
  | .r9 v => decode_encode_aregRow 9 v
  | .r10 v => decode_encode_aregRow 10 v
  | .r11 v => decode_encode_aregRow 11 v
  | .r12 v => decode_encode_aregRow 12 v
  | .r13 v => decode_encode_aregRow 13 v
  | .r14 v => decode_encode_aregRow 14 v
  | .r15 v => decode_encode_aregRow 15 v
  | .latch0 d => decode_encode_latchRow 0 d
  | .latch1 d => decode_encode_latchRow 1 d
  | .latch2 d => decode_encode_latchRow 2 d
  | .latch3 d => decode_encode_latchRow 3 d
  | .latch4 d => decode_encode_latchRow 4 d
  | .latch5 d => decode_encode_latchRow 5 d
  | .latch6 d => decode_encode_latchRow 6 d
  | .latch7 d => decode_encode_latchRow 7 d
  | .data d => (decode_dataByte (by omega)).trans (by rw [fieldAt_toNat])
  | .load addr => (decode_addressByte addr.isLt).trans (by rw [fieldAt_toNat])
  | .micro => rfl

/-- An encoding decodes to the instruction it encodes and to no other. -/
theorem instr_eq_of_decode_encode {i j : Instr} (h : decode (encode j) = .instr i) : j = i :=
  Decoded.instr.inj ((decodeOfEncode j).symm.trans h)

theorem encode_of_decodeAreg {nbits w : Nat} {i : Instr} (h : decodeAreg nbits w = .instr i) :
    ⟨.areg, nbits, w⟩ = encode i := by
  obtain ⟨rfl, fits⟩ := decodeAreg_fits h
  obtain ⟨n, v, word⟩ := aregWord_fields fits
  rw [← encode_aregRow] at word
  have decodes : decode (encode (aregRow n v)) = .instr i := word ▸ h
  rw [word, instr_eq_of_decode_encode decodes]

/-- A latch byte is its row's encoding. A data byte is one when its bit 6 is clear, and is 64 above one when it is set. -/
theorem encode_of_decodeBbyte {nbits w : Nat} {i : Instr} (h : decodeBbyte nbits w = .instr i) :
    (⟨.bbyte, nbits, w⟩ : Encoded) = encode i ∨
      ∃ d : BitVec 6, i = .data d ∧ (⟨.bbyte, nbits, w⟩ : Encoded) = ⟨.bbyte, 8, 64 + d.toNat⟩ := by
  obtain ⟨rfl, fits⟩ := decodeBbyte_fits h
  by_cases clear : w < 2 ^ 7
  · obtain rfl : .data (fieldAt w 0 6) = i := Decoded.instr.inj ((decode_dataByte clear).symm.trans h)
    by_cases ignored : w < 2 ^ 6
    · left
      rw [encode, toNat_wholeField ignored]
    · right
      have low : (fieldAt w 0 6).toNat = w - 64 := by
        rw [fieldAt, BitVec.toNat_ofNat]
        omega
      exact ⟨_, rfl, by rw [low, Nat.add_sub_of_le (by omega)]⟩
  · obtain ⟨r, d, word⟩ := latchWord_fields (Nat.not_lt.1 clear) fits
    rw [← encode_latchRow] at word
    have decodes : decode (encode (latchRow r d)) = .instr i := word ▸ h
    exact .inl (by rw [word, instr_eq_of_decode_encode decodes])

theorem encode_of_decodeSaddr {nbits w : Nat} {i : Instr} (h : decodeSaddr nbits w = .instr i) :
    ⟨.saddr, nbits, w⟩ = encode i := by
  unfold decodeSaddr at h
  split at h
  · cases h
  · rename_i legal
    obtain ⟨rfl, fits⟩ : nbits = 8 ∧ w < 2 ^ 8 := by omega
    cases h
    rw [encode, toNat_wholeField fits]

theorem encode_of_decodeMicro {nbits w : Nat} {i : Instr} (h : decodeMicro nbits w = .instr i) :
    ⟨.micro, nbits, w⟩ = encode i := by
  unfold decodeMicro at h
  split at h
  · cases h
  · rename_i legal
    obtain ⟨rfl, rfl⟩ : nbits = 0 ∧ w = 0 := by omega
    cases h
    rfl

/-- Settles O7: format by format; only format BBYTE has words that are no encoding. -/
theorem encodeOfDecode : Obligations.EncodeOfDecode
  | ⟨.cmd, _, _⟩, _, h => .inl (encode_of_decodeCmd h)
  | ⟨.areg, _, _⟩, _, h => .inl (encode_of_decodeAreg h)
  | ⟨.bbyte, _, _⟩, _, h => encode_of_decodeBbyte h
  | ⟨.saddr, _, _⟩, _, h => .inl (encode_of_decodeSaddr h)
  | ⟨.micro, _, _⟩, _, h => .inl (encode_of_decodeMicro h)

/-- Settles O5: every word but one is the encoding of its instruction; 0x7F is a data byte whose bit 6 is ignored. -/
theorem decodeReadsTheWords : Obligations.DecodeReadsTheWords :=
  ⟨decodeOfEncode (.register 0 true false 0), decodeOfEncode (.register 1 false false 1),
    decodeOfEncode (.write 0 0 7 0x3E), decodeOfEncode (.write 2 800 0 2), decodeOfEncode (.advance 1 8000),
    decodeOfEncode (.volume 50), decodeOfEncode .update, decodeOfEncode (.r7 0x3E), decodeOfEncode (.latch2 5),
    decode_dataByte (w := 0x7F) (by decide), decodeOfEncode (.load 0x2A), decodeOfEncode .micro⟩

end Sys2Proof.Proofs.Encoding
end

section
/-! PUT_SAMPLE and CONFIGURE_RATE as operations of a running block (40_ring_buffer.md R200 to R205, R210, R212). -/

namespace Sys2Proof.Proofs.RingCommands

open Sys2Proof.Machine Sys2Proof.Laws Sys2Proof.Safety

/-! ### PUT_SAMPLE -/

theorem exec_putSample_raised {s t : State} {c : CoreId} {level : BitVec 32} {f : Fault} (running : Running s)
    (h : putSample c level.toInt s = .raised f t) : exec (.putSample (coreField c) level) s = .next (takeFault f t) := by
  simp only [exec, execPutSample, runStep_of_running running, onCore_coreField, h, settle_raised]

theorem exec_putSample_done {s t : State} {c : CoreId} {level : BitVec 32} (running : Running s)
    (h : putSample c level.toInt s = .done () t) : exec (.putSample (coreField c) level) s = .next t := by
  simp only [exec, execPutSample, runStep_of_running running, onCore_coreField, h, settle_none]

theorem putSample_outOfRange {c : CoreId} {level : Int} (s : State) (h : level < -32768 ∨ 32767 < level) :
    putSample c level s = .raised (.levelRange c level) s := by
  rw [putSample, if_pos h]

theorem putSample_noSpace {c : CoreId} {level : Int} {s : State} (lo : -32768 ≤ level) (hi : level ≤ 32767)
    (full : spaceRemaining s.cfg (chanOf s c) = 0) : putSample c level s = .raised (.ringOverflow c) s := by
  rw [putSample, if_neg (by omega), if_pos full]

/-- Settles O28: the two checks in their order, and what a stored level leaves is `storeLevel_stored`. -/
theorem putSampleStoresOneCode : Obligations.PutSampleStoresOneCode := by
  intro s c level running canonical
  refine ⟨fun out => ?range, fun lo hi full => ?overflow, fun lo hi room => ⟨_, ?stores, storeLevel_stored _ _ _ canonical⟩⟩
  case range => exact exec_putSample_raised running (putSample_outOfRange s out)
  case overflow => exact exec_putSample_raised running (putSample_noSpace lo hi full)
  case stores => exact exec_putSample_done running (putSample_stores lo hi room.ne')

/-! ### CONFIGURE_RATE -/

theorem exec_configureRate {s : State} (running : Running s) (c : CoreId) (dst src : BitVec 48) :
    exec (.configureRate (coreField c) dst src) s = .next (answer (configureRate c dst.toNat src.toNat s).1 .none
      (configureRate c dst.toNat src.toNat s).2) := by
  simp only [exec, execConfigureRate, runStep_of_running running, onCore_coreField, settle_statusOnly]

theorem configureRate_rejected {dst src : Nat} (c : CoreId) (s : State) (zero : dst = 0 ∨ src = 0) :
    configureRate c dst src s = (.configRejected, s) := by
  simp only [configureRate, reducedRatio, if_pos zero]

theorem configureRate_accepted {dst src num den : Nat} (c : CoreId) (s : State)
    (reduced : reducedRatio dst src = some (num, den)) :
    configureRate c dst src s = (.ok, withChan s c (withRatio (chanOf s c) num den)) := by
  simp only [configureRate, reduced]

/-- Settles O30: a zero rate has no reduced ratio; any other pair has one, in lowest terms by `reducedRatio_lowest`. -/
theorem configureRateReducesTheRatio : Obligations.ConfigureRateReducesTheRatio := by
  intro s c dst src running
  refine ⟨fun zero => ?rejected, fun hd hs => ?accepted⟩
  case rejected =>
    have zero' : dst.toNat = 0 ∨ src.toNat = 0 := zero.imp (congrArg BitVec.toNat) (congrArg BitVec.toNat)
    rw [exec_configureRate running, configureRate_rejected c s zero']
  case accepted =>
    have reduced := reducedRatio_eq_some (BitVec.toNat_ne.1 hd) (BitVec.toNat_ne.1 hs)
    obtain ⟨-, -, coprime, dst_eq, src_eq⟩ := reducedRatio_lowest reduced
    refine ⟨_, _, dst_eq, src_eq, coprime, ?_⟩
    rw [exec_configureRate running, configureRate_accepted c s reduced]
    rfl

end Sys2Proof.Proofs.RingCommands
end

section
/-! The count law of the converter (40_ring_buffer.md R214): each sample DRAIN returns takes `limit` from the amount that
`index` and the ring hold together, and it returns none once less than `limit` is left. -/

namespace Sys2Proof.Proofs.DrainCount

open Sys2Proof.Machine Sys2Proof.Laws Sys2Proof.Safety Sys2Proof.Proofs.RingOperations

/-- What `index` and the codes of the ring amount to, in the unit of `limit` (R214). -/
def amount (cfg : Config) (x : Channel) : Nat := x.index + samplesAvailable cfg x * x.increment

theorem pumpBound_eq (cfg : Config) (x : Channel) : pumpBound cfg x = amount cfg x / x.limit := rfl

theorem canDrain_iff {cfg : Config} {x : Channel} : canDrain cfg x = true ↔ x.limit ≤ amount cfg x := decide_eq_true_iff

theorem canDrain_iff_pumpBound {cfg : Config} {x : Channel} (pos : 0 < x.limit) :
    canDrain cfg x = true ↔ 0 < pumpBound cfg x := by
  rw [canDrain_iff, pumpBound_eq, Nat.div_pos_iff]
  exact ⟨fun le => ⟨pos, le⟩, And.right⟩

@[simp] theorem drainChan_limit (cfg : Config) (x : Channel) : (drainChan cfg x).2.limit = x.limit := by
  obtain ⟨_, _, _, form, -⟩ := drainChan_form cfg x
  rw [form]

theorem amount_drainChan {cfg : Config} {x : Channel} (can : canDrain cfg x = true) :
    amount cfg (drainChan cfg x).2 + x.limit = amount cfg x := by
  obtain ⟨_, -, -, increment, -, paid⟩ := drainChan_amount can
  rw [amount, increment]
  exact paid

/-- With less than `limit` left DRAIN gives none, empties the ring and leaves the amount in `index`. -/
theorem drainChan_spent {cfg : Config} {x : Channel} (short : amount cfg x < x.limit) :
    (drainChan cfg x).1 = none ∧ (drainChan cfg x).2.index = amount cfg x ∧
      samplesAvailable cfg (drainChan cfg x).2 = 0 := by
  rw [drainChan_runs_out short]
  exact ⟨rfl, (taken_kept cfg _ x).1, (samplesAvailable_taken le_rfl).trans (Nat.sub_self _)⟩

/-- The count law, by induction on how many times `limit` goes into the amount. -/
theorem drains_pumpBound {cfg : Config} {x : Channel} {n : Nat} (pos : 0 < x.limit) (bound : pumpBound cfg x = n) :
    ∃ (codes : List Byte) (y : Channel), drains cfg n x = (codes.map some, y) ∧ codes.length = n ∧
      (drainChan cfg y).1 = none ∧ (drainChan cfg y).2.index = amount cfg x % x.limit ∧
      samplesAvailable cfg (drainChan cfg y).2 = 0 := by
  induction n generalizing x with
  | zero =>
    have short : amount cfg x < x.limit := (Nat.div_eq_zero_iff_lt pos).1 bound
    rw [Nat.mod_eq_of_lt short]
    exact ⟨[], x, rfl, rfl, drainChan_spent short⟩
  | succ n ih =>
    have can : canDrain cfg x = true := (canDrain_iff_pumpBound pos).2 (by omega)
    obtain ⟨v, gives, -⟩ := drainChan_amount can
    obtain ⟨codes, y, rest, len, spent, index, empty⟩ := ih (x := (drainChan cfg x).2) (by simpa using pos)
      (by have := pumpBound_drain pos can; omega)
    refine ⟨v :: codes, y, by simp [drains, gives, rest], by simp [len], spent, ?_, empty⟩
    rw [index, drainChan_limit, ← amount_drainChan can, Nat.add_mod_right]

/-- Settles O32: the law above, with the amount written out. -/
theorem drainCountLaw : Obligations.DrainCountLaw := by
  rintro cfg x _ pos rfl
  exact drains_pumpBound pos rfl

end Sys2Proof.Proofs.DrainCount
end

section
/-! The passes of the pump, one lemma per case (40_ring_buffer.md R216, R217, 45_pool_mixer.md R452, R454, R455). -/

namespace Sys2Proof.Proofs.PumpPasses

open Sys2Proof.Machine Sys2Proof.Laws Sys2Proof.Safety Sys2Proof.Proofs.DrainCount

/-! ### The states a pass leaves -/

/-- The channel after the DRAIN of one pass. -/
abbrev drained (s : State) (c : CoreId) : Channel := (drainChan s.cfg (chanOf s c)).2

/-- The source `d` with its first clean block `b` made current, `rest` being the other clean ones (R452). -/
def blockTaken (d : Source) (b : Nat) (rest : List Nat) : Source :=
  withBlock { d with clean := rest, current := some b } b { blockOf d b with fill := 0 }

/-- The source `d` with `n` more samples in its current block `b`, which is `blk` then and is queued when it is full. -/
def pumpedSource (cfg : Config) (d : Source) (b : Nat) (blk : Block) (n : Nat) : Source :=
  { d with
    blocks := d.blocks.set b blk
    newSamples := d.newSamples + n
    dirty := if blk.fill = cfg.blockLen then d.dirty ++ [b] else d.dirty
    current := if blk.fill = cfg.blockLen then none else some b }

/-- A block with one more code, at position `fill`. -/
def putCode (blk : Block) (v : Byte) : Block := ⟨memWrite blk.data blk.fill v, blk.fill + 1⟩

/-- The state after core `c` has moved a sample `v` into the current block `b` of the source `d` in slot `k`. -/
def sampleMoved (s : State) (c : CoreId) (k b : Nat) (d : Source) (v : Byte) : State :=
  withSlot (withChan s c (drained s c)) k (some (pumpedSource s.cfg d b (putCode (blockOf d b) v) 1))

theorem sampleMoved_cfg (s : State) (c : CoreId) (k b : Nat) (d : Source) (v : Byte) :
    (sampleMoved s c k b d v).cfg = s.cfg := rfl

theorem chanOf_sampleMoved (s : State) (c : CoreId) (k b : Nat) (d : Source) (v : Byte) :
    chanOf (sampleMoved s c k b d v) c = drained s c := by
  rw [sampleMoved, chanOf_withSlot, chanOf_withChan_same]

@[simp] theorem drainChan_handle (cfg : Config) (x : Channel) : (drainChan cfg x).2.handle = x.handle := by
  obtain ⟨_, _, _, form, -⟩ := drainChan_form cfg x
  rw [form]

theorem sourceOf_sampleMoved {s : State} {c : CoreId} {k : Nat} {d : Source} (hd : sourceOf s c = some (k, d)) (b : Nat)
    (v : Byte) :
    sourceOf (sampleMoved s c k b d v) c = some (k, pumpedSource s.cfg d b (putCode (blockOf d b) v) 1) := by
  obtain ⟨handle, hs⟩ := sourceOf_eq_some.1 hd
  refine sourceOf_eq_some.2 ⟨?_, sourceAt_withSlot_same _ (sourceAt_lt hs)⟩
  rw [chanOf_sampleMoved, drainChan_handle, handle]

/-- A channel and a source that replace those of a moved sample replace the ones before it. -/
theorem withSlot_withChan_sampleMoved (s : State) (c : CoreId) (k b : Nat) (d d' : Source) (v : Byte) (y : Channel) :
    withSlot (withChan (sampleMoved s c k b d v) c y) k (some d') = withSlot (withChan s c y) k (some d') := by
  simp [sampleMoved, withSlot, withChan]

theorem sourceOf_blockTaken {s : State} {c : CoreId} {k : Nat} {d : Source} (hd : sourceOf s c = some (k, d)) (b : Nat)
    (rest : List Nat) :
    sourceOf (withSlot s k (some (blockTaken d b rest))) c = some (k, blockTaken d b rest) := by
  obtain ⟨handle, hs⟩ := sourceOf_eq_some.1 hd
  exact sourceOf_eq_some.2 ⟨handle, sourceAt_withSlot_same _ (sourceAt_lt hs)⟩

/-- `pumpSample_eq` with the code DRAIN gives and the source in one form. -/
theorem pumpSample_moves {s : State} {c : CoreId} {k b : Nat} {d : Source} {v : Byte} (hs : sourceAt s k = some d)
    (cur : d.current = some b) (gives : (drainChan s.cfg (chanOf s c)).1 = some v) :
    pumpSample c k b d s = .done () (sampleMoved s c k b d v) := by
  have source : (if (blockOf d b).fill + 1 = s.cfg.blockLen then
      { sourceFilled d b v with dirty := d.dirty ++ [b], current := none } else sourceFilled d b v) =
        pumpedSource s.cfg d b (putCode (blockOf d b) v) 1 := by
    unfold pumpedSource putCode
    split <;> simp [sourceFilled, withBlock, cur]
  rw [pumpSample_eq c hs cur, gives, Option.getD_some, source, sampleMoved]

/-! ### One pass of the loop -/

theorem pumpLoop_dry {s : State} {c : CoreId} (n : Nat) (dry : canDrain s.cfg (chanOf s c) = false) :
    pumpLoop c n s = .done .ok s := by
  cases n with
  | zero => rfl
  | succ n => simp only [pumpLoop, dry, Bool.not_false, if_true]

section Pass

variable {s : State} {c : CoreId} (n : Nat) (can : canDrain s.cfg (chanOf s c) = true)

include can

theorem pumpLoop_discards (noSource : sourceOf s c = none) :
    pumpLoop c (n + 1) s = pumpLoop c n (withChan s c (drained s c)) := by
  simp [pumpLoop, can, noSource, Machine.drain]

theorem pumpLoop_held {k : Nat} {d : Source} (hd : sourceOf s c = some (k, d)) (idle : d.current = none)
    (clean : d.clean = []) (waits : (d.blocking && d.sync) = true) :
    pumpLoop c (n + 1) s = .done .held { s with holdS := some k } := by
  have get : getWorkBuffer k s = (.held, { s with holdS := some k }) := by
    simp only [getWorkBuffer, (sourceOf_eq_some.1 hd).2, idle, clean, waits, if_true]
  simp only [pumpLoop, can, hd, get, Bool.not_true, Bool.false_eq_true, if_false]

theorem pumpLoop_stalled {k : Nat} {d : Source} (hd : sourceOf s c = some (k, d)) (idle : d.current = none)
    (clean : d.clean = []) (waits : (d.blocking && d.sync) = false) : pumpLoop c (n + 1) s = .done .stalled s := by
  have get : getWorkBuffer k s = (.noBuffer, s) := by
    simp only [getWorkBuffer, (sourceOf_eq_some.1 hd).2, idle, clean, waits, Bool.false_eq_true, if_false]
  simp only [pumpLoop, can, hd, get, Bool.not_true, Bool.false_eq_true, if_false]

theorem pumpLoop_moves {k b : Nat} {d : Source} {v : Byte} (hd : sourceOf s c = some (k, d)) (cur : d.current = some b)
    (gives : (drainChan s.cfg (chanOf s c)).1 = some v) :
    pumpLoop c (n + 1) s = pumpLoop c n (sampleMoved s c k b d v) := by
  have hs := (sourceOf_eq_some.1 hd).2
  have get : getWorkBuffer k s = (.ok, s) := by simp only [getWorkBuffer, hs, cur]
  simp only [pumpLoop, can, hd, get, hs, cur, pumpSample_moves hs cur gives, Bool.not_true, Bool.false_eq_true, if_false]

/-- Taking a clean block is no pass of its own: the pass goes on as from the state with that block current. -/
theorem pumpLoop_takes {k b : Nat} {d : Source} {rest : List Nat} (hd : sourceOf s c = some (k, d))
    (idle : d.current = none) (clean : d.clean = b :: rest) :
    pumpLoop c (n + 1) s = pumpLoop c (n + 1) (withSlot s k (some (blockTaken d b rest))) := by
  have hd' := sourceOf_blockTaken hd b rest
  have get : getWorkBuffer k s = (.ok, withSlot s k (some (blockTaken d b rest))) := by
    simp only [getWorkBuffer, (sourceOf_eq_some.1 hd).2, idle, clean, blockTaken]
  have keep : getWorkBuffer k (withSlot s k (some (blockTaken d b rest))) =
      (.ok, withSlot s k (some (blockTaken d b rest))) := by
    simp only [getWorkBuffer, (sourceOf_eq_some.1 hd').2]
    rfl
  simp only [pumpLoop, withSlot_cfg, chanOf_withSlot, can, hd, hd', get, keep, Bool.not_true, Bool.false_eq_true, if_false]

/-- Everything a pass can do while DRAIN can give a sample: end, or go on with that sample taken from the ring. -/
theorem pumpLoop_pass : (∃ r, ∀ n, pumpLoop c (n + 1) s = r) ∨
    ∃ t, t.cfg = s.cfg ∧ chanOf t c = drained s c ∧ ∀ n, pumpLoop c (n + 1) s = pumpLoop c n t := by
  obtain ⟨v, gives, -⟩ := drainChan_amount can
  cases hd : sourceOf s c with
  | none => exact .inr ⟨_, withChan_cfg .., chanOf_withChan_same .., fun n => pumpLoop_discards n can hd⟩
  | some p =>
    obtain ⟨k, d⟩ := p
    cases cur : d.current with
    | some b => exact .inr ⟨_, sampleMoved_cfg .., chanOf_sampleMoved .., fun n => pumpLoop_moves n can hd cur gives⟩
    | none =>
      cases clean : d.clean with
      | nil =>
        cases waits : d.blocking && d.sync with
        | true => exact .inl ⟨_, fun n => pumpLoop_held n can hd cur clean waits⟩
        | false => exact .inl ⟨_, fun n => pumpLoop_stalled n can hd cur clean waits⟩
      | cons b rest =>
        have hd' := sourceOf_blockTaken hd b rest
        exact .inr ⟨sampleMoved (withSlot s k (some (blockTaken d b rest))) c k b (blockTaken d b rest) v,
          sampleMoved_cfg .., chanOf_sampleMoved .., fun n =>
            (pumpLoop_takes n can hd cur clean).trans (pumpLoop_moves (s := withSlot s k _) n can hd' rfl gives)⟩

end Pass

end Sys2Proof.Proofs.PumpPasses
end

section
/-! The bounds that make the model's loops total (log 18): a pass that goes on leaves less to do, so passes beyond what is
to be done change nothing (40_ring_buffer.md R216, 43_speech.md R357, R360). -/

namespace Sys2Proof.Proofs.LoopBounds

open Sys2Proof.Machine Sys2Proof.Laws Sys2Proof.Safety Sys2Proof.Proofs.DrainCount
open Sys2Proof.Proofs.PumpPasses

/-- A loop `f` bounded by a number of passes, of which a point that satisfies `P` needs at most `need`: with enough of
them one pass ends it, or goes on at a point that needs less. -/
def Bounded {σ β : Type} (f : Nat → σ → β) (P : σ → Prop) (need : σ → Nat) : Prop :=
  ∀ x, P x → (∃ r, ∀ n, need x ≤ n → f n x = r) ∨ ∃ y, P y ∧ need y < need x ∧ ∀ n, f (n + 1) x = f n y

/-- What holds after any first pass holds with any bound that allows one. -/
theorem ends_of_succ {β : Type} {f : Nat → β} {r : β} {m : Nat} (pos : 0 < m) (ends : ∀ n, f (n + 1) = r) (n : Nat)
    (le : m ≤ n) : f n = r := by
  obtain ⟨n, rfl⟩ : ∃ n', n = n' + 1 := ⟨n - 1, by omega⟩
  exact ends n

/-- Two bounds that both suffice give the same loop. -/
theorem Bounded.eq_of_le {σ β : Type} {f : Nat → σ → β} {P : σ → Prop} {need : σ → Nat} (h : Bounded f P need) {x : σ}
    (hx : P x) {n m : Nat} (hn : need x ≤ n) (hm : need x ≤ m) : f n x = f m x := by
  induction n generalizing x m with
  | zero =>
    rcases h x hx with ⟨r, ends⟩ | ⟨y, -, less, -⟩
    · rw [ends _ hn, ends m hm]
    · omega
  | succ n ih =>
    rcases h x hx with ⟨r, ends⟩ | ⟨y, hy, less, goes⟩
    · rw [ends _ hn, ends m hm]
    · obtain ⟨m, rfl⟩ : ∃ m', m = m' + 1 := ⟨m - 1, by omega⟩
      rw [goes, goes]
      exact ih hy (by omega) (by omega)

/-! ### NEED_FRAME -/

/-- RUN_MICRO that ends at a frame or a halt has run an instruction. -/
theorem runMicro_spends {cfg : Config} {left left' : Nat} {p q : Speech} {o : MicroOutcome}
    (h : runMicro cfg left p = .done (o, left') q) : left' < left := by
  obtain ⟨n, _, rfl, -⟩ := runMicro_done h
  omega

theorem needFrame_ready {cfg : Config} {passes left : Nat} {p : Speech} (frame : 0 < p.rpt) :
    needFrame cfg (passes + 1) left p = .done (true, left) p := by
  rw [needFrame, if_pos frame]

/-- A pass of NEED_FRAME without a frame ends silent or at a fault, or goes on with fewer micro-instructions left. -/
theorem needFrame_pass (cfg : Config) (left : Nat) {p : Speech} (noFrame : p.rpt ≤ 0) :
    (∀ passes, needFrame cfg (passes + 1) left p = .done (false, left) p) ∨
      (∃ f q, ∀ passes, needFrame cfg (passes + 1) left p = .raised f q) ∨
      ∃ left' q, left' < left ∧ ∀ passes, needFrame cfg (passes + 1) left p = needFrame cfg passes left' q := by
  simp only [needFrame, if_neg (not_lt.2 noFrame)]
  cases p.halted with
  | false =>
    cases run : runMicro cfg left p with
    | raised f q => exact .inr (.inl ⟨f, q, fun _ => rfl⟩)
    | done o q => exact .inr (.inr ⟨o.2, q, runMicro_spends run, fun _ => rfl⟩)
  | true =>
    cases p.pending with
    | none => exact .inl fun _ => rfl
    | some a =>
      cases run : runMicro cfg left (startPhoneme cfg p a) with
      | raised f q => exact .inr (.inl ⟨f, q, fun _ => by simp only [if_true, run]⟩)
      | done o q => exact .inr (.inr ⟨o.2, q, runMicro_spends run, fun _ => by simp only [if_true, run]⟩)

theorem needFrame_bounded (cfg : Config) :
    Bounded (fun n (x : Nat × Speech) => needFrame cfg n x.1 x.2) (fun _ => True) (fun x => x.1 + 1) := by
  rintro ⟨left, p⟩ -
  have once {r} := ends_of_succ (f := fun n => needFrame cfg n left p) (r := r) left.succ_pos
  rcases lt_or_ge 0 p.rpt with frame | noFrame
  · exact .inl ⟨_, once fun _ => needFrame_ready frame⟩
  · rcases needFrame_pass cfg left noFrame with silent | ⟨f, q, raises⟩ | ⟨left', q, less, goes⟩
    · exact .inl ⟨_, once silent⟩
    · exact .inl ⟨_, once raises⟩
    · exact .inr ⟨(left', q), trivial, Nat.add_lt_add_right less 1, goes⟩

/-- NEED_FRAME that ends ready has run an instruction, unless a frame was running from the start. -/
theorem needFrame_spends {cfg : Config} {passes left left' : Nat} {p q : Speech}
    (h : needFrame cfg passes left p = .done (true, left') q) : left' ≤ left ∧ (p.rpt ≤ 0 → left' < left) := by
  induction passes generalizing left p with
  | zero => cases h
  | succ passes ih =>
    rcases lt_or_ge 0 p.rpt with frame | noFrame
    · rw [needFrame_ready frame] at h
      cases h
      exact ⟨le_rfl, fun noFrame => by omega⟩
    · rcases needFrame_pass cfg left noFrame with silent | ⟨f, q', raises⟩ | ⟨left'', q', less, goes⟩
      · rw [silent] at h
        cases h
      · rw [raises] at h
        cases h
      · rw [goes] at h
        have := (ih h).1
        exact ⟨by omega, fun _ => by omega⟩

/-! ### The tick of core S -/

/-- The passes a tick of core S needs: a frame already running takes one that may run no micro-instruction. -/
def tickPasses (left : Nat) (p : Speech) : Nat := if p.rpt ≤ 0 then left + 1 else left + 2

theorem tickPasses_le (left : Nat) (p : Speech) : left + 1 ≤ tickPasses left p ∧ tickPasses left p ≤ left + 2 := by
  unfold tickPasses
  split <;> omega

/-- A pass of the tick ends it, or expires a frame and goes on with fewer passes needed. -/
theorem speechLevel_pass (cfg : Config) (left : Nat) (p : Speech) :
    (∃ r, ∀ passes, speechLevel cfg (passes + 1) left p = r) ∨
      ∃ left' q, tickPasses left' q < tickPasses left p ∧
        ∀ passes, speechLevel cfg (passes + 1) left p = speechLevel cfg passes left' q := by
  simp only [speechLevel]
  cases need : needFrame cfg (left + 1) left p with
  | raised f q => exact .inl ⟨_, fun _ => rfl⟩
  | done o q =>
    obtain ⟨ready, left'⟩ := o
    cases ready with
    | false => exact .inl ⟨_, fun _ => rfl⟩
    | true =>
      by_cases expired : (excite cfg q).2.rpt ≤ 0
      · refine .inr ⟨left', (excite cfg q).2, ?_, fun _ => if_pos expired⟩
        obtain ⟨le, spends⟩ := needFrame_spends need
        simp only [tickPasses, if_pos expired]
        split
        · exact Nat.add_lt_add_right (spends ‹_›) 1
        · omega
      · exact .inl ⟨_, fun _ => if_neg expired⟩

theorem speechLevel_bounded (cfg : Config) :
    Bounded (fun n (x : Nat × Speech) => speechLevel cfg n x.1 x.2) (fun _ => True) (fun x => tickPasses x.1 x.2) := by
  rintro ⟨left, p⟩ -
  rcases speechLevel_pass cfg left p with ⟨r, ends⟩ | ⟨left', q, less, goes⟩
  · have one := Nat.zero_lt_of_lt (tickPasses_le left p).1
    exact .inl ⟨r, ends_of_succ (f := fun n => speechLevel cfg n left p) one ends⟩
  · exact .inr ⟨(left', q), trivial, less, goes⟩

/-! ### The pump -/

theorem pumpLoop_bounded (c : CoreId) : Bounded (pumpLoop c) (fun s => 0 < (chanOf s c).limit)
    (fun s => pumpBound s.cfg (chanOf s c)) := by
  intro s pos
  cases can : canDrain s.cfg (chanOf s c) with
  | false => exact .inl ⟨_, fun n _ => pumpLoop_dry n can⟩
  | true =>
    have needed := (canDrain_iff_pumpBound pos).1 can
    rcases pumpLoop_pass can with ⟨r, ends⟩ | ⟨t, cfg, chan, goes⟩
    · exact .inl ⟨r, ends_of_succ needed ends⟩
    · refine .inr ⟨t, by simpa [chan] using pos, ?_, goes⟩
      have less : pumpBound s.cfg (chanOf s c) = pumpBound s.cfg (drained s c) + 1 := pumpBound_drain pos can
      change pumpBound t.cfg (chanOf t c) < pumpBound s.cfg (chanOf s c)
      rw [cfg, chan, less]
      exact Nat.lt_succ_self _

/-- Settles O33: each of the three loops is bounded by what it needs, and the bound it is run with suffices. -/
theorem loopBoundsCutNothing : Obligations.LoopBoundsCutNothing := by
  refine ⟨fun c s n pos le => ?pump, fun cfg passes left p le => ?frame, fun cfg passes left p le => ?tick⟩
  case pump => exact (pumpLoop_bounded c).eq_of_le pos le le_rfl
  case frame => exact (needFrame_bounded cfg).eq_of_le (x := (left, p)) trivial le le_rfl
  case tick =>
    have needed := (tickPasses_le left p).2
    exact (speechLevel_bounded cfg).eq_of_le (x := (left, p)) trivial (needed.trans le) needed

end Sys2Proof.Proofs.LoopBounds
end

section
/-! The pump as ITERATE runs it (40_ring_buffer.md R216, R217, 44_update_queue.md R411): each case of its next pass, all of
its passes into one block with room, and an ITERATE that has nothing else to do. -/

namespace Sys2Proof.Proofs.Pump

open Sys2Proof.Machine Sys2Proof.Laws Sys2Proof.Safety Sys2Proof.Proofs.DrainCount Sys2Proof.Proofs.PumpPasses

/-! ### The next pass -/

theorem pump_dry {s : State} {c : CoreId} (dry : canDrain s.cfg (chanOf s c) = false) : pump c s = .done .ok s :=
  pumpLoop_dry _ dry

section Pass

variable {s : State} {c : CoreId} (pos : 0 < (chanOf s c).limit) (can : canDrain s.cfg (chanOf s c) = true)

include pos can

theorem pump_of_end {r : Res Status} (ends : ∀ n, pumpLoop c (n + 1) s = r) : pump c s = r := by
  rw [pump, pumpBound_drain pos can]
  exact ends _

theorem pump_of_pass {t : State} (cfg : t.cfg = s.cfg) (chan : chanOf t c = drained s c)
    (goes : ∀ n, pumpLoop c (n + 1) s = pumpLoop c n t) : pump c s = pump c t := by
  rw [pump, pumpBound_drain pos can, goes, pump, cfg, chan]

theorem pump_moves {k b : Nat} {d : Source} {v : Byte} (hd : sourceOf s c = some (k, d)) (cur : d.current = some b)
    (gives : (drainChan s.cfg (chanOf s c)).1 = some v) : pump c s = pump c (sampleMoved s c k b d v) :=
  pump_of_pass pos can (sampleMoved_cfg ..) (chanOf_sampleMoved ..) fun n => pumpLoop_moves n can hd cur gives

theorem pump_takes {k b : Nat} {d : Source} {rest : List Nat} (hd : sourceOf s c = some (k, d)) (idle : d.current = none)
    (clean : d.clean = b :: rest) : pump c s = pump c (withSlot s k (some (blockTaken d b rest))) := by
  rw [pump, pump, withSlot_cfg, chanOf_withSlot, pumpBound_drain pos can]
  exact pumpLoop_takes _ can hd idle clean

end Pass

/-! ### Codes put one after another -/

@[simp] theorem putCode_fill (blk : Block) (v : Byte) : (putCode blk v).fill = blk.fill + 1 := rfl

theorem wf_putCode {blk : Block} (v : Byte) (h : blk.data.wf = true) : (putCode blk v).data.wf = true :=
  wf_memWrite _ v h

theorem memRead_putCode_same {blk : Block} (v : Byte) (h : blk.data.wf = true) :
    memRead (putCode blk v).data blk.fill = v :=
  memRead_memWrite_same _ v h

theorem memRead_putCode_ne (blk : Block) (v : Byte) {a : Nat} (h : a ≠ blk.fill) :
    memRead (putCode blk v).data a = memRead blk.data a :=
  memRead_memWrite_ne _ v h

theorem putCodes_fill (codes : List Byte) (blk : Block) : (codes.foldl putCode blk).fill = blk.fill + codes.length := by
  induction codes generalizing blk with
  | nil => rfl
  | cons v codes ih =>
    rw [List.foldl_cons, ih, putCode_fill, List.length_cons]
    omega

/-- Outside the positions the codes go to, the block is as it was. -/
theorem memRead_putCodes_outside (codes : List Byte) (blk : Block) {a : Nat}
    (h : a < blk.fill ∨ blk.fill + codes.length ≤ a) : memRead (codes.foldl putCode blk).data a = memRead blk.data a := by
  induction codes generalizing blk with
  | nil => rfl
  | cons v codes ih =>
    rw [List.length_cons] at h
    rw [List.foldl_cons, ih _ (by rw [putCode_fill]; omega), memRead_putCode_ne _ _ (by omega)]

/-- The codes stand one after another from `fill` on. -/
theorem memRead_putCodes {codes : List Byte} {blk : Block} (wf : blk.data.wf = true) {i : Nat} {v : Byte}
    (h : codes[i]? = some v) : memRead (codes.foldl putCode blk).data (blk.fill + i) = v := by
  induction codes generalizing blk i with
  | nil => cases h
  | cons w codes ih =>
    rw [List.foldl_cons]
    cases i with
    | zero =>
      obtain rfl : w = v := by simpa using h
      rw [memRead_putCodes_outside _ _ (.inl (Nat.lt_succ_self _))]
      exact memRead_putCode_same w wf
    | succ i =>
      have next := ih (wf_putCode w wf) (i := i) (by simpa using h)
      rwa [putCode_fill, Nat.add_right_comm] at next

/-! ### All the passes into one block -/

theorem withSlot_self {s : State} {k : Nat} {d : Source} (h : sourceAt s k = some d) : withSlot s k (some d) = s := by
  obtain ⟨inRange, slot⟩ := List.getElem?_eq_some_iff.1 (reg_of_sourceAt h)
  rw [withSlot, ← slot, List.set_getElem_self]

theorem pumpedSource_none {cfg : Config} {d : Source} {b : Nat} {blk : Block} (cur : d.current = some b)
    (inPool : d.blocks[b]? = some blk) (room : blk.fill < cfg.blockLen) : pumpedSource cfg d b blk 0 = d := by
  obtain ⟨inRange, block⟩ := List.getElem?_eq_some_iff.1 inPool
  simp only [pumpedSource, if_neg room.ne]
  rw [← block, List.set_getElem_self, ← cur]
  rfl

/-- Samples put into a block that still has room then, and `n` more, are `n + 1` samples. -/
theorem pumpedSource_pumpedSource {cfg : Config} {d : Source} {b : Nat} {blk : Block} (blk' : Block) (n : Nat)
    (room : blk.fill ≠ cfg.blockLen) :
    pumpedSource cfg (pumpedSource cfg d b blk 1) b blk' n = pumpedSource cfg d b blk' (n + 1) := by
  simp [pumpedSource, room, List.set_set, Nat.add_assoc, Nat.add_comm n 1]

theorem dry_of_pumpBound {cfg : Config} {x : Channel} (pos : 0 < x.limit) (h : pumpBound cfg x = 0) :
    canDrain cfg x = false := by
  rw [← Bool.not_eq_true, canDrain_iff_pumpBound pos]
  omega

theorem drains_eq_nil {cfg : Config} {n : Nat} {x y : Channel} (h : drains cfg n x = (([] : List Byte).map some, y)) :
    n = 0 ∧ y = x := by
  cases n with
  | zero => exact ⟨rfl, (Prod.ext_iff.1 h).2.symm⟩
  | succ n => exact nomatch (Prod.ext_iff.1 h).1

theorem drains_eq_cons {cfg : Config} {n : Nat} {x y : Channel} {v : Byte} {codes : List Byte}
    (h : drains cfg n x = ((v :: codes).map some, y)) :
    ∃ m, n = m + 1 ∧ (drainChan cfg x).1 = some v ∧ drains cfg m (drainChan cfg x).2 = (codes.map some, y) := by
  cases n with
  | zero => exact nomatch (Prod.ext_iff.1 h).1
  | succ m =>
    obtain ⟨list, last⟩ := Prod.ext_iff.1 h
    obtain ⟨first, others⟩ := List.cons.inj list
    exact ⟨m, rfl, first, Prod.ext others last⟩

/-- The pump moves all the codes DRAIN gives into a current block with room for them. -/
theorem pump_codes {s : State} {c : CoreId} {k b : Nat} {d : Source} {blk : Block} {codes : List Byte} {y : Channel}
    (pos : 0 < (chanOf s c).limit) (hd : sourceOf s c = some (k, d)) (cur : d.current = some b)
    (inPool : d.blocks[b]? = some blk) (room : blk.fill < s.cfg.blockLen)
    (given : drains s.cfg (pumpBound s.cfg (chanOf s c)) (chanOf s c) = (codes.map some, y))
    (fits : blk.fill + codes.length ≤ s.cfg.blockLen) :
    pump c s = .done .ok (withSlot (withChan s c y) k
      (some (pumpedSource s.cfg d b (codes.foldl putCode blk) codes.length))) := by
  induction codes generalizing s d blk with
  | nil =>
    obtain ⟨spent, rfl⟩ := drains_eq_nil given
    rw [pump_dry (dry_of_pumpBound pos spent), withChan_chanOf, List.foldl_nil, List.length_nil,
      pumpedSource_none cur inPool room, withSlot_self (sourceOf_eq_some.1 hd).2]
  | cons v codes ih =>
    obtain ⟨m, bound, gives, rest⟩ := drains_eq_cons given
    obtain rfl := blockOf_eq inPool
    have can : canDrain s.cfg (chanOf s c) = true := (canDrain_iff_pumpBound pos).2 (by omega)
    have left : pumpBound s.cfg (drained s c) = m := Nat.succ.inj ((pumpBound_drain pos can).symm.trans bound)
    have pos' : 0 < (chanOf (sampleMoved s c k b d v) c).limit := by simpa [chanOf_sampleMoved] using pos
    have given' : drains s.cfg (pumpBound s.cfg (chanOf (sampleMoved s c k b d v) c)) (chanOf (sampleMoved s c k b d v) c) =
        (codes.map some, y) := by rwa [chanOf_sampleMoved, left]
    rw [pump_moves pos can hd cur gives]
    cases codes with
    | nil =>
      obtain ⟨spent, last⟩ := drains_eq_nil given'
      rw [pump_dry (dry_of_pumpBound pos' spent), last, chanOf_sampleMoved]
      rfl
    | cons w codes =>
      have fits' : (putCode (blockOf d b) v).fill + (w :: codes).length ≤ s.cfg.blockLen := by
        simp only [putCode_fill, List.length_cons] at fits ⊢
        omega
      have room' : (putCode (blockOf d b) v).fill < s.cfg.blockLen := by
        simp only [List.length_cons] at fits'
        omega
      have inPool' : (pumpedSource s.cfg d b (putCode (blockOf d b) v) 1).blocks[b]? = some (putCode (blockOf d b) v) :=
        List.getElem?_set_self (List.getElem?_eq_some_iff.1 inPool).1
      rw [ih pos' (sourceOf_sampleMoved hd b v) (if_neg room'.ne) inPool' room' given' fits',
        withSlot_withChan_sampleMoved, sampleMoved_cfg, pumpedSource_pumpedSource _ _ room'.ne]
      rfl

/-! ### ITERATE with nothing else to do -/

theorem applyDue_notDue {c : CoreId} {h : Nat} {l : List QEntry} (s : State) (notDue : ∀ e ∈ l, h < e.ts) :
    applyDue c h l s = s := by
  cases l with
  | nil => rfl
  | cons e l => rw [applyDue, if_neg (not_le.2 (notDue e List.mem_cons_self))]

/-- An interval of no cycles moves nothing where the tick fraction is below one tick. -/
theorem accrue_noCycles {c : CoreId} {s : State} (fraction : (chanOf s c).cycAcc < s.cpuHz * tickDen s c) :
    accrue c (chanOf s c).lastH s = s := by
  simp only [accrue, Nat.sub_self, Nat.zero_mul, Nat.add_zero, Nat.div_eq_of_lt fraction, Nat.mod_eq_of_lt fraction]
  exact withChan_chanOf s c

theorem generate_noDebt {c : CoreId} {s t : State} {st : Status} (debt : (chanOf s c).debt = 0)
    (pumped : pump c s = .done st t) : generate c s = .done (if st = .held then .held else .ok) t := by
  rw [generate, debt, generateLoop, pumped]
  cases st <;> rfl

theorem iterate_pumps {c : CoreId} {s t : State} {st : Status} (debt : (chanOf s c).debt = 0)
    (fraction : (chanOf s c).cycAcc < s.cpuHz * tickDen s c) (notDue : ∀ e ∈ (chanOf s c).q, (chanOf s c).lastH < e.ts)
    (pumped : pump c s = .done st t) : iterate c (chanOf s c).lastH s = .done (iterateReply c st t) t := by
  rw [iterate, if_neg (lt_irrefl _), applyDue_notDue s notDue, accrue_noCycles fraction, generate_noDebt debt pumped]
  cases st <;> rfl

theorem exec_iterate {c : CoreId} {s t : State} {h : BitVec 64} {r : Reply} (running : Running s)
    (done : iterate c h.toNat s = .done r t) : exec (.iterate (coreField c) h) s = .next (answer r.status r.val t) := by
  simp only [exec, execIterate, runStep_of_running running, onCore_coreField, done]
  rfl

/-- Settles O60: the cases of a pass, the passes into one block together, and ITERATE over them. -/
theorem pumpMovesConvertedSamples : Obligations.PumpMovesConvertedSamples := by
  rintro s c _ rfl pos
  refine ⟨fun short => ?dry, fun enough handle => ?discards,
    fun k d enough handle hs => ⟨fun idle clean blocking sync => ?held, fun idle clean noWait => ?stalled,
      fun b rest blk idle clean inPool => ?takes, fun b blk cur inPool wf => ?moves⟩,
    fun k d b blk codes y handle hs cur inPool wf room given fits => ?codes,
    fun h st t running now debt fraction notDue pumped => ?iterate⟩
  case dry => exact pump_dry (decide_eq_false (not_le.2 short))
  case discards =>
    have can := canDrain_iff.2 enough
    obtain ⟨v, gives, -⟩ := drainChan_amount can
    have noSource : sourceOf s c = none := by simp only [sourceOf, handle]
    exact ⟨v, drained s c, Prod.ext gives rfl,
      pump_of_pass pos can (withChan_cfg ..) (chanOf_withChan_same ..) fun n => pumpLoop_discards n can noSource⟩
  case held =>
    have can := canDrain_iff.2 enough
    have hd := sourceOf_eq_some.2 ⟨handle, hs⟩
    exact pump_of_end pos can fun n => pumpLoop_held n can hd idle clean (by simp [blocking, sync])
  case stalled =>
    have can := canDrain_iff.2 enough
    have hd := sourceOf_eq_some.2 ⟨handle, hs⟩
    exact pump_of_end pos can fun n => pumpLoop_stalled n can hd idle clean (Bool.and_eq_false_iff.2 noWait)
  case takes =>
    obtain rfl := blockOf_eq inPool
    exact pump_takes pos (canDrain_iff.2 enough) (sourceOf_eq_some.2 ⟨handle, hs⟩) idle clean
  case moves =>
    have can := canDrain_iff.2 enough
    obtain rfl := blockOf_eq inPool
    obtain ⟨v, gives, -⟩ := drainChan_amount can
    exact ⟨v, drained s c, putCode (blockOf d b) v, Prod.ext gives rfl, rfl, memRead_putCode_same v wf,
      fun a ne => memRead_putCode_ne _ v ne, pump_moves pos can (sourceOf_eq_some.2 ⟨handle, hs⟩) cur gives⟩
  case codes =>
    obtain rfl := blockOf_eq inPool
    have fill := putCodes_fill codes (blockOf d b)
    refine ⟨codes.foldl putCode (blockOf d b), fill, fun i v => memRead_putCodes wf,
      fun a => memRead_putCodes_outside codes _, ?_⟩
    rw [pump_codes pos (sourceOf_eq_some.2 ⟨handle, hs⟩) cur inPool room given fits, ← fill]
    rfl
  case iterate =>
    rw [exec_iterate running (now ▸ iterate_pumps debt fraction notDue pumped)]
    rfl

end Sys2Proof.Proofs.Pump
end

section
/-! Register writes of core A (41_psg_a.md R250, R252, R268). -/

namespace Sys2Proof.Proofs.RegisterWritesA

open Sys2Proof.Machine Sys2Proof.Laws Sys2Proof.Safety

/-- The bits a masked value keeps of the value written (R250). -/
theorem and_maskA (val : Byte) (n : Fin 16) :
    val &&& maskA n = if n = 1 ∨ n = 3 ∨ n = 5 ∨ n = 13 then val &&& 0x0F
      else if n = 6 ∨ n = 8 ∨ n = 9 ∨ n = 10 then val &&& 0x1F else val := by
  have whole : val &&& 255#8 = val := BitVec.and_allOnes
  fin_cases n <;> simp [maskA, whole]

theorem exec_aregRow {s : State} (running : Running s) (n : Fin 16) (val : Byte) :
    exec (aregRow n val) s = .next { s with psgA := writeRegA s.psgA n val } := by
  have row : exec (aregRow n val) s = runRegA n val s := by fin_cases n <;> rfl
  rw [row, runRegA, runStep_of_running running, settle_none]
  rfl

theorem writeRegA_of_ne {n : Fin 16} (a : PsgA) (val : Byte) (h : n ≠ 13) :
    writeRegA a n val = { a with ra := a.ra.set n (val &&& maskA n) } := if_neg h

theorem toNat_append_byte {n : Nat} (hi : BitVec n) (lo : Byte) : (hi ++ lo).toNat = hi.toNat * 256 + lo.toNat := by
  rw [BitVec.toNat_append, Nat.shiftLeft_eq, Nat.mul_comm, ← Nat.two_pow_add_eq_or_of_lt lo.isLt, Nat.mul_comm]

theorem envPeriodA_eq (ra : Bank16 Byte) : envPeriodA ra = ra.r12.toNat * 256 + ra.r11.toNat :=
  toNat_append_byte ra.r12 ra.r11

/-- A shape bit is read back as it was written: the mask of register 13 keeps the four of them (R250, R258). -/
theorem shapeBit_written (ra : Bank16 Byte) (shape : Byte) {i : Nat} (h : i < 4) :
    ((ra.set 13 (shape &&& maskA 13)).get 13).getLsbD i = shape.getLsbD i := by
  rw [bank16_get_set_same, and_maskA, if_pos (by decide), BitVec.getLsbD_and]
  interval_cases i <;> simp

theorem writeRegA_shape (a : PsgA) (shape : Byte) :
    writeRegA a 13 shape = { a with
      ra := a.ra.set 13 (shape &&& maskA 13)
      envStep := 0
      envDir := if shape.getLsbD 2 then 0 else 15
      envHold := false
      envCnt := max (a.ra.r12.toNat * 256 + a.ra.r11.toNat) 1 } := by
  rw [writeRegA, if_pos rfl, envRestart, shapeAtt, shapeBit_written _ _ (by decide), envPeriodA_eq]
  rfl

/-- Settles O45: each row writes its register through `writeRegA`, whose mask and restart are the statement's. -/
theorem coreARegisterWrites : Obligations.CoreARegisterWrites := by
  intro s n val running
  refine ⟨val &&& maskA n, and_maskA val n, fun other => ?other, fun shape => ?shape⟩
  case other => rw [exec_aregRow running, writeRegA_of_ne _ _ other]
  case shape =>
    subst shape
    rw [exec_aregRow running, writeRegA_shape]

end Sys2Proof.Proofs.RegisterWritesA
end

section
/-! The sixteen shapes of core A's envelope (41_psg_a.md R267, R268, R273): a ramp of sixteen levels, and what its last step
turns to. -/

namespace Sys2Proof.Proofs.EnvelopeShapes

open Sys2Proof.Machine Sys2Proof.Laws Sys2Proof.Safety Sys2Proof.Proofs.RegisterWritesA

/-- The direction of a rising ramp and of a falling one. -/
def direction (up : Bool) : BitVec 4 := if up then 0 else 15

theorem direction_not (up : Bool) : direction (!up) = direction up ^^^ 15#4 := by
  cases up <;> rfl

/-- The state `a` with its envelope at a step of a rising or a falling ramp, or held there. -/
def envelope (a : PsgA) (step : Nat) (up hold : Bool) : PsgA :=
  { a with envStep := BitVec.ofNat 4 step, envDir := direction up, envHold := hold }

/-- The direction turns the step into the level (R267). -/
theorem envLevel_envelope (a : PsgA) {step : Nat} (h : step < 16) (up hold : Bool) :
    (envLevel (envelope a step up hold)).toNat = if up then step else 15 - step := by
  have level : ∀ step < 16, ∀ up : Bool,
      (BitVec.ofNat 4 step ^^^ direction up).toNat = if up then step else 15 - step := by decide
  exact level step h up

/-- A written shape starts a ramp in the direction of ATT (R268). -/
theorem writeRegA_shape_envelope (a : PsgA) (shape : Byte) :
    writeRegA a 13 shape = envelope (writeRegA a 13 shape) 0 (shape.getLsbD 2) false := by
  rw [writeRegA_shape]
  rfl

/-! ### One step -/

theorem envAdvance_held (a : PsgA) (step : Nat) (up : Bool) :
    envAdvance (envelope a step up true) = envelope a step up true := rfl

theorem envAdvance_below_top (a : PsgA) {step : Nat} (h : step < 15) (up : Bool) :
    envAdvance (envelope a step up false) = envelope a (step + 1) up false := by
  have low : step % 16 < 15 := by omega
  simp [envAdvance, envelope, low, BitVec.ofNat_add]

theorem envAdvance_top_once {a : PsgA} (cont : shapeCont a.ra = false) (up : Bool) :
    envAdvance (envelope a 15 up false) = envelope a 15 false true := by
  simp [envAdvance, envelope, cont, direction]

theorem envAdvance_top_hold {a : PsgA} (cont : shapeCont a.ra = true) (hold : shapeHold a.ra = true) (up : Bool) :
    envAdvance (envelope a 15 up false) = envelope a 15 (up ^^ shapeAlt a.ra) true := by
  cases alt : shapeAlt a.ra <;> simp [envAdvance, envelope, cont, hold, alt, direction_not]

theorem envAdvance_top_repeat {a : PsgA} (cont : shapeCont a.ra = true) (hold : shapeHold a.ra = false) (up : Bool) :
    envAdvance (envelope a 15 up false) = envelope a 0 (up ^^ shapeAlt a.ra) false := by
  cases alt : shapeAlt a.ra <;> simp [envAdvance, envelope, cont, hold, alt, direction_not]

/-! ### Ramps -/

theorem envAdvance_ramp (a : PsgA) (up : Bool) {k : Nat} (h : k < 16) :
    envAdvance^[k] (envelope a 0 up false) = envelope a k up false := by
  induction k with
  | zero => rfl
  | succ k ih => rw [Function.iterate_succ_apply', ih (by omega), envAdvance_below_top a (by omega)]

theorem envAdvance_ramp_end (a : PsgA) (up : Bool) :
    envAdvance^[16] (envelope a 0 up false) = envAdvance (envelope a 15 up false) := by
  rw [Function.iterate_succ_apply', envAdvance_ramp a up (by decide)]

/-- A ramp that ends held stays so. -/
theorem envAdvance_after_hold {a : PsgA} {up up' : Bool} (last : envAdvance (envelope a 15 up false) = envelope a 15 up' true)
    {k : Nat} (h : 16 ≤ k) : envAdvance^[k] (envelope a 0 up false) = envelope a 15 up' true := by
  obtain ⟨j, rfl⟩ := Nat.exists_eq_add_of_le' h
  rw [Function.iterate_add_apply, envAdvance_ramp_end, last, Function.iterate_fixed (envAdvance_held a 15 up')]

/-- Whole ramps of a repeating shape: an alternating one turns after each of them. -/
theorem envAdvance_ramps {a : PsgA} (cont : shapeCont a.ra = true) (hold : shapeHold a.ra = false) (up : Bool) (n : Nat) :
    envAdvance^[16 * n] (envelope a 0 up false) = envelope a 0 (up ^^ (shapeAlt a.ra && decide (n % 2 = 1))) false := by
  induction n with
  | zero => simp
  | succ n ih =>
    have parity : decide ((n + 1) % 2 = 1) = !decide (n % 2 = 1) := by
      rw [← decide_not, decide_eq_decide]
      omega
    rw [Nat.mul_succ, Nat.add_comm, Function.iterate_add_apply, ih, envAdvance_ramp_end, envAdvance_top_repeat cont hold, parity,
      Bool.xor_assoc]
    cases shapeAlt a.ra <;> simp

theorem envAdvance_repeating {a : PsgA} (cont : shapeCont a.ra = true) (hold : shapeHold a.ra = false) (up : Bool) (k : Nat) :
    envAdvance^[k] (envelope a 0 up false) =
      envelope a (k % 16) (up ^^ (shapeAlt a.ra && decide (k / 16 % 2 = 1))) false := by
  have parts : envAdvance^[k] = envAdvance^[k % 16 + 16 * (k / 16)] := by rw [Nat.mod_add_div]
  rw [parts, Function.iterate_add_apply, envAdvance_ramps cont hold, envAdvance_ramp _ _ (Nat.mod_lt k Nat.succ_pos')]

/-- Settles O48: after a shape is written a ramp starts in the direction of ATT, and CONT, HOLD and ALT say what follows
it. -/
theorem envelopeShapes : Obligations.EnvelopeShapes := by
  intro a shape k
  have bit {i : Nat} (h : i < 4) : ((writeRegA a 13 shape).ra.get 13).getLsbD i = shape.getLsbD i := by
    rw [writeRegA_shape]
    exact shapeBit_written a.ra shape h
  have cont : shapeCont (writeRegA a 13 shape).ra = shape.getLsbD 3 := bit (by decide)
  have hold : shapeHold (writeRegA a 13 shape).ra = shape.getLsbD 0 := bit (by decide)
  have alt : shapeAlt (writeRegA a 13 shape).ra = shape.getLsbD 1 := bit (by decide)
  rw [writeRegA_shape_envelope, ← cont, ← hold, ← alt]
  generalize writeRegA a 13 shape = b
  generalize shape.getLsbD 2 = up
  have ramp (h : k < 16) : (envLevel (envAdvance^[k] (envelope b 0 up false))).toNat = if up then k else 15 - k := by
    rw [envAdvance_ramp b up h, envLevel_envelope b h]
  cases cont : shapeCont b.ra
  case false =>
    by_cases h : k < 16
    · simp [ramp h, h]
    · rw [envAdvance_after_hold (envAdvance_top_once cont up) (not_lt.1 h), envLevel_envelope b (by decide)]
      simp [h]
  case true =>
    cases hold : shapeHold b.ra
    case false =>
      rw [envAdvance_repeating cont hold, envLevel_envelope b (Nat.mod_lt k Nat.succ_pos')]
      simp
    case true =>
      by_cases h : k < 16
      · simp [ramp h, h]
      · rw [envAdvance_after_hold (envAdvance_top_hold cont hold up) (not_lt.1 h), envLevel_envelope b (by decide)]
        simp [h]

end Sys2Proof.Proofs.EnvelopeShapes
end

section
/-! Core A's noise register (41_psg_a.md R265): one shift is linear over XOR, so the columns of its powers of two come from
squaring, and its order divides the prime 2 ^ 17 - 1. -/

namespace Sys2Proof.Proofs.NoiseRegisterA

open Sys2Proof.Machine Sys2Proof.Proofs.PsgARanges

/-! ### XOR-linear maps and their columns -/

/-- `f` carries XOR to XOR. -/
def XorLinear {n : Nat} (f : BitVec n → BitVec n) : Prop := ∀ x y, f (x ^^^ y) = f x ^^^ f y

/-- The XOR of the columns whose bit is set in `x`. -/
def combine {n : Nat} (columns : List (BitVec n)) (x : BitVec n) : BitVec n :=
  ((List.range n).map fun i => if x.getLsbD i then columns.getD i 0 else 0).foldl (· ^^^ ·) 0

/-- The values of `f` on the single bits, bit 0 first. -/
def columnsOf {n : Nat} (f : BitVec n → BitVec n) : List (BitVec n) := (List.range n).map fun i => f (BitVec.twoPow n i)

/-- The columns of the square of a linear map, from its own. -/
def squareColumns {n : Nat} (columns : List (BitVec n)) : List (BitVec n) := columns.map (combine columns)

theorem XorLinear.map_zero {n : Nat} {f : BitVec n → BitVec n} (linear : XorLinear f) : f 0 = 0 := by
  simpa using linear 0 0

theorem XorLinear.iterate {n : Nat} {f : BitVec n → BitVec n} (linear : XorLinear f) (m : Nat) : XorLinear f^[m] := by
  induction m with
  | zero => exact fun _ _ => rfl
  | succ m ih => exact fun x y => by simp only [Function.iterate_succ_apply', ih x y, linear _ _]

theorem XorLinear.injective {n : Nat} {f : BitVec n → BitVec n} (linear : XorLinear f) (kernel : ∀ x, x ≠ 0 → f x ≠ 0) :
    Function.Injective f := by
  intro x y same
  by_contra differ
  exact kernel (x ^^^ y) (by simpa using differ) (by rw [linear, same, BitVec.xor_self, BitVec.ofNat_eq_ofNat])

/-- The low `m + 1` bits are the low `m` bits and bit `m`. -/
theorem lowBits_succ {n : Nat} (x : BitVec n) (m : Nat) : (x.setWidth (m + 1)).setWidth n =
    (x.setWidth m).setWidth n ^^^ (if x.getLsbD m then BitVec.twoPow n m else 0) := by
  ext i hi
  by_cases here : i = m
  · subst here
    by_cases set : x.getLsbD i <;> simp [set, hi, ← BitVec.getLsbD_eq_getElem]
  · have below : i < m + 1 ↔ i < m := by omega
    by_cases set : x.getLsbD m <;> simp [set, below, here]

theorem combine_columnsOf {n : Nat} {f : BitVec n → BitVec n} (linear : XorLinear f) : combine (columnsOf f) = f := by
  funext x
  have lowBits (m : Nat) (le : m ≤ n) :
      ((List.range m).map fun i => if x.getLsbD i then (columnsOf f).getD i 0 else 0).foldl (· ^^^ ·) 0 =
        f ((x.setWidth m).setWidth n) := by
    induction m with
    | zero =>
      have none : (x.setWidth 0).setWidth n = 0 := by
        ext
        simp
      rw [none, linear.map_zero]
      rfl
    | succ m ih =>
      have column : (columnsOf f).getD m 0 = f (BitVec.twoPow n m) := by simp [columnsOf, show m < n from le]
      rw [List.range_succ, List.map_append, List.foldl_append, ih (by omega), lowBits_succ, linear, apply_ite f,
        linear.map_zero, ← column]
      rfl
  rw [combine, lowBits n le_rfl, BitVec.setWidth_eq, BitVec.setWidth_eq]

theorem squareColumns_columnsOf {n : Nat} {f : BitVec n → BitVec n} (linear : XorLinear f) :
    squareColumns (columnsOf f) = columnsOf (f ∘ f) := by
  rw [squareColumns, combine_columnsOf linear]
  simp [columnsOf]

theorem squareColumns_iterate {n : Nat} {f : BitVec n → BitVec n} (linear : XorLinear f) (k : Nat) :
    squareColumns^[k] (columnsOf f) = columnsOf f^[2 ^ k] := by
  induction k with
  | zero => rfl
  | succ k ih =>
    rw [Function.iterate_succ_apply', ih, squareColumns_columnsOf (linear.iterate _), ← Function.iterate_add, ← Nat.two_mul,
      Nat.pow_succ']

/-! ### The shift of the register -/

/-- The register shifts right, which leaves bit 16 clear for the feedback bit (R265). -/
theorem lfsrStepA_eq_xor (x : BitVec 17) :
    lfsrStepA x = (x >>> 1) ^^^ (if x.getLsbD 0 ^^ x.getLsbD 3 then BitVec.twoPow 17 16 else 0) := by
  unfold lfsrStepA
  split
  case isFalse => simp
  case isTrue =>
    change (x >>> 1) ||| BitVec.twoPow 17 16 = _
    ext i hi
    rw [BitVec.getElem_or, BitVec.getElem_xor, BitVec.getElem_twoPow]
    by_cases top : i = 16
    · subst top
      simp
    · simp [top]

theorem lfsrStepA_toNat (x : BitVec 17) :
    (lfsrStepA x).toNat = x.toNat / 2 + if x.getLsbD 0 ^^ x.getLsbD 3 then 2 ^ 16 else 0 := by
  have half : (x >>> 1).toNat = x.toNat / 2 := by simp [Nat.shiftRight_eq_div_pow]
  unfold lfsrStepA
  split
  · rw [BitVec.or_comm, BitVec.toNat_or, half]
    exact (Nat.two_pow_add_eq_or_of_lt (show x.toNat / 2 < 2 ^ 16 by omega) 1).symm.trans (Nat.add_comm _ _)
  · simpa using half

theorem lfsrStepA_linear : XorLinear lfsrStepA := by
  intro x y
  have feed (b c d e : Bool) : (if (b ^^ c) ^^ (d ^^ e) then BitVec.twoPow 17 16 else 0) =
      (if b ^^ d then BitVec.twoPow 17 16 else 0) ^^^ (if c ^^ e then BitVec.twoPow 17 16 else 0) := by
    cases b <;> cases c <;> cases d <;> cases e <;> rfl
  simp only [lfsrStepA_eq_xor, BitVec.getLsbD_xor, BitVec.ushiftRight_xor_distrib, feed]
  ac_rfl

theorem lfsrStepA_injective : Function.Injective lfsrStepA := lfsrStepA_linear.injective fun _ => lfsrStepA_ne_zero

/-- A fixed point has all its bits equal to bit 0, and its feedback bit is then 0. -/
theorem lfsrStepA_not_fixed {x : BitVec 17} (ne_zero : x ≠ 0) : ¬ Function.IsFixedPt lfsrStepA x := by
  intro fixed
  have value := (congrArg BitVec.toNat fixed).symm.trans (lfsrStepA_toNat x)
  split at value
  case isTrue feed =>
    obtain rfl : x = 131071 := BitVec.eq_of_toNat_eq (by simp; omega)
    exact absurd feed (by decide)
  case isFalse => exact ne_zero (BitVec.eq_of_toNat_eq (by simp; omega))

/-- Seventeen squarings of the shift give the shift again. -/
theorem squareColumns_lfsrStepA : squareColumns^[17] (columnsOf lfsrStepA) = columnsOf lfsrStepA := by decide +kernel

theorem lfsrStepA_iterate_twoPow : lfsrStepA^[2 ^ 17] = lfsrStepA := by
  rw [← combine_columnsOf (lfsrStepA_linear.iterate _), ← squareColumns_iterate lfsrStepA_linear, squareColumns_lfsrStepA,
    combine_columnsOf lfsrStepA_linear]

theorem lfsrStepA_iterate_period {p : Nat} (period : p + 1 = 2 ^ 17) (x : BitVec 17) : lfsrStepA^[p] x = x :=
  lfsrStepA_injective (by rw [← Function.iterate_succ_apply' lfsrStepA, Nat.succ_eq_add_one, period, lfsrStepA_iterate_twoPow])

/-- Settles O47: the order of the shift divides the prime 131071, and is not 1 because no value but 0 is fixed. -/
theorem noiseRegisterAPeriod : Obligations.NoiseRegisterAPeriod := by
  intro x ne_zero
  have prime : Fact (Nat.Prime 131071) := ⟨by norm_num⟩
  have returns : Function.IsPeriodicPt lfsrStepA 131071 x := lfsrStepA_iterate_period (by norm_num) x
  have least := Function.minimalPeriod_eq_prime returns (lfsrStepA_not_fixed ne_zero)
  refine ⟨lfsrStepA_ne_zero ne_zero, returns, fun n pos below => ?_⟩
  exact Function.not_isPeriodicPt_of_pos_of_lt_minimalPeriod pos.ne' (least ▸ below)

end Sys2Proof.Proofs.NoiseRegisterA
end

section
/-! One native tick of core A (41_psg_a.md R260 to R271): what it makes of each counter, and the level it stores. -/

namespace Sys2Proof.Proofs.TickA

open Sys2Proof.Machine Sys2Proof.Laws Sys2Proof.Safety Sys2Proof.Proofs.RegisterWritesA Sys2Proof.Proofs.NoiseRegisterA

/-! ### The periods and fields as numbers (R146) -/

theorem fineReg_eq (ch : Fin 3) : fineReg ch = Fin.ofNat 16 (2 * ch.val) := by
  fin_cases ch <;> rfl

theorem coarseReg_eq (ch : Fin 3) : coarseReg ch = Fin.ofNat 16 (2 * ch.val + 1) := by
  fin_cases ch <;> rfl

theorem ampReg_eq (ch : Fin 3) : ampReg ch = Fin.ofNat 16 (8 + ch.val) := by
  fin_cases ch <;> rfl

theorem tonePeriodA_eq (ra : Bank16 Byte) (ch : Fin 3) : tonePeriodA ra ch =
    (ra.get (Fin.ofNat 16 (2 * ch.val + 1))).toNat % 16 * 256 + (ra.get (Fin.ofNat 16 (2 * ch.val))).toNat := by
  rw [tonePeriodA, toNat_append_byte, BitVec.extractLsb'_toNat, Nat.shiftRight_zero, coarseReg_eq, fineReg_eq]

theorem noisePeriodA_eq (ra : Bank16 Byte) : noisePeriodA ra = ra.r6.toNat % 32 := BitVec.extractLsb'_toNat ..

/-! ### The counters -/

/-- The next value of a counter that is reloaded when it has run down. -/
def counted (reload n : Nat) : Nat := if n - 1 = 0 then max reload 1 else n - 1

/-- A channel's output after a tick: it is inverted when the channel's counter has run down (R263). -/
def toneOutNext (a : PsgA) (ch : Fin 3) : Bool :=
  if a.toneCnt.get ch - 1 = 0 then !a.toneOut.get ch else a.toneOut.get ch

/-- The envelope after one step of it (R267). -/
def envNext (a : PsgA) : BitVec 4 × BitVec 4 × Bool :=
  if a.envHold then (a.envStep, a.envDir, a.envHold)
  else if a.envStep ≠ 15 then (a.envStep + 1, a.envDir, false)
  else if shapeCont a.ra = false then (15, 15, true)
  else if shapeHold a.ra then (15, if shapeAlt a.ra then a.envDir ^^^ 15 else a.envDir, true)
  else (0, if shapeAlt a.ra then a.envDir ^^^ 15 else a.envDir, false)

theorem tri_set_get {α : Type} (t : Tri α) (i : Fin 3) : t.set i (t.get i) = t := by
  fin_cases i <;> rfl

theorem toneStepA_eq (a : PsgA) (ch : Fin 3) : toneStepA a ch = { a with
    toneOut := a.toneOut.set ch (toneOutNext a ch)
    toneCnt := a.toneCnt.set ch (counted (tonePeriodA a.ra ch) (a.toneCnt.get ch)) } := by
  unfold toneStepA toneOutNext counted
  split
  · rfl
  · rw [tri_set_get]

theorem noiseStepA_eq (a : PsgA) : noiseStepA a = { a with
    lfsr := if a.noiseCnt - 1 = 0 then lfsrStepA a.lfsr else a.lfsr
    noiseCnt := counted (noisePeriodA a.ra) a.noiseCnt } := by
  unfold noiseStepA counted
  split <;> rfl

theorem envAdvance_eq (a : PsgA) : envAdvance a =
    { a with envStep := (envNext a).1, envDir := (envNext a).2.1, envHold := (envNext a).2.2 } := by
  unfold envAdvance envNext
  cases held : a.envHold
  case true => simp [← held]
  case false =>
    by_cases top : a.envStep = 15#4
    · cases cont : shapeCont a.ra <;> cases hold : shapeHold a.ra <;> simp [top]
    · have low : a.envStep.toNat < 15 := by
        have := BitVec.toNat_ne.1 top
        change _ ≠ 15 at this
        omega
      simp [top, low]

/-- The envelope after a tick: it is stepped when its counter has run down (R266). -/
def envTicked (a : PsgA) : BitVec 4 × BitVec 4 × Bool :=
  if a.envCnt - 1 = 0 then envNext a else (a.envStep, a.envDir, a.envHold)

theorem envCount_eq (a : PsgA) : envCount a = { a with
    envCnt := counted (envPeriodA a.ra) a.envCnt
    envStep := (envTicked a).1
    envDir := (envTicked a).2.1
    envHold := (envTicked a).2.2 } := by
  unfold envCount counted envTicked
  split
  · rw [envAdvance_eq]
  · rfl

/-- One tick of the counters, field by field. -/
theorem advanceA_eq (a : PsgA) : advanceA a =
    { ra := a.ra
      toneOut := ⟨toneOutNext a 0, toneOutNext a 1, toneOutNext a 2⟩
      toneCnt := ⟨counted (tonePeriodA a.ra 0) a.toneCnt.c0, counted (tonePeriodA a.ra 1) a.toneCnt.c1,
        counted (tonePeriodA a.ra 2) a.toneCnt.c2⟩
      lfsr := if a.noiseCnt - 1 = 0 then lfsrStepA a.lfsr else a.lfsr
      noiseCnt := counted (noisePeriodA a.ra) a.noiseCnt
      envCnt := counted (envPeriodA a.ra) a.envCnt
      envStep := (envTicked a).1
      envDir := (envTicked a).2.1
      envHold := (envTicked a).2.2 } := by
  rw [advanceA, toneStepA_eq, toneStepA_eq, toneStepA_eq, noiseStepA_eq, envCount_eq]
  rfl

theorem advanceA_ra (a : PsgA) : (advanceA a).ra = a.ra := by
  rw [advanceA_eq]

theorem advanceA_toneOut (a : PsgA) (ch : Fin 3) : (advanceA a).toneOut.get ch = toneOutNext a ch := by
  rw [advanceA_eq]
  fin_cases ch <;> rfl

theorem advanceA_toneCnt (a : PsgA) (ch : Fin 3) :
    (advanceA a).toneCnt.get ch = counted (tonePeriodA a.ra ch) (a.toneCnt.get ch) := by
  rw [advanceA_eq]
  fin_cases ch <;> rfl

/-! ### The tick -/

/-- A counter that is not 0 has run down when it is 1. -/
theorem runDown_iff {n : Nat} (pos : 1 ≤ n) : n - 1 = 0 ↔ n = 1 := by
  omega

theorem counted_of_pos {n : Nat} (pos : 1 ≤ n) (reload : Nat) :
    counted reload n = if n = 1 then max reload 1 else n - 1 := if_congr (runDown_iff pos) rfl rfl

theorem envTicked_of_pos {a : PsgA} (pos : 1 ≤ a.envCnt) : envTicked a =
    if a.envCnt ≠ 1 ∨ a.envHold then (a.envStep, a.envDir, a.envHold)
    else if a.envStep ≠ 15 then (a.envStep + 1, a.envDir, false)
    else if a.ra.r13.getLsbD 3 = false then (15, 15, true)
    else if a.ra.r13.getLsbD 0 then (15, if a.ra.r13.getLsbD 1 then a.envDir ^^^ 15 else a.envDir, true)
    else (0, if a.ra.r13.getLsbD 1 then a.envDir ^^^ 15 else a.envDir, false) := by
  rw [envTicked, if_congr (runDown_iff pos) rfl rfl]
  by_cases down : a.envCnt = 1
  · rw [if_pos down]
    simp only [down, ne_eq, not_true_eq_false, false_or]
    rfl
  · rw [if_neg down, if_pos (.inl down)]

/-- A tick of core A with room in the ring stores the level of the state after it (R260). -/
theorem exec_tickA {s : State} (running : Running s) (tables : TablesFit s.cfg)
    (room : 0 < spaceRemaining s.cfg (chanOf s .A)) :
    exec (.tick 0) s = .next (withChan { s with psgA := advanceA s.psgA } .A
      (storeLevel s.cfg (chanOf s .A) (levelA s.cfg (advanceA s.psgA)))) := by
  obtain ⟨low, high⟩ := levelA_range tables (advanceA s.psgA)
  have ticked : tick .A s = .done () (withChan { s with psgA := advanceA s.psgA } .A
      (storeLevel s.cfg (chanOf s .A) (levelA s.cfg (advanceA s.psgA)))) :=
    putSample_stores (by omega) (by omega) room.ne'
  change execTick (coreField .A) s = _
  rw [execTick, runStep_of_running running, onCore_coreField, ticked]
  rfl

/-- A contribution in the terms of the registers (R269). -/
theorem contributionA_eq (cfg : Config) (a : PsgA) (ch : Fin 3) : ∃ (v : BitVec 4) (amp : Int) (gate : Bool),
    v = (if (a.ra.get (Fin.ofNat 16 (8 + ch.val))).getLsbD 4 then a.envStep ^^^ a.envDir
      else (a.ra.get (Fin.ofNat 16 (8 + ch.val))).extractLsb' 0 4) ∧
    amp = cfg.ampTableA.get v.toFin ∧
    gate = ((a.toneOut.get ch || a.ra.r7.getLsbD ch.val) && (a.lfsr.getLsbD 0 || a.ra.r7.getLsbD (3 + ch.val))) ∧
    contributionA cfg a ch = if gate then amp else -amp := by
  refine ⟨_, _, _, rfl, rfl, rfl, ?_⟩
  rw [← ampReg_eq]
  rfl

/-- Settles O46: `advanceA_eq` gives the counters, the noise register and the envelope after the tick, `exec_tickA` the
level that is stored. -/
theorem tickOfCoreA : Obligations.TickOfCoreA := by
  rintro s a running tables rfl canonical room tone noise env
  have ra := advanceA_ra s.psgA
  refine ⟨advanceA s.psgA, _, contributionA s.cfg (advanceA s.psgA), exec_tickA running tables room, ra, ?tones,
    ?noiseCnt, ?lfsr, ?envCnt, ?envelope, fun ch => ?level, storeLevel_stored _ _ _ canonical⟩
  case tones =>
    rintro ch tp rfl
    rw [advanceA_toneOut, advanceA_toneCnt, counted_of_pos (tone ch), tonePeriodA_eq]
    exact ⟨if_congr (runDown_iff (tone ch)) rfl rfl, rfl⟩
  case noiseCnt => rw [advanceA_eq, counted_of_pos noise, noisePeriodA_eq]
  case lfsr =>
    rw [advanceA_eq, if_congr (runDown_iff noise) rfl rfl, apply_ite BitVec.toNat, lfsrStepA_toNat]
  case envCnt => rw [advanceA_eq, counted_of_pos env, envPeriodA_eq]
  case envelope =>
    rw [advanceA_eq]
    exact envTicked_of_pos env
  case level => exact ra ▸ contributionA_eq s.cfg (advanceA s.psgA) ch

end Sys2Proof.Proofs.TickA
end

section
/-! Register writes of core B (42_psg_b.md R301, R302, R304 to R306). -/

namespace Sys2Proof.Proofs.RegisterWritesB

open Sys2Proof.Machine Sys2Proof.Laws Sys2Proof.Safety

/-! ### The fields as numbers (R301, R302) -/

/-- A latch byte keeps the high six bits of a tone period (R301). -/
theorem perWithLow_eq (p : BitVec 10) (d : BitVec 4) : perWithLow p d = (p &&& 0x3F0) ||| d.setWidth 10 := by
  have mask : ∀ i < 10, (0x3F0 : BitVec 10).getLsbD i = decide (4 ≤ i) := by decide
  refine BitVec.eq_of_getLsbD_eq fun i lt => ?_
  rw [perWithLow, BitVec.getLsbD_append, BitVec.getLsbD_or, BitVec.getLsbD_and, mask i lt]
  by_cases low : i < 4
  · simp [low, lt]
  · have high : i - 4 < 6 ∧ 4 + (i - 4) = i := by omega
    simp [low, high, not_lt.1 low]

/-- A data byte keeps the low four bits of a tone period (R302). -/
theorem perWithHigh_eq (p : BitVec 10) (d : BitVec 6) :
    perWithHigh p d = (d.setWidth 10 <<< 4) ||| (p &&& 0x00F) := by
  have mask : ∀ i < 10, (0x00F : BitVec 10).getLsbD i = decide (i < 4) := by decide
  refine BitVec.eq_of_getLsbD_eq fun i lt => ?_
  rw [perWithHigh, BitVec.getLsbD_append, BitVec.getLsbD_or, BitVec.getLsbD_and, mask i lt]
  by_cases low : i < 4
  · simp [low]
  · simp [low, lt]

/-- The noise control bits of a latch byte: its bit 3 is ignored (R306). -/
theorem noiseControl_eq (d : BitVec 4) : d.extractLsb' 0 3 = (d &&& 7).setWidth 3 := by
  have mask : (7 : BitVec 4).setWidth 3 = BitVec.allOnes 3 := rfl
  rw [BitVec.setWidth_and, mask, BitVec.and_allOnes, BitVec.setWidth_eq_extractLsb' (by decide)]

theorem seedB_eq_ofNat (cfg : Config) : seedB cfg = BitVec.ofNat 16 (2 ^ (cfg.snLfsrWidth - 1)) := by
  rw [seedB, ← BitVec.twoPow_eq]
  exact BitVec.eq_of_toNat_eq ((BitVec.toNat_twoPow 16 _).trans (BitVec.toNat_ofNat ..).symm)

/-! ### The rows -/

theorem exec_latchRow {s : State} (running : Running s) (r : Fin 8) (d : BitVec 4) :
    exec (latchRow r d) s = .next { s with psgB := latchB s.cfg s.psgB (BitVec.ofNat 3 r.val) d } := by
  have row : exec (latchRow r d) s = runLatchB (BitVec.ofNat 3 r.val) d s := by fin_cases r <;> rfl
  rw [row, runLatchB, runStep_of_running running, settle_none]

theorem exec_data {s : State} (running : Running s) (d : BitVec 6) :
    exec (.data d) s = .next { s with psgB := dataB s.cfg s.psgB d } := by
  change execData d s = _
  rw [execData, runStep_of_running running, settle_none]

theorem latchB_tone (cfg : Config) (b : PsgB) (ch : Fin 3) (d : BitVec 4) :
    latchB cfg b (BitVec.ofNat 3 (2 * ch.val)) d =
      { b with latch := BitVec.ofNat 3 (2 * ch.val), per := b.per.set ch (perWithLow (b.per.get ch) d) } := by
  fin_cases ch <;> rfl

theorem latchB_attenuation (cfg : Config) (b : PsgB) (ch : Fin 4) (d : BitVec 4) :
    latchB cfg b (BitVec.ofNat 3 (2 * ch.val + 1)) d =
      { b with latch := BitVec.ofNat 3 (2 * ch.val + 1), att := b.att.set ch d } := by
  fin_cases ch <;> rfl

theorem dataB_tone (cfg : Config) {b : PsgB} {ch : Fin 3} (latched : b.latch.toNat = 2 * ch.val) (d : BitVec 6) :
    dataB cfg b d = { b with per := b.per.set ch (perWithHigh (b.per.get ch) d) } := by
  rw [dataB, latched]
  fin_cases ch <;> rfl

theorem dataB_attenuation (cfg : Config) {b : PsgB} {ch : Fin 4} (latched : b.latch.toNat = 2 * ch.val + 1)
    (d : BitVec 6) : dataB cfg b d = { b with att := b.att.set ch (d.extractLsb' 0 4) } := by
  rw [dataB, latched]
  fin_cases ch <;> rfl

theorem dataB_noise (cfg : Config) {b : PsgB} (latched : b.latch = 6) (d : BitVec 6) :
    dataB cfg b d = writeNoiseB cfg b (d.extractLsb' 0 3) := by
  rw [dataB, latched]
  rfl

/-- Settles O49: each row is `latchB` or `dataB`, whose case is the one of the register's number. -/
theorem coreBRegisterWrites : Obligations.CoreBRegisterWrites := by
  rintro s b running rfl
  refine ⟨fun d ch r tone => ?latchTone, fun d ch r attenuation => ?latchAttenuation, fun d => ?latchNoise,
    fun d ch latched => ?dataTone, fun d ch latched => ?dataAttenuation, fun d latched => ?dataNoise⟩
  case latchTone => rw [exec_latchRow running, tone, latchB_tone, perWithLow_eq]
  case latchAttenuation => rw [exec_latchRow running, attenuation, latchB_attenuation]
  case latchNoise =>
    rw [← noiseControl_eq, ← seedB_eq_ofNat]
    exact exec_latchRow running 6 d
  case dataTone => rw [exec_data running, dataB_tone _ latched, perWithHigh_eq]
  case dataAttenuation =>
    rw [exec_data running, dataB_attenuation _ latched, BitVec.setWidth_eq_extractLsb' (by decide)]
  case dataNoise =>
    rw [exec_data running, dataB_noise _ latched, writeNoiseB, seedB_eq_ofNat,
      BitVec.setWidth_eq_extractLsb' (by decide)]

end Sys2Proof.Proofs.RegisterWritesB
end

section
/-! Core B's noise register (42_psg_b.md R313): no shift makes it 0, and the periodic case turns its bits round. -/

namespace Sys2Proof.Proofs.NoiseRegisterB

open Sys2Proof.Machine Sys2Proof.Proofs.ConfigurationRanges Sys2Proof.Proofs.PsgARanges Sys2Proof.Proofs.PsgBRanges

/-! ### The register stays legal -/

theorem vc_wf : Config.vc.wf = true := by decide

/-- The vector configuration with another configuration's noise register: a shift reads no other field (R313). -/
def registerOf (cfg : Config) : Config := { Config.vc with snTaps := cfg.snTaps, snLfsrWidth := cfg.snLfsrWidth }

theorem lfsrStepB_registerOf (cfg : Config) : lfsrStepB (registerOf cfg) = lfsrStepB cfg := rfl

theorem registerOf_ranges {cfg : Config} (taps : cfg.snTaps.getLsbD 0 = true) (wide : 2 ≤ cfg.snLfsrWidth)
    (fits : cfg.snLfsrWidth ≤ 16) : ConfigRanges (registerOf cfg) :=
  { configRanges_of_wf vc_wf with snTaps := taps, snLfsrWidth_ge := wide, snLfsrWidth_le := fits }

/-- The one legal value of a register of one bit is kept (R313). -/
theorem lfsrStepB_oneBit {cfg : Config} (taps : cfg.snTaps.getLsbD 0 = true) (narrow : cfg.snLfsrWidth = 1)
    (white : Bool) : lfsrStepB cfg white 1 = 1 := by
  have ranges : ConfigRanges { Config.vc with snTaps := cfg.snTaps } :=
    { configRanges_of_wf vc_wf with snTaps := taps }
  have fed : feedbackB cfg white 1 = true := feedbackB_one ranges white
  rw [lfsrStepB_eq, fed, seedB, narrow]
  rfl

theorem lfsrStepB_keeps_legal {cfg : Config} (taps : cfg.snTaps.getLsbD 0 = true) (pos : 1 ≤ cfg.snLfsrWidth)
    (fits : cfg.snLfsrWidth ≤ 16) (white : Bool) {x : BitVec 16} (legal : LfsrBLegal cfg x) :
    LfsrBLegal cfg (lfsrStepB cfg white x) := by
  by_cases wide : 2 ≤ cfg.snLfsrWidth
  · exact lfsrStepB_legal (registerOf_ranges taps wide fits) white legal
  · have narrow : cfg.snLfsrWidth = 1 := by omega
    have one : x = 1 := by
      obtain ⟨ne_zero, below⟩ := legal
      have nonzero : x.toNat ≠ 0 := BitVec.toNat_ne.1 ne_zero
      rw [narrow] at below
      exact BitVec.eq_of_toNat_eq (show x.toNat = 1 by omega)
    subst one
    rwa [lfsrStepB_oneBit taps narrow]

/-! ### The periodic sequence -/

theorem seedB_getLsbD {cfg : Config} (pos : 1 ≤ cfg.snLfsrWidth) (fits : cfg.snLfsrWidth ≤ 16) (i : Nat) :
    (seedB cfg).getLsbD i = decide (i + 1 = cfg.snLfsrWidth) := by
  rw [seedB, ← BitVec.twoPow_eq, BitVec.getLsbD_twoPow, ← Bool.decide_and, decide_eq_decide]
  omega

/-- A periodic shift turns the bits of the register round: bit 0 comes in again at the top (R313). -/
theorem lfsrStepB_periodic_getLsbD {cfg : Config} (pos : 1 ≤ cfg.snLfsrWidth) (fits : cfg.snLfsrWidth ≤ 16)
    {x : BitVec 16} (below : x.toNat < 2 ^ cfg.snLfsrWidth) {i : Nat} (inside : i < cfg.snLfsrWidth) :
    (lfsrStepB cfg false x).getLsbD i = x.getLsbD ((i + 1) % cfg.snLfsrWidth) := by
  have fed : (if x.getLsbD 0 then seedB cfg else 0).getLsbD i = (x.getLsbD 0 && decide (i + 1 = cfg.snLfsrWidth)) := by
    rw [← seedB_getLsbD pos fits]
    cases x.getLsbD 0 <;> simp
  change ((x >>> 1) ||| (if x.getLsbD 0 then seedB cfg else 0)).getLsbD i = _
  rw [BitVec.getLsbD_or, fed, BitVec.getLsbD_ushiftRight, Nat.add_comm]
  by_cases top : i + 1 = cfg.snLfsrWidth
  · have clear : x.getLsbD cfg.snLfsrWidth = false := Nat.testBit_lt_two_pow below
    simp [top, clear]
  · have next : i + 1 < cfg.snLfsrWidth := by omega
    simp [top, Nat.mod_eq_of_lt next]

/-- After `k` periodic shifts every bit of the register is the one `k` places further on (R313). -/
theorem lfsrStepB_periodic_iterate {cfg : Config} (taps : cfg.snTaps.getLsbD 0 = true) (pos : 1 ≤ cfg.snLfsrWidth)
    (fits : cfg.snLfsrWidth ≤ 16) {x : BitVec 16} (legal : LfsrBLegal cfg x) (k : Nat) :
    LfsrBLegal cfg ((lfsrStepB cfg false)^[k] x) ∧ ∀ i < cfg.snLfsrWidth,
      ((lfsrStepB cfg false)^[k] x).getLsbD i = x.getLsbD ((i + k) % cfg.snLfsrWidth) := by
  induction k with
  | zero => exact ⟨legal, fun i inside => by rw [Nat.add_zero, Nat.mod_eq_of_lt inside]; rfl⟩
  | succ k ih =>
    obtain ⟨now, bits⟩ := ih
    rw [Function.iterate_succ_apply']
    refine ⟨lfsrStepB_keeps_legal taps pos fits false now, fun i inside => ?_⟩
    rw [lfsrStepB_periodic_getLsbD pos fits now.2 inside, bits _ (Nat.mod_lt _ pos), Nat.mod_add_mod, Nat.add_assoc,
      Nat.add_comm 1]

/-- Two legal registers with the same bits inside the width are the same. -/
theorem eq_of_bits_inside {w : Nat} {x y : BitVec 16} (hx : x.toNat < 2 ^ w) (hy : y.toNat < 2 ^ w)
    (bits : ∀ i < w, x.getLsbD i = y.getLsbD i) : x = y := by
  refine BitVec.eq_of_getLsbD_eq fun i _ => ?_
  by_cases inside : i < w
  · exact bits i inside
  · have top : 2 ^ w ≤ 2 ^ i := Nat.pow_le_pow_right (by decide) (not_lt.1 inside)
    exact (Nat.testBit_lt_two_pow (hx.trans_le top)).trans (Nat.testBit_lt_two_pow (hy.trans_le top)).symm

/-- Settles O51: a shift keeps the register legal, and `cfg.snLfsrWidth` periodic shifts turn its bits round once. -/
theorem noiseRegisterB : Obligations.NoiseRegisterB := by
  intro cfg x taps pos fits ne_zero below
  refine ⟨fun white => lfsrStepB_keeps_legal taps pos fits white ⟨ne_zero, below⟩, ?_⟩
  obtain ⟨legal, bits⟩ := lfsrStepB_periodic_iterate taps pos fits ⟨ne_zero, below⟩ cfg.snLfsrWidth
  refine eq_of_bits_inside legal.2 below fun i inside => ?_
  rw [bits i inside, Nat.add_mod_right, Nat.mod_eq_of_lt inside]

end Sys2Proof.Proofs.NoiseRegisterB
end

section
/-! One native tick of core B (42_psg_b.md R310 to R315): what it makes of each counter, and the level it stores. -/

namespace Sys2Proof.Proofs.TickB

open Sys2Proof.Machine Sys2Proof.Laws Sys2Proof.Safety Sys2Proof.Proofs.PsgBRanges Sys2Proof.Proofs.TickA

/-! ### The periods and the feedback as numbers -/

theorem effectivePeriodB_eq (cfg : Config) (p : BitVec 10) :
    effectivePeriodB cfg p = if p.toNat = 0 then cfg.snZeroPeriod else p.toNat :=
  if_congr BitVec.toNat_eq rfl rfl

theorem noiseReloadB_eq (cfg : Config) (b : PsgB) : noiseReloadB cfg b =
    if b.nreg.toNat % 4 = 0 then cfg.snNoiseDiv.c0 else if b.nreg.toNat % 4 = 1 then cfg.snNoiseDiv.c1
      else if b.nreg.toNat % 4 = 2 then cfg.snNoiseDiv.c2
      else if (b.per.get 2).toNat = 0 then cfg.snZeroPeriod else (b.per.get 2).toNat := by
  have rate : noiseRateB b.nreg = b.nreg.toNat % 4 := BitVec.extractLsb'_toNat ..
  rw [noiseReloadB, rate, effectivePeriodB_eq]
  have small : b.nreg.toNat % 4 < 4 := Nat.mod_lt _ (by decide)
  interval_cases b.nreg.toNat % 4 <;> rfl

/-- The XOR of the low bits is the parity of their count (R313). -/
theorem foldl_xor_eq_count {w : Nat} (v : BitVec w) (n : Nat) :
    (List.range n).foldl (fun p i => p ^^ v.getLsbD i) false = decide (v.cpopNatRec n 0 % 2 = 1) := by
  induction n with
  | zero => rfl
  | succ n ih =>
    have flip (m : Nat) (bit : Bool) : decide ((m + bit.toNat) % 2 = 1) = (decide (m % 2 = 1) ^^ bit) := by
      rcases Nat.mod_two_eq_zero_or_one m with even | odd <;> cases bit <;> simp [Nat.add_mod, *]
    rw [List.range_succ, List.foldl_append, ih, BitVec.cpopNatRec_succ, Nat.zero_add,
      BitVec.cpopNatRec_eq (v.getLsbD n).toNat, flip]
    rfl

theorem parity16_eq (v : BitVec 16) : parity16 v = decide (v.cpop.toNat % 2 = 1) := by
  rw [BitVec.toNat_cpop]
  exact foldl_xor_eq_count v 16

/-- A shift in the terms of the taps: the feedback bit comes in at the top (R313). -/
theorem lfsrStepB_eq_count (cfg : Config) (white : Bool) (x : BitVec 16) : lfsrStepB cfg white x =
    (x >>> 1) ||| ((if (if white then decide ((x &&& cfg.snTaps).cpop.toNat % 2 = 1) else x.getLsbD 0)
      then (1 : BitVec 16) else 0) <<< (cfg.snLfsrWidth - 1)) := by
  rw [lfsrStepB_eq, feedbackB, parity16_eq, apply_ite fun y : BitVec 16 => y <<< (cfg.snLfsrWidth - 1)]
  simp only [BitVec.ofNat_eq_ofNat, BitVec.zero_shiftLeft, seedB]

/-! ### The counters -/

/-- The next value of a counter that takes its reload value when it has run down (R311, R312). -/
def reloaded (reload n : Nat) : Nat := if n - 1 = 0 then reload else n - 1

theorem reloaded_of_pos {n : Nat} (pos : 1 ≤ n) (reload : Nat) :
    reloaded reload n = if n = 1 then reload else n - 1 := if_congr (runDown_iff pos) rfl rfl

/-- A channel's output after a tick: it is inverted when the channel's counter has run down (R311). -/
def toneOutNextB (b : PsgB) (ch : Fin 3) : Bool :=
  if b.toneCnt.get ch - 1 = 0 then !b.toneOut.get ch else b.toneOut.get ch

/-- The noise register after a tick: it shifts when the flip-flop rises (R312). -/
def lfsrNextB (cfg : Config) (b : PsgB) : BitVec 16 :=
  if b.noiseCnt - 1 = 0 ∧ b.noiseFF = false then lfsrStepB cfg (noiseWhiteB b.nreg) b.lfsr else b.lfsr

theorem toneStepB_eq (cfg : Config) (b : PsgB) (ch : Fin 3) : toneStepB cfg b ch = { b with
    toneOut := b.toneOut.set ch (toneOutNextB b ch)
    toneCnt := b.toneCnt.set ch (reloaded (effectivePeriodB cfg (b.per.get ch)) (b.toneCnt.get ch)) } := by
  unfold toneStepB toneOutNextB reloaded
  split
  · rfl
  · rw [tri_set_get]

theorem noiseStepB_eq (cfg : Config) (b : PsgB) : noiseStepB cfg b = { b with
    noiseFF := if b.noiseCnt - 1 = 0 then !b.noiseFF else b.noiseFF
    lfsr := lfsrNextB cfg b
    noiseCnt := reloaded (noiseReloadB cfg b) b.noiseCnt } := by
  unfold noiseStepB lfsrNextB reloaded
  by_cases down : b.noiseCnt - 1 = 0
  · cases b.noiseFF <;> simp [down]
  · simp [down]

/-- One tick of the counters, field by field. -/
theorem advanceB_eq (cfg : Config) (b : PsgB) : advanceB cfg b = { b with
    toneOut := ⟨toneOutNextB b 0, toneOutNextB b 1, toneOutNextB b 2⟩
    toneCnt := ⟨reloaded (effectivePeriodB cfg b.per.c0) b.toneCnt.c0,
      reloaded (effectivePeriodB cfg b.per.c1) b.toneCnt.c1, reloaded (effectivePeriodB cfg b.per.c2) b.toneCnt.c2⟩
    noiseFF := if b.noiseCnt - 1 = 0 then !b.noiseFF else b.noiseFF
    lfsr := lfsrNextB cfg b
    noiseCnt := reloaded (noiseReloadB cfg b) b.noiseCnt } := by
  rw [advanceB, toneStepB_eq, toneStepB_eq, toneStepB_eq, noiseStepB_eq]
  rfl

theorem advanceB_toneOut (cfg : Config) (b : PsgB) (ch : Fin 3) :
    (advanceB cfg b).toneOut.get ch = toneOutNextB b ch := by
  rw [advanceB_eq]
  fin_cases ch <;> rfl

theorem advanceB_toneCnt (cfg : Config) (b : PsgB) (ch : Fin 3) :
    (advanceB cfg b).toneCnt.get ch = reloaded (effectivePeriodB cfg (b.per.get ch)) (b.toneCnt.get ch) := by
  rw [advanceB_eq]
  fin_cases ch <;> rfl

theorem advanceB_att (cfg : Config) (b : PsgB) : (advanceB cfg b).att = b.att := by
  rw [advanceB_eq]

/-! ### The tick -/

/-- A tick of core B with room in the ring stores the level of the state after it (R310). -/
theorem exec_tickB {s : State} (running : Running s) (tables : TablesFit s.cfg)
    (room : 0 < spaceRemaining s.cfg (chanOf s .B)) :
    exec (.tick 1) s = .next (withChan { s with psgB := advanceB s.cfg s.psgB } .B
      (storeLevel s.cfg (chanOf s .B) (levelB s.cfg (advanceB s.cfg s.psgB)))) := by
  obtain ⟨low, high⟩ := levelB_range tables (advanceB s.cfg s.psgB)
  have ticked : tick .B s = .done () (withChan { s with psgB := advanceB s.cfg s.psgB } .B
      (storeLevel s.cfg (chanOf s .B) (levelB s.cfg (advanceB s.cfg s.psgB)))) :=
    putSample_stores (by omega) (by omega) room.ne'
  change execTick (coreField .B) s = _
  rw [execTick, runStep_of_running running, onCore_coreField, ticked]
  rfl

/-- A tone channel's contribution follows its output (R315). -/
theorem contributionB_tone (cfg : Config) (b : PsgB) (ch : Fin 3) : contributionB cfg b ⟨ch.val, by omega⟩ =
    if b.toneOut.get ch then cfg.ampTableB.get (b.att.get ⟨ch.val, by omega⟩).toFin
    else -cfg.ampTableB.get (b.att.get ⟨ch.val, by omega⟩).toFin := by
  fin_cases ch <;> rfl

/-- Settles O50: `advanceB_eq` gives the counters, the flip-flop and the noise register after the tick, `exec_tickB` the
level that is stored. -/
theorem tickOfCoreB : Obligations.TickOfCoreB := by
  rintro s b running tables rfl canonical room tone noise
  have att := advanceB_att s.cfg s.psgB
  refine ⟨advanceB s.cfg s.psgB, _, contributionB s.cfg (advanceB s.cfg s.psgB), exec_tickB running tables room,
    ?per, att, ?nreg, ?latch, ?tones, ?noiseFF, ?noiseCnt, ?lfsr, fun ch => ?contribution, ?noiseContribution,
    storeLevel_stored _ _ _ canonical⟩
  case per | nreg | latch => rw [advanceB_eq]
  case tones =>
    rintro ch period rfl
    rw [advanceB_toneOut, advanceB_toneCnt, reloaded_of_pos (tone ch), effectivePeriodB_eq]
    exact ⟨if_congr (runDown_iff (tone ch)) rfl rfl, rfl⟩
  case noiseFF =>
    rw [advanceB_eq]
    exact if_congr (runDown_iff noise) rfl rfl
  case noiseCnt => rw [advanceB_eq, reloaded_of_pos noise, noiseReloadB_eq]
  case lfsr =>
    rw [advanceB_eq, lfsrNextB, lfsrStepB_eq_count]
    exact if_congr (and_congr_left' (runDown_iff noise)) rfl rfl
  case contribution => exact att ▸ contributionB_tone s.cfg (advanceB s.cfg s.psgB) ch
  case noiseContribution =>
    rw [← att]
    rfl

end Sys2Proof.Proofs.TickB
end

section
/-! ITERATE of a generator core (44_update_queue.md R403, R411, R413, R415): the due writes, the accrual, then a
generation. -/

namespace Sys2Proof.Proofs.IterateGenerator

open Sys2Proof.Machine Sys2Proof.Laws Sys2Proof.Safety

/-- The writes that are due at a horizon, in queue order (R403). -/
def dueWrites (h : Nat) (x : Channel) : List QEntry := x.q.takeWhile fun e => decide (e.ts ≤ h)

/-- The cycles of the interval up to a horizon, in fractions of a tick (R413). -/
def accrued (s : State) (c : CoreId) (h : Nat) : Nat :=
  (chanOf s c).cycAcc + (h - (chanOf s c).lastH) * tickNum s c

/-- A core's channel where its generation starts: the due writes gone, the interval accrued (R411). -/
def startChannel (s : State) (c : CoreId) (h : Nat) : Channel :=
  { chanOf s c with
    q := (chanOf s c).q.drop (dueWrites h (chanOf s c)).length
    debt := (chanOf s c).debt + accrued s c h / (s.cpuHz * tickDen s c)
    cycAcc := accrued s c h % (s.cpuHz * tickDen s c)
    lastH := h }

/-- A core's accrual counts alike after its own writes, which change nothing it depends on. -/
theorem accrue_written (s : State) (c : CoreId) (h : Nat) (a : PsgA) (b : PsgB) (p : Speech) :
    accrue c h (withChan { s with psgA := a, psgB := b, speech := p } c
        { chanOf s c with q := (chanOf s c).q.drop (dueWrites h (chanOf s c)).length }) =
      withChan { s with psgA := a, psgB := b, speech := p } c (startChannel s c h) := by
  cases c <;> rfl

/-- ITERATE of a generator core to a horizon that does not go back makes ticks from where the generation starts, and
ends as R415 lists. -/
theorem iterate_generator {c : CoreId} {h : Nat} {s u : State} (generator : c ≠ .S)
    (start : accrue c h (applyDue c h (chanOf s c).q s) = u) (tables : TablesFit u.cfg)
    (forward : (chanOf s c).lastH ≤ h) :
    ∃ t st n, iterate c h s = .done (iterateReply c st t) t ∧ Made c n u t ∧ MadeEnd c u t st := by
  subst start
  obtain ⟨n, t, q, made, -, ⟨st, ends, madeEnd, -⟩ | ⟨speech, -⟩⟩ := generate_spec c _ fun _ => tables
  · exact ⟨t, st, n, by rw [iterate, if_neg (not_lt.2 forward), ends], made, madeEnd⟩
  · exact absurd speech generator

/-- Ticks made keep the parts of the channel that only the start of a generation sets. -/
theorem made_keeps_start {c : CoreId} {n : Nat} {s t : State} (made : Made c n s t) :
    (chanOf t c).q = (chanOf s c).q ∧ (chanOf t c).lastH = (chanOf s c).lastH ∧
      (chanOf t c).cycAcc = (chanOf s c).cycAcc := by
  obtain ⟨_, _, _, _, _, _, _, chan⟩ := made.chan
  rw [chan]
  exact ⟨rfl, rfl, rfl⟩

end Sys2Proof.Proofs.IterateGenerator
end

section
/-! ITERATE of core B (42_psg_b.md R303, 44_update_queue.md R411). -/

namespace Sys2Proof.Proofs.IterateB

open Sys2Proof.Machine Sys2Proof.Laws Sys2Proof.Safety Sys2Proof.Proofs.Pump Sys2Proof.Proofs.IterateGenerator

/-- Where the generation of core B starts: the due writes are in its registers (R303, R411). -/
theorem startB_eq (s : State) (h : Nat) : accrue .B h (applyDue .B h (chanOf s .B).q s) =
    withChan { s with psgB := (dueWrites h (chanOf s .B)).foldl (fun b e => writeByteB s.cfg b e.val) s.psgB } .B
      (startChannel s .B h) := by
  rw [applyDue_eq .B h _ s rfl, foldl_applyB, ← drop_takeWhile]
  exact accrue_written s .B h s.psgA _ s.speech

/-- Settles O22: `startB_eq` says where the generation starts, `iterate_generator` what the generation makes of it. -/
theorem iterateOfCoreB : Obligations.IterateOfCoreB := by
  rintro s h _ _ _ running tables rfl forward rfl rfl
  obtain ⟨t, st, n, done, made, ends⟩ := iterate_generator (by decide) (startB_eq s h.toNat) tables forward
  obtain ⟨q, lastH, cycAcc⟩ := made_keeps_start made
  refine ⟨t, st, n, exec_iterate running done, ?replies, ?fault, made.psgB, q, lastH, cycAcc,
    ends.generationEnd made, made.ring, ?frame⟩
  case replies => exact (congrArg State.replies made.form).trans rfl
  case fault => exact (congrArg State.fault made.form).trans running
  case frame =>
    exact frame_of_start _ made.frame rfl (fun _ => rfl) (fun other => absurd rfl other) (fun _ => rfl) rfl

end Sys2Proof.Proofs.IterateB
end

section
/-! The speech core's own commands: an offered address (43_speech.md R351) and a run of microcode (R353, R354). -/

namespace Sys2Proof.Proofs.SpeechCommands

open Sys2Proof.Machine Sys2Proof.Laws Sys2Proof.Safety Sys2Proof.Proofs.MicroInstruction

/-! ### LOAD_ADDRESS -/

theorem exec_loadAddress {s : State} (running : Running s) (addr : Byte) :
    exec (.loadAddress addr) s = .next (applyS addr s) := by
  simp only [exec, execLoadAddress, runStep_of_running running, settle_none]

theorem exec_load {s : State} (running : Running s) (addr : Byte) : exec (.load addr) s = .next (applyS addr s) := by
  simp only [exec, execLoad, runStep_of_running running, settle_none]

theorem applyS_taken {s : State} (free : s.speech.pending = none) (addr : Byte) :
    applyS addr s = { s with speech := { s.speech with pending := some addr } } := by
  rw [applyS, offerAddress, if_pos free]

theorem applyS_ignored {s : State} (waiting : s.speech.pending ≠ none) (addr : Byte) : applyS addr s = s := by
  rw [applyS, offerAddress, if_neg waiting]

/-- Settles O52: both rows offer the address, and `applyS_taken` and `applyS_ignored` say what becomes of the offer. -/
theorem loadAddressFollowsItsRule : Obligations.LoadAddressFollowsItsRule := by
  intro s addr running
  rw [exec_loadAddress running, exec_load running]
  refine ⟨fun free => ?taken, fun waiting => ?ignored⟩
  case taken => exact applyS_taken free addr ▸ ⟨rfl, rfl⟩
  case ignored => rw [applyS_ignored waiting]; exact ⟨rfl, rfl⟩

/-! ### RUN_MICRO -/

/-- The instructions that only continue spend one unit of fuel each and move `ms` alone. -/
theorem runMicro_continues {cfg : Config} {n : Nat} (left : Nat) {p : Speech} {ms : MicroState}
    (goes : ContinuesTo cfg n p.ms ms) : runMicro cfg (left + n) p = runMicro cfg left { p with ms := ms } := by
  induction n generalizing p with
  | zero =>
    cases goes
    rfl
  | succ n ih =>
    obtain ⟨reads, cont, rest⟩ := goes
    rw [← Nat.add_assoc, runMicro, microStep_reads reads, cont]
    exact ih rest

/-- The instruction over the fuel is not run (R557). -/
theorem runMicro_runaway {cfg : Config} {p : Speech} {ms : MicroState} (goes : ContinuesTo cfg cfg.microFuel p.ms ms) :
    runMicro cfg cfg.microFuel p = .raised (.microRunaway ms) { p with ms := ms } := by
  have spent := runMicro_continues 0 goes
  rwa [Nat.zero_add] at spent

/-- An instruction that reads outside the ROM ends the run where it stands (R112). -/
theorem runMicro_stray {cfg : Config} {n left a : Nat} {p : Speech} {ms : MicroState} {pre post : List Nat}
    (goes : ContinuesTo cfg n p.ms ms) (fuel : n < left) (reads : (microInstr cfg ms).reads = pre ++ a :: post)
    (inside : ∀ r ∈ pre, r < cfg.rom.length) (outside : cfg.rom.length ≤ a) :
    runMicro cfg left p = .raised (.romRange a) { p with ms := ms } := by
  obtain ⟨rest, rfl⟩ := Nat.exists_eq_add_of_lt fuel
  rw [show n + rest + 1 = rest + 1 + n by omega, runMicro_continues _ goes, runMicro,
    microStep_stray (p := { p with ms := ms }) reads inside outside]

/-- An instruction that halts or loads a frame ends the run with its outcome. -/
theorem runMicro_ends {cfg : Config} {n left : Nat} {p : Speech} {ms : MicroState} {o : MicroOutcome}
    (goes : ContinuesTo cfg n p.ms ms) (fuel : n < left) (reads : ReadsInRom cfg (microInstr cfg ms))
    (out : (microInstr cfg ms).out = o) (stops : o ≠ .cont) : ∃ left', runMicro cfg left p =
      .done (o, left') (takeOutcome cfg { p with ms := (microInstr cfg ms).next } o) := by
  obtain ⟨rest, rfl⟩ := Nat.exists_eq_add_of_lt fuel
  exact ⟨rest, Nat.add_comm n rest ▸ runMicro_run goes reads out stops⟩

theorem exec_runMicro_raised {s : State} {p : Speech} {f : Fault} (running : Running s)
    (h : runMicro s.cfg s.cfg.microFuel s.speech = .raised f p) :
    exec .runMicro s = .next (takeFault f { s with speech := p }) := by
  simp only [exec, execRunMicro, runStep_of_running running, h, settle_raised]

theorem exec_runMicro_done {s : State} {p : Speech} {o : MicroOutcome} {left : Nat} (running : Running s)
    (h : runMicro s.cfg s.cfg.microFuel s.speech = .done (o, left) p) :
    exec .runMicro s = .next (answer .ok (.outcome o) { s with speech := p }) := by
  simp only [exec, execRunMicro, runStep_of_running running, h, settle_reply]

/-- Settles O54: after the continuing instructions the run is out of fuel, reads a stray address, or ends. -/
theorem runMicroFollowsItsRule : Obligations.RunMicroFollowsItsRule := by
  rintro s p n ms m running rfl goes rfl
  refine ⟨?runaway, fun fuel pre a post reads inside outside => ?stray, fun fuel reads halts => ?halt,
    fun fr fuel reads frame => ?frame⟩
  case runaway =>
    rintro rfl
    exact exec_runMicro_raised running (runMicro_runaway goes)
  case stray => exact exec_runMicro_raised running (runMicro_stray goes fuel reads inside outside)
  case halt =>
    obtain ⟨_, ends⟩ := runMicro_ends goes fuel reads halts nofun
    exact exec_runMicro_done running ends
  case frame =>
    obtain ⟨_, ends⟩ := runMicro_ends goes fuel reads frame nofun
    exact exec_runMicro_done running ends

end Sys2Proof.Proofs.SpeechCommands
end

section
/-! The speech synthesiser's datapath: the excitation (43_speech.md R358, R359, R365) and the lattice filter (R361,
R362). -/

namespace Sys2Proof.Proofs.SpeechDatapath

open Sys2Proof.Machine Sys2Proof.Laws Sys2Proof.Safety

/-! ### Excitation -/

section Voiced

variable {cfg : Config} {p : Speech} (voiced : p.per ≠ 0)
include voiced

theorem excite_voiced_inside (inside : 0 < p.cnt) : excite cfg p = (0, { p with cnt := p.cnt - 1 }) := by
  rw [excite, if_neg voiced, exciteVoiced, if_neg (not_le.2 inside)]

theorem excite_voiced_boundary (boundary : p.cnt ≤ 0) : excite cfg p =
    (p.amp, if p.interp then interpolate cfg (periodBoundary cfg { p with cnt := p.cnt + p.per.toNat })
      else periodBoundary cfg { p with cnt := p.cnt + p.per.toNat }) := by
  rw [excite, if_neg voiced, exciteVoiced, if_pos boundary]
  rfl

end Voiced

section Unvoiced

variable {cfg : Config} {p : Speech} (unvoiced : p.per = 0)
include unvoiced

theorem excite_noise_inside (inside : 1 < p.cnt) : excite cfg p =
    (if p.rng.getLsbD 0 then p.amp else -p.amp, { p with cnt := p.cnt - 1, rng := rngStep cfg p.rng }) := by
  have within : decide (p.cnt - 1 ≤ 0) = false := decide_eq_false (by omega)
  rw [excite, if_pos unvoiced, exciteNoise, within]
  rfl

theorem excite_noise_boundary (boundary : p.cnt ≤ 1) : excite cfg p =
    (if p.rng.getLsbD 0 then p.amp else -p.amp,
      if p.interp then
        interpolate cfg { periodBoundary cfg { p with cnt := (cfg.noisePer : Int) } with rng := rngStep cfg p.rng }
      else { periodBoundary cfg { p with cnt := (cfg.noisePer : Int) } with rng := rngStep cfg p.rng }) := by
  have ends : decide (p.cnt - 1 ≤ 0) = true := decide_eq_true (by omega)
  rw [excite, if_pos unvoiced, exciteNoise, ends]
  rfl

end Unvoiced

/-- Settles O55: inside a period and at its boundary, voiced and unvoiced; a boundary interpolates where the frame
says. -/
theorem exciteFollowsItsRule : Obligations.ExciteFollowsItsRule := by
  rintro cfg p _ _ _ _ rfl rfl rfl rfl
  refine ⟨excite_voiced_inside, fun voiced boundary plain => ?voicedPlain, fun voiced boundary interp => ?voicedInterp,
    excite_noise_inside, fun noise boundary plain => ?noisePlain, fun noise boundary interp => ?noiseInterp⟩
  case voicedPlain =>
    rw [excite_voiced_boundary voiced boundary, if_neg (Bool.eq_false_iff.1 plain)]
    rfl
  case voicedInterp =>
    rw [excite_voiced_boundary voiced boundary, if_pos interp]
    rfl
  case noisePlain =>
    rw [excite_noise_boundary noise boundary, if_neg (Bool.eq_false_iff.1 plain)]
    rfl
  case noiseInterp =>
    rw [excite_noise_boundary noise boundary, if_pos interp]
    rfl

/-! ### Lattice filter -/

/-- The filter's signal before its first section and after each of the six (R361). -/
def latticeSignal (cfg : Config) (p : Speech) (e : Int) : Fin 7 → BitVec 16 :=
  let ys := latticeOuts cfg p e
  ![wrap16 e, ys.s0, ys.s1, ys.s2, ys.s3, ys.s4, ys.s5]

/-- A section in the terms of the claims: the model's shift is the spec's `fdiv` (R15). -/
theorem lattice2_eq (cfg : Config) (s : BitVec 16) (f b : Coef) (z0 z1 : BitVec 16) : lattice2 cfg s f b z0 z1 =
    BitVec.ofInt 16 (s.toInt + Int.fdiv (b.toInt * z1.toInt) (2 ^ cfg.bShift) +
      Int.fdiv (f.toInt * z0.toInt) (2 ^ cfg.fShift)) := by
  rw [asr_fdiv, asr_fdiv, lattice2, wrap16]

/-- Each section takes the signal one further. -/
theorem latticeSignal_succ (cfg : Config) (p : Speech) (e : Int) (j : Fin 6) :
    latticeSignal cfg p e j.succ = lattice2 cfg (latticeSignal cfg p e j.castSucc)
      ([p.f.s0, p.f.s1, p.f.s2, p.f.s3, p.f.s4, p.f.s5].getD j.val 0)
      ([p.b.s0, p.b.s1, p.b.s2, p.b.s3, p.b.s4, p.b.s5].getD j.val 0)
      ([p.z0.s0, p.z0.s1, p.z0.s2, p.z0.s3, p.z0.s4, p.z0.s5].getD j.val 0)
      ([p.z1.s0, p.z1.s1, p.z1.s2, p.z1.s3, p.z1.s4, p.z1.s5].getD j.val 0) := by
  fin_cases j <;> rfl

/-- Settles O56: `latticeSignal` is the signal between the sections, and the filter stores and puts out just that. -/
theorem latticeFollowsItsRule : Obligations.LatticeFollowsItsRule := by
  intro cfg p e
  refine ⟨latticeSignal cfg p e, rfl, ?sections, rfl⟩
  rintro j _ _ _ _ rfl rfl rfl rfl
  exact (latticeSignal_succ cfg p e j).trans (lattice2_eq ..)

end Sys2Proof.Proofs.SpeechDatapath
end

section
/-! The native tick of core S (43_speech.md R360): the model's bounded loop answers exactly where `TickRun` has a run;
FILTER_UPDATE repeats the tick (R372). -/

namespace Sys2Proof.Proofs.SpeechTick

open Sys2Proof.Machine Sys2Proof.Laws Sys2Proof.Safety Sys2Proof.Proofs.LoopBounds

/-! ### R360's loop -/

/-- The level of a tick with the passes it needs, whatever the fuel left (log 18). -/
def levelOf (cfg : Config) (left : Nat) (p : Speech) : SpeechRes Int := speechLevel cfg (left + 2) left p

/-- NEED_FRAME with the passes it needs (log 18). -/
def frameOf (cfg : Config) (left : Nat) (p : Speech) : SpeechRes (Bool × Nat) := needFrame cfg (left + 1) left p

theorem frameOf_ready {cfg : Config} (left : Nat) {p : Speech} (frame : 0 < p.rpt) :
    frameOf cfg left p = .done (true, left) p := needFrame_ready frame

theorem frameOf_silent {cfg : Config} (left : Nat) {p : Speech} (noFrame : p.rpt ≤ 0) (halted : p.halted = true)
    (idle : p.pending = none) : frameOf cfg left p = .done (false, left) p := by
  rw [frameOf, needFrame, if_neg (not_lt.2 noFrame), if_pos halted, idle]

/-- A halted core with a pending address goes on as the phoneme just started (R352). -/
theorem frameOf_start {cfg : Config} (left : Nat) {p : Speech} {a : Byte} (noFrame : p.rpt ≤ 0)
    (halted : p.halted = true) (waiting : p.pending = some a) :
    frameOf cfg left p = frameOf cfg left (startPhoneme cfg p a) := by
  have started : ¬ 0 < (startPhoneme cfg p a).rpt := not_lt.2 noFrame
  rw [frameOf, needFrame, if_neg (not_lt.2 noFrame), if_pos halted, waiting, frameOf, needFrame, if_neg started]
  rfl

/-- A core that runs microcode goes on where RUN_MICRO leaves it. -/
theorem frameOf_runMicro {cfg : Config} {left left' : Nat} {p q : Speech} {o : MicroOutcome} (noFrame : p.rpt ≤ 0)
    (runs : p.halted = false) (ends : runMicro cfg left p = .done (o, left') q) :
    frameOf cfg left p = frameOf cfg left' q := by
  have enough : left' + 1 ≤ left := runMicro_spends ends
  rw [frameOf, needFrame, if_neg (not_lt.2 noFrame), if_neg (by simp [runs]), ends]
  exact loopBoundsCutNothing.2.1 cfg left left' q enough

/-- The tick goes on from NEED_FRAME alone. -/
theorem levelOf_of_frameOf {cfg : Config} {left left' : Nat} {p q : Speech} (le : left' ≤ left)
    (same : frameOf cfg left p = frameOf cfg left' q) : levelOf cfg left p = levelOf cfg left' q := by
  rw [levelOf, levelOf, ← loopBoundsCutNothing.2.2 cfg (left + 2) left' q (by omega), speechLevel, speechLevel,
    ← frameOf, same, frameOf]

theorem levelOf_silent {cfg : Config} (left : Nat) {p : Speech} (noFrame : p.rpt ≤ 0) (halted : p.halted = true)
    (idle : p.pending = none) : levelOf cfg left p = .done 0 p := by
  rw [levelOf, speechLevel, ← frameOf, frameOf_silent left noFrame halted idle]

theorem levelOf_output {cfg : Config} (left : Nat) {p : Speech} (frame : 0 < p.rpt)
    (lasts : 0 < (excite cfg p).2.rpt) : levelOf cfg left p =
      .done (asr (lattice cfg (excite cfg p).2 (excite cfg p).1).1 cfg.speechOutShift)
        (lattice cfg (excite cfg p).2 (excite cfg p).1).2 := by
  rw [levelOf, speechLevel, ← frameOf, frameOf_ready left frame]
  exact if_neg (not_le.2 lasts)

/-- An excitation step that ends the frame is followed by the rest of the tick (R360). -/
theorem levelOf_expired {cfg : Config} (left : Nat) {p : Speech} (frame : 0 < p.rpt)
    (ends : (excite cfg p).2.rpt ≤ 0) : levelOf cfg left p = levelOf cfg left (excite cfg p).2 := by
  rw [levelOf, ← loopBoundsCutNothing.2.2 cfg (left + 3) left p (by omega), speechLevel, ← frameOf,
    frameOf_ready left frame]
  exact if_pos ends

/-- The tick goes on from the frame or the halt that the microcode runs up to. -/
theorem levelOf_microcode {cfg : Config} {left n : Nat} {p : Speech} {ms : MicroState} {o : MicroOutcome}
    (noFrame : p.rpt ≤ 0) (runs : p.halted = false) (goes : ContinuesTo cfg n p.ms ms)
    (reads : ReadsInRom cfg (microInstr cfg ms)) (out : (microInstr cfg ms).out = o) (stops : o ≠ .cont) :
    levelOf cfg (left + n + 1) p = levelOf cfg left (takeOutcome cfg { p with ms := (microInstr cfg ms).next } o) :=
  have ends := runMicro_run goes reads out stops
  levelOf_of_frameOf (runMicro_spends ends).le (frameOf_runMicro noFrame runs ends)

/-- The model's loop gives every tick of R360. -/
theorem levelOf_of_tickRun {cfg : Config} {left : Nat} {p q : Speech} {level : Int} (run : TickRun cfg left p level q) :
    levelOf cfg left p = .done level q := by
  induction run with
  | silent noFrame halted idle => exact levelOf_silent _ noFrame halted idle
  | output frame lasts filtered => rw [levelOf_output _ frame lasts, filtered, asr_fdiv]
  | expired frame ends _ ih => rw [levelOf_expired _ frame ends, ih]
  | start noFrame halted waiting _ ih =>
    exact (levelOf_of_frameOf le_rfl (frameOf_start _ noFrame halted waiting)).trans ih
  | frame noFrame runs goes reads out _ ih => exact (levelOf_microcode noFrame runs goes reads out nofun).trans ih
  | halt noFrame runs goes reads out _ ih => exact (levelOf_microcode noFrame runs goes reads out nofun).trans ih

/-- The model's loop answers exactly the ticks of R360. -/
theorem levelOf_eq_done_iff {cfg : Config} {left : Nat} {p q : Speech} {level : Int} :
    levelOf cfg left p = .done level q ↔ TickRun cfg left p level q :=
  ⟨speechLevel_done, levelOf_of_tickRun⟩

/-- A level is one of 16 bits (R363), and where there is none the microcode faults. -/
theorem levelOf_cases (cfg : Config) (left : Nat) (p : Speech) :
    (∃ level q, levelOf cfg left p = .done level q ∧ -32768 ≤ level ∧ level ≤ 32767) ∨
      ∃ f q, levelOf cfg left p = .raised f q ∧ SpeechFault cfg f := speechLevel_spec cfg _ left p

/-! ### TICK -/

theorem tickS_of_done {s : State} {level : Int} {q : Speech}
    (h : levelOf s.cfg s.cfg.microFuel s.speech = .done level q) :
    tickS s = putSample .S level { s with speech := q } := by
  rw [tickS, ← levelOf, h]

theorem tickS_of_raised {s : State} {f : Fault} {q : Speech}
    (h : levelOf s.cfg s.cfg.microFuel s.speech = .raised f q) : tickS s = .raised f { s with speech := q } := by
  rw [tickS, ← levelOf, h]

/-- A tick of R360 with room in the ring stores its level. -/
theorem tickS_stores {s : State} {level : Int} {q : Speech} (room : spaceRemaining s.cfg (chanOf s .S) ≠ 0)
    (run : TickRun s.cfg s.cfg.microFuel s.speech level q) :
    tickS s = .done () (withChan { s with speech := q } .S (storeLevel s.cfg (chanOf s .S) level)) := by
  have done := levelOf_eq_done_iff.2 run
  rcases levelOf_cases s.cfg s.cfg.microFuel s.speech with ⟨level', q', done', low, high⟩ | ⟨f, q', raised, -⟩
  · obtain ⟨rfl, rfl⟩ := SpeechRes.done.inj (done.symm.trans done')
    rw [tickS_of_done done]
    exact putSample_stores low high room
  · exact nomatch done.symm.trans raised

/-- Where R360's loop has no end the tick raises a fault of its microcode and stores nothing. -/
theorem tickS_raises {s : State} (noRun : ∀ level q, ¬ TickRun s.cfg s.cfg.microFuel s.speech level q) :
    ∃ f q, tickS s = .raised f { s with speech := q } ∧ SpeechFault s.cfg f := by
  rcases levelOf_cases s.cfg s.cfg.microFuel s.speech with ⟨level, q, done, -⟩ | ⟨f, q, raised, fault⟩
  · exact absurd (levelOf_eq_done_iff.1 done) (noRun level q)
  · exact ⟨f, q, tickS_of_raised raised, fault⟩

theorem exec_tickS_done {s t : State} (running : Running s) (ticked : tickS s = .done () t) :
    exec (.tick 2) s = .next t := by
  change execTick (coreField .S) s = _
  rw [execTick, runStep_of_running running, onCore_coreField, tick, ticked]
  rfl

theorem exec_tickS_raised {s t : State} {f : Fault} (running : Running s) (raised : tickS s = .raised f t) :
    exec (.tick 2) s = .next (takeFault f t) := by
  change execTick (coreField .S) s = _
  rw [execTick, runStep_of_running running, onCore_coreField, tick, raised]
  rfl

/-- A tick of R360 with room in a canonical ring, in the terms of the claims. -/
theorem exec_tickS_stored {s : State} {level : Int} {q : Speech} (running : Running s)
    (canonical : (chanOf s .S).buf.wf = true) (room : 0 < spaceRemaining s.cfg (chanOf s .S))
    (run : TickRun s.cfg s.cfg.microFuel s.speech level q) :
    ∃ x', exec (.tick 2) s = .next (withChan { s with speech := q } .S x') ∧ Stored s.cfg (chanOf s .S) level x' :=
  ⟨_, exec_tickS_done running (tickS_stores room.ne' run), storeLevel_stored _ _ _ canonical⟩

/-- The tick depends on the speech core through the level of R360's loop alone. -/
theorem exec_tickS_congr {s : State} {p : Speech} (running : Running s)
    (same : levelOf s.cfg s.cfg.microFuel s.speech = levelOf s.cfg s.cfg.microFuel p) :
    exec (.tick 2) s = exec (.tick 2) { s with speech := p } := by
  have ticks : tick .S s = tick .S { s with speech := p } := by
    cases level : levelOf s.cfg s.cfg.microFuel s.speech with
    | done level' q =>
      exact (tickS_of_done level).trans (tickS_of_done (s := { s with speech := p }) (same.symm.trans level)).symm
    | raised f q =>
      exact (tickS_of_raised level).trans (tickS_of_raised (s := { s with speech := p }) (same.symm.trans level)).symm
  have running' : Running { s with speech := p } := running
  change execTick (coreField .S) s = execTick (coreField .S) _
  rw [execTick, execTick, runStep_of_running running, runStep_of_running running', onCore_coreField, onCore_coreField,
    ticks]

theorem exists_lattice (cfg : Config) (p : Speech) (e : Int) : ∃ y q, lattice cfg p e = (y, q) :=
  ⟨_, _, (Prod.eta _).symm⟩

/-- A core that is running microcode, or starts to, goes on as it would from there (R352, R357). -/
theorem tickRun_of_started {cfg : Config} {left : Nat} {p p₀ q : Speech} {level : Int} (noFrame : p.rpt ≤ 0)
    (started : (p.halted = false ∧ p₀ = p) ∨ ∃ a, p.halted = true ∧ p.pending = some a ∧
      p₀ = { p with ms := entryState cfg a, halted := false, pending := none })
    (run : p₀.rpt ≤ 0 → p₀.halted = false → TickRun cfg left p₀ level q) : TickRun cfg left p level q := by
  rcases started with ⟨runs, rfl⟩ | ⟨a, halted, waiting, rfl⟩
  · exact run noFrame runs
  · exact .start noFrame halted waiting (run noFrame rfl)

/-- Settles O57: every stored tick is a run of R360's loop, and where there is none the tick raises. -/
theorem tickOfCoreS : Obligations.TickOfCoreS := by
  rintro s p running rfl canonical room
  have stored {level q} := exec_tickS_stored (level := level) (q := q) running canonical room
  refine ⟨fun noFrame halted idle => ?silent, fun frame lasts => ?output,
    fun p₀ p₁ n ms fr noFrame started goes fuel reads out loaded frame lasts => ?framed, fun frame ends => ?expired,
    fun level q run => stored run, fun noRun => ?noRun⟩
  case silent => exact stored (.silent noFrame halted idle)
  case output =>
    obtain ⟨y, q, filtered⟩ := exists_lattice s.cfg (excite s.cfg s.speech).2 (excite s.cfg s.speech).1
    obtain ⟨x', done, store⟩ := stored (.output frame lasts filtered)
    exact ⟨y, q, x', filtered, done, store⟩
  case framed =>
    obtain ⟨y, q, filtered⟩ := exists_lattice s.cfg (excite s.cfg p₁).2 (excite s.cfg p₁).1
    obtain ⟨rest, fuelEq⟩ := Nat.exists_eq_add_of_lt fuel
    have output := TickRun.output (left := rest) frame lasts filtered
    subst loaded
    have run := tickRun_of_started (left := s.cfg.microFuel) noFrame started fun noFrame₀ runs => by
      rw [fuelEq, Nat.add_comm n rest]
      exact .frame noFrame₀ runs goes reads out output
    obtain ⟨x', done, store⟩ := stored run
    exact ⟨y, q, x', filtered, done, store⟩
  case expired => exact exec_tickS_congr running (levelOf_expired _ frame ends)
  case noRun =>
    obtain ⟨f, q, raised, fault⟩ := tickS_raises noRun
    exact ⟨f, q, exec_tickS_raised running raised, fault⟩

/-- Settles O58: the phoneme starts, its first instruction halts, and the tick is silent from there. -/
theorem immediateHaltIsSilent : Obligations.ImmediateHaltIsSilent := by
  rintro s p a m running rfl canonical room noFrame halted waiting fuel rfl reads halts
  obtain ⟨left, fuelEq⟩ : ∃ left, s.cfg.microFuel = left + 0 + 1 := ⟨s.cfg.microFuel - 1, by omega⟩
  have run : TickRun s.cfg s.cfg.microFuel s.speech 0
      { s.speech with ms := (microInstr s.cfg (entryState s.cfg a)).next, halted := true, pending := none } := by
    rw [fuelEq]
    exact .start noFrame halted waiting (.halt (n := 0) (by exact noFrame) rfl rfl reads halts
      (.silent (by exact noFrame) rfl rfl))
  rw [← halted] at run
  exact exec_tickS_stored running canonical room run

/-! ### FILTER_UPDATE -/

/-- A tick that ends records no fault. -/
theorem tickS_done_fault {s t : State} (ticked : tickS s = .done () t) : t.fault = s.fault := by
  cases run : levelOf s.cfg s.cfg.microFuel s.speech with
  | raised f q => exact nomatch ticked.symm.trans (tickS_of_raised run)
  | done level q =>
    rw [tickS_of_done run] at ticked
    rcases putSample_cases .S level { s with speech := q } with ⟨-, -, -, stores⟩ | ⟨-, raises⟩ | ⟨-, -, -, raises⟩
    · cases ticked.symm.trans stores
      rfl
    · exact nomatch ticked.symm.trans raises
    · exact nomatch ticked.symm.trans raises

theorem exec_filterUpdate_done {s t : State} {n : BitVec 32} (running : Running s)
    (done : filterUpdate n.toNat s = .done () t) : exec (.filterUpdate n) s = .next t := by
  simp only [exec, execFilterUpdate, runStep_of_running running, done, settle_none]

theorem exec_filterUpdate_raised {s t : State} {n : BitVec 32} {f : Fault} (running : Running s)
    (raised : filterUpdate n.toNat s = .raised f t) : exec (.filterUpdate n) s = .next (takeFault f t) := by
  simp only [exec, execFilterUpdate, runStep_of_running running, raised, settle_raised]

theorem exec_filterUpdate_congr {s t : State} {n m : BitVec 32} (running : Running s) (running' : Running t)
    (same : filterUpdate n.toNat s = filterUpdate m.toNat t) : exec (.filterUpdate n) s = exec (.filterUpdate m) t := by
  simp only [exec, execFilterUpdate, runStep_of_running running, runStep_of_running running', same]

theorem toNat_succ {n : BitVec 32} (fits : n.toNat + 1 < 2 ^ 32) : (n + 1).toNat = n.toNat + 1 := by
  rw [BitVec.toNat_add_of_lt (by simpa using fits)]
  rfl

/-- One more tick goes first: the others go on from it. -/
theorem exec_filterUpdate_succ_done {s t : State} {n : BitVec 32} (running : Running s) (fits : n.toNat + 1 < 2 ^ 32)
    (ticked : tickS s = .done () t) : exec (.filterUpdate (n + 1)) s = exec (.filterUpdate n) t := by
  have running' : Running t := (tickS_done_fault ticked).trans running
  exact exec_filterUpdate_congr running running' (by rw [toNat_succ fits, filterUpdate, ticked])

/-- One more tick goes first: no other is made after its fault. -/
theorem exec_filterUpdate_succ_raised {s t : State} {f : Fault} {n : BitVec 32} (running : Running s)
    (fits : n.toNat + 1 < 2 ^ 32) (raised : tickS s = .raised f t) :
    exec (.filterUpdate (n + 1)) s = .next (takeFault f t) :=
  exec_filterUpdate_raised running (by rw [toNat_succ fits, filterUpdate, raised])

/-- The channel after `n` silent samples have been stored. -/
def silenced (cfg : Config) (n : Nat) (x : Channel) : Channel := (fun y => storeLevel cfg y 0)^[n] x

/-- A halted core with nothing to do stores silence for as long as the ring has room (R364). -/
theorem filterUpdate_silent {n : Nat} {s : State} (noFrame : s.speech.rpt ≤ 0) (halted : s.speech.halted = true)
    (idle : s.speech.pending = none) (room : n ≤ spaceRemaining s.cfg (chanOf s .S)) :
    filterUpdate n s = .done () (withChan s .S (silenced s.cfg n (chanOf s .S))) := by
  induction n generalizing s with
  | zero => exact congrArg (Res.done ()) (withChan_chanOf s .S).symm
  | succ n ih =>
    have space : spaceRemaining s.cfg (chanOf s .S) ≠ 0 := by omega
    have fewer := samplesAvailable_put (storeLevel_head s.cfg (chanOf s .S) 0) (storeLevel_tail ..) space
    have room' : n ≤ spaceRemaining s.cfg (storeLevel s.cfg (chanOf s .S) 0) := by
      simp only [spaceRemaining] at room ⊢
      omega
    rw [filterUpdate, tickS_stores space (.silent noFrame halted idle)]
    have rest := ih (s := withChan s .S (storeLevel s.cfg (chanOf s .S) 0)) noFrame halted idle (by simpa using room')
    rw [chanOf_withChan_same, withChan_withChan] at rest
    exact rest

theorem silenced_ringFrame (cfg : Config) (n : Nat) (x : Channel) : RingFrame cfg x n (silenced cfg n x) := by
  induction n generalizing x with
  | zero => exact ⟨rfl, fun _ _ => rfl⟩
  | succ n ih =>
    have next := ringAddress_succ (storeLevel_head cfg x 0)
    obtain ⟨head, rest⟩ := ih (storeLevel cfg x 0)
    refine ⟨head.trans (next n), fun a outside => ?_⟩
    have kept : memRead (storeLevel cfg x 0).buf a = memRead x.buf a :=
      memRead_memWrite_ne _ _ (outside 0 n.succ_pos)
    exact (rest a fun i lt => next i ▸ outside (i + 1) (Nat.succ_lt_succ lt)).trans kept

/-- Without a decay stage a silent sample is the code 127 (R202, R204). -/
theorem storeLevel_silent {cfg : Config} {x : Channel} (untimed : x.tau = 0) :
    (storeLevel cfg x 0).buf = memWrite x.buf x.head 127 := by
  rw [storeLevel_buf, decayOut, if_pos untimed]
  rfl

/-- An address that reads 127 keeps doing so while silence is stored. -/
theorem silenced_keeps_127 {cfg : Config} {x : Channel} {a : Nat} (n : Nat) (untimed : x.tau = 0)
    (canonical : x.buf.wf = true) (reads : memRead x.buf a = 127) : memRead (silenced cfg n x).buf a = 127 := by
  induction n generalizing x with
  | zero => exact reads
  | succ n ih =>
    have buf := storeLevel_silent (cfg := cfg) untimed
    refine ih (x := storeLevel cfg x 0) untimed (buf ▸ wf_memWrite _ _ canonical) ?_
    rw [buf]
    by_cases same : a = x.head
    · rw [same, memRead_memWrite_same _ _ canonical]
    · rw [memRead_memWrite_ne _ _ same, reads]

theorem silenced_reads_127 {cfg : Config} {x : Channel} {n i : Nat} (untimed : x.tau = 0) (canonical : x.buf.wf = true)
    (lt : i < n) : memRead (silenced cfg n x).buf (ringAddress cfg x i) = 127 := by
  induction n generalizing x i with
  | zero => cases lt
  | succ n ih =>
    have buf := storeLevel_silent (cfg := cfg) untimed
    have canonical' : (storeLevel cfg x 0).buf.wf = true := buf ▸ wf_memWrite _ _ canonical
    cases i with
    | zero =>
      refine silenced_keeps_127 (x := storeLevel cfg x 0) n untimed canonical' ?_
      rw [buf]
      exact memRead_memWrite_same _ _ canonical
    | succ i =>
      rw [← ringAddress_succ (storeLevel_head cfg x 0)]
      exact ih (x := storeLevel cfg x 0) untimed canonical' (Nat.lt_of_succ_lt_succ lt)

/-- Settles O59: the first tick decides whether there are others; a halted core with nothing to do stores silence. -/
theorem filterUpdateIsRepeatedTicks : Obligations.FilterUpdateIsRepeatedTicks := by
  intro s running
  refine ⟨exec_filterUpdate_done running rfl, fun n t fits next => ?succ, fun n noFrame halted idle room => ?silent⟩
  case succ =>
    cases ticked : tickS s with
    | done u t' =>
      cases (exec_tickS_done running ticked).symm.trans next
      have running' : t.fault = none := (tickS_done_fault ticked).trans running
      exact ⟨fun _ => exec_filterUpdate_succ_done running fits ticked, fun fault => absurd running' fault⟩
    | raised f t' =>
      cases (exec_tickS_raised running ticked).symm.trans next
      exact ⟨nofun, fun _ => exec_filterUpdate_succ_raised running fits ticked⟩
  case silent =>
    exact ⟨silenced s.cfg n.toNat (chanOf s .S),
      exec_filterUpdate_done running (filterUpdate_silent noFrame halted idle room), silenced_ringFrame ..,
      fun untimed canonical _ i lt => silenced_reads_127 untimed canonical lt⟩

end Sys2Proof.Proofs.SpeechTick
end

section
/-! The generations of core S (44_update_queue.md R411, R415) and RESUME of every core (R416). -/

namespace Sys2Proof.Proofs.SpeechGeneration

open Sys2Proof.Machine Sys2Proof.Laws Sys2Proof.Safety Sys2Proof.Proofs.HeldAgent Sys2Proof.Proofs.Pump
open Sys2Proof.Proofs.IterateGenerator Sys2Proof.Proofs.SpeechTick

/-! ### A generation that ends at a fault -/

/-- A tick that raises although the ring has room is no tick of R360. -/
theorem noRun_of_tickS_raised {s t : State} {f : Fault} (room : spaceRemaining s.cfg (chanOf s .S) ≠ 0)
    (raised : tickS s = .raised f t) (level : Int) (q : Speech) :
    ¬ TickRun s.cfg s.cfg.microFuel s.speech level q :=
  fun run => nomatch (tickS_stores room run).symm.trans raised

theorem made_fault {c : CoreId} {n : Nat} {s t : State} (made : Made c n s t) : t.fault = s.fault :=
  (congrArg State.fault made.form).trans rfl

theorem made_cfg {c : CoreId} {n : Nat} {s t : State} (made : Made c n s t) : t.cfg = s.cfg :=
  (congrArg State.cfg made.form).trans rfl

theorem made_replies {c : CoreId} {n : Nat} {s t : State} (made : Made c n s t) : t.replies = s.replies :=
  (congrArg State.replies made.form).trans rfl

/-- What the claims about core S say of a state in which the fault of the tick after those made has been recorded. -/
def StoppedAt (s t : State) (q : Speech) : Prop :=
  0 < (chanOf t .S).debt ∧ 0 < spaceRemaining t.cfg (chanOf t .S) ∧ t.holdS = s.holdS ∧
    (∀ level r, ¬ TickRun s.cfg s.cfg.microFuel q level r) ∧
    exec (.tick 2) { t with speech := q, fault := none } = .next t ∧
    ((∃ m, t.fault = some (.microRunaway m)) ∨ ∃ a, t.fault = some (.romRange a) ∧ s.cfg.rom.length ≤ a)

theorem stoppedAt_of_madeFault {n : Nat} {s t : State} {q : Speech} {f : Fault} (made : Made .S n s t)
    (running : Running s) (stopped : MadeFault s t q f) : StoppedAt s (takeFault f t) q := by
  obtain ⟨microcode, raised, due, room, hold⟩ := stopped
  have cfg := made_cfg made
  have running' : t.fault = none := (made_fault made).trans running
  have cleared : ({ takeFault f t with speech := q, fault := none } : State) = { t with speech := q } :=
    congrArg (fun o => ({ t with speech := q, fault := o } : State)) running'.symm
  refine ⟨due, Nat.pos_of_ne_zero room, hold, ?noRun, ?tick, ?fault⟩
  case noRun =>
    have noRun := noRun_of_tickS_raised (s := { t with speech := q }) room raised
    rw [← cfg]
    exact noRun
  case tick =>
    rw [cleared]
    exact exec_tickS_raised (s := { t with speech := q }) running' raised
  case fault =>
    rcases microcode with ⟨m, rfl⟩ | ⟨a, rfl, outside⟩
    · exact .inl ⟨m, rfl⟩
    · exact .inr ⟨a, rfl, outside⟩

/-! ### ITERATE of core S -/

/-- Where the generation of core S starts: the due addresses have been offered, the interval accrued (R351, R411). -/
def startS (s : State) (h : Nat) : State :=
  withChan { s with speech := (dueWrites h (chanOf s .S)).foldl (fun p e => offerAddress p e.val) s.speech } .S
    (startChannel s .S h)

theorem startS_eq (s : State) (h : Nat) : accrue .S h (applyDue .S h (chanOf s .S).q s) = startS s h := by
  rw [applyDue_eq .S h _ s rfl, foldl_applyS, ← drop_takeWhile]
  exact accrue_written s .S h s.psgA s.psgB _

theorem exec_iterate_raised {c : CoreId} {s t : State} {h : BitVec 64} {f : Fault} (running : Running s)
    (raised : iterate c h.toNat s = .raised f t) : exec (.iterate (coreField c) h) s = .next (takeFault f t) := by
  simp only [exec, execIterate, runStep_of_running running, onCore_coreField, raised, settle_raised]

section Forward

variable {c : CoreId} {h : Nat} {s u t : State} (start : accrue c h (applyDue c h (chanOf s c).q s) = u)
  (forward : (chanOf s c).lastH ≤ h)
include start forward

/-- ITERATE to a horizon that does not go back ends as its generation does. -/
theorem iterate_done {st : Status} (generates : generate c u = .done st t) :
    iterate c h s = .done (iterateReply c st t) t := by
  rw [iterate, if_neg (not_lt.2 forward), start, generates]

/-- ITERATE to a horizon that does not go back raises what its generation raises. -/
theorem iterate_raised {f : Fault} (raises : generate c u = .raised f t) : iterate c h s = .raised f t := by
  rw [iterate, if_neg (not_lt.2 forward), start, raises]

end Forward

/-- Settles O23: `startS_eq` says where the generation starts, `generate_spec` what it makes and how it ends. -/
theorem iterateOfCoreS : Obligations.IterateOfCoreS := by
  rintro s h _ _ _ _ running rfl forward rfl rfl rfl
  have start := startS_eq s h.toNat
  obtain ⟨n, t, q, made, runs, ends⟩ := generate_spec .S (startS s h.toNat) fun other => absurd rfl other
  obtain ⟨queue, lastH, cycAcc⟩ := made_keeps_start made
  have replies : t.replies = s.replies := (made_replies made).trans rfl
  have running' : t.fault = none := (made_fault made).trans running
  have frame : GenerationFrame .S s t :=
    frame_of_start _ made.frame rfl (fun _ => rfl) (fun _ => rfl) (fun other => absurd rfl other) rfl
  rcases ends with ⟨st, generates, madeEnd, reached⟩ | ⟨-, f, raises, stopped⟩
  · have iterates := iterate_done start forward generates
    exact ⟨t, n, q, made.ring, frame, replies, lastH, queue, cycAcc, runs rfl, .inl ⟨st, running', reached,
      exec_iterate running iterates, madeEnd.generationEnd made⟩⟩
  · have iterates := iterate_raised start forward raises
    have stop := stoppedAt_of_madeFault made running stopped
    exact ⟨takeFault f t, n, q, made.ring, frame, replies, lastH, queue, cycAcc, runs rfl,
      .inr ⟨exec_iterate_raised running iterates, made.debt, stop⟩⟩

/-! ### RESUME -/

/-- Nothing held: RESUME is ignored (R416). -/
theorem exec_resume_free {s : State} (free : Free s) : exec .resume s = .next (answer .ignored .none s) := by
  obtain ⟨running, notHeld⟩ := free
  change execResume s = _
  rw [execResume, notHeld]
  exact runCommandS_of_free ⟨running, notHeld⟩ _

section Held

variable {s : State} {k : Nat} {d : Source} (running : Running s) (held : s.holdS = some k)
  (registered : sourceAt s k = some d) (clean : d.clean ≠ [])
include running held registered clean

/-- RESUME of a source with a clean block goes on with the generation, S no longer held (R416). -/
theorem exec_resume_held : exec .resume s = settle (resumeOn k s) := by
  change execResume s = _
  rw [execResume_of_held running held, resumeEnabled_of_sourceAt registered, List.isEmpty_eq_false_iff.2 clean]
  exact runStep_of_running running _

theorem exec_resume_done {t : State} {st : Status} (generates : generate d.core { s with holdS := none } = .done st t) :
    exec .resume s = .next (answer st .none t) := by
  rw [exec_resume_held running held registered clean, resumeOn, registered]
  simp only [generates, settle_statusOnly]

theorem exec_resume_raised {t : State} {f : Fault} (raises : generate d.core { s with holdS := none } = .raised f t) :
    exec .resume s = .next (takeFault f t) := by
  rw [exec_resume_held running held registered clean, resumeOn, registered]
  simp only [raises, settle_raised]

end Held

/-- Settles O26: RESUME is the generation that `generate_spec` describes, from the state that holds nothing. -/
theorem resumeContinuesTheGeneration : Obligations.ResumeContinuesTheGeneration := by
  refine ⟨fun s free => exec_resume_free free, fun s k d running tables held registered clean generator => ?generator,
    fun s k d x running held registered clean speech chan => ?speech⟩
  case generator =>
    obtain ⟨n, t, q, made, -, ⟨st, generates, madeEnd, -⟩ | ⟨speech, -⟩⟩ :=
      generate_spec d.core { s with holdS := none } fun _ => tables
    · obtain ⟨queue, lastH, cycAcc⟩ := made_keeps_start made
      exact ⟨t, st, n, exec_resume_done running held registered clean generates, (made_replies made).trans rfl,
        (made_fault made).trans running, made.psgA, made.psgB, lastH, queue, cycAcc,
        madeEnd.generationEnd made, made.ring, made.frame⟩
    · exact absurd speech generator
  case speech =>
    subst chan
    have resumes {t st} := exec_resume_done (t := t) (st := st) running held registered clean
    have stops {t f} := exec_resume_raised (t := t) (f := f) running held registered clean
    rw [speech] at resumes stops
    obtain ⟨n, t, q, made, runs, ends⟩ := generate_spec .S { s with holdS := none } fun other => absurd rfl other
    obtain ⟨queue, lastH, cycAcc⟩ := made_keeps_start made
    have replies : t.replies = s.replies := (made_replies made).trans rfl
    have running' : t.fault = none := (made_fault made).trans running
    rcases ends with ⟨st, generates, madeEnd, reached⟩ | ⟨-, f, raises, stopped⟩
    · exact ⟨t, n, q, replies, lastH, queue, cycAcc, made.ring, made.frame, runs rfl, .inl ⟨st, resumes generates,
        running', reached, madeEnd.generationEnd made⟩⟩
    · have stop := stoppedAt_of_madeFault made running stopped
      exact ⟨takeFault f t, n, q, replies, lastH, queue, cycAcc, made.ring, made.frame, runs rfl,
        .inr ⟨stops raises, made.debt, stop⟩⟩

end Sys2Proof.Proofs.SpeechGeneration
end

section
/-! ITERATE of core A (41_psg_a.md R252, 44_update_queue.md R411). -/

namespace Sys2Proof.Proofs.IterateA

open Sys2Proof.Machine Sys2Proof.Laws Sys2Proof.Safety Sys2Proof.Proofs.Pump Sys2Proof.Proofs.IterateGenerator
open Sys2Proof.Proofs.SpeechGeneration

/-- Where the generation of core A starts: the due writes are in its registers (R252, R411). -/
theorem startA_eq (s : State) (h : Nat) : accrue .A h (applyDue .A h (chanOf s .A).q s) =
    withChan { s with
      psgA := (dueWrites h (chanOf s .A)).foldl (fun a e => writeRegA a (Fin.ofNat 16 e.addr) e.val) s.psgA } .A
      (startChannel s .A h) := by
  rw [applyDue_eq .A h _ s rfl, foldl_applyA, ← drop_takeWhile]
  exact accrue_written s .A h _ s.psgB s.speech

/-- Settles O21: `startA_eq` says where the generation starts, `iterate_generator` what it makes and how it ends. -/
theorem iterateOfCoreA : Obligations.IterateOfCoreA := by
  rintro s h _ _ _ running tables rfl forward rfl rfl
  obtain ⟨t, st, n, iterates, made, madeEnd⟩ := iterate_generator (by decide) (startA_eq s h.toNat) tables forward
  obtain ⟨queue, lastH, cycAcc⟩ := made_keeps_start made
  have replies : t.replies = s.replies := (made_replies made).trans rfl
  have running' : t.fault = none := (made_fault made).trans running
  have frame : GenerationFrame .A s t :=
    frame_of_start _ made.frame rfl (fun other => absurd rfl other) (fun _ => rfl) (fun _ => rfl) rfl
  exact ⟨t, st, n, exec_iterate running iterates, replies, running', made.psgA, queue, lastH, cycAcc,
    madeEnd.generationEnd made, made.ring, frame⟩

end Sys2Proof.Proofs.IterateA
end

section
/-! The conversion from cycles to ticks (44_update_queue.md R413): accruing in two intervals is accruing in one, because
the fraction of a tick that the first leaves goes into the second. -/

namespace Sys2Proof.Proofs.TickConversion

open Sys2Proof.Machine Sys2Proof.Laws Sys2Proof.Safety Sys2Proof.Proofs.IterateGenerator

/-! ### What an accrual leaves -/

theorem chanOf_accrue (c : CoreId) (h : Nat) (s : State) : chanOf (accrue c h s) c = { chanOf s c with
    debt := (chanOf s c).debt + accrued s c h / (s.cpuHz * tickDen s c)
    cycAcc := accrued s c h % (s.cpuHz * tickDen s c)
    lastH := h } :=
  chanOf_withChan_same ..

theorem accrue_eq_of_channel {c : CoreId} {g h : Nat} {s : State}
    (channel : chanOf (accrue c h (accrue c g s)) c = chanOf (accrue c h s) c) :
    accrue c h (accrue c g s) = accrue c h s := by
  simp only [accrue, chanOf_withChan_same, withChan_withChan] at channel ⊢
  rw [channel]

/-- An accrual leaves the handle and the registry, so the core's tick rate stays as it was (R41). -/
theorem syncOf_accrue (c : CoreId) (h : Nat) (s : State) : syncOf (accrue c h s) c = syncOf s c :=
  syncOf_congr (by rw [chanOf_accrue]) fun k _ => by rw [sourceAt_accrue]

theorem tickNum_accrue (c : CoreId) (h : Nat) (s : State) : tickNum (accrue c h s) c = tickNum s c := by
  rw [tickNum, syncOf_accrue, accrue_cpuHz, accrue_cfg, ← tickNum]

theorem tickDen_accrue (c : CoreId) (h : Nat) (s : State) : tickDen (accrue c h s) c = tickDen s c := by
  rw [tickDen, syncOf_accrue, accrue_cfg, ← tickDen]

/-! ### Intervals in a row -/

/-- What the second interval accrues, beside the fraction that the first leaves, is what the first did not. -/
theorem accrued_accrue {c : CoreId} {g h : Nat} {s : State} (first : (chanOf s c).lastH ≤ g) (second : g ≤ h) :
    accrued s c h = accrued s c g + (h - g) * tickNum s c ∧
      accrued (accrue c g s) c h = accrued s c g % (s.cpuHz * tickDen s c) + (h - g) * tickNum s c := by
  have cycles : h - (chanOf s c).lastH = (g - (chanOf s c).lastH) + (h - g) := by omega
  refine ⟨?_, ?_⟩
  · rw [accrued, accrued, cycles, Nat.add_mul, Nat.add_assoc]
  · rw [accrued, chanOf_accrue, tickNum_accrue]

/-- Whole parts are counted alike whether a remainder is carried over or the parts are divided together. -/
theorem div_add_mod_add_div {per : Nat} (pos : 0 < per) (m n : Nat) :
    m / per + (m % per + n) / per = (m + n) / per := by
  calc m / per + (m % per + n) / per
      = (m % per + n + per * (m / per)) / per := by rw [Nat.add_mul_div_left _ _ pos, Nat.add_comm]
    _ = (m % per + per * (m / per) + n) / per := by rw [Nat.add_right_comm]
    _ = (m + n) / per := by rw [Nat.mod_add_div]

/-- No tick is lost or counted twice at a horizon on the way (R413). -/
theorem accrue_accrue {c : CoreId} {g h : Nat} {s : State} (tick : 0 < s.cpuHz * tickDen s c)
    (first : (chanOf s c).lastH ≤ g) (second : g ≤ h) : accrue c h (accrue c g s) = accrue c h s := by
  obtain ⟨whole, rest⟩ := accrued_accrue first second
  refine accrue_eq_of_channel ?_
  rw [chanOf_accrue, rest, chanOf_accrue, accrue_cpuHz, tickDen_accrue, chanOf_accrue, whole, Nat.mod_add_mod,
    Nat.add_assoc, div_add_mod_add_div tick]

/-- Rising horizons on the way to `h` leave what one accrual to `h` leaves. -/
theorem foldl_accrue {c : CoreId} {h : Nat} {hs : List Nat} {s : State} (tick : 0 < s.cpuHz * tickDen s c)
    (rising : ((chanOf s c).lastH :: hs ++ [h]).Pairwise (· ≤ ·)) :
    (hs ++ [h]).foldl (fun u h => accrue c h u) s = accrue c h s := by
  induction hs generalizing s with
  | nil => rfl
  | cons g hs ih =>
    obtain ⟨below, rising'⟩ := List.pairwise_cons.1 rising
    have first : (chanOf s c).lastH ≤ g := below g (by simp)
    have second : g ≤ h := (List.pairwise_cons.1 rising').1 h (by simp)
    have tick' : 0 < (accrue c g s).cpuHz * tickDen (accrue c g s) c := by rwa [accrue_cpuHz, tickDen_accrue]
    calc (g :: hs ++ [h]).foldl (fun u h => accrue c h u) s
        = (hs ++ [h]).foldl (fun u h => accrue c h u) (accrue c g s) := rfl
      _ = accrue c h (accrue c g s) := ih tick' (by rwa [chanOf_accrue])
      _ = accrue c h s := accrue_accrue tick first second

/-- Settles O24: `foldl_accrue` for the horizons on the way; the debt is the one `chanOf_accrue` adds, from fraction 0. -/
theorem cycleToTickConversionIsExact : Obligations.CycleToTickConversionIsExact := by
  intro s c hs h tick rising
  refine ⟨foldl_accrue tick rising, fun noFraction => ?_⟩
  rw [chanOf_accrue, accrued, noFraction, Nat.zero_add]

end Sys2Proof.Proofs.TickConversion
end

section
/-! WRITE, ADVANCE and the first check of ITERATE (44_update_queue.md R401, R411, R412), a lemma for each end they have. -/

namespace Sys2Proof.Proofs.QueueCommands

open Sys2Proof.Machine Sys2Proof.Laws Sys2Proof.Safety Sys2Proof.Proofs.SpeechGeneration

/-! ### ITERATE's check -/

/-- A horizon that goes back is raised on the state as it stands: no write has been applied (R411, R560). -/
theorem iterate_backwards {c : CoreId} {h : Nat} {s : State} (back : h < (chanOf s c).lastH) :
    iterate c h s = .raised (.timestampOrder c h) s :=
  if_pos back

/-- Settles O20: the check of `iterate_backwards` is ITERATE's first. -/
theorem iterateNeverGoesBack : Obligations.IterateNeverGoesBack :=
  fun _ _ _ running back => exec_iterate_raised running (iterate_backwards back)

/-! ### WRITE -/

theorem exec_write {s : State} (free : Free s) (c : CoreId) (ts : BitVec 64) (addr val : Byte) :
    exec (.write (coreField c) ts addr val) s = settle (write c ts.toNat addr.toNat val s) := by
  change execWrite _ _ _ _ _ = _
  rw [execWrite, runCommandS_of_free free, onCore_coreField]

theorem exec_write_noCore {s : State} (free : Free s) (ts : BitVec 64) (addr val : Byte) :
    exec (.write 3 ts addr val) s = .next (answer .ignored .none s) := by
  change execWrite _ _ _ _ _ = _
  rw [execWrite, runCommandS_of_free free, onCore_none, settle_statusOnly]

theorem addressValid_iff (c : CoreId) (addr : Byte) : AddressValid c addr ↔ validAddr c addr.toNat = true := by
  have zero : addr = 0 ↔ addr.toNat = 0 := BitVec.toNat_eq
  cases c with
  | A => exact (decide_eq_true_iff (p := addr.toNat < 16)).symm
  | B => exact zero.trans decide_eq_true_iff.symm
  | S => exact zero.trans decide_eq_true_iff.symm

section Write

variable {c : CoreId} {ts addr : Nat} {val : Byte} {s : State}

theorem write_ignored (refused : (chanOf s c).attached = false ∨ validAddr c addr = false) :
    write c ts addr val s = .done (statusOnly .ignored) s := by
  rcases refused with detached | outside
  · simp only [write, detached, Bool.not_false, if_true]
  · simp only [write, outside, Bool.not_false, if_true, ite_self]

variable (attached : (chanOf s c).attached = true) (valid : validAddr c addr = true)
include attached valid

theorem write_overflow (full : s.cfg.queueCap ≤ (chanOf s c).q.length) :
    write c ts addr val s = .raised (.queueOverflow c) s := by
  simp only [write, attached, valid, Bool.not_true, Bool.false_eq_true, if_false, if_pos full]

variable (room : (chanOf s c).q.length < s.cfg.queueCap)
include room

theorem write_backwards (back : ts < (chanOf s c).lastTs) :
    write c ts addr val s = .raised (.timestampOrder c ts) s := by
  simp only [write, attached, valid, Bool.not_true, Bool.false_eq_true, if_false, if_neg (not_le.2 room), if_pos back]

theorem write_queued (forward : (chanOf s c).lastTs ≤ ts) : write c ts addr val s = .done (statusOnly .ok)
    (withChan s c { chanOf s c with q := (chanOf s c).q ++ [⟨ts, addr, val⟩], lastTs := ts }) := by
  simp only [write, attached, valid, Bool.not_true, Bool.false_eq_true, if_false, if_neg (not_le.2 room),
    if_neg (not_lt.2 forward)]

end Write

/-- Settles O18: R401's conditions in their order, each with the end of `write` that it leads to. -/
theorem writeFollowsItsRule : Obligations.WriteFollowsItsRule := by
  refine fun s free => ⟨exec_write_noCore free, ?_⟩
  rintro c ts addr val _ rfl
  rw [exec_write free, addressValid_iff, Bool.not_eq_true]
  refine ⟨fun refused => ?ignored, fun attached valid full => ?overflow, fun attached valid room back => ?backwards,
    fun attached valid room forward => ?queued⟩
  case ignored => rw [write_ignored refused, settle_statusOnly]
  case overflow => rw [write_overflow attached valid full]; rfl
  case backwards => rw [write_backwards attached valid room back]; rfl
  case queued => rw [write_queued attached valid room forward, settle_statusOnly]

/-! ### ADVANCE -/

theorem exec_advance {s : State} (free : Free s) (c : CoreId) (h : BitVec 64) :
    exec (.advance (coreField c) h) s = settle (advance c h.toNat s) := by
  change execAdvance _ _ _ = _
  rw [execAdvance, runCommandS_of_free free, onCore_coreField]

theorem exec_advance_noCore {s : State} (free : Free s) (h : BitVec 64) :
    exec (.advance 3 h) s = .next (answer .ignored .none s) := by
  change execAdvance _ _ _ = _
  rw [execAdvance, runCommandS_of_free free, onCore_none, settle_statusOnly]

/-- A horizon goes back on an asynchronous core when it lies before what the core has reached or been promised (R412). -/
theorem lt_latest_iff (h lastH : Nat) (posted : Option Nat) :
    h < max lastH (posted.getD lastH) ↔ h < lastH ∨ ∃ p, posted = some p ∧ h < p := by
  cases posted <;> simp

section Advance

variable {c : CoreId} {h : Nat} {s : State}

theorem advance_detached_backwards (detached : (chanOf s c).attached = false) (back : h < (chanOf s c).lastH) :
    advance c h s = .raised (.timestampOrder c h) s := by
  simp only [advance, detached, Bool.not_false, if_true, if_pos back]

theorem advance_detached (detached : (chanOf s c).attached = false) (forward : (chanOf s c).lastH ≤ h) :
    advance c h s = .done (statusOnly .ok) (withChan s c { chanOf s c with lastH := h }) := by
  simp only [advance, detached, Bool.not_false, if_true, if_neg (not_lt.2 forward)]

variable (attached : (chanOf s c).attached = true)
include attached

theorem exec_advance_sync {h : BitVec 64} (free : Free s) (sync : syncOf s c = true) :
    exec (.advance (coreField c) h) s = exec (.iterate (coreField c) h) s := by
  rw [exec_advance free]
  simp only [advance, attached, sync, Bool.not_true, Bool.false_eq_true, if_false, if_true, exec, execIterate,
    runStep_of_running free.1, onCore_coreField]

variable (async : syncOf s c = false)
include async

theorem advance_async_backwards (back : h < (chanOf s c).lastH ∨ ∃ p, (chanOf s c).postedH = some p ∧ h < p) :
    advance c h s = .raised (.timestampOrder c h) s := by
  simp only [advance, attached, async, Bool.not_true, Bool.false_eq_true, if_false, if_pos ((lt_latest_iff ..).2 back)]

theorem advance_posts (forward : (chanOf s c).lastH ≤ h) (promised : ∀ p, (chanOf s c).postedH = some p → p ≤ h) :
    advance c h s = .done (some ⟨.ok, if c = .S then .ready (ready s) else .none⟩)
      (withChan s c { chanOf s c with postedH := some h }) := by
  have notBack : ¬ h < max (chanOf s c).lastH ((chanOf s c).postedH.getD (chanOf s c).lastH) := by
    rw [lt_latest_iff]
    rintro (back | ⟨p, posted, back⟩)
    · exact not_lt.2 forward back
    · exact not_lt.2 (promised p posted) back
  simp only [advance, attached, async, Bool.not_true, Bool.false_eq_true, if_false, if_neg notBack]

end Advance

/-- Settles O19: the branches of R412, each with the end of `advance` that it leads to. -/
theorem advanceFollowsItsRule : Obligations.AdvanceFollowsItsRule := by
  refine fun s free => ⟨exec_advance_noCore free, ?_⟩
  rintro c h _ rfl
  refine ⟨fun detached back => ?detachedBack, fun detached forward => ?detached, fun attached synchronous => ?iterates,
    fun attached async back => ?asyncBack, fun attached async forward promised => ?posts⟩
  case detachedBack => rw [exec_advance free, advance_detached_backwards detached back]; rfl
  case detached => rw [exec_advance free, advance_detached detached forward, settle_statusOnly]
  case iterates => exact exec_advance_sync attached free (syncOf_eq_true.2 synchronous)
  case asyncBack => rw [exec_advance free, advance_async_backwards attached async back]; rfl
  case posts => rw [exec_advance free, advance_posts attached async forward promised, settle_reply]; rfl

end Sys2Proof.Proofs.QueueCommands
end

section
/-! APPLY is the register-write row of the core it names (44_update_queue.md R405). -/

namespace Sys2Proof.Proofs.ApplyDispatch

open Sys2Proof.Machine Sys2Proof.Laws Sys2Proof.Safety Sys2Proof.Proofs.RegisterWritesA
open Sys2Proof.Proofs.RegisterWritesB Sys2Proof.Proofs.SpeechCommands

theorem exec_apply {s : State} (running : Running s) {c : CoreId} {addr : Byte} (val : Byte)
    (valid : validAddr c addr.toNat = true) :
    exec (.apply (coreField c) addr val) s = .next (applyTo c addr.toNat val s) := by
  simp only [exec, execApply, runStep_of_running running, onCore_coreField, if_pos valid, settle_none]

/-- APPLY to core A is the AREG row of its address (R252). -/
theorem exec_applyA {s : State} (running : Running s) (n : Fin 16) (val : Byte) :
    exec (.apply 0 (BitVec.ofNat 8 n.val) val) s = exec (aregRow n val) s := by
  have addr : (BitVec.ofNat 8 n.val).toNat = n.val := Nat.mod_eq_of_lt (by omega)
  have valid : validAddr .A (BitVec.ofNat 8 n.val).toNat = true := by rw [addr]; exact decide_eq_true n.isLt
  have row : Fin.ofNat 16 n.val = n := Fin.ext (Nat.mod_eq_of_lt n.isLt)
  calc exec (.apply 0 (BitVec.ofNat 8 n.val) val) s
      = .next (applyA (Fin.ofNat 16 (BitVec.ofNat 8 n.val).toNat) val s) := exec_apply running (c := .A) val valid
    _ = .next (applyA n val s) := by rw [addr, row]
    _ = exec (aregRow n val) s := (exec_aregRow running n val).symm

/-- APPLY to core B writes its byte (R303). -/
theorem exec_applyB {s : State} (running : Running s) (val : Byte) :
    exec (.apply 1 0 val) s = .next { s with psgB := writeByteB s.cfg s.psgB val } :=
  exec_apply running (c := .B) val rfl

theorem writeByteB_latch {val : Byte} (cfg : Config) (b : PsgB) (latch : val.getLsbD 7 = true) :
    writeByteB cfg b val = latchB cfg b (val.extractLsb' 4 3) (val.extractLsb' 0 4) :=
  if_pos latch

theorem writeByteB_data {val : Byte} (cfg : Config) (b : PsgB) (data : val.getLsbD 7 = false) :
    writeByteB cfg b val = dataB cfg b (val.extractLsb' 0 6) :=
  if_neg (Bool.eq_false_iff.1 data)

/-- APPLY to core S is LOAD_ADDRESS (R351). -/
theorem exec_applyS {s : State} (running : Running s) (val : Byte) : exec (.apply 2 0 val) s = .next (applyS val s) :=
  exec_apply running (c := .S) val rfl

/-- Settles O25: for each core, APPLY and the row leave the same state. -/
theorem applyIsTheRegisterWrite : Obligations.ApplyIsTheRegisterWrite := by
  refine fun s val running => ⟨fun n => exec_applyA running n val, fun latch => ?latch, fun data => ?data, ?addressS,
    ?load, applyS val s, exec_applyS running val⟩
  case latch => rw [exec_applyB running, writeByteB_latch _ _ latch, exec_latchRow running, BitVec.ofNat_toNat,
    BitVec.setWidth_eq]
  case data => rw [exec_applyB running, writeByteB_data _ _ data, exec_data running]
  case addressS => rw [exec_applyS running, exec_loadAddress running]
  case load => rw [exec_load running, exec_loadAddress running]

end Sys2Proof.Proofs.ApplyDispatch
end

section
/-! CLOCK (44_update_queue.md R425): `clock_eq` says what it leaves, and here is what that makes of one core's channel. -/

namespace Sys2Proof.Proofs.ClockCommand

open Sys2Proof.Machine Sys2Proof.Laws Sys2Proof.Safety Sys2Proof.Proofs.ConfigurationRanges

theorem exec_clock {s : State} (free : Free s) (hz : BitVec 32) :
    exec (.clock hz) s = .next (answer (clock hz.toNat s).1 .none (clock hz.toNat s).2) := by
  change execClock _ _ = _
  rw [execClock, runCommandS_of_free free, settle_statusOnly]

theorem clkNum_pos_of_wf {cfg : Config} (h : cfg.wf = true) (c : CoreId) : 0 < cfg.clkNum.get c := by
  simp only [Config.wf, Bool.and_eq_true, decide_eq_true_eq, List.all_cons, List.all_nil] at h
  cases c <;> tauto

/-- The state that an accepted CLOCK leaves. -/
def clocked (s : State) (hz : Nat) : State :=
  { s with cpuHz := hz, chans := ⟨clockChannel s hz .A, clockChannel s hz .B, clockChannel s hz .S⟩ }

theorem clock_accepted {hz : Nat} (s : State) (nonzero : hz ≠ 0) : clock hz s = (.ok, clocked s hz) :=
  clock_eq hz s nonzero

theorem chanOf_clocked (s : State) (hz : Nat) (c : CoreId) : chanOf (clocked s hz) c = clockChannel s hz c := by
  cases c <;> rfl

/-- An asynchronous core keeps its converter: only its fraction of a tick is rescaled. -/
theorem clockChannel_async {s : State} {c : CoreId} (hz : Nat) (async : syncOf s c = false) :
    clockChannel s hz c = { chanOf s c with cycAcc := (chanOf s c).cycAcc * hz / s.cpuHz } := by
  simp only [clockChannel, async, Bool.false_eq_true, if_false]

/-- A synchronous core's converter is set to its new ratio as well. -/
theorem clockChannel_sync {s : State} {c : CoreId} {hz num den : Nat} (sync : syncOf s c = true)
    (ratio : reducedRatio (s.cfg.dstRate * (s.cfg.clkDen.get c * tickDivider c)) (hz * s.cfg.clkNum.get c) =
      some (num, den)) :
    clockChannel s hz c = withRatio { chanOf s c with cycAcc := (chanOf s c).cycAcc * hz / s.cpuHz } num den := by
  simp only [clockChannel, sync, if_true, ratio]

/-- A well-formed configuration gives every core's converter a ratio at every clock but 0 (R212, R420). -/
theorem syncRatio_of_wf {cfg : Config} {hz : Nat} (wf : cfg.wf = true) (nonzero : hz ≠ 0) (c : CoreId) {dst src : Nat}
    (hdst : dst = cfg.dstRate * (cfg.clkDen.get c * tickDivider c)) (hsrc : src = hz * cfg.clkNum.get c) :
    reducedRatio dst src = some (dst / Nat.gcd dst src, src / Nat.gcd dst src) := by
  have ranges := configRanges_of_wf wf
  have dst_pos := Nat.mul_pos ranges.dstRate_pos (Nat.mul_pos (ranges.clkDen_pos c) (tickDivider_pos c))
  have src_pos := Nat.mul_pos (Nat.pos_of_ne_zero nonzero) (clkNum_pos_of_wf wf c)
  exact reducedRatio_eq_some (hdst ▸ dst_pos.ne') (hsrc ▸ src_pos.ne')

/-- Settles O27: `clock_accepted` for the clock and the frame, then each core's channel by its sync flag. -/
theorem clockFollowsItsRule : Obligations.ClockFollowsItsRule := by
  refine fun s free wf => ⟨exec_clock free 0, fun hz nonzero => ?_⟩
  have nonzero' : hz.toNat ≠ 0 := BitVec.toNat_ne.1 nonzero
  refine ⟨clocked s hz.toNat, ?accepted, rfl, fun c => ⟨_, _, rfl, chanOf_clocked s hz.toNat c, ?async, ?sync⟩⟩
  case accepted => rw [exec_clock free, clock_accepted s nonzero']
  case async => exact clockChannel_async hz.toNat
  case sync => exact fun sync => ⟨_, _, rfl, rfl, clockChannel_sync sync (syncRatio_of_wf wf nonzero' c rfl rfl)⟩

end Sys2Proof.Proofs.ClockCommand
end

section
/-! What an ITERATE is made of, said once (44_update_queue.md R411, R415): pumps of the core, changes of the chips and
changes of the core's channel, whatever the configuration's tables hold and however the ITERATE ends. -/

namespace Sys2Proof.Proofs.IterateParts

open Sys2Proof.Machine Sys2Proof.Laws Sys2Proof.Safety Sys2Proof.Proofs.StepEffects

/-! ### The length of the registry -/

theorem effect_regLength {s t : State} (h : Effect s t) : t.reg.length = s.reg.length := by
  cases h with
  | slot => exact List.length_set
  | join => exact List.length_set
  | leave => exact List.length_set
  | _ => rfl

theorem changes_regLength {s t : State} (h : Changes s t) : t.reg.length = s.reg.length :=
  h.keeps (P := fun u => u.reg.length = s.reg.length)
    (fun _ _ change => (effects_of_change change).keeps fun _ _ effect kept => (effect_regLength effect).trans kept) rfl

/-! ### The changes -/

/-- One change that an ITERATE of core `c` makes to the state. -/
inductive IterateChange (c : CoreId) : State → State → Prop where
  | pump (s t : State) (st : Status) (pumped : Pumped c s t) (ends : PumpEnd c s t st)
      (slots : t.reg.length = s.reg.length) : IterateChange c s t
  | chips (s : State) (a : PsgA) (b : PsgB) (p : Speech) :
      IterateChange c s { s with psgA := a, psgB := b, speech := p }
  | chan (s : State) (x : Channel) (handle : x.handle = (chanOf s c).handle) : IterateChange c s (withChan s c x)

/-- A chain of such changes. -/
def IterateChanges (c : CoreId) : State → State → Prop := Relation.ReflTransGen (IterateChange c)

theorem IterateChanges.refl {c : CoreId} (s : State) : IterateChanges c s s := Relation.ReflTransGen.refl

theorem IterateChanges.trans {c : CoreId} {s t u : State} (h : IterateChanges c s t) (h' : IterateChanges c t u) :
    IterateChanges c s u :=
  Relation.ReflTransGen.trans h h'

theorem IterateChange.one {c : CoreId} {s t : State} (h : IterateChange c s t) : IterateChanges c s t :=
  Relation.ReflTransGen.single h

/-- What every such change keeps, a chain of them keeps. -/
theorem IterateChanges.keeps {c : CoreId} {P : State → Prop} (hP : ∀ s t, IterateChange c s t → P s → P t) {s t : State}
    (h : IterateChanges c s t) (hs : P s) : P t := by
  induction h with
  | refl => exact hs
  | tail _ change ih => exact hP _ _ change ih

/-! ### The operations inside an ITERATE -/

theorem iterateChanges_putSample (c : CoreId) (level : Int) (s : State) :
    IterateChanges c s (endState (putSample c level s)) := by
  rcases putSample_cases c level s with ⟨-, -, -, stores⟩ | ⟨-, raises⟩ | ⟨-, -, -, raises⟩
  · rw [stores]
    exact (IterateChange.chan s (storeLevel s.cfg (chanOf s c) level) rfl).one
  · rw [raises]
    exact .refl s
  · rw [raises]
    exact .refl s

theorem iterateChanges_tick (c : CoreId) (s : State) : IterateChanges c s (endState (tick c s)) := by
  cases c with
  | A => exact (IterateChange.chips s (advanceA s.psgA) s.psgB s.speech).one.trans (iterateChanges_putSample _ _ _)
  | B => exact (IterateChange.chips s s.psgA (advanceB s.cfg s.psgB) s.speech).one.trans (iterateChanges_putSample _ _ _)
  | S =>
    simp only [tick, tickS]
    split
    · exact (IterateChange.chips s s.psgA s.psgB _).one
    · exact (IterateChange.chips s s.psgA s.psgB _).one.trans (iterateChanges_putSample _ _ _)

theorem iterateChange_payTick (c : CoreId) (s : State) : IterateChange c s (payTick c s) :=
  .chan s { chanOf s c with debt := (chanOf s c).debt - 1 } rfl

theorem iterateChange_accrue (c : CoreId) (h : Nat) (s : State) : IterateChange c s (accrue c h s) :=
  .chan s { chanOf s c with debt := _, cycAcc := _, lastH := h } rfl

theorem iterateChange_dequeue (c : CoreId) (rest : List QEntry) (s : State) :
    IterateChange c s (withChan s c { chanOf s c with q := rest }) :=
  .chan s { chanOf s c with q := rest } rfl

/-- A pump never raises, and is one change. -/
theorem iterateChange_pump (c : CoreId) (s : State) : ∃ st t, pump c s = .done st t ∧ IterateChange c s t := by
  obtain ⟨st, t, ends, pumped, pumpEnd⟩ := pump_spec c s
  have slots := changes_regLength (changes_pump c s)
  rw [ends] at slots
  exact ⟨st, t, ends, .pump s t st pumped pumpEnd slots⟩

theorem iterateChanges_generateLoop (c : CoreId) (n : Nat) (s : State) :
    IterateChanges c s (endState (generateLoop c n s)) := by
  obtain ⟨st, u, ends, pumped⟩ := iterateChange_pump c s
  induction n generalizing s st u with
  | zero =>
    rw [generateLoop, ends]
    cases st <;> exact pumped.one
  | succ n ih =>
    have goesOn : IterateChanges c u (endState (if spaceRemaining u.cfg (chanOf u c) = 0 then .done .full u
        else match tick c u with
          | .raised f v => .raised f v
          | .done _ v => generateLoop c n (payTick c v))) := by
      have ticks := iterateChanges_tick c u
      split
      · exact .refl u
      · cases ticked : tick c u with
        | raised f v => rwa [ticked] at ticks
        | done a v =>
          rw [ticked] at ticks
          obtain ⟨st', u', ends', pumped'⟩ := iterateChange_pump c (payTick c v)
          exact (ticks.trans (iterateChange_payTick c v).one).trans (ih _ st' u' ends' pumped')
    rw [generateLoop, ends]
    cases st with
    | held => exact pumped.one
    | _ => exact pumped.one.trans goesOn

theorem iterateChanges_generate (c : CoreId) (s : State) : IterateChanges c s (endState (generate c s)) :=
  iterateChanges_generateLoop c _ s

theorem iterateChanges_applyTo (c : CoreId) (addr : Nat) (val : Byte) (s : State) :
    IterateChanges c s (applyTo c addr val s) := by
  cases c with
  | A => exact (IterateChange.chips s _ s.psgB s.speech).one
  | B => exact (IterateChange.chips s s.psgA _ s.speech).one
  | S => exact (IterateChange.chips s s.psgA s.psgB _).one

theorem iterateChanges_applyDue (c : CoreId) (h : Nat) (l : List QEntry) (s : State) :
    IterateChanges c s (applyDue c h l s) := by
  induction l generalizing s with
  | nil => exact .refl s
  | cons e rest ih =>
    rw [applyDue]
    split
    · exact ((iterateChange_dequeue c rest s).one.trans (iterateChanges_applyTo c e.addr e.val _)).trans (ih _)
    · exact .refl s

theorem iterateChanges_iterate (c : CoreId) (h : Nat) (s : State) : IterateChanges c s (endState (iterate c h s)) := by
  unfold iterate
  split
  · exact .refl s
  · have writes := iterateChanges_applyDue c h (chanOf s c).q s
    have accrues := (iterateChange_accrue c h (applyDue c h (chanOf s c).q s)).one
    have generates := iterateChanges_generate c (accrue c h (applyDue c h (chanOf s c).q s))
    split <;> rename_i ends <;> rw [ends] at generates <;> exact (writes.trans accrues).trans generates

/-! ### What an ITERATE leaves alone -/

/-- An ITERATE of core `c` writes the channels, the chips, the registry and the hold, and no other part of the state. -/
theorem iterateChanges_form {c : CoreId} {s t : State} (h : IterateChanges c s t) : t = { s with
    chans := t.chans, psgA := t.psgA, psgB := t.psgB, speech := t.speech, reg := t.reg, holdS := t.holdS } := by
  refine h.keeps (P := fun u => u = { s with
    chans := u.chans, psgA := u.psgA, psgB := u.psgB, speech := u.speech, reg := u.reg, holdS := u.holdS })
    (fun u v change kept => ?_) rfl
  cases change with
  | pump _ _ pumped =>
    have form := pumped.form
    rw [kept] at form
    rw [form]
  | chips a b p => rw [kept]
  | chan x => rw [kept]; rfl

theorem pumped_syncOf {c : CoreId} {s t : State} (h : Pumped c s t) : syncOf t c = syncOf s c := by
  obtain ⟨_, _, _, chan⟩ := h.chanOf_same
  refine syncOf_congr (by rw [chan]) fun k _ => ?_
  cases hd : sourceAt s k with
  | none => rw [h.empty k hd]
  | some d =>
    obtain ⟨d', hd', grown⟩ := h.source k d hd
    obtain ⟨-, sync, -⟩ := grown.kept
    rw [hd', Option.map_some, Option.map_some, sync]

/-- S is held on a synchronous source alone (R454), so a pump of an asynchronous core leaves the hold as it was. -/
theorem pumpEnd_holdS_of_async {c : CoreId} {s t : State} {st : Status} (h : PumpEnd c s t st)
    (async : syncOf s c = false) : t.holdS = s.holdS := by
  rcases h with ⟨-, k, d, handle, registered, sync, -⟩ | ⟨-, kept⟩
  · have := syncOf_eq_true.2 ⟨k, d, handle, registered, sync⟩
    rw [async] at this
    exact nomatch this
  · exact kept

theorem iterateChange_async {c : CoreId} {s t : State} (h : IterateChange c s t) (async : syncOf s c = false) :
    syncOf t c = false ∧ t.holdS = s.holdS := by
  cases h with
  | pump _ _ pumped ends => exact ⟨(pumped_syncOf pumped).trans async, pumpEnd_holdS_of_async ends async⟩
  | chips => exact ⟨async, rfl⟩
  | chan x handle =>
    have sync : syncOf (withChan s c x) c = syncOf s c :=
      syncOf_congr (by rw [chanOf_withChan_same, handle]) fun k _ => by rw [sourceAt_withChan]
    exact ⟨sync.trans async, rfl⟩

/-- An ITERATE of an asynchronous core does not hold S (R454). -/
theorem iterateChanges_holdS {c : CoreId} {s t : State} (h : IterateChanges c s t) (async : syncOf s c = false) :
    t.holdS = s.holdS := by
  have kept := h.keeps (P := fun u => syncOf u c = false ∧ u.holdS = s.holdS)
    (fun _ _ change ⟨async', held⟩ => (iterateChange_async change async').imp_right (·.trans held)) ⟨async, rfl⟩
  exact kept.2

end Sys2Proof.Proofs.IterateParts
end

section
/-! No step of the mixing agent holds S (45_pool_mixer.md R454, 60_exceptions.md R567). -/

namespace Sys2Proof.Proofs.MixerHold

open Sys2Proof.Machine Sys2Proof.Laws Sys2Proof.Safety Sys2Proof.Proofs.IterateParts

/-! ### What a step leaves of a field, read off the operation inside it -/

/-- A part of the state that neither the record of a reply nor that of a fault touches is after a step what the operation
inside it left. -/
theorem runStep_keeps_part {α : Type} (part : State → α) (replies : ∀ s l, part { s with replies := l } = part s)
    (fault : ∀ s f, part (takeFault f s) = part s) {s t : State} {body : State → Res (Option Reply)}
    (h : runStep s body = .next t) : part t = part (endState (body s)) := by
  obtain ⟨-, ⟨r, u, ends, rfl⟩ | ⟨f, u, ends, rfl⟩⟩ := runStep_next h
  · rw [ends]
    cases r with
    | none => rfl
    | some v => exact replies u _
  · rw [ends]
    exact fault u f

/-! ### The steps of an UPDATE -/

/-- UPDATE iterates a core that is attached, asynchronous and has a posted horizon, to that horizon (R470). -/
theorem dueHorizon_eq_some {s : State} {c : CoreId} {h : Nat} : dueHorizon s c = some h ↔
    (chanOf s c).attached = true ∧ syncOf s c = false ∧ (chanOf s c).postedH = some h := by
  unfold dueHorizon
  cases (chanOf s c).attached <;> cases syncOf s c <;> simp

theorem mixSource_holdS (k : Nat) (s : State) : (mixSource k s).2.holdS = s.holdS := by
  rcases mixSource_cases k s with same | ⟨_, -, -, -, starves⟩ | ⟨_, _, _, _, -, -, -, mixes⟩
  · rw [same]
  · rw [starves, withSlot_holdS]
  · rw [mixes]
    rfl

theorem iteratePosted_holdS {c : CoreId} {h : Nat} {s : State} (async : syncOf s c = false) :
    (endState (iteratePosted c h s)).holdS = s.holdS := by
  have kept := iterateChanges_holdS (iterateChanges_iterate c h s) async
  unfold iteratePosted
  split <;> rename_i ends <;> rw [ends] at kept <;> exact kept

theorem mixerLoop_holdS (l : List MStep) (s : State) : (endState (mixerLoop l s)).holdS = s.holdS := by
  induction l with
  | nil => rfl
  | cons m rest ih =>
    cases m with
    | iterate c =>
      rw [mixerLoop]
      cases due : dueHorizon s c with
      | none => exact ih
      | some h =>
        obtain ⟨-, async, -⟩ := dueHorizon_eq_some.1 due
        exact iteratePosted_holdS (s := { s with mSeq := rest }) async
    | mix k => exact mixSource_holdS k { s with mSeq := rest }
    | emit => rfl

/-- Settles O16: an ITERATE of the mixing agent is one of an asynchronous core, which cannot hold; its other steps and
UPDATE itself write no hold at all. -/
theorem mixerNeverHolds : Obligations.MixerNeverHolds := by
  constructor
  · intro s t h
    exact (runStep_keeps_part State.holdS (fun _ _ => rfl) (fun _ _ => rfl) h).trans (mixerLoop_holdS s.mSeq s)
  · intro s t h
    simp only [exec, execUpdate] at h
    exact runStep_keeps_part State.holdS (fun _ _ => rfl) (fun _ _ => rfl) h

end Sys2Proof.Proofs.MixerHold
end

section
/-! GET_WORK_BUFFER, PUT_WORK_BUFFER and FRAME (45_pool_mixer.md R452, R455, R458): each end of each operation, as what it
makes of the one source it works on. -/

namespace Sys2Proof.Proofs.PoolCommands

open Sys2Proof.Machine Sys2Proof.Laws Sys2Proof.Safety

/-! ### GET_WORK_BUFFER -/

theorem exec_getWorkBuffer {s : State} (running : Running s) (k : Byte) :
    exec (.getWorkBuffer k) s =
      .next (answer (getWorkBuffer k.toNat s).1 .none (getWorkBuffer k.toNat s).2) := by
  change execGetWorkBuffer k s = _
  rw [execGetWorkBuffer, runStep_of_running running, settle_statusOnly]

section Get

variable {s : State} {k : Nat} {d : Source} (registered : sourceAt s k = some d)
include registered

theorem getWorkBuffer_keeps (current : d.current ≠ none) : getWorkBuffer k s = (.ok, s) := by
  obtain ⟨b, current⟩ := Option.ne_none_iff_exists'.1 current
  simp only [getWorkBuffer, registered, current]

theorem getWorkBuffer_holds (idle : d.current = none) (clean : d.clean = []) (waits : (d.blocking && d.sync) = true) :
    getWorkBuffer k s = (.held, { s with holdS := some k }) := by
  simp only [getWorkBuffer, registered, idle, clean, if_pos waits]

theorem getWorkBuffer_noBuffer (idle : d.current = none) (clean : d.clean = [])
    (passes : (d.blocking && d.sync) = false) : getWorkBuffer k s = (.noBuffer, s) := by
  simp only [getWorkBuffer, registered, idle, clean, passes, Bool.false_eq_true, if_false]

theorem getWorkBuffer_takes {b : Nat} {rest : List Nat} (idle : d.current = none) (clean : d.clean = b :: rest) :
    getWorkBuffer k s = (.ok, withSlot s k
      (some (withBlock { d with clean := rest, current := some b } b { blockOf d b with fill := 0 }))) := by
  simp only [getWorkBuffer, registered, idle, clean]

end Get

/-- Settles O34: the four ends of R452, each the only one its source leads to. -/
theorem getWorkBufferFollowsItsRule : Obligations.GetWorkBufferFollowsItsRule := by
  intro s k d running registered
  refine ⟨fun current => ?keeps, fun idle clean blocking sync => ?holds, fun idle clean passes => ?noBuffer,
    fun b rest blk idle clean inPool => ?takes⟩
  case keeps => rw [exec_getWorkBuffer running, getWorkBuffer_keeps registered current]
  case holds =>
    rw [exec_getWorkBuffer running, getWorkBuffer_holds registered idle clean (Bool.and_eq_true_iff.2 ⟨blocking, sync⟩)]
  case noBuffer =>
    rw [exec_getWorkBuffer running, getWorkBuffer_noBuffer registered idle clean (Bool.and_eq_false_iff.2 passes)]
  case takes =>
    rw [exec_getWorkBuffer running, getWorkBuffer_takes registered idle clean, blockOf_eq inPool]
    rfl

/-! ### PUT_WORK_BUFFER -/

/-- Without a source or without a current block PUT_WORK_BUFFER raises, and leaves the state as it stood (R455). -/
theorem putWorkBuffer_raises {s : State} {k : Nat} (idle : ∀ d, sourceAt s k = some d → d.current = none) :
    putWorkBuffer k s = .raised (.protocolError k) s := by
  unfold putWorkBuffer
  cases registered : sourceAt s k with
  | none => rfl
  | some d => simp only [idle d registered]

theorem exec_putWorkBuffer_raised {s t : State} {k : Byte} {f : Fault} (running : Running s)
    (raises : putWorkBuffer k.toNat s = .raised f t) : exec (.putWorkBuffer k) s = .next (takeFault f t) := by
  simp only [exec, execPutWorkBuffer, runStep_of_running running, raises, settle_raised]

theorem exec_putWorkBuffer_done {s t : State} {k : Byte} (running : Running s)
    (queues : putWorkBuffer k.toNat s = .done () t) : exec (.putWorkBuffer k) s = .next t := by
  simp only [exec, execPutWorkBuffer, runStep_of_running running, queues, settle_none]

/-- Settles O35: a source without a current block is turned away, one with it is the case of `putWorkBuffer_done`. -/
theorem putWorkBufferFollowsItsRule : Obligations.PutWorkBufferFollowsItsRule := by
  intro s k d running registered
  refine ⟨fun idle => ?raises, fun b current => ?queues⟩
  case raises =>
    refine exec_putWorkBuffer_raised running (putWorkBuffer_raises fun e registered' => ?_)
    rw [registered] at registered'
    cases registered'
    exact idle
  case queues => exact exec_putWorkBuffer_done running (putWorkBuffer_done registered current)

/-! ### FRAME -/

/-- The current block `b` of `d` holds codes to queue. -/
def hasCodes (d : Source) (b : Nat) : Prop := d.current = some b ∧ 0 < (blockOf d b).fill

theorem frame_ignored {s : State} {c : CoreId} (other : (chanOf s c).attached = false ∨ syncOf s c = false) :
    frame c s = .done (statusOnly .ignored) s := by
  unfold frame
  rcases other with detached | async
  · rw [detached]
    rfl
  · unfold syncOf at async
    cases found : sourceOf s c with
    | none => simp
    | some p =>
      rw [found] at async
      simp only [async, Bool.false_eq_true, if_false, ite_self]

section Frame

variable {s : State} {k : Nat} {d : Source} (registered : sourceAt s k = some d)
include registered

/-- A frame boundary with codes in the current block queues the block (R458). -/
theorem frameOf_queues {b : Nat} (codes : hasCodes d b) : frameOf k d s = .done (statusOnly .ok)
    (withSlot s k (some { d with dirty := d.dirty ++ [b], current := none, newSamples := 0 })) := by
  obtain ⟨current, nonempty⟩ := codes
  simp only [frameOf, current, if_pos nonempty, putWorkBuffer_done registered current,
    sourceAt_withSlot_same _ (sourceAt_lt registered)]
  simp [withSlot]

/-- One without them only clears the sample count. -/
theorem frameOf_clears (empty : ∀ b, ¬ hasCodes d b) :
    frameOf k d s = .done (statusOnly .ok) (withSlot s k (some { d with newSamples := 0 })) := by
  unfold frameOf
  cases current : d.current with
  | none => simp only [registered, current]
  | some b => simp only [if_neg fun nonempty => empty b ⟨current, nonempty⟩, registered, current]

theorem frame_of_sync {c : CoreId} (attached : (chanOf s c).attached = true) (handle : (chanOf s c).handle = some k)
    (sync : d.sync = true) : frame c s = frameOf k d s := by
  simp only [frame, attached, sourceOf_eq_some.2 ⟨handle, registered⟩, sync, Bool.not_true, Bool.false_eq_true, if_false,
    if_true]

end Frame

theorem exec_frame {s : State} (free : Free s) (c : CoreId) : exec (.frame (coreField c)) s = settle (frame c s) := by
  change execFrame (coreField c) s = _
  rw [execFrame, runCommandS_of_free free, onCore_coreField]

theorem exec_frame_noCore {s : State} (free : Free s) : exec (.frame 3) s = .next (answer .ignored .none s) := by
  change execFrame 3 s = _
  rw [execFrame, runCommandS_of_free free, onCore_none, settle_statusOnly]

/-- Settles O36: FRAME of a core without a synchronous source is ignored; of another it is `frameOf`, which asks whether
the current block has codes. -/
theorem frameFollowsItsRule : Obligations.FrameFollowsItsRule := by
  intro s free
  refine ⟨exec_frame_noCore free, fun c other => ?ignored, fun c k d attached handle registered sync =>
    ⟨fun b blk current inPool nonempty => ?queues, fun empty => ?clears⟩⟩
  case ignored => rw [exec_frame free, frame_ignored other, settle_statusOnly]
  case queues =>
    have codes : hasCodes d b := ⟨current, by rwa [blockOf_eq inPool]⟩
    rw [exec_frame free, frame_of_sync registered attached handle sync, frameOf_queues registered codes,
      settle_statusOnly]
    rfl
  case clears =>
    have noCodes : ∀ b, ¬ hasCodes d b := by
      rintro b ⟨current, nonempty⟩
      rcases empty with idle | ⟨b', blk, current', inPool, fill⟩
      · exact nomatch idle.symm.trans current
      · obtain rfl : b' = b := Option.some.inj (current'.symm.trans current)
        rw [blockOf_eq inPool, fill] at nonempty
        exact nomatch nonempty
    rw [exec_frame free, frame_of_sync registered attached handle sync, frameOf_clears registered noCodes,
      settle_statusOnly]
    rfl

end Sys2Proof.Proofs.PoolCommands
end

section
/-! REGISTER and DEREGISTER (45_pool_mixer.md R465, R466, 70_reset_and_hazards.md R604). -/

namespace Sys2Proof.Proofs.RegistryCommands

open Sys2Proof.Machine Sys2Proof.Laws Sys2Proof.Safety Sys2Proof.Proofs.ConfigurationRanges
open Sys2Proof.Proofs.ClockCommand

/-! ### REGISTER -/

theorem exec_register {s t : State} {c : CoreId} {sync blocking : Bool} {ms : BitVec 16} {st : Status} {v : RetVal}
    (free : Free s) (ends : register c sync blocking ms.toNat s = (some ⟨st, v⟩, t)) :
    exec (.register (coreField c) sync blocking ms) s = .next (answer st v t) := by
  simp only [exec, execRegister, runCommandS_of_free free, onCore_coreField, ends, settle_reply]

theorem exec_register_noCore {s : State} (free : Free s) (sync blocking : Bool) (ms : BitVec 16) :
    exec (.register 3 sync blocking ms) s = .next (answer .ignored .none s) := by
  simp only [exec, execRegister, runCommandS_of_free free, onCore_none, settle_statusOnly]

section Register

variable {s : State} {c : CoreId} (sync blocking : Bool) (ms : Nat)

theorem register_ignored (single : (chanOf s c).handle ≠ none) :
    register c sync blocking ms s = (statusOnly .ignored, s) := by
  rcases register_cases c sync blocking ms s with ⟨-, ends⟩ | ⟨unregistered, -⟩ | ⟨_, unregistered, -⟩
  · exact ends
  · exact absurd unregistered single
  · exact absurd unregistered single

theorem register_full (unregistered : (chanOf s c).handle = none) (full : ∀ k < s.reg.length, sourceAt s k ≠ none) :
    register c sync blocking ms s = (statusOnly .registryFull, s) := by
  rcases register_cases c sync blocking ms s with ⟨single, -⟩ | ⟨-, -, ends⟩ | ⟨k, -, inRange, empty, -⟩
  · exact absurd unregistered single
  · exact ends
  · exact absurd empty (full k inRange)

/-- REGISTER with an empty slot takes the least of them. -/
theorem register_joins {k : Nat} (unregistered : (chanOf s c).handle = none) (inRange : k < s.reg.length)
    (empty : sourceAt s k = none) (least : ∀ j < k, sourceAt s j ≠ none) :
    register c sync blocking ms s = (some ⟨.ok, .handle k⟩,
      withSlot (withChan (attachedState s c) c (registeredChannel s c sync k)) k
        (some (newSource s.cfg c sync blocking ms))) := by
  rcases register_cases c sync blocking ms s with ⟨single, -⟩ | ⟨-, full, -⟩ | ⟨j, -, -, empty', least', ends⟩
  · exact absurd unregistered single
  · exact absurd empty (full k inRange)
  · obtain rfl : j = k := by
      refine le_antisymm (not_lt.1 fun below => ?_) (not_lt.1 fun below => ?_)
      · exact least' k below empty
      · exact least j below empty'
    exact ends

end Register

/-! ### What REGISTER leaves of the core -/

/-- The rates of the converter of a core with a source registered so (R211, R465). -/
def convertedRates (s : State) (c : CoreId) (sync : Bool) : Nat × Nat :=
  (s.cfg.dstRate * (if sync then s.cfg.clkDen.get c * tickDivider c else tickDivider c),
    if sync then s.cpuHz * s.cfg.clkNum.get c else chipClock s.cfg c)

/-- A well-formed configuration gives both rates, so a ratio (R11, R420). -/
theorem convertedRates_ratio {s : State} (wf : s.cfg.wf = true) (cpuHz : 0 < s.cpuHz) (c : CoreId) (sync : Bool)
    {dst src : Nat} (rates : convertedRates s c sync = (dst, src)) :
    reducedRatio dst src = some (dst / Nat.gcd dst src, src / Nat.gcd dst src) := by
  have ranges := configRanges_of_wf wf
  obtain ⟨rfl, rfl⟩ := Prod.mk.inj rates
  cases sync with
  | true => exact syncRatio_of_wf wf cpuHz.ne' c rfl rfl
  | false =>
    exact reducedRatio_eq_some (Nat.mul_pos ranges.dstRate_pos (tickDivider_pos c)).ne' (ranges.chipClock_pos c).ne'

theorem registeredChannel_eq {s : State} {c : CoreId} {sync : Bool} {num den : Nat} (k : Nat)
    (ratio : reducedRatio (convertedRates s c sync).1 (convertedRates s c sync).2 = some (num, den)) :
    registeredChannel s c sync k = withRatio (joinSource (attachedChannel s c) k) num den := by
  unfold registeredChannel
  unfold convertedRates at ratio
  simp only [ratio]

/-- The channel REGISTER leaves, of an attached one, field by field (R210, R465). -/
theorem withRatio_joinSource {x : Channel} (attached : x.attached = true) (k num den : Nat) :
    withRatio (joinSource x k) num den = { x with
      handle := some k, attached := true, postedH := none, cycAcc := 0, index := 0,
      rateNum := num, rateDen := den, increment := num, limit := den } := by
  cases x
  cases attached
  rfl

theorem chanOf_resetOf (cfg : Config) (c : CoreId) : chanOf (State.resetOf cfg) c = Channel.reset cfg c := by
  cases c <;> rfl

theorem attachedChannel_of_attached {s : State} {c : CoreId} (attached : (chanOf s c).attached = true) :
    attachedChannel s c = chanOf s c := if_pos attached

theorem attachedChannel_of_detached {s : State} {c : CoreId} (detached : (chanOf s c).attached = false) :
    attachedChannel s c = { chanOf (State.resetOf s.cfg) c with
      lastH := (chanOf s c).lastH, lastTs := (chanOf s c).lastTs } := by
  rw [chanOf_resetOf]
  exact if_neg (Bool.eq_false_iff.1 detached)

theorem attachedState_of_attached {s : State} {c : CoreId} (attached : (chanOf s c).attached = true) :
    attachedState s c = s := if_pos attached

theorem attachedState_of_detached {s : State} {c : CoreId} (detached : (chanOf s c).attached = false) :
    attachedState s c = { s with
      psgA := if c = .A then (State.resetOf s.cfg).psgA else s.psgA
      psgB := if c = .B then (State.resetOf s.cfg).psgB else s.psgB
      speech := if c = .S then (State.resetOf s.cfg).speech else s.speech } := by
  rw [attachedState, detached]
  cases c <;> rfl

/-- Attaching a core again writes its chip and nothing else beside its channel. -/
theorem attachedState_form (s : State) (c : CoreId) : attachedState s c = { s with
    psgA := (attachedState s c).psgA, psgB := (attachedState s c).psgB, speech := (attachedState s c).speech } := by
  cases attached : (chanOf s c).attached with
  | true => rw [attachedState_of_attached attached]
  | false => rw [attachedState_of_detached attached]

/-- The state that REGISTER of an unregistered core in slot `k` leaves. -/
def registered (s : State) (c : CoreId) (k : Nat) (sync blocking : Bool) (ms : Nat) : State :=
  withSlot (withChan (attachedState s c) c (registeredChannel s c sync k)) k (some (newSource s.cfg c sync blocking ms))

theorem registered_form (s : State) (c : CoreId) (k : Nat) (sync blocking : Bool) (ms : Nat) :
    registered s c k sync blocking ms = { s with
      reg := s.reg.set k (some (newSource s.cfg c sync blocking ms))
      chans := s.chans.set c (registeredChannel s c sync k)
      psgA := (attachedState s c).psgA, psgB := (attachedState s c).psgB, speech := (attachedState s c).speech } := by
  rw [registered, attachedState_form]
  rfl

/-- Settles O37: `register_cases` decides between the answers; with an empty slot the state is `registered`, whose channel
is the attached one with the source's slot and ratio. -/
theorem registerFollowsItsRule : Obligations.RegisterFollowsItsRule := by
  intro s free wf cpuHz
  refine ⟨exec_register_noCore free, ?_⟩
  rintro c sync blocking ms _ rfl
  refine ⟨fun single => ?ignored, fun unregistered full => ?full, fun k unregistered inRange empty least => ?joins⟩
  case ignored => exact exec_register free (register_ignored sync blocking _ single)
  case full => exact exec_register free (register_full sync blocking _ unregistered full)
  case joins =>
    refine ⟨registered s c k sync blocking ms.toNat, newSource s.cfg c sync blocking ms.toNat,
      registeredChannel s c sync k, attachedChannel s c, _, _,
      exec_register free (register_joins sync blocking _ unregistered inRange empty least),
      registered_form .., rfl, List.length_replicate, fun blk mem => ?blocks, rfl, rfl, ?channel, fun attached => ?kept,
      fun detached => ?reset⟩
    case blocks => rw [List.eq_of_mem_replicate mem]
    case channel =>
      exact (registeredChannel_eq k (convertedRates_ratio wf cpuHz c sync rfl)).trans
        (withRatio_joinSource (StepEffects.attachedChannel_attached s c) k _ _)
    case kept =>
      refine ⟨attachedChannel_of_attached attached, ?_⟩
      rw [registered, attachedState_of_attached attached]
      exact ⟨rfl, rfl, rfl⟩
    case reset =>
      refine ⟨attachedChannel_of_detached detached, ?_⟩
      rw [registered, attachedState_of_detached detached]
      exact ⟨rfl, rfl, rfl⟩

/-! ### DEREGISTER -/

theorem exec_deregister {s t : State} {k : Byte} {st : Status} (free : Free s)
    (ends : deregister k.toNat s = (statusOnly st, t)) : exec (.deregister k) s = .next (answer st .none t) := by
  simp only [exec, execDeregister, runCommandS_of_free free, ends, settle_statusOnly]

theorem deregister_ignored {s : State} {k : Nat} (empty : sourceAt s k = none) :
    deregister k s = (statusOnly .ignored, s) := by
  simp only [deregister, empty]

/-- Settles O38: an empty slot is ignored; of a source `deregister_eq` says what DEREGISTER writes. -/
theorem deregisterFollowsItsRule : Obligations.DeregisterFollowsItsRule := by
  intro s k free
  refine ⟨fun empty => ?ignored, fun d registered => ?leaves⟩
  case ignored => exact exec_deregister free (deregister_ignored empty)
  case leaves => exact exec_deregister free (deregister_eq registered)

end Sys2Proof.Proofs.RegistryCommands
end

section
/-! What the mixing agent's own operations make of a source and of the accumulator (45_pool_mixer.md R471 to R473), and the
master controls (R480, R481). -/

namespace Sys2Proof.Proofs.MixerCommands

open Sys2Proof.Machine Sys2Proof.Laws Sys2Proof.Safety

/-! ### MIX_SOURCE -/

theorem exec_mixSource {s : State} (running : Running s) (k : Byte) :
    exec (.mixSource k) s = .next (mixSource k.toNat s).2 := by
  change execMixSource k s = _
  rw [execMixSource, runStep_of_running running, settle_none]

/-- The holdoff left when a source's dirty block is mixed: reloaded where the source starts Buffering (R471). -/
def holdoffLeft (cfg : Config) (d : Source) : Nat :=
  if d.st = .quiescent then d.holdoffMs * cfg.dstRate / 1000 else d.holdoffCnt

/-- A source with a dirty block is Buffering or Playing from here on. -/
theorem wakeSource_of_dirty (cfg : Config) {d : Source} (dirty : d.dirty ≠ []) : wakeSource cfg d =
    { d with st := if d.st = .quiescent then .buffering else d.st, holdoffCnt := holdoffLeft cfg d } := by
  unfold wakeSource holdoffLeft holdoffSamples
  by_cases quiet : d.st = .quiescent
  · simp only [quiet, dirty, ne_eq, not_false_iff, and_self, if_true]
  · simp only [quiet, false_and, if_false]

/-- What mixing a block of `n` codes after a holdoff of `hold` makes of the source (R471, R472). -/
def mixedSource (d : Source) (b : Nat) (rest : List Nat) (hold n : Nat) : Source :=
  { d with
    dirty := rest
    clean := d.clean ++ [b]
    starve := 0
    holdoffCnt := hold - n
    st := if d.st = .playing ∨ hold ≤ n then .playing else .buffering }

theorem returnBlock_wakeSource (cfg : Config) {d : Source} (dirty : d.dirty ≠ []) (b : Nat) (rest : List Nat) (n : Nat) :
    returnBlock (wakeSource cfg d) b rest (holdoffLeft cfg d - n) = mixedSource d b rest (holdoffLeft cfg d) n := by
  rw [wakeSource_of_dirty cfg dirty]
  unfold returnBlock mixedSource
  have played : (holdoffLeft cfg d - n = 0) ↔ holdoffLeft cfg d ≤ n := Nat.sub_eq_zero_iff_le
  cases st : d.st <;> simp [played]

section Mix

variable {s : State} {k : Nat} {d : Source} (registered : sourceAt s k = some d)
include registered

theorem mixSource_idle (quiet : d.st = .quiescent) (dry : d.dirty = []) : (mixSource k s).2 = s := by
  simp only [mixSource, registered, wakeSource_of_empty _ dry, quiet, if_true]

theorem mixSource_starves (active : d.st ≠ .quiescent) (dry : d.dirty = []) :
    (mixSource k s).2 = withSlot s k (some (starveSource s.cfg d)) := by
  simp only [mixSource, registered, wakeSource_of_empty _ dry, if_neg active, dry]

/-- A dirty block is mixed and returned; `mixCodes_eq` says what it leaves of the holdoff and of the accumulator. -/
theorem mixSource_mixes {b : Nat} {rest : List Nat} (dirty : d.dirty = b :: rest) : (mixSource k s).2 =
    { withSlot s k (some (mixedSource d b rest (holdoffLeft s.cfg d) (blockOf d b).fill)) with
      macc := (mixCodes (blockOf d b).data (blockOf d b).fill 0 (holdoffLeft s.cfg d) s.macc).2 } := by
  have nonempty : d.dirty ≠ [] := by simp [dirty]
  obtain ⟨left, -, -⟩ := mixCodes_eq (blockOf d b).data (blockOf d b).fill 0 (holdoffLeft s.cfg d) s.macc
  have awake : (wakeSource s.cfg d).st ≠ .quiescent := by
    rw [wakeSource_of_dirty _ nonempty]
    dsimp only
    split
    · exact nofun
    · assumption
  have block : blockOf (wakeSource s.cfg d) b = blockOf d b := by unfold blockOf; rw [wakeSource_blocks]
  have hold : (wakeSource s.cfg d).holdoffCnt = holdoffLeft s.cfg d := by rw [wakeSource_of_dirty _ nonempty]
  simp only [mixSource, registered, if_neg awake, wakeSource_dirty, dirty, block, hold, left,
    returnBlock_wakeSource _ nonempty]

end Mix

/-- Settles O42: an empty slot and a source without a dirty block by the lemmas above; a dirty block is mixed as
`mixCodes_eq` says, its code 127 standing for level 0. -/
theorem mixSourceFollowsItsRule : Obligations.MixSourceFollowsItsRule := by
  intro s k running
  refine ⟨fun empty => ?empty, fun d registered => ⟨fun quiet dry => ?idle, fun active dry => ?starves, ?mixes⟩⟩
  case empty => rw [exec_mixSource running, mixSource, empty]
  case idle => rw [exec_mixSource running, mixSource_idle registered quiet dry]
  case starves =>
    rw [exec_mixSource running, mixSource_starves registered active dry]
    rfl
  case mixes =>
    rintro b rest blk _ dirty inPool - rfl
    obtain ⟨-, len, mixed⟩ := mixCodes_eq blk.data blk.fill 0 (holdoffLeft s.cfg d) s.macc
    refine ⟨_, ?_, len, fun i inside => ?_⟩
    · rw [exec_mixSource running, mixSource_mixes registered dirty, blockOf_eq inPool]
      rfl
    · have mixed := mixed i inside
      rw [Nat.zero_add, Nat.zero_add] at mixed
      exact mixed

/-! ### EMIT -/

theorem exec_emit {s : State} (running : Running s) : exec .emit s = .next (emit s) := by
  change execEmit s = _
  rw [execEmit, runStep_of_running running, settle_none]

theorem hostBlock_length (s : State) : (hostBlock s).length = s.cfg.blockLen := by
  simp [hostBlock]

theorem hostBlock_getD {s : State} {i : Nat} (inside : i < s.cfg.blockLen) :
    (hostBlock s).getD i 0 = hostCode s (s.macc.getD i 0) := by
  simp [hostBlock, inside]

theorem hostCode_toNat (s : State) (m : Int) : ((hostCode s m).toNat : Int) =
    if s.muted then 127 else min 127 (max (-127) (Int.tdiv (m * s.vol) 100)) + 127 := by
  unfold hostCode
  split
  · rfl
  · exact codeOf_toNat _

/-- Settles O43: the block is `hostBlock`, each of its codes the `hostCode` of its position. -/
theorem emitDeliversTheMix : Obligations.EmitDeliversTheMix := by
  intro s running
  refine ⟨hostBlock s, exec_emit running, hostBlock_length s, fun i inside => ?_⟩
  rw [hostBlock_getD inside, hostCode_toNat]

/-! ### VOLUME and MUTE -/

theorem exec_volume {s : State} (free : Free s) (pct : Byte) : exec (.volume pct) s =
    if 100 < pct.toNat then .next (answer .ignored .none s) else .next (answer .ok .none { s with vol := pct.toNat }) := by
  change execVolume pct s = _
  rw [execVolume, runCommandS_of_free free]
  split <;> rfl

theorem exec_mute {s : State} (free : Free s) (on : Bool) :
    exec (.mute on) s = .next (answer .ok .none { s with muted := on }) := by
  change execMute on s = _
  rw [execMute, runCommandS_of_free free, settle_statusOnly]

/-- Settles O44: VOLUME tests its operand against 100, MUTE takes either. -/
theorem masterControls : Obligations.MasterControls := by
  refine fun s free => ⟨fun pct above => ?_, fun pct within => ?_, exec_mute free⟩
  · rw [exec_volume free, if_pos above]
  · rw [exec_volume free, if_neg (not_lt.2 within)]

end Sys2Proof.Proofs.MixerCommands
end

section
/-! The steps of an UPDATE in order (45_pool_mixer.md R470), and what they come to: one host block, or a fault (R474). -/

namespace Sys2Proof.Proofs.UpdateSequence

open Sys2Proof.Machine Sys2Proof.Laws Sys2Proof.Safety Sys2Proof.Proofs.IterateParts Sys2Proof.Proofs.MixerHold
open Sys2Proof.Proofs.MixerCommands Sys2Proof.Proofs.NextStep

/-! ### One step of the sequence -/

theorem exec_update {s : State} (running : Running s) :
    exec .update s = .next { s with mSeq := s.mSeq ++ updateSteps s.cfg } := by
  change execUpdate s = _
  rw [execUpdate, runStep_of_running running, settle_none]

theorem mixerStep_of_running {s : State} {l : List MStep} (running : Running s) (sequence : s.mSeq = l) :
    mixerStep s = settle (mixerLoop l s) := by
  rw [mixerStep, runStep_of_running running, sequence]

/-- The next step sets what is left of the sequence, whatever stood there. -/
theorem mixerLoop_mSeq (l m : List MStep) (s : State) : mixerLoop l { s with mSeq := m } = mixerLoop l s := by
  induction l with
  | nil => rfl
  | cons first rest ih =>
    cases first with
    | iterate c =>
      have same : dueHorizon { s with mSeq := m } c = dueHorizon s c := rfl
      simp only [mixerLoop, same, ih]
    | mix k => rfl
    | emit => rfl

/-- A core without a step of its own is passed over (R470). -/
theorem dueHorizon_eq_none {s : State} {c : CoreId} :
    dueHorizon s c = none ↔ (chanOf s c).attached = false ∨ syncOf s c = true ∨ (chanOf s c).postedH = none := by
  unfold dueHorizon
  cases (chanOf s c).attached <;> cases syncOf s c <;> simp

section Step

variable {s : State} {rest : List MStep} (running : Running s)
include running

theorem mixerStep_passes {c : CoreId} (sequence : s.mSeq = .iterate c :: rest) (notDue : dueHorizon s c = none) :
    mixerStep s = mixerStep { s with mSeq := rest } := by
  rw [mixerStep_of_running running sequence, mixerStep_of_running (s := { s with mSeq := rest }) running rfl,
    mixerLoop, notDue]
  exact congrArg settle (mixerLoop_mSeq rest rest s).symm

theorem mixerStep_iterates {c : CoreId} {h : Nat} (sequence : s.mSeq = .iterate c :: rest)
    (due : dueHorizon s c = some h) : mixerStep s = settle (iteratePosted c h { s with mSeq := rest }) := by
  rw [mixerStep_of_running running sequence, mixerLoop, due]

theorem mixerStep_mixes {k : Nat} (sequence : s.mSeq = .mix k :: rest) :
    mixerStep s = .next (mixSource k { s with mSeq := rest }).2 := by
  rw [mixerStep_of_running running sequence, mixerLoop, settle_none]

theorem mixerStep_emits (sequence : s.mSeq = .emit :: rest) : mixerStep s = .next (emit { s with mSeq := rest }) := by
  rw [mixerStep_of_running running sequence, mixerLoop, settle_none]

end Step

theorem iteratePosted_done {c : CoreId} {h : Nat} {s t : State} {r : Reply} (ends : iterate c h s = .done r t) :
    iteratePosted c h s = .done none (withChan t c { chanOf t c with postedH := none }) := by
  rw [iteratePosted, ends]

theorem iteratePosted_raised {c : CoreId} {h : Nat} {s t : State} {f : Fault} (ends : iterate c h s = .raised f t) :
    iteratePosted c h s = .raised f t := by
  rw [iteratePosted, ends]

/-- Settles O40: the sequence is `updateSteps`; each clause on a step of it is the lemma on that kind of step. -/
theorem updateIsASequenceOfSteps : Obligations.UpdateIsASequenceOfSteps := by
  refine ⟨fun s running => ?arms, fun s c rest running sequence notDue => ?passes,
    fun s c rest h running sequence attached async posted => ⟨fun r t ends => ?iterates, fun f t ends => ?raises⟩,
    fun s k rest running sequence => ?mixes, fun s rest running sequence => ?emits⟩
  case arms => rw [exec_update running, updateSteps, ← List.append_assoc, ← List.append_assoc]
  case passes => exact mixerStep_passes running sequence (dueHorizon_eq_none.2 notDue)
  case iterates =>
    rw [mixerStep_iterates running sequence (dueHorizon_eq_some.2 ⟨attached, async, posted⟩), iteratePosted_done ends,
      settle_none]
  case raises =>
    rw [mixerStep_iterates running sequence (dueHorizon_eq_some.2 ⟨attached, async, posted⟩), iteratePosted_raised ends]
    rfl
  case mixes =>
    rw [mixerStep_mixes running sequence]
    exact (exec_mixSource (s := { s with mSeq := rest }) running k).symm
  case emits =>
    rw [mixerStep_emits running sequence]
    exact (exec_emit (s := { s with mSeq := rest }) running).symm

/-! ### The whole sequence -/

/-- The steps of an UPDATE before its EMIT. -/
inductive Preparing : MStep → Prop where
  | iterate (c : CoreId) : Preparing (.iterate c)
  | mix (k : Nat) : Preparing (.mix k)

/-- `t` is as `s` in what an UPDATE's steps before its EMIT do not write: the fault, the issued words, the configuration,
the sequence and the blocks delivered. -/
structure DeliveryKept (s t : State) : Prop where
  fault : t.fault = s.fault
  feed : t.feed = s.feed
  cfg : t.cfg = s.cfg
  mSeq : t.mSeq = s.mSeq
  out : t.out = s.out

theorem deliveryKept_of_iterateChanges {c : CoreId} {s t : State} (changes : IterateChanges c s t) : DeliveryKept s t := by
  rw [iterateChanges_form changes]
  exact ⟨rfl, rfl, rfl, rfl, rfl⟩

theorem deliveryKept_mixSource (k : Nat) (s : State) : DeliveryKept s (mixSource k s).2 := by
  rcases mixSource_cases k s with same | ⟨_, -, -, -, starves⟩ | ⟨_, _, _, _, -, -, -, mixes⟩
  · rw [same]
    exact ⟨rfl, rfl, rfl, rfl, rfl⟩
  · rw [starves]
    exact ⟨rfl, rfl, rfl, rfl, rfl⟩
  · rw [mixes]
    exact ⟨rfl, rfl, rfl, rfl, rfl⟩

/-- A step before the EMIT is passed over, made, or stopped by a fault, and delivers nothing. -/
theorem mixerStep_prepares {s : State} {m : MStep} {rest : List MStep} (running : Running s) (sequence : s.mSeq = m :: rest)
    (prepares : Preparing m) : mixerStep s = mixerStep { s with mSeq := rest } ∨
      ∃ t, DeliveryKept { s with mSeq := rest } t ∧ (mixerStep s = .next t ∨ ∃ f, mixerStep s = .next (takeFault f t)) := by
  cases prepares with
  | mix k => exact .inr ⟨_, deliveryKept_mixSource k _, .inl (mixerStep_mixes running sequence)⟩
  | iterate c =>
    cases due : dueHorizon s c with
    | none => exact .inl (mixerStep_passes running sequence due)
    | some h =>
      have changes := iterateChanges_iterate c h { s with mSeq := rest }
      have step := mixerStep_iterates running sequence due
      cases ends : iterate c h { s with mSeq := rest } with
      | done r t =>
        rw [ends] at changes
        have cleared := (IterateChange.chan (c := c) t { chanOf t c with postedH := none } rfl).one
        rw [iteratePosted_done ends, settle_none] at step
        exact .inr ⟨_, deliveryKept_of_iterateChanges (changes.trans cleared), .inl step⟩
      | raised f t =>
        rw [ends] at changes
        rw [iteratePosted_raised ends, settle_raised] at step
        exact .inr ⟨t, deliveryKept_of_iterateChanges changes, .inr ⟨f, step⟩⟩

/-- `t` is how an UPDATE ends that is left to run from `s`: at a fault before its EMIT, or with one host block (R474). -/
def Delivered (s t : State) : Prop :=
  (t.fault ≠ none ∧ t.out = s.out) ∨
    (t.fault = none ∧ t.mSeq = [] ∧ ∃ blk, t.out = s.out ++ [blk] ∧ blk.length = s.cfg.blockLen)

theorem Delivered.congr {s s' t : State} (out : s'.out = s.out) (cfg : s'.cfg = s.cfg) (h : Delivered s' t) :
    Delivered s t := by
  unfold Delivered at h ⊢
  rwa [out, cfg] at h

theorem run_succ_of_step {s t : State} (h : step s = .next t) (n : Nat) :
    Host.Core.run Sys2Proof.core (n + 1) s = Host.Core.run Sys2Proof.core n t := by
  have h' : Sys2Proof.core.step s = .next t := h
  simp only [Host.Core.run, h']

theorem run_succ_congr {s t : State} (h : step s = step t) (n : Nat) :
    Host.Core.run Sys2Proof.core (n + 1) s = Host.Core.run Sys2Proof.core (n + 1) t := by
  have h' : Sys2Proof.core.step s = Sys2Proof.core.step t := h
  simp only [Host.Core.run, h']

/-- With an EMIT at its end, a sequence left to run delivers: by induction on the steps before the EMIT. -/
theorem runs_to_delivery {l : List MStep} (prepares : ∀ m ∈ l, Preparing m) {s : State} (running : Running s)
    (nothing : s.feed = []) (sequence : s.mSeq = l ++ [.emit]) :
    ∃ n t, Host.Core.run Sys2Proof.core (n + 1) s = .next t ∧ Delivered s t := by
  induction l generalizing s with
  | nil =>
    have emits := mixerStep_emits running sequence
    rw [← step_of_underway running nothing (by simp [sequence])] at emits
    exact ⟨0, _, run_succ_of_step emits 0, .inr ⟨running, rfl, _, rfl, hostBlock_length _⟩⟩
  | cons m rest ih =>
    obtain ⟨first, others⟩ := List.forall_mem_cons.1 prepares
    rw [List.cons_append] at sequence
    have step_eq := step_of_underway running nothing (by simp [sequence])
    rcases mixerStep_prepares running sequence first with passes | ⟨u, kept, makes | ⟨f, raises⟩⟩
    · obtain ⟨n, t, runs, delivered⟩ := ih others (s := { s with mSeq := rest ++ [.emit] }) running nothing rfl
      have passes' : step s = step { s with mSeq := rest ++ [.emit] } := by
        rw [step_eq, passes, step_of_underway (s := { s with mSeq := rest ++ [.emit] }) running nothing (by simp)]
      exact ⟨n, t, (run_succ_congr passes' n).trans runs, delivered⟩
    · obtain ⟨n, t, runs, delivered⟩ := ih others (kept.fault.trans running) (kept.feed.trans nothing) kept.mSeq
      exact ⟨n + 1, t, (run_succ_of_step (step_eq.trans makes) _).trans runs, delivered.congr kept.out kept.cfg⟩
    · exact ⟨0, takeFault f u, run_succ_of_step (step_eq.trans raises) 0, .inl ⟨nofun, kept.out⟩⟩

/-- Every step of an UPDATE but its last prepares the host block. -/
theorem updateSteps_eq (cfg : Config) : ∃ l, updateSteps cfg = l ++ [.emit] ∧ ∀ m ∈ l, Preparing m := by
  refine ⟨_, rfl, fun m mem => ?_⟩
  rcases List.mem_append.1 mem with iterates | mixes
  · simp only [List.mem_cons, List.not_mem_nil, or_false] at iterates
    rcases iterates with rfl | rfl | rfl <;> exact .iterate _
  · obtain ⟨k, -, rfl⟩ := List.mem_map.1 mixes
    exact .mix k

/-- Settles O41: the armed sequence is one that `runs_to_delivery` runs. -/
theorem updateDeliversOneBlock : Obligations.UpdateDeliversOneBlock := by
  intro s u running idle nothing arms
  rw [exec_update running] at arms
  cases arms
  obtain ⟨l, steps, prepares⟩ := updateSteps_eq s.cfg
  obtain ⟨n, t, runs, delivered⟩ := runs_to_delivery prepares (s := { s with mSeq := s.mSeq ++ updateSteps s.cfg })
    running nothing (by simp only [idle, List.nil_append, steps])
  exact ⟨n + 1, t, runs, delivered⟩

end Sys2Proof.Proofs.UpdateSequence
end

section
/-! Which registry slots hold a source (45_pool_mixer.md R467): the operations that write the registry, but for REGISTER
and DEREGISTER, write a source over a source. -/

namespace Sys2Proof.Proofs.OccupiedSlots

open Sys2Proof.Machine Sys2Proof.Laws Sys2Proof.Safety Sys2Proof.Proofs.IterateParts Sys2Proof.Proofs.MixerHold
open Sys2Proof.Proofs.PoolCommands

/-! ### The occupied slots -/

/-- For each registry slot, whether it holds a source. -/
def occupied (s : State) : List Bool := s.reg.map Option.isSome

theorem occupied_of_reg {s t : State} (h : t.reg = s.reg) : occupied t = occupied s :=
  congrArg (List.map Option.isSome) h

/-- A source over a source changes no slot's occupation. -/
theorem occupied_withSlot {s : State} {k : Nat} {d : Source} (registered : sourceAt s k = some d) (d' : Source) :
    occupied (withSlot s k (some d')) = occupied s := by
  have slot : (occupied s)[k]? = some true := by simp [occupied, reg_of_sourceAt registered]
  obtain ⟨inRange, slot⟩ := List.getElem?_eq_some_iff.1 slot
  calc occupied (withSlot s k (some d')) = (occupied s).set k true := List.map_set
    _ = occupied s := by rw [← slot, List.set_getElem_self]

theorem getElem?_occupied {s : State} {k : Nat} (inRange : k < s.reg.length) :
    (occupied s)[k]? = some (sourceAt s k).isSome := by
  simp [occupied, sourceAt, inRange]

/-- The occupation of the slots, read off the registry's length and the sources. -/
theorem occupied_eq {s t : State} (slots : t.reg.length = s.reg.length)
    (sources : ∀ k, (sourceAt t k).isSome = (sourceAt s k).isSome) : occupied t = occupied s := by
  refine List.ext_getElem? fun k => ?_
  by_cases inRange : k < s.reg.length
  · rw [getElem?_occupied inRange, getElem?_occupied (slots ▸ inRange), sources]
  · rw [List.getElem?_eq_none (by simpa [occupied, slots] using inRange),
      List.getElem?_eq_none (by simpa [occupied] using inRange)]

/-! ### The operations inside a step -/

theorem occupied_getWorkBuffer (k : Nat) (s : State) : occupied (getWorkBuffer k s).2 = occupied s := by
  rcases getWorkBuffer_cases k s with ⟨same, -⟩ | ⟨_, -, -, -, -, -, holds⟩ | ⟨_, _, _, registered, -, -, takes⟩
  · rw [same]
  · rw [holds]
    rfl
  · rw [takes]
    exact occupied_withSlot registered _

theorem occupied_putWorkBuffer (k : Nat) (s : State) : occupied (endState (putWorkBuffer k s)) = occupied s := by
  by_cases idle : ∀ d, sourceAt s k = some d → d.current = none
  · rw [putWorkBuffer_raises idle, endState]
  · obtain ⟨d, registered, current⟩ : ∃ d, sourceAt s k = some d ∧ d.current ≠ none := by simpa using idle
    obtain ⟨b, current⟩ := Option.ne_none_iff_exists'.1 current
    rw [putWorkBuffer_done registered current]
    exact occupied_withSlot registered _

theorem occupied_frameOf {s : State} {k : Nat} {d : Source} (registered : sourceAt s k = some d) :
    occupied (endState (frameOf k d s)) = occupied s := by
  by_cases codes : ∃ b, hasCodes d b
  · obtain ⟨b, codes⟩ := codes
    rw [frameOf_queues registered codes]
    exact occupied_withSlot registered _
  · rw [frameOf_clears registered (not_exists.1 codes)]
    exact occupied_withSlot registered _

theorem occupied_frame (c : CoreId) (s : State) : occupied (endState (frame c s)) = occupied s := by
  by_cases other : (chanOf s c).attached = false ∨ syncOf s c = false
  · rw [frame_ignored other, endState]
  · obtain ⟨attached, sync⟩ := not_or.1 other
    obtain ⟨k, d, handle, registered, sync⟩ := syncOf_eq_true.1 (Bool.eq_true_of_not_eq_false sync)
    rw [frame_of_sync registered (Bool.eq_true_of_not_eq_false attached) handle sync]
    exact occupied_frameOf registered

theorem occupied_mixSource (k : Nat) (s : State) : occupied (mixSource k s).2 = occupied s := by
  rcases mixSource_cases k s with same | ⟨_, registered, -, -, starves⟩ | ⟨_, _, _, _, registered, -, -, mixes⟩
  · rw [same]
  · rw [starves]
    exact occupied_withSlot registered _
  · rw [mixes]
    exact occupied_withSlot registered _

theorem occupied_clock (hz : Nat) (s : State) : occupied (clock hz s).2 = occupied s := by
  by_cases zero : hz = 0
  · rw [clock, if_pos zero]
  · rw [clock_eq hz s zero]
    rfl

theorem occupied_configureRate (c : CoreId) (dst src : Nat) (s : State) :
    occupied (configureRate c dst src s).2 = occupied s := by
  unfold configureRate
  split <;> rfl

theorem iterateChange_occupied {c : CoreId} {s t : State} (h : IterateChange c s t) : occupied t = occupied s := by
  cases h with
  | pump _ _ pumped _ slots =>
    refine occupied_eq slots fun k => ?_
    cases registered : sourceAt s k with
    | none => rw [pumped.empty k registered]
    | some d =>
      obtain ⟨d', registered', -⟩ := pumped.source k d registered
      rw [registered']
      rfl
  | chips => rfl
  | chan => rfl

theorem occupied_iterateChanges {c : CoreId} {s t : State} (h : IterateChanges c s t) : occupied t = occupied s :=
  h.keeps (P := fun u => occupied u = occupied s) (fun _ _ change kept => (iterateChange_occupied change).trans kept) rfl

theorem occupied_filterUpdate (n : Nat) (s : State) : occupied (endState (filterUpdate n s)) = occupied s := by
  induction n generalizing s with
  | zero => rfl
  | succ n ih =>
    have ticks : occupied (endState (tickS s)) = occupied s := occupied_iterateChanges (iterateChanges_tick .S s)
    rw [filterUpdate]
    cases ends : tickS s with
    | raised f u => rwa [ends] at ticks
    | done a u =>
      rw [ends] at ticks
      exact (ih u).trans ticks

theorem occupied_write (c : CoreId) (ts addr : Nat) (val : Byte) (s : State) :
    occupied (endState (write c ts addr val s)) = occupied s := by
  simp only [write]
  split_ifs <;> rfl

theorem occupied_advance (c : CoreId) (h : Nat) (s : State) : occupied (endState (advance c h s)) = occupied s := by
  have iterates := occupied_iterateChanges (iterateChanges_iterate c h s)
  simp only [advance]
  split
  · split <;> rfl
  · split
    · cases ends : iterate c h s <;> rwa [ends] at iterates
    · split <;> rfl

theorem occupied_resumeOn (k : Nat) (s : State) : occupied (endState (resumeOn k s)) = occupied s := by
  unfold resumeOn
  split
  · rfl
  · rename_i d _
    have generates := occupied_iterateChanges (iterateChanges_generate d.core { s with holdS := none })
    cases ends : generate d.core { s with holdS := none } <;> rwa [ends] at generates

theorem occupied_mixerLoop (l : List MStep) (s : State) : occupied (endState (mixerLoop l s)) = occupied s := by
  induction l with
  | nil => rfl
  | cons m rest ih =>
    cases m with
    | iterate c =>
      rw [mixerLoop]
      split
      · exact ih
      · rename_i h _
        have iterates := occupied_iterateChanges (iterateChanges_iterate c h { s with mSeq := rest })
        unfold iteratePosted
        cases ends : iterate c h { s with mSeq := rest } <;> rwa [ends] at iterates
    | mix k => exact occupied_mixSource k { s with mSeq := rest }
    | emit => rfl

/-! ### Whole steps -/

section Steps

variable {s t : State} {body : State → Res (Option Reply)}

theorem occupied_runStep (h : runStep s body = .next t) (kept : occupied (endState (body s)) = occupied s) :
    occupied t = occupied s :=
  (runStep_keeps_part occupied (fun _ _ => rfl) (fun _ _ => rfl) h).trans kept

/-- A command of S that ends in a next state is a step of a running block. -/
theorem occupied_runCommandS (h : runCommandS s body = .next t) (kept : occupied (endState (body s)) = occupied s) :
    occupied t = occupied s := by
  have free := (runCommandS_next h).1
  rw [runCommandS_of_free free, ← runStep_of_running free.1] at h
  exact occupied_runStep h kept

theorem occupied_onCore {core : BitVec 2} {body : CoreId → State → Res (Option Reply)}
    (kept : ∀ c, occupied (endState (body c s)) = occupied s) :
    occupied (endState (onCore core s body)) = occupied s := by
  unfold onCore
  split
  · rfl
  · exact kept _

theorem occupied_runRegA {n : Fin 16} {v : Byte} (h : runRegA n v s = .next t) : occupied t = occupied s :=
  occupied_runStep h rfl

theorem occupied_runLatchB {r : BitVec 3} {d : BitVec 4} (h : runLatchB r d s = .next t) : occupied t = occupied s :=
  occupied_runStep h rfl

end Steps

theorem occupied_execResume {s t : State} (h : execResume s = .next t) : occupied t = occupied s := by
  unfold execResume at h
  split at h
  · exact occupied_runCommandS h rfl
  · split_ifs at h
    · exact occupied_runStep h (occupied_resumeOn _ s)
    · exact occupied_runCommandS h (occupied_resumeOn _ s)

/-- Every instruction but REGISTER and DEREGISTER keeps the occupied slots: the operation inside its step does. -/
theorem occupied_exec {i : Instr} {s t : State} (notRegister : ∀ core sync blocking ms, i ≠ .register core sync blocking ms)
    (notDeregister : ∀ k, i ≠ .deregister k) (h : exec i s = .next t) : occupied t = occupied s := by
  cases i with
  | register core sync blocking ms => exact absurd rfl (notRegister core sync blocking ms)
  | deregister k => exact absurd rfl (notDeregister k)
  | write core ts addr val =>
    simp only [exec, execWrite] at h
    exact occupied_runCommandS h (occupied_onCore fun c => occupied_write c _ _ _ s)
  | advance core hz =>
    simp only [exec, execAdvance] at h
    exact occupied_runCommandS h (occupied_onCore fun c => occupied_advance c _ s)
  | frame core =>
    simp only [exec, execFrame] at h
    exact occupied_runCommandS h (occupied_onCore fun c => occupied_frame c s)
  | clock hz =>
    simp only [exec, execClock] at h
    exact occupied_runCommandS h (occupied_clock _ s)
  | volume pct =>
    simp only [exec, execVolume] at h
    exact occupied_runCommandS h (by split <;> rfl)
  | mute on =>
    simp only [exec, execMute] at h
    exact occupied_runCommandS h rfl
  | update =>
    simp only [exec, execUpdate] at h
    exact occupied_runStep h rfl
  | resume => exact occupied_execResume h
  | putSample core level =>
    simp only [exec, execPutSample] at h
    refine occupied_runStep h (occupied_onCore fun c => ?_)
    have stores := occupied_iterateChanges (iterateChanges_putSample c level.toInt s)
    cases ends : putSample c level.toInt s <;> rwa [ends] at stores
  | configureRate core dst src =>
    simp only [exec, execConfigureRate] at h
    exact occupied_runStep h (occupied_onCore fun c => occupied_configureRate c _ _ s)
  | samplesAvailable core =>
    simp only [exec, execSamplesAvailable] at h
    exact occupied_runStep h (occupied_onCore fun c => rfl)
  | spaceRemaining core =>
    simp only [exec, execSpaceRemaining] at h
    exact occupied_runStep h (occupied_onCore fun c => rfl)
  | drain core =>
    simp only [exec, execDrain] at h
    exact occupied_runStep h (occupied_onCore fun c => rfl)
  | getWorkBuffer k =>
    simp only [exec, execGetWorkBuffer] at h
    exact occupied_runStep h (occupied_getWorkBuffer _ s)
  | putWorkBuffer k =>
    simp only [exec, execPutWorkBuffer] at h
    have queues := occupied_putWorkBuffer k.toNat s
    refine occupied_runStep h ?_
    cases ends : putWorkBuffer k.toNat s <;> rwa [ends] at queues
  | iterate core hz =>
    simp only [exec, execIterate] at h
    refine occupied_runStep h (occupied_onCore fun c => ?_)
    have iterates := occupied_iterateChanges (iterateChanges_iterate c hz.toNat s)
    cases ends : iterate c hz.toNat s <;> rwa [ends] at iterates
  | apply core addr val =>
    simp only [exec, execApply] at h
    refine occupied_runStep h (occupied_onCore fun c => ?_)
    split
    · exact occupied_iterateChanges (iterateChanges_applyTo c _ val s)
    · rfl
  | tick core =>
    simp only [exec, execTick] at h
    refine occupied_runStep h (occupied_onCore fun c => ?_)
    have ticks := occupied_iterateChanges (iterateChanges_tick c s)
    cases ends : tick c s <;> rwa [ends] at ticks
  | loadAddress addr =>
    simp only [exec, execLoadAddress] at h
    exact occupied_runStep h rfl
  | runMicro =>
    simp only [exec, execRunMicro] at h
    exact occupied_runStep h (by split <;> rfl)
  | filterUpdate n =>
    simp only [exec, execFilterUpdate] at h
    have ticks := occupied_filterUpdate n.toNat s
    refine occupied_runStep h ?_
    cases ends : filterUpdate n.toNat s <;> rwa [ends] at ticks
  | mixSource k =>
    simp only [exec, execMixSource] at h
    exact occupied_runStep h (occupied_mixSource _ s)
  | emit =>
    simp only [exec, execEmit] at h
    exact occupied_runStep h rfl
  | r0 v | r1 v | r2 v | r3 v | r4 v | r5 v | r6 v | r7 v | r8 v | r9 v | r10 v | r11 v | r12 v | r13 v | r14 v | r15 v =>
    exact occupied_runRegA h
  | latch0 d | latch1 d | latch2 d | latch3 d | latch4 d | latch5 d | latch6 d | latch7 d => exact occupied_runLatchB h
  | data d =>
    simp only [exec, execData] at h
    exact occupied_runStep h rfl
  | load addr =>
    simp only [exec, execLoad] at h
    exact occupied_runStep h rfl
  | micro =>
    simp only [exec, execMicro] at h
    exact occupied_runStep h (by split <;> rfl)

/-- Settles O39: by `occupied_exec` for the instructions, by `occupied_mixerLoop` for the steps of an UPDATE. -/
theorem slotsChangeAtRegistrationOnly : Obligations.SlotsChangeAtRegistrationOnly :=
  ⟨fun _ _ _ => occupied_exec, fun s _ h => occupied_runStep h (occupied_mixerLoop s.mSeq s)⟩

end Sys2Proof.Proofs.OccupiedSlots
end

section
/-! A recorded fault ends the run (60_exceptions.md R550, R572): no step follows one, and the step that raises it returns
nothing to its issuer and delivers no block. -/

namespace Sys2Proof.Proofs.RecordedFault

open Sys2Proof.Machine Sys2Proof.Laws Sys2Proof.Safety Sys2Proof.Proofs.IterateParts Sys2Proof.Proofs.PoolCommands
open Sys2Proof.Proofs.NextStep

/-! ### What an operation leaves of the record -/

/-- The recorded fault, the replies and the delivered blocks: what a raise or the end of a step writes. -/
def record (s : State) : Option Fault × List Reply × List (List Byte) := (s.fault, s.replies, s.out)

theorem record_iterateChanges {c : CoreId} {s t : State} (h : IterateChanges c s t) : record t = record s := by
  rw [iterateChanges_form h]
  rfl

theorem record_filterUpdate (n : Nat) (s : State) : record (endState (filterUpdate n s)) = record s := by
  induction n generalizing s with
  | zero => rfl
  | succ n ih =>
    have ticks : record (endState (tickS s)) = record s := record_iterateChanges (iterateChanges_tick .S s)
    rw [filterUpdate]
    cases ends : tickS s with
    | raised f u => rwa [ends] at ticks
    | done a u =>
      rw [ends] at ticks
      exact (ih u).trans ticks

theorem record_getWorkBuffer (k : Nat) (s : State) : record (getWorkBuffer k s).2 = record s := by
  rcases getWorkBuffer_cases k s with ⟨same, -⟩ | ⟨_, -, -, -, -, -, holds⟩ | ⟨_, _, _, -, -, -, takes⟩
  · rw [same]
  · rw [holds]
    rfl
  · rw [takes]
    rfl

theorem record_putWorkBuffer (k : Nat) (s : State) : record (endState (putWorkBuffer k s)) = record s := by
  unfold putWorkBuffer
  split
  · rfl
  · split <;> rfl

theorem record_frame (c : CoreId) (s : State) : record (endState (frame c s)) = record s := by
  by_cases other : (chanOf s c).attached = false ∨ syncOf s c = false
  · rw [frame_ignored other, endState]
  · obtain ⟨attached, sync⟩ := not_or.1 other
    obtain ⟨k, d, handle, registered, sync⟩ := syncOf_eq_true.1 (Bool.eq_true_of_not_eq_false sync)
    rw [frame_of_sync registered (Bool.eq_true_of_not_eq_false attached) handle sync]
    by_cases codes : ∃ b, hasCodes d b
    · obtain ⟨b, codes⟩ := codes
      rw [frameOf_queues registered codes]
      rfl
    · rw [frameOf_clears registered (not_exists.1 codes)]
      rfl

theorem record_attachedState (s : State) (c : CoreId) : record (attachedState s c) = record s := by
  unfold attachedState
  split
  · rfl
  · cases c <;> rfl

theorem record_register (c : CoreId) (sync blocking : Bool) (ms : Nat) (s : State) :
    record (register c sync blocking ms s).2 = record s := by
  rcases register_cases c sync blocking ms s with ⟨-, ignored⟩ | ⟨-, -, full⟩ | ⟨_, -, -, -, -, joins⟩
  · rw [ignored]
  · rw [full]
  · rw [joins]
    exact record_attachedState s c

theorem record_deregister (k : Nat) (s : State) : record (deregister k s).2 = record s := by
  unfold deregister
  split <;> rfl

theorem record_clock (hz : Nat) (s : State) : record (clock hz s).2 = record s := by
  by_cases zero : hz = 0
  · rw [clock, if_pos zero]
  · rw [clock_eq hz s zero]
    rfl

theorem record_configureRate (c : CoreId) (dst src : Nat) (s : State) :
    record (configureRate c dst src s).2 = record s := by
  unfold configureRate
  split <;> rfl

theorem record_mixSource (k : Nat) (s : State) : record (mixSource k s).2 = record s := by
  rcases mixSource_cases k s with same | ⟨_, -, -, -, starves⟩ | ⟨_, _, _, _, -, -, -, mixes⟩
  · rw [same]
  · rw [starves]
    rfl
  · rw [mixes]
    rfl

theorem record_write (c : CoreId) (ts addr : Nat) (val : Byte) (s : State) :
    record (endState (write c ts addr val s)) = record s := by
  simp only [write]
  split_ifs <;> rfl

theorem record_advance (c : CoreId) (h : Nat) (s : State) : record (endState (advance c h s)) = record s := by
  have iterates := record_iterateChanges (iterateChanges_iterate c h s)
  simp only [advance]
  split
  · split <;> rfl
  · split
    · cases ends : iterate c h s <;> rwa [ends] at iterates
    · split <;> rfl

theorem record_resumeOn (k : Nat) (s : State) : record (endState (resumeOn k s)) = record s := by
  unfold resumeOn
  split
  · rfl
  · rename_i d _
    have generates := record_iterateChanges (iterateChanges_generate d.core { s with holdS := none })
    cases ends : generate d.core { s with holdS := none } <;> rwa [ends] at generates

/-! ### Operations that leave the reply and the delivery to a step without a fault -/

/-- An operation records no fault itself, and at a raise it has returned and delivered nothing (R550). -/
def Orderly {α : Type} (s : State) : Res α → Prop
  | .done _ u => u.fault = s.fault
  | .raised _ u => u.replies = s.replies ∧ u.out = s.out

theorem orderly_of_record {α : Type} {s : State} {r : Res α} (kept : record (endState r) = record s) : Orderly s r := by
  obtain ⟨fault, replies, out⟩ : _ ∧ _ ∧ _ := by simpa [record] using kept
  cases r with
  | done a u => exact fault
  | raised f u => exact ⟨replies, out⟩

/-- An operation that runs another and makes a reply of its value. -/
theorem orderly_of_endState {α β : Type} {s : State} {r : Res α} {r' : Res β} (kept : record (endState r) = record s)
    (ends : endState r' = endState r) : Orderly s r' :=
  orderly_of_record (ends ▸ kept)

theorem orderly_onCore {core : BitVec 2} {s : State} {body : CoreId → State → Res (Option Reply)}
    (orderly : ∀ c, Orderly s (body c s)) : Orderly s (onCore core s body) := by
  unfold onCore
  split
  · rfl
  · exact orderly _

/-- EMIT delivers, but does not raise; an ITERATE may raise, but has delivered nothing; the other steps do neither. -/
theorem orderly_mixerLoop (l : List MStep) (s : State) : Orderly s (mixerLoop l s) := by
  induction l with
  | nil => rfl
  | cons m rest ih =>
    cases m with
    | iterate c =>
      rw [mixerLoop]
      split
      · exact ih
      · rename_i h _
        have changes := iterateChanges_iterate c h { s with mSeq := rest }
        have iterates : Orderly { s with mSeq := rest } (iterate c h { s with mSeq := rest }) :=
          orderly_of_record (record_iterateChanges changes)
        unfold iteratePosted
        cases ends : iterate c h { s with mSeq := rest } <;> rwa [ends] at iterates
    | mix k =>
      rw [mixerLoop]
      exact orderly_of_record (record_mixSource k { s with mSeq := rest })
    | emit => rfl

/-! ### Steps -/

/-- How every outcome of an instruction or a mixer step comes about: an orderly operation, as a step or as a command of
agent S. -/
inductive Issued (s : State) : Host.Outcome State Fault Refusal → Prop where
  | step {body : State → Res (Option Reply)} (orderly : Orderly s (body s)) : Issued s (runStep s body)
  | command {body : State → Res (Option Reply)} (orderly : Orderly s (body s)) : Issued s (runCommandS s body)

theorem Issued.of_fault {s : State} {o : Host.Outcome State Fault Refusal} {f : Fault} (issued : Issued s o)
    (recorded : s.fault = some f) : o = .fault f := by
  cases issued with
  | step => exact runStep_of_fault recorded _
  | command => exact runCommandS_of_fault recorded _

/-- The end of an orderly operation that leaves a fault recorded was a raise. -/
theorem Orderly.silent {s t : State} {r : Res (Option Reply)} (orderly : Orderly s r) (running : s.fault = none)
    (ends : settle r = .next t) (faulted : t.fault ≠ none) : t.replies = s.replies ∧ t.out = s.out := by
  cases r with
  | done v u =>
    cases ends
    have kept : u.fault = s.fault := orderly
    have unrecorded : (returned v u).fault = u.fault := by cases v <;> rfl
    exact absurd (unrecorded.trans (kept.trans running)) faulted
  | raised f u =>
    cases ends
    exact orderly

theorem Issued.silent {s t : State} {o : Host.Outcome State Fault Refusal} (issued : Issued s o) (next : o = .next t)
    (faulted : t.fault ≠ none) : t.replies = s.replies ∧ t.out = s.out := by
  cases issued with
  | step orderly =>
    have running := (runStep_next next).1
    rw [runStep_of_running running] at next
    exact orderly.silent running next faulted
  | command orderly =>
    have free := (runCommandS_next next).1
    rw [runCommandS_of_free free] at next
    exact orderly.silent free.1 next faulted

/-- A register row does not raise. -/
theorem issued_runRegA (n : Fin 16) (val : Byte) (s : State) : Issued s (runRegA n val s) := .step rfl

theorem issued_runLatchB (r : BitVec 3) (d : BitVec 4) (s : State) : Issued s (runLatchB r d s) := .step rfl

theorem issued_execResume (s : State) : Issued s (execResume s) := by
  unfold execResume
  split
  · exact .command rfl
  · split
    · exact .step (orderly_of_record (record_resumeOn _ s))
    · exact .command (orderly_of_record (record_resumeOn _ s))

theorem issued_exec (i : Instr) (s : State) : Issued s (exec i s) := by
  unfold exec
  cases i with
  | write core ts addr val =>
    exact .command (orderly_onCore fun c => orderly_of_record (record_write c ts.toNat addr.toNat val s))
  | advance core h => exact .command (orderly_onCore fun c => orderly_of_record (record_advance c h.toNat s))
  | frame core => exact .command (orderly_onCore fun c => orderly_of_record (record_frame c s))
  | clock hz => exact .command (orderly_of_record (record_clock hz.toNat s))
  | register core sync blocking ms =>
    exact .command (orderly_onCore fun c => orderly_of_record (record_register c sync blocking ms.toNat s))
  | deregister handle => exact .command (orderly_of_record (record_deregister handle.toNat s))
  | volume pct => exact .command (orderly_of_record (by split <;> rfl))
  | mute on => exact .command rfl
  | update => exact .step rfl
  | resume => exact issued_execResume s
  | putSample core level =>
    exact .step (orderly_onCore fun c =>
      orderly_of_endState (record_iterateChanges (iterateChanges_putSample c level.toInt s))
        (by cases putSample c level.toInt s <;> rfl))
  | configureRate core dst src =>
    exact .step (orderly_onCore fun c => orderly_of_record (record_configureRate c dst.toNat src.toNat s))
  | samplesAvailable core => exact .step (orderly_onCore fun c => rfl)
  | spaceRemaining core => exact .step (orderly_onCore fun c => rfl)
  | drain core => exact .step (orderly_onCore fun c => rfl)
  | getWorkBuffer handle => exact .step (orderly_of_record (record_getWorkBuffer handle.toNat s))
  | putWorkBuffer handle =>
    exact .step (orderly_of_endState (record_putWorkBuffer handle.toNat s)
      (by cases putWorkBuffer handle.toNat s <;> rfl))
  | iterate core h =>
    exact .step (orderly_onCore fun c =>
      orderly_of_endState (record_iterateChanges (iterateChanges_iterate c h.toNat s))
        (by cases iterate c h.toNat s <;> rfl))
  | apply core addr val =>
    refine .step (orderly_onCore fun c => ?_)
    split
    · exact orderly_of_record (record_iterateChanges (iterateChanges_applyTo c addr.toNat val s))
    · rfl
  | tick core =>
    exact .step (orderly_onCore fun c =>
      orderly_of_endState (record_iterateChanges (iterateChanges_tick c s)) (by cases tick c s <;> rfl))
  | loadAddress addr => exact .step rfl
  | runMicro => exact .step (orderly_of_record (by split <;> rfl))
  | filterUpdate n =>
    exact .step (orderly_of_endState (record_filterUpdate n.toNat s) (by cases filterUpdate n.toNat s <;> rfl))
  | mixSource handle => exact .step (orderly_of_record (record_mixSource handle.toNat s))
  | emit => exact .step rfl
  | r0 v | r1 v | r2 v | r3 v | r4 v | r5 v | r6 v | r7 v | r8 v | r9 v | r10 v | r11 v | r12 v | r13 v | r14 v | r15 v =>
    exact issued_runRegA _ v s
  | latch0 d | latch1 d | latch2 d | latch3 d | latch4 d | latch5 d | latch6 d | latch7 d => exact issued_runLatchB _ d s
  | data d => exact .step rfl
  | load addr => exact .step rfl
  | micro => exact .step (orderly_of_record (by split <;> rfl))

theorem issued_mixerStep (s : State) : Issued s (mixerStep s) := .step (orderly_mixerLoop s.mSeq s)

/-- A step of the block is a mixer step or an instruction, on the state with some issues taken from the feed. -/
theorem step_next {s t : State} (h : step s = .next t) :
    ∃ l, mixerStep { s with feed := l } = .next t ∨ ∃ i, exec i { s with feed := l } = .next t := by
  rcases Option.eq_none_or_eq_some s.fault with running | ⟨f, recorded⟩
  · cases issued : s.feed with
    | nil =>
      by_cases idle : s.mSeq = []
      · rw [step_of_idle running issued idle] at h
        cases h
      · rw [step_of_underway running issued idle] at h
        exact ⟨s.feed, .inl h⟩
    | cons e rest =>
      by_cases turn : s.mSeq = [] ∨ e.mFirst = 0
      · cases decodes : decode e.enc with
        | instr i =>
          rw [step_of_command running issued turn decodes] at h
          exact ⟨rest, .inr ⟨i, h⟩⟩
        | reject why =>
          rw [step_of_noCommand running issued turn decodes] at h
          cases h
      · obtain ⟨underway, waits⟩ := not_or.1 turn
        rw [step_of_waiting running issued underway (Nat.pos_of_ne_zero waits)] at h
        exact ⟨_, .inl h⟩
  · rw [step_of_fault recorded] at h
    cases h

/-- Settles O14: every step is one of `Issued`, which answers a recorded fault, and is silent when it records one. -/
theorem faultEndsTheRun : Obligations.FaultEndsTheRun := by
  refine ⟨fun s f i => (issued_exec i s).of_fault, fun s f => (issued_mixerStep s).of_fault,
    fun s t i => (issued_exec i s).silent, fun s t => (issued_mixerStep s).silent, fun s t next => ?_⟩
  obtain ⟨l, next | ⟨i, next⟩⟩ := step_next next
  · exact (issued_mixerStep { s with feed := l }).silent next
  · exact (issued_exec i { s with feed := l }).silent next

end Sys2Proof.Proofs.RecordedFault
end

section
/-! The ignored commands (60_exceptions.md R566) and the unused bits of a written register. -/

namespace Sys2Proof.Proofs.IgnoredCommands

open Sys2Proof.Machine Sys2Proof.Laws Sys2Proof.Safety Sys2Proof.Proofs.QueueCommands Sys2Proof.Proofs.PoolCommands
open Sys2Proof.Proofs.RegistryCommands Sys2Proof.Proofs.MixerCommands Sys2Proof.Proofs.SpeechGeneration
open Sys2Proof.Proofs.RegisterWritesA Sys2Proof.Proofs.RegisterWritesB Sys2Proof.Proofs.ApplyDispatch

/-! ### Commands -/

theorem exec_write_ignored {s : State} (free : Free s) {c : CoreId} (ts : BitVec 64) {addr : Byte} (val : Byte)
    (refused : (chanOf s c).attached = false ∨ ¬ AddressValid c addr) :
    exec (.write (coreField c) ts addr val) s = .next (answer .ignored .none s) := by
  rw [addressValid_iff, Bool.not_eq_true] at refused
  rw [exec_write free, write_ignored refused, settle_statusOnly]

theorem exec_frame_ignored {s : State} (free : Free s) {c : CoreId}
    (other : (chanOf s c).attached = false ∨ syncOf s c = false) :
    exec (.frame (coreField c)) s = .next (answer .ignored .none s) := by
  rw [exec_frame free, frame_ignored other, settle_statusOnly]

/-! ### Unused bits -/

/-- A bit outside a register's mask is not stored (R250), and the restart of the envelope reads the stored register. -/
theorem writeRegA_masked (a : PsgA) (n : Fin 16) (val : Byte) : writeRegA a n (val &&& maskA n) = writeRegA a n val := by
  rw [writeRegA, writeRegA, BitVec.and_assoc, BitVec.and_self]

/-- Bit 3 of a latch byte of the noise control register is not stored (R306). -/
theorem latchB_noise_masked (cfg : Config) (b : PsgB) (d : BitVec 4) : latchB cfg b 6 (d &&& 7) = latchB cfg b 6 d := by
  have noise (v : BitVec 4) : latchB cfg b 6 v = writeNoiseB cfg { b with latch := 6 } (v.extractLsb' 0 3) := rfl
  rw [noise, noise, noiseControl_eq, noiseControl_eq, BitVec.and_assoc, BitVec.and_self]

theorem exec_latch6 {s : State} (running : Running s) (d : BitVec 4) :
    exec (.latch6 d) s = .next { s with psgB := latchB s.cfg s.psgB 6 d } :=
  exec_latchRow running 6 d

/-- Bit 6 of a data byte is not stored (R143, R302). -/
theorem writeByteB_masked (cfg : Config) (b : PsgB) {val : Byte} (data : val.getLsbD 7 = false) :
    writeByteB cfg b (val &&& 0x3F) = writeByteB cfg b val := by
  have data' : (val &&& 0x3F).getLsbD 7 = false := by rw [BitVec.getLsbD_and, data, Bool.false_and]
  have mask : (0x3F : Byte).extractLsb' 0 6 = BitVec.allOnes 6 := rfl
  rw [writeByteB_data cfg b data', writeByteB_data cfg b data, BitVec.extractLsb'_and, mask, BitVec.and_allOnes]

/-- Settles O17: each command by the lemma for its ignored case, each register write by what its mask drops. -/
theorem ignoredCommandsChangeNothing : Obligations.IgnoredCommandsChangeNothing := by
  intro s free
  have running : Running s := free.1
  refine ⟨exec_write_noCore free, fun c ts addr val invalid => exec_write_ignored free ts val (.inr invalid),
    fun c ts addr val detached => exec_write_ignored free ts val (.inl detached), exec_advance_noCore free,
    exec_frame_noCore free, fun c detached => exec_frame_ignored free (.inl detached),
    fun c async => exec_frame_ignored free (.inr async), exec_register_noCore free,
    fun c sync blocking ms single => exec_register free (register_ignored sync blocking ms.toNat single),
    fun handle empty => exec_deregister free (deregister_ignored empty), fun pct above => ?volume,
    exec_resume_free free, fun n val => ?areg, fun d => ?noise, fun val data => ?data⟩
  case volume => rw [exec_volume free, if_pos above]
  case areg => rw [exec_aregRow running, exec_aregRow running, writeRegA_masked]
  case noise => rw [exec_latch6 running, exec_latch6 running, latchB_noise_masked]
  case data => rw [exec_applyB running, exec_applyB running, writeByteB_masked _ _ data]

end Sys2Proof.Proofs.IgnoredCommands
end

section
/-! The state after reset (70_reset_and_hazards.md R600, R601): its registers, its converters, and that it is legal. -/

namespace Sys2Proof.Proofs.ResetState

open Sys2Proof.Machine Sys2Proof.Laws Sys2Proof.Safety Sys2Proof.Proofs.ConfigurationRanges
open Sys2Proof.Proofs.ChannelRanges Sys2Proof.Proofs.PsgARanges Sys2Proof.Proofs.PsgBRanges
open Sys2Proof.Proofs.RegisterWritesB Sys2Proof.Proofs.RingCommands Sys2Proof.Proofs.RegistryCommands
open Sys2Proof.Proofs.RegistryLegality

/-! ### Registers -/

theorem tri_get_const {α : Type} (v : α) (ch : Fin 3) : (⟨v, v, v⟩ : Tri α).get ch = v := by
  fin_cases ch <;> rfl

theorem quad_get_const {α : Type} (v : α) (ch : Fin 4) : (⟨v, v, v, v⟩ : Quad α).get ch = v := by
  fin_cases ch <;> rfl

theorem bank16_get_const {α : Type} (v : α) (n : Fin 16) : (Bank16.const v).get n = v := by
  fin_cases n <;> rfl

/-- The seed is not cut off by the sixteen bits of the register it is held in (R51). -/
theorem seedB_toNat_of_width {cfg : Config} (pos : 1 ≤ cfg.snLfsrWidth) (fits : cfg.snLfsrWidth ≤ 16) :
    (seedB cfg).toNat = 2 ^ (cfg.snLfsrWidth - 1) := by
  have narrow : 2 ^ (cfg.snLfsrWidth - 1) < 2 ^ 16 := Nat.pow_lt_pow_right (by decide) (by omega)
  rw [seedB_eq_ofNat, BitVec.toNat_ofNat, Nat.mod_eq_of_lt narrow]

/-- Settles O1: a channel's fields by `chanOf_resetOf`, the banks by their one value, core B's seed by its width. -/
theorem resetGivesTheResetValues : Obligations.ResetGivesTheResetValues := by
  intro cfg
  refine ⟨rfl, rfl, rfl, rfl, rfl, rfl, rfl, rfl, fun c => ⟨_, chanOf_resetOf cfg c, ?channel⟩, ⟨_, rfl, ?psgA⟩,
    ⟨_, rfl, ?psgB⟩, ⟨_, rfl, ?speech⟩, rfl⟩
  case channel => exact ⟨rfl, rfl, rfl, rfl, rfl, rfl, rfl, rfl, rfl, rfl, rfl, rfl, rfl, rfl⟩
  case psgA =>
    exact ⟨bank16_get_const 0, fun ch => ⟨tri_get_const 1 ch, tri_get_const false ch⟩, rfl, rfl, rfl, rfl, rfl, rfl⟩
  case psgB =>
    exact ⟨fun ch => ⟨tri_get_const 0 ch, tri_get_const 1 ch, tri_get_const false ch⟩, quad_get_const 15, rfl, rfl, rfl,
      rfl, seedB_toNat_of_width⟩
  case speech => exact ⟨rfl, rfl, rfl, rfl, rfl, rfl, rfl, rfl, rfl, rfl, rfl, rfl, rfl, rfl, rfl⟩

/-! ### Converters -/

theorem resetOf_handle (cfg : Config) (c : CoreId) : (chanOf (State.resetOf cfg) c).handle = none := by
  rw [chanOf_resetOf]
  rfl

/-- No core has a source at reset, so each is asynchronous (R601). -/
theorem syncOf_resetOf (cfg : Config) (c : CoreId) : syncOf (State.resetOf cfg) c = false := by
  simp only [syncOf, sourceOf, resetOf_handle]

/-- The converter's rates at reset have a ratio when neither of them is zero (R212). -/
theorem reducedRatio_resetRatio {cfg : Config} {c : CoreId} (dst : 0 < cfg.dstRate) (chip : 0 < chipClock cfg c) :
    reducedRatio (cfg.dstRate * tickDivider c) (chipClock cfg c) =
      some ((resetRatio cfg c).1, (resetRatio cfg c).2) := by
  rw [resetRatio, reducedRatio_eq_some (Nat.mul_pos dst (tickDivider_pos c)).ne' chip.ne', Option.getD_some]

/-- CONFIGURE_RATE with the rates of R601 finds the converter as it sets it. -/
theorem configureRate_resetOf {cfg : Config} {c : CoreId} (dst : 0 < cfg.dstRate) (chip : 0 < chipClock cfg c) :
    configureRate c (cfg.dstRate * tickDivider c) (chipClock cfg c) (State.resetOf cfg) = (.ok, State.resetOf cfg) := by
  have set : withRatio (chanOf (State.resetOf cfg) c) (resetRatio cfg c).1 (resetRatio cfg c).2 =
      chanOf (State.resetOf cfg) c := by
    rw [chanOf_resetOf]
    rfl
  rw [configureRate_accepted c _ (reducedRatio_resetRatio dst chip), set, withChan_chanOf]

/-- Core A's ratio of the vector rates: `22050 * 16 / 2000000` in lowest terms (R601). -/
theorem resetRatio_A_of_rates {cfg : Config} (dst : cfg.dstRate = 22050) (chip : cfg.chipHzA = 2000000) :
    resetRatio cfg .A = (441, 2500) := by
  rw [resetRatio, chipClock, tickDivider, dst, chip]
  decide

/-- Settles O2: the reset ratio is that of the rates, in lowest terms by `reducedRatio_lowest`. -/
theorem resetSetsTheConverters : Obligations.ResetSetsTheConverters := by
  refine ⟨fun cfg c dst chip => ?_, fun cfg dst chip => ?_⟩
  · obtain ⟨-, -, -, num, den⟩ := reducedRatio_lowest (reducedRatio_resetRatio dst chip)
    refine ⟨_, _, rfl, rfl, syncOf_resetOf cfg c, ?_⟩
    rw [configureRate_resetOf dst chip, chanOf_resetOf]
    exact ⟨num, den, rfl, rfl, rfl, rfl⟩
  · have ratio := resetRatio_A_of_rates dst chip
    rw [chanOf_resetOf]
    exact ⟨congrArg Prod.fst ratio, congrArg Prod.snd ratio⟩

/-! ### Legality -/

theorem resetOf_sourceAt_ne_some {cfg : Config} {k : Nat} {d : Source} : sourceAt (State.resetOf cfg) k ≠ some d := by
  rw [reset_sourceAt]
  nofun

theorem resetOf_memoryCanonical (cfg : Config) : MemoryCanonical (State.resetOf cfg) :=
  ⟨reset_memory_wf cfg, fun _ _ registered => absurd registered resetOf_sourceAt_ne_some⟩

theorem cpuHz0_pos_of_wf {cfg : Config} (wf : cfg.wf = true) : 0 < cfg.cpuHz0 := by
  simp only [Config.wf, Bool.and_eq_true, decide_eq_true_eq] at wf
  tauto

theorem initVolume_le_of_wf {cfg : Config} (wf : cfg.wf = true) : cfg.initVolume ≤ 100 := by
  simp only [Config.wf, Bool.and_eq_true, decide_eq_true_eq] at wf
  tauto

theorem resetOf_rangesLegal {cfg : Config} (wf : cfg.wf = true) : RangesLegal (State.resetOf cfg) := by
  have ranges := configRanges_of_wf wf
  refine ⟨wf, cpuHz0_pos_of_wf wf, initVolume_le_of_wf wf, List.length_replicate, List.length_replicate, fun c => ?_,
    psgALegal_reset, psgBLegal_reset ranges⟩
  rw [chanOf_resetOf]
  exact channelLegal_reset ranges c

/-- No source is registered, so no handle, slot or hold names one; every tick fraction is 0, and a tick takes some
cycles. -/
theorem resetOf_registryLegal {cfg : Config} (wf : cfg.wf = true) : RegistryLegal (State.resetOf cfg) := by
  have cpuHz := cpuHz0_pos_of_wf wf
  refine registryLegal_iff.2 ⟨wf, cpuHz, fun _ _ registered => absurd registered resetOf_sourceAt_ne_some,
    fun c k handle => ?handles, fun _ _ registered => absurd registered resetOf_sourceAt_ne_some, holdLegal_of_free rfl,
    fun c _ => ?fractions⟩
  case handles =>
    rw [resetOf_handle] at handle
    exact nomatch handle
  case fractions =>
    rw [chanOf_resetOf]
    exact Nat.mul_pos cpuHz (ConfigRanges.tickDen_pos (s := State.resetOf cfg) (configRanges_of_wf wf) c)

theorem resetOf_decayBounded (cfg : Config) : DecayBounded (State.resetOf cfg) := by
  intro c
  rw [chanOf_resetOf]
  change |(0 : Int)| ≤ 2 ^ 31
  decide

/-- Settles O8, one lemma for each part of the invariant. -/
theorem resetIsLegal : Obligations.ResetIsLegal :=
  ⟨resetOf_memoryCanonical, fun _ => resetOf_rangesLegal, fun _ => resetOf_registryLegal, resetOf_decayBounded⟩

end Sys2Proof.Proofs.ResetState
end
